-- ==== Sys2Proof/Word.lean ====
section
/-! DEFINITION. The word types of the JP-308's frames (spec/01_the_copy_bus.md) and the type of its timers. -/
namespace Sys2Proof

/-- One byte of a frame or of a stick. -/
abbrev Byte := BitVec 8

/-- A two-byte field: job numbers, counts, lengths. -/
abbrev Word16 := BitVec 16

/-- A four-byte field: segment indices in frames, checks, digests. -/
abbrev Word32 := BitVec 32

/-- A timer: `none` is stopped, `some span` is running toward an expiry that far after its last start, in nanoseconds.
The time already elapsed is not held, and the expiry is a command of its own (log entry 3). -/
abbrev Timer := Option Nat

end Sys2Proof
end

