-- ==== Sys2Proof/Syntax.lean ====
section
/-! DEFINITION. The bodies of the six frame kinds (R4 to R10) and the 54 commands of spec/opcode_table.json. -/
namespace Sys2Proof

/-- A BEACON body (R8). The reserved bits, which a receiver ignores, are not held. -/
structure BeaconBody where
  modeBits : BitVec 2
  refusal : BitVec 3
  jobState : BitVec 3
  source : Bool
  settled : Bool
  enrollClosed : Bool
  digest : Word32
  base : Word32
  lowMark : Word32
  giveUps : Word16
  badFrames : Word16
  /-- One byte for each socket, socket 0 first. -/
  codes : List Byte
  deriving DecidableEq, Repr

/-- One 25-byte patch entry of a JOB body (R9). -/
structure PatchEntry where
  number : Byte
  kind : Byte
  seg : Word32
  offset : Word16
  len : Byte
  /-- The 16 value bytes. -/
  value : List Byte
  deriving DecidableEq, Repr

/-- A JOB body (R9). -/
structure JobBody where
  imageSize : Word32
  srcStation : Byte
  srcSocket : Byte
  policy : Byte
  lagThreshold : Byte
  lagDuration : Byte
  latch : Byte
  needThreshold : Byte
  lossDuration : Byte
  verify : Byte
  enrollClosed : Byte
  serialBase : Word32
  patches : List PatchEntry
  digest : Word32
  deriving DecidableEq, Repr

/-- A PARCEL body (R5). The parcel number has passed the acceptance test of R12. -/
structure ParcelBody where
  seg : Word32
  parcel : Fin 8
  isRepair : Bool
  isRecall : Bool
  isFinal : Bool
  base : Word32
  check : Word32
  /-- 4,096 bytes; a missing byte is read as 0 (log entry 29). -/
  payload : List Byte
  deriving DecidableEq, Repr

/-- The commands of the block, one for each row of spec/opcode_table.json, in its order. Each is one whole step of the
station. The table gives no operands: they are what the step takes from outside. -/
inductive Instr where
  /-- POWER_ON_RESET (R26): supply is applied. -/
  | powerOnReset
  /-- MEMORY_TEST_END (R26): the outcome of the memory test and the straps SID4 to SID0 as read. -/
  | memoryTestEnd (pass : Bool) (straps : BitVec 5)
  /-- RESETN (R27): a pulse of the pin, and the straps as read. -/
  | resetn (straps : BitVec 5)
  /-- LISTENING_TIMER_EXPIRY (R29). -/
  | listeningTimerExpiry
  /-- BEACON_TIMER_EXPIRY (R34). -/
  | beaconTimerExpiry
  /-- RECEPTION_COMPLETE (R12): an END symbol closes a reception with the stored bytes; whether the reception overlapped
  the port's own attempt (R14). -/
  | receptionComplete (bytes : List Byte) (overlapsOwn : Bool)
  /-- RECEPTION_BROKEN (R11): a reception is closed as broken after so many stored bytes. -/
  | receptionBroken (stored : Nat) (overlapsOwn : Bool)
  /-- RECEPTION_OVERLONG (R11): a 4,121st byte arrives. -/
  | receptionOverlong (overlapsOwn : Bool)
  /-- BEACON_ARRIVAL (R31, R38): header and body of an accepted BEACON; whether the window takes the roster's report
  before the job controller does (log entry 6). -/
  | beaconArrival (sender : Byte) (job : Word16) (body : BeaconBody) (windowFirst : Bool)
  /-- SILENCE_TIMER_EXPIRY (R39): of the entry of one station. -/
  | silenceTimerExpiry (station : Fin 32) (windowFirst : Bool)
  /-- JOB_ARRIVAL (R43): header and body of an accepted JOB. -/
  | jobArrival (sender : Byte) (job : Word16) (body : JobBody)
  /-- CANCEL_ARRIVAL (R51): header and reason of an accepted CANCEL. -/
  | cancelArrival (sender : Byte) (job : Word16) (reason : Byte)
  /-- CANCEL_REPEAT_EXPIRY (R52). -/
  | cancelRepeatExpiry
  /-- JOB_REPEAT_TIMER_EXPIRY (R47). -/
  | jobRepeatTimerExpiry
  /-- SETTLE_TIMER_EXPIRY (R46). -/
  | settleTimerExpiry
  /-- ORPHAN_TIMER_EXPIRY (R57, R59). -/
  | orphanTimerExpiry
  /-- TRANSMITTER_TAKE (R16). -/
  | transmitterTake
  /-- INTER_FRAME_GAP_COMPLETE (R17). -/
  | interFrameGapComplete
  /-- FRAME_SENT (R18). -/
  | frameSent
  /-- COLLISION (R19, R21): at a byte position, START being position 0. -/
  | collision (position : Nat)
  /-- JAM_END (R19, R20): with the random number the backoff is drawn from (log entry 5). -/
  | jamEnd (draw : Nat)
  /-- BACKOFF_END (R20). -/
  | backoffEnd
  /-- HOLD_LINE_CHANGE (R2): the new level of the line. -/
  | holdLineChange (asserted : Bool)
  /-- SEGMENT_OPEN (R70): whether the segment-time end is taken before the ring reports of the same step (R125). -/
  | segmentOpen (endFirst : Bool)
  /-- READ_AHEAD_READ (R68). -/
  | readAheadRead
  /-- READ_SEGMENT_COMPLETE (R148, R69, R180): good with the 32,768 bytes, or error. -/
  | readSegmentComplete (socket : Fin 8) (data : Option (List Byte))
  /-- PARCEL_ARRIVAL_WINDOW (R72 to R75, R81): header and body of an accepted PARCEL; `endFirst` as for SEGMENT_OPEN. -/
  | parcelArrivalWindow (sender : Byte) (job : Word16) (body : ParcelBody) (endFirst : Bool)
  /-- GAP_TIMER_EXPIRY (R76): of one window slot. -/
  | gapTimerExpiry (slot : Fin 16)
  /-- RECALL_SLOT_TIMER_EXPIRY (R82): of one recall slot. -/
  | recallSlotTimerExpiry (slot : Fin 2)
  /-- PARCEL_ARRIVAL_REPAIR (R99): header and body of an accepted PARCEL, at the repair unit. -/
  | parcelArrivalRepair (sender : Byte) (job : Word16) (body : ParcelBody)
  /-- NEED_ARRIVAL (R95, R98): header, segment index and parcel mask of an accepted NEED. -/
  | needArrival (sender : Byte) (job : Word16) (seg : Word32) (mask : Byte)
  /-- NEED_DELAY_EXPIRY (R91): of the entry for one segment. -/
  | needDelayExpiry (seg : Nat)
  /-- NEED_RETRY_EXPIRY (R92): of the entry for one segment. -/
  | needRetryExpiry (seg : Nat)
  /-- SUPPRESSION_EXPIRY (R96): of the entry for one segment. -/
  | suppressionExpiry (seg : Nat)
  /-- ANSWER_DELAY_EXPIRY (R100): of the answer entry for one segment. -/
  | answerDelayExpiry (seg : Nat)
  /-- DESCRIPTOR_TAKE (R109). -/
  | descriptorTake (socket : Fin 8)
  /-- WRITE_SEGMENT_COMPLETE (R145, R143): good or error. -/
  | writeSegmentComplete (socket : Fin 8) (good : Bool)
  /-- LAST_BYTE_STREAMED (R163): with the bytes of the slot's buffer that have changed since they were stored, as
  (offset, value) pairs (log entry 10). -/
  | lastByteStreamed (socket : Fin 8) (upsets : List (Nat × Byte))
  /-- HOLD_EXPIRY (R132). -/
  | holdExpiry
  /-- INSERTION (R140). -/
  | insertion (socket : Fin 8)
  /-- ATTACH_TIMER_EXPIRY (R140). -/
  | attachTimerExpiry (socket : Fin 8)
  /-- IDENTIFY_COMPLETE (R140): good or error. -/
  | identifyComplete (socket : Fin 8) (good : Bool)
  /-- CAPACITY_COMPLETE (R140): good with the sector count, or error. -/
  | capacityComplete (socket : Fin 8) (sectors : Option Nat)
  /-- PROTECT_STATUS_COMPLETE (R140): good with whether the stick is protected, or error. -/
  | protectStatusComplete (socket : Fin 8) (isProtected : Option Bool)
  /-- STALL_TIMER_EXPIRY (R138). -/
  | stallTimerExpiry (socket : Fin 8)
  /-- PORT_RESET_END (R139). -/
  | portResetEnd (socket : Fin 8)
  /-- REMOVAL (R152). -/
  | removal (socket : Fin 8)
  /-- RECALL_REQUEST_PLACE (R174). -/
  | recallRequestPlace
  /-- RECALL_WAIT_EXPIRY (R176). -/
  | recallWaitExpiry
  /-- RECALL_ARRIVAL_SINK (R177): header and listed indices of an accepted RECALL. -/
  | recallArrivalSink (sender : Byte) (job : Word16) (segs : List Word32)
  /-- HEARD_SET_EXPIRY (R177): of one segment of the heard set. -/
  | heardSetExpiry (seg : Nat)
  /-- RECALL_ARRIVAL_SOURCE (R178): header and listed indices of an accepted RECALL. -/
  | recallArrivalSource (sender : Byte) (job : Word16) (segs : List Word32)
  /-- RECALL_READ_ISSUE (R179). -/
  | recallReadIssue
  /-- LANE_IDLE (R11). -/
  | laneIdle
  deriving DecidableEq, Repr

end Sys2Proof
end

