-- ==== Sys2Proof/Decode.lean ====
section
/-! DEFINITION. Words to commands. spec/opcode_table.json gives no row any bits (its fields lists are empty), so no word
spells a command. The bytes of frames are decoded in Sys2Proof/Machine/Frames.lean. -/
namespace Sys2Proof

/-- The command that `nbits` bits with the value `w` spell by the table: none, since no row of the table gives bits. -/
def decodeTableWord (_nbits _w : Nat) : Option Instr := none

end Sys2Proof
end

