-- ==== Sys2Proof/Config.lean ====
section
/-! DEFINITION. The fixed values of the JP-308 (spec/00_scope.md, Capacities and fixed values) and the free values
the spec leaves open. A time is a number of nanoseconds; a byte time is 32 of them (R1, and Frame lengths on the lane). -/
namespace Sys2Proof.Config

/-- One millisecond, the unit the spec states times in. -/
def ms : Nat := 1000000

/-- The beacon interval Tb, 10 ms (00_scope.md). -/
def tb : Nat := 10 * ms

/-- The number behind the k-th random delay. FREE VALUE: the spec says only the range a delay is drawn from, so nothing
is known of it. DESIGN CHOICE, log entry 4. -/
opaque freeDraw : Nat → Nat

/-- The k-th delay drawn from `lo` to `hi`, both included. The range is all that is known of it. -/
def drawnDelay (k lo hi : Nat) : Nat := lo + freeDraw k % (hi - lo + 1)

/-- Bytes of one parcel (00_scope.md). -/
def parcelBytes : Nat := 4096

/-- Bytes of one segment (00_scope.md). -/
def segmentBytes : Nat := 32768

/-- 512-byte sectors of one segment (R138). -/
def segmentSectors : Nat := 64

/-- The largest image, in segments (R44). -/
def maxImage : Nat := 2097152

/-- Window slots of a station (R61). -/
def windowSlots : Nat := 16

/-- Descriptors of one write ring (R104). -/
def ringSize : Nat := 18

/-- Entries of one owed list (R170). -/
def owedSize : Nat := 32

/-- Entries of one expectation list (R165). -/
def expectSize : Nat := 16

/-- Entries of the answer queue (R97). -/
def answerSize : Nat := 8

/-- Segments of the source's recall queue (R178), and of the heard set (R173). -/
def recallQueueSize : Nat := 32

/-- Attempts of one frame on the lane (R22). -/
def maxFrameAttempts : Nat := 16

/-- Attempts of one WRITE SEGMENT or READ SEGMENT (R139). -/
def maxCommandAttempts : Nat := 4

/-- NEED frames of one pending need (R92). -/
def maxNeeds : Nat := 6

/-- RECALL attempts an owed entry counts to (R170). -/
def maxRecalls : Nat := 4

/-- Verify passes of one job (R186). -/
def maxPasses : Nat := 3

/-- Segments one RECALL frame lists at most (R7). -/
def maxListed : Nat := 8

/-- The listening timer, 3 Tb (R28). -/
def listenSpan : Nat := 3 * tb
/-- The silence timer of a PRESENT entry, 12 Tb (R38). -/
def presentSpan : Nat := 12 * tb
/-- The silence timer of a SILENT entry, 100 Tb (R39). -/
def silentSpan : Nat := 100 * tb
/-- The orphan timer, 5 s (R42). -/
def orphanSpan : Nat := 5000 * ms
/-- The settle timer, 3 Tb (R46). -/
def settleSpan : Nat := 3 * tb
/-- The JOB repeat timer, 16 Tb (R46). -/
def repeatSpan : Nat := 16 * tb
/-- The repeat timer of a CANCEL in progress, 1 Tb (R52). -/
def cancelSpan : Nat := tb
/-- The gap timer of a window slot, 4 ms (R61). -/
def gapSpan : Nat := 4 * ms
/-- The recall wait of a recall slot, of a request and of a heard segment, 200 ms (R80, R173). -/
def recallSpan : Nat := 200 * ms
/-- The longest delay before a NEED, 2 ms (R85). -/
def needDelayMax : Nat := 2 * ms
/-- The retry interval of a NEED, 8 ms (R92, R95). -/
def retrySpan : Nat := 8 * ms
/-- The shortest and longest delay of a peer's answer, 1 to 4 ms (R98). -/
def answerDelayMin : Nat := ms
/-- See `answerDelayMin`. -/
def answerDelayMax : Nat := 4 * ms
/-- The HOLD expiry timer, 2 s (R132). -/
def holdSpan : Nat := 2000 * ms
/-- The stall timer of a stick command, 3 s (R138). -/
def stallSpan : Nat := 3000 * ms
/-- The attach timer, 1 s (R140). -/
def attachSpan : Nat := 1000 * ms

end Sys2Proof.Config
end

