-- ==== Sys2Proof/Machine/State.lean ====
section
/-! DEFINITION. The state of a JP-308 station: one structure for each block of spec/00_scope.md, holding every piece of
state the spec gives it, and State.reset. INVENTORY.md lists each with its rule and its reset value. -/
namespace Sys2Proof.Machine

/-- The reasons a step could stop with a fault. There is none: the spec gives every event of the station an effect, or
says that it has none (INVENTORY.md, Faults). -/
inductive Fault where
  deriving DecidableEq, Repr

/-- The reasons a step could be refused. -/
inductive Refusal where
  /-- A command whose meaning is not written yet, raised only by a refused arm of exec. Safe: nothing is claimed of it. -/
  | notModelled (mnemonic : String)
  deriving DecidableEq, Repr

/-- A list of (key, word) pairs with keys strictly rising and no word 0; an unlisted key reads as 0 (log entry 9). -/
abbrev Sparse (w : Nat) := List (Nat × BitVec w)

/-- A byte buffer in the stacked DRAM. -/
abbrev Memory := List Host.Cell

/-! ### Frames -/

/-- The body of a frame, by kind (R4). -/
inductive FrameBody where
  | beacon (b : BeaconBody)
  | job (b : JobBody)
  | cancel (reason : Byte)
  | parcel (b : ParcelBody)
  | need (seg : Word32) (mask : Byte)
  | recallList (segs : List Word32)
  deriving DecidableEq, Repr

/-- A frame: the sender and job fields of its header (R4) and its body. The kind and the length follow from the body. -/
structure Frame where
  sender : Byte
  job : Word16
  body : FrameBody
  deriving DecidableEq, Repr

/-- The blocks an accepted frame is handed to (R15). -/
inductive Owner where
  | roster | jobController | segmentWindow | repairUnit | recallUnit
  deriving DecidableEq, Repr

/-! ### Station identity and roster -/

/-- The station modes (Station modes, before R29). -/
inductive Mode where
  | listening | active | mute
  deriving DecidableEq, Repr

/-- The station's own number, mode, reset state and beacon (R28). -/
structure Ident where
  /-- Station number read from the straps (R25). -/
  station : BitVec 5
  /-- Memory-fault latch (R26, R27). -/
  memFault : Bool
  mode : Mode
  listenTimer : Timer
  beaconTimer : Timer
  /-- Beacon debt, 0 to 8 (R34). -/
  debt : Nat
  /-- The memory test of a power-on reset is under way (R26). -/
  memTest : Bool
  /-- The blink clock runs (R158). -/
  blink : Bool
  deriving DecidableEq, Repr

/-- The entry states of the roster (R37). -/
inductive EntryState where
  | absent | present | silent
  deriving DecidableEq, Repr

/-- A roster entry (R37). -/
structure RosterEntry where
  st : EntryState
  job : Word16
  digest : Word32
  /-- Job state code; an ill-used code 7 is stored as it is. -/
  jobState : BitVec 3
  base : Word32
  lowMark : Option Nat
  settled : Bool
  timer : Timer
  deriving DecidableEq, Repr

/-- An ABSENT entry (R37). -/
def RosterEntry.empty : RosterEntry :=
  { st := .absent, job := 0, digest := 0, jobState := 0, base := 0, lowMark := none, settled := false, timer := none }

/-! ### Bus port -/

/-- The transmitter states with a frame (Sending, before R16). -/
inductive TxPhase where
  | deferring
  | sending
  | jamming
  /-- Waiting out the drawn number of contention slots (R20). -/
  | backingOff (slots : Nat)
  deriving DecidableEq, Repr

/-- Which block's item a held frame is, for the report of its outcome (R18, R22). `stale` is a frame whose item a
teardown or a corruption report has taken away: its report has no effect (R84, R103, R188, R79). -/
inductive HeldTag where
  | beacon
  | cancel
  | jobRepeat
  | need (seg : Nat)
  | answer
  | newData (seg : Nat)
  | recallParcel (slot : Fin 2)
  | recallRequest
  | stale
  deriving DecidableEq, Repr

/-- A frame the transmitter has taken: contents fixed, attempts so far (R16). -/
structure HeldFrame where
  frame : Frame
  tag : HeldTag
  attempts : Nat
  deriving DecidableEq, Repr

/-- The transmitter: FREE, or holding a frame in one of the other states. -/
inductive Transmitter where
  | free
  | holding (h : HeldFrame) (phase : TxPhase)
  deriving DecidableEq, Repr

/-- A CANCEL copy: job number and reason (R10, R52). -/
structure CancelCopy where
  job : Word16
  reason : Byte
  deriving DecidableEq, Repr

/-- The bus port and the waiting classes of the arbiter (R13, R16, R23). -/
structure Port where
  tx : Transmitter
  badFrames : Word16
  giveUps : Word16
  /-- The receiver waits for the lane to be idle before a START opens a reception (R11). -/
  rxWait : Bool
  /-- The HOLD line level as last reported (R2). -/
  holdLevel : Bool
  /-- Class 2. -/
  cancels : List CancelCopy
  /-- Class 3: a JOB repeat is waiting. -/
  jobRepeat : Bool
  /-- Class 4: the segments of waiting NEED frames, oldest first. -/
  class4 : List Nat
  /-- Class 5: the segments of answer entries in SENDING, oldest first. -/
  class5 : List Nat
  /-- Class 6: segment and parcel number of waiting new-data parcels, oldest first. -/
  class6 : List (Nat × Fin 8)
  /-- Class 7: recall slot and parcel number of waiting recall parcels, oldest first. -/
  class7 : List (Fin 2 × Fin 8)
  /-- Accepted frames handed to an owner whose arrival step has not run (R15, log entry 7). -/
  handoffs : List (Owner × Frame)
  deriving DecidableEq, Repr

/-! ### Job controller -/

/-- The job states (R42). -/
inductive JobState where
  | idle | enrolling | copying | closing | finished | cancelled | orphaned
  deriving DecidableEq, Repr

/-- Enrollment (R42). -/
inductive Enrollment where
  | none | opened | closed
  deriving DecidableEq, Repr

/-- The refusal reasons (R8, R44). -/
inductive RefusalReason where
  | imageSize | source | config | patchKind | patchLength | patchPlace | patchNumber
  deriving DecidableEq, Repr

/-- A CANCEL in progress (R52). -/
structure CancelProgress where
  copy : CancelCopy
  /-- Copies still to send, 0 to 2. -/
  left : Nat
  timer : Timer
  deriving DecidableEq, Repr

/-- The job record (R42). -/
structure Job where
  number : Option Word16
  /-- The adopted parameters, with the rest of the adopted body, which a JOB repeat carries (R47). -/
  body : Option JobBody
  digest : Option Word32
  st : JobState
  former : Option JobState
  /-- The SOURCE role is held. -/
  source : Bool
  enrollment : Enrollment
  /-- The source is confirmed. -/
  confirmed : Bool
  orphanTimer : Timer
  settleTimer : Timer
  repeatTimer : Timer
  refusal : Option RefusalReason
  lastAdopted : Option Word16
  cancel : Option CancelProgress
  deriving DecidableEq, Repr

/-! ### Segment window -/

/-- The states of a slot (R61, R80). -/
inductive SlotState where
  | free | reading | filling | whole | damaged | retired
  deriving DecidableEq, Repr

/-- A window slot (R61) or a recall slot (R80). -/
structure Slot where
  st : SlotState
  seg : Option Nat
  mask : Byte
  check : Word32
  /-- Pending-claim count. -/
  pending : Nat
  inFlight : Nat
  masterRead : Bool
  /-- The gap timer of a window slot; the recall wait timer of a recall slot. -/
  timer : Timer
  /-- Recall parcels still to be sent, at the source; 0 in a window slot. -/
  toSend : Nat
  buf : Memory
  deriving DecidableEq, Repr

/-- A FREE, usable slot over a buffer. -/
def Slot.empty (buf : Memory) : Slot :=
  { st := .free, seg := none, mask := 0, check := 0, pending := 0, inFlight := 0, masterRead := false, timer := none,
    toSend := 0, buf := buf }

/-- The name of a slot, as a descriptor's source names it (R105). -/
inductive SlotId where
  | win (i : Fin 16)
  | rslot (r : Fin 2)
  deriving DecidableEq, Repr

/-- The segment window (R61 to R84). -/
structure Window where
  slots : Vector Slot 16
  recalls : Vector Slot 2
  base : Nat
  next : Nat
  readMark : Nat
  /-- Highest new index (R73). -/
  highestNew : Option Nat
  checkTable : Sparse 32
  deriving DecidableEq, Repr

/-! ### Repair unit -/

/-- Where the NEED of an ASKED entry is (R85). -/
inductive AskPhase where
  | inClass | held | retry
  deriving DecidableEq, Repr

/-- The states of a pending need (R85). -/
inductive NeedState where
  | waitingDelay
  | asked (phase : AskPhase)
  | suppressed
  deriving DecidableEq, Repr

/-- An entry of the pending-need table (R85). -/
structure NeedEntry where
  seg : Nat
  missing : Byte
  count : Nat
  st : NeedState
  timer : Timer
  deriving DecidableEq, Repr

/-- An entry of the answer queue (R97); `sending` tells SENDING from DELAYING. -/
structure AnswerEntry where
  seg : Nat
  mask : Byte
  sending : Bool
  timer : Timer
  nextParcel : Fin 8
  deriving DecidableEq, Repr

/-- The repair unit. The pending-need table and the exhausted set are kept in ascending segment order, the answer queue in
order of creation. -/
structure Repair where
  needs : List NeedEntry
  exhausted : List Nat
  answers : List AnswerEntry
  deriving DecidableEq, Repr

/-! ### Sockets: engine, ring, tie, lists, lag monitor -/

/-- The states of a socket (R136). -/
inductive SocketState where
  | empty | attaching | ready | rejected | preparing | enrolled | copying | repaying | verifying | done | failed
  | waiting | master
  deriving DecidableEq, Repr

/-- The reasons of REJECTED and FAILED (R136). -/
inductive Reason where
  | none
  | tooSmall | isProtected | noResponse
  | writeError | stall | owedOverflow | verifyLimit | unreachable | sourceLost | prepareError
  deriving DecidableEq, Repr

/-- The exit targets (R136). -/
inductive ExitTarget where
  | waiting | ready | sourceLost
  deriving DecidableEq, Repr

/-- The origins of an owed entry (R170). -/
inductive Origin where
  | windowMissed | revoked | overrun | needExhausted | poisoned | verifyMismatch
  deriving DecidableEq, Repr

/-- Origin and attempt count, as an owed entry and an owed record hold them (R105, R170). -/
structure OwedRecord where
  origin : Origin
  attempts : Nat
  deriving DecidableEq, Repr

/-- An owed entry (R170). -/
structure OwedEntry where
  seg : Nat
  record : OwedRecord
  deriving DecidableEq, Repr

/-- A descriptor in a ring (R105); `inFlight` tells IN-FLIGHT from PENDING. -/
structure Descriptor where
  seg : Nat
  src : SlotId
  inFlight : Bool
  owed : Option OwedRecord
  deriving DecidableEq, Repr

/-- What a stick command is for: the attach commands (R138, R140) and the four purposes of R139. -/
inductive Purpose where
  | identify
  | capacity
  | protectStatus
  | blanking
  /-- A descriptor write; `detached` once its descriptor has left the ring (R115). -/
  | descriptor (seg : Nat) (src : SlotId) (detached : Bool)
  | verify (seg : Nat)
  | master (seg : Nat) (dst : SlotId)
  deriving DecidableEq, Repr

/-- The judgement of a streamed attempt, with its patched check (R163). -/
structure Verdict where
  clean : Bool
  patched : Word32
  deriving DecidableEq, Repr

/-- The command in flight (R136, R139), with what the patch unit fixed at the start of a descriptor write's attempt
(R162). -/
structure Command where
  purpose : Purpose
  /-- Attempt number, 1 to 4. -/
  attempt : Nat
  stall : Timer
  /-- The attempt has stalled and the port reset is under way: between attempts (R139). -/
  portReset : Bool
  /-- Replacement byte for each patched position, positions rising (R161). -/
  plan : List (Nat × Byte)
  /-- Reference check (R162). -/
  reference : Word32
  verdict : Option Verdict
  deriving DecidableEq, Repr

/-- The ties of a socket (R118). -/
inductive Tie where
  | none | tied | loose | released
  deriving DecidableEq, Repr

/-- A condition monitor (R123). -/
structure Monitor where
  running : Bool
  level : Nat
  threshold : Nat
  duration : Nat
  latched : Bool
  run : Nat
  cond : Bool
  deriving DecidableEq, Repr

/-- A monitor at its reset values (R123; threshold, duration and latch: log entry 31). -/
def Monitor.idle : Monitor :=
  { running := false, level := 0, threshold := 0, duration := 0, latched := false, run := 0, cond := false }

/-- An expectation entry (R165). -/
structure ExpectEntry where
  seg : Nat
  check : Word32
  poisoned : Bool
  deriving DecidableEq, Repr

/-- One socket: the engine's record (R136), the write ring, written map and tie (R104, R106, R118), the lag monitor (R127),
the owed and recheck lists and the verify record (R170, R182), and the expectation list (R165). -/
structure Socket where
  st : SocketState
  reason : Reason
  capacity : Option Nat
  cmd : Option Command
  attachTimer : Timer
  exit : Option ExitTarget
  ring : List Descriptor
  /-- The marked segments, in ascending order. -/
  written : List Nat
  tie : Tie
  lag : Monitor
  owed : List OwedEntry
  recheck : List Nat
  passCount : Nat
  passList : List Nat
  /-- Position in the pass list. -/
  cursor : Option Nat
  expect : List ExpectEntry
  deriving DecidableEq, Repr

/-- A socket at its reset values, over the written map it had. -/
def Socket.reset (written : List Nat) : Socket :=
  { st := .empty, reason := .none, capacity := none, cmd := none, attachTimer := none, exit := none, ring := [],
    written := written, tie := .none, lag := Monitor.idle, owed := [], recheck := [], passCount := 0, passList := [],
    cursor := none, expect := [] }

/-! ### Pacing unit, recall and verify unit -/

/-- The states of the HOLD output (R132). -/
inductive HoldState where
  | released | asserted | spent
  deriving DecidableEq, Repr

/-- The pacing unit, without the lag monitors, which stand with their sockets. -/
structure Pacing where
  loss : Monitor
  hold : HoldState
  holdTimer : Timer
  deriving DecidableEq, Repr

/-- The states of the recall request (R173). -/
inductive RequestState where
  | idle | queued | taken | waiting
  deriving DecidableEq, Repr

/-- The recall request of a station and the recall queue of a source (R173, R178). -/
structure Recall where
  request : RequestState
  /-- Recall wait. -/
  wait : Timer
  listed : List Nat
  /-- Heard set, ascending; each segment's 200 ms timer runs while it is in the set. -/
  heard : List Nat
  /-- The source's recall queue, ascending. -/
  queue : List Nat
  deriving DecidableEq, Repr

/-! ### The station -/

/-- The state of the station, and the queue of commands that wait for it. -/
structure State where
  ident : Ident
  roster : Vector RosterEntry 32
  port : Port
  job : Job
  win : Window
  repair : Repair
  sockets : Vector Socket 8
  pacing : Pacing
  rv : Recall
  /-- The patch table, in entry-number order (R159). -/
  patches : List PatchEntry
  /-- How many random delays have been drawn: the next free value to use (log entry 4). The model's own field. -/
  draws : Nat
  /-- The waiting commands, first in, first out. -/
  pending : List Instr
  deriving DecidableEq, Repr

/-- The identity block at the end of a reset that leaves the latch clear (R28, R158). -/
def Ident.reset (straps : BitVec 5) : Ident :=
  { station := straps, memFault := false, mode := .listening, listenTimer := some Config.listenSpan, beaconTimer := none,
    debt := 0, memTest := false, blink := true }

/-- The identity block at the end of a reset that leaves the latch set: MUTE, no timer running (R28). -/
def Ident.resetMute (straps : BitVec 5) : Ident :=
  { Ident.reset straps with memFault := true, mode := .mute, listenTimer := none }

/-- The bus port at reset (R11, R13, R16), with the HOLD level of the tower. -/
def Port.reset (holdLevel : Bool) : Port :=
  { tx := .free, badFrames := 0, giveUps := 0, rxWait := true, holdLevel := holdLevel, cancels := [], jobRepeat := false,
    class4 := [], class5 := [], class6 := [], class7 := [], handoffs := [] }

/-- The job record at reset (R42). -/
def Job.reset : Job :=
  { number := none, body := none, digest := none, st := .idle, former := none, source := false, enrollment := .none,
    confirmed := false, orphanTimer := none, settleTimer := none, repeatTimer := none, refusal := none,
    lastAdopted := none, cancel := none }

/-- The window at reset (R61, R64, R80, R84) with nothing listed in its DRAM regions (log entry 9). -/
def Window.reset : Window :=
  { slots := Vector.replicate 16 (Slot.empty []), recalls := Vector.replicate 2 (Slot.empty []), base := 0, next := 0,
    readMark := 0, highestNew := none, checkTable := [] }

/-- The repair unit, empty (R85, R86, R97). -/
def Repair.empty : Repair := { needs := [], exhausted := [], answers := [] }

/-- The pacing unit at reset (R123, R133). -/
def Pacing.reset : Pacing := { loss := Monitor.idle, hold := .released, holdTimer := none }

/-- The recall unit at reset (R173, R178). -/
def Recall.reset : Recall := { request := .idle, wait := none, listed := [], heard := [], queue := [] }

/-- The station right after a power-on reset whose memory test passed, strapped as station 0 (log entry 12). -/
def State.reset : State :=
  { ident := Ident.reset 0
    roster := Vector.replicate 32 RosterEntry.empty
    port := Port.reset false
    job := Job.reset
    win := Window.reset
    repair := Repair.empty
    sockets := Vector.replicate 8 (Socket.reset [])
    pacing := Pacing.reset
    rv := Recall.reset
    patches := []
    draws := 0
    pending := [] }

end Sys2Proof.Machine
end

