-- ==== Sys2Proof/Machine/Memory.lean ====
section
/-! DEFINITION. The operations over the DRAM regions: sparse lists in canonical form, and ascending lists of segment
indices. Sys2Proof/Laws/Memory.lean proves that each keeps its form. -/
namespace Sys2Proof.Machine

/-- The canonical form: keys strictly rising, no entry equal to what an unlisted key reads as. -/
abbrev Sparse.wf {w : Nat} (m : Sparse w) : Prop := m.Pairwise (fun a b => a.1 < b.1) ∧ ∀ c ∈ m, c.2 ≠ 0

/-- The canonical form of a buffer. -/
abbrev Memory.wf (m : Memory) : Prop := Sparse.wf (w := 8) m

/-- The word at a key; an unlisted key reads as 0 (log entry 9). -/
def Sparse.read {w : Nat} (m : Sparse w) (a : Nat) : BitVec w :=
  match m.find? (fun c => c.1 == a) with
  | some c => c.2
  | none => 0

/-- Write one word, keeping the canonical form. -/
def Sparse.write {w : Nat} : Sparse w → Nat → BitVec w → Sparse w
  | [], a, v => if v = 0 then [] else [(a, v)]
  | c :: m, a, v =>
    if a < c.1 then if v = 0 then c :: m else (a, v) :: c :: m
    else if a = c.1 then if v = 0 then m else (a, v) :: m
    else c :: Sparse.write m a v

/-- The byte of a buffer at an offset. -/
def Memory.read (m : Memory) (a : Nat) : Byte := Sparse.read (w := 8) m a

/-- The entries for a run of bytes from an address on: the bytes that are not 0. -/
def cellsFrom : Nat → List Byte → Memory
  | _, [] => []
  | a, b :: bs => if b = 0 then cellsFrom (a + 1) bs else (a, b) :: cellsFrom (a + 1) bs

/-- Store a run of bytes from an offset on, in place of what the buffer held there. -/
def Memory.store (m : Memory) (a : Nat) (bytes : List Byte) : Memory :=
  m.filter (fun c => decide (c.1 < a)) ++ cellsFrom a bytes ++ m.filter (fun c => decide (a + bytes.length ≤ c.1))

/-- Store single bytes one after another. -/
def Memory.patchBytes (m : Memory) (changes : List (Nat × Byte)) : Memory :=
  changes.foldl (fun (b : Memory) c => Sparse.write (w := 8) b c.1 c.2) m

/-- `n` bytes from address `a` on, of the entries at or above `a`. -/
def bytesFrom : Nat → Nat → Memory → List Byte
  | 0, _, _ => []
  | n + 1, a, [] => 0 :: bytesFrom n (a + 1) []
  | n + 1, a, c :: m =>
    if c.1 = a then c.2 :: bytesFrom n (a + 1) m else 0 :: bytesFrom n (a + 1) (c :: m)

/-- `n` bytes of a buffer from an offset on. -/
def Memory.slice (m : Memory) (a n : Nat) : List Byte := bytesFrom n a (m.filter (fun c => decide (a ≤ c.1)))

/-- A run of exactly `n` bytes: missing bytes are 0, bytes beyond are dropped (log entry 29). -/
def exactBytes (n : Nat) (bytes : List Byte) : List Byte :=
  bytes.take n ++ List.replicate (n - bytes.length) 0

/-- Put a segment index into an ascending list without duplicates. -/
def insertSeg (s : Nat) : List Nat → List Nat
  | [] => [s]
  | t :: ts => if s < t then s :: t :: ts else if s = t then t :: ts else t :: insertSeg s ts

/-- Strictly ascending, so without duplicates. -/
abbrev ascending (l : List Nat) : Prop := l.Pairwise (· < ·)

end Sys2Proof.Machine
end

