-- ==== Sys2Proof/Machine/Frames.lean ====
section
/-! DEFINITION. The check (R3), the byte layouts of the six frame kinds (R4 to R10) and the acceptance of a complete
reception (R12). Offsets and field orders are the tables of spec/01_the_copy_bus.md; fields of more than one byte are
most significant byte first. -/
namespace Sys2Proof.Machine

/-- One data bit into the check register (R3): shift toward the most significant end, and combine with the generator if
the bit shifted out differs from the data bit. -/
def checkBit (reg : Word32) (bit : Bool) : Word32 :=
  if reg.msb = bit then reg <<< 1 else (reg <<< 1) ^^^ 0x1EDC6F41#32

/-- One byte, most significant bit first (R3). -/
def checkByte (reg : Word32) (b : Byte) : Word32 :=
  [7, 6, 5, 4, 3, 2, 1, 0].foldl (fun r i => checkBit r (b.getLsbD i)) reg

/-- The check of a sequence of bytes (R3). The empty sequence has the start value (log entry 25). -/
def check (bytes : List Byte) : Word32 := bytes.foldl checkByte 0xFFFFFFFF#32

/-- Two bytes of a field, most significant first. -/
def bytes16 (w : Word16) : List Byte := [w.extractLsb' 8 8, w.extractLsb' 0 8]

/-- Four bytes of a field, most significant first. -/
def bytes32 (w : Word32) : List Byte :=
  [w.extractLsb' 24 8, w.extractLsb' 16 8, w.extractLsb' 8 8, w.extractLsb' 0 8]

/-- The byte at an offset of a body; past its end, which the length test excludes, 0. -/
def byteAt (l : List Byte) (i : Nat) : Byte := l.getD i 0

/-- The two-byte field at an offset. -/
def word16At (l : List Byte) (i : Nat) : Word16 := byteAt l i ++ byteAt l (i + 1)

/-- The four-byte field at an offset. -/
def word32At (l : List Byte) (i : Nat) : Word32 :=
  (byteAt l i ++ byteAt l (i + 1)) ++ (byteAt l (i + 2) ++ byteAt l (i + 3))

/-- A flag byte's bit. -/
def flagBit (b : Bool) (i : Nat) : Byte := if b then 1#8 <<< i else 0

/-! ### BEACON (R8) -/

/-- The 26 bytes of a BEACON body. -/
def beaconBytes (b : BeaconBody) : List Byte :=
  [b.modeBits ++ b.refusal ++ b.jobState,
    flagBit b.source 0 ||| flagBit b.settled 1 ||| flagBit b.enrollClosed 2] ++
  bytes32 b.digest ++ bytes32 b.base ++ bytes32 b.lowMark ++ bytes16 b.giveUps ++ bytes16 b.badFrames ++ b.codes

/-- A BEACON body from its bytes; bits 7 to 3 of the flags are ignored (Frame formats). -/
def beaconOf (l : List Byte) : BeaconBody :=
  { modeBits := (byteAt l 0).extractLsb' 6 2
    refusal := (byteAt l 0).extractLsb' 3 3
    jobState := (byteAt l 0).extractLsb' 0 3
    source := (byteAt l 1).getLsbD 0
    settled := (byteAt l 1).getLsbD 1
    enrollClosed := (byteAt l 1).getLsbD 2
    digest := word32At l 2
    base := word32At l 6
    lowMark := word32At l 10
    giveUps := word16At l 14
    badFrames := word16At l 16
    codes := (l.drop 18).take 8 }

/-! ### JOB (R9) -/

/-- The 25 bytes of a patch entry. -/
def patchBytes (p : PatchEntry) : List Byte :=
  [p.number, p.kind] ++ bytes32 p.seg ++ bytes16 p.offset ++ [p.len] ++ p.value

/-- A patch entry from its bytes. -/
def patchOf (l : List Byte) : PatchEntry :=
  { number := byteAt l 0
    kind := byteAt l 1
    seg := word32At l 2
    offset := word16At l 6
    len := byteAt l 8
    value := (l.drop 9).take 16 }

/-- The first `k` patch entries of a run of bytes. -/
def patchesOf : Nat → List Byte → List PatchEntry
  | 0, _ => []
  | k + 1, l => patchOf (l.take 25) :: patchesOf k (l.drop 25)

/-- The bytes of a JOB body before the enroll-closed byte. -/
def jobHead (b : JobBody) : List Byte :=
  bytes32 b.imageSize ++
    [b.srcStation, b.srcSocket, b.policy, b.lagThreshold, b.lagDuration, b.latch, b.needThreshold, b.lossDuration, b.verify]

/-- The bytes of a JOB body after the enroll-closed byte and before the digest. -/
def jobTail (b : JobBody) : List Byte :=
  bytes32 b.serialBase ++ [BitVec.ofNat 8 b.patches.length] ++ b.patches.flatMap patchBytes

/-- The 23 + 25 k bytes of a JOB body. -/
def jobBytes (b : JobBody) : List Byte := jobHead b ++ [b.enrollClosed] ++ jobTail b ++ bytes32 b.digest

/-- The job digest (R3): the body up to the end of the last patch entry without the enroll-closed byte. -/
def jobDigest (b : JobBody) : Word32 := check (jobHead b ++ jobTail b)

/-- A JOB body from its bytes. -/
def jobOf (l : List Byte) : JobBody :=
  let k := (byteAt l 18).toNat
  { imageSize := word32At l 0
    srcStation := byteAt l 4
    srcSocket := byteAt l 5
    policy := byteAt l 6
    lagThreshold := byteAt l 7
    lagDuration := byteAt l 8
    latch := byteAt l 9
    needThreshold := byteAt l 10
    lossDuration := byteAt l 11
    verify := byteAt l 12
    enrollClosed := byteAt l 13
    serialBase := word32At l 14
    patches := patchesOf k (l.drop 19)
    digest := word32At l (19 + 25 * k) }

/-! ### PARCEL (R5), NEED (R6), RECALL (R7), CANCEL (R10) -/

/-- The 4,110 bytes of a PARCEL body. -/
def parcelBodyBytes (b : ParcelBody) : List Byte :=
  bytes32 b.seg ++ [BitVec.ofNat 8 b.parcel.val, flagBit b.isRepair 0 ||| flagBit b.isRecall 1 ||| flagBit b.isFinal 2] ++
    bytes32 b.base ++ bytes32 b.check ++ b.payload

/-- A PARCEL body from its bytes, if its parcel number is 0 to 7 (R12). -/
def parcelOf (l : List Byte) : Option ParcelBody :=
  if h : (byteAt l 4).toNat < 8 then
    some
      { seg := word32At l 0
        parcel := ⟨(byteAt l 4).toNat, h⟩
        isRepair := (byteAt l 5).getLsbD 0
        isRecall := (byteAt l 5).getLsbD 1
        isFinal := (byteAt l 5).getLsbD 2
        base := word32At l 6
        check := word32At l 10
        payload := l.drop 14 }
  else none

/-- The 1 + 4 k bytes of a RECALL body. -/
def recallBytes (segs : List Word32) : List Byte := [BitVec.ofNat 8 segs.length] ++ segs.flatMap bytes32

/-- The first `k` four-byte indices of a run of bytes. -/
def segsOf : Nat → List Byte → List Word32
  | 0, _ => []
  | k + 1, l => word32At l 0 :: segsOf k (l.drop 4)

/-! ### Whole frames -/

/-- The kind byte (R4). -/
def FrameBody.kind : FrameBody → Byte
  | .beacon _ => 1
  | .job _ => 2
  | .cancel _ => 3
  | .parcel _ => 4
  | .need _ _ => 5
  | .recallList _ => 6

/-- The body bytes of a frame. -/
def FrameBody.bytes : FrameBody → List Byte
  | .beacon b => beaconBytes b
  | .job b => jobBytes b
  | .cancel r => [r]
  | .parcel b => parcelBodyBytes b
  | .need s m => bytes32 s ++ [m]
  | .recallList segs => recallBytes segs

/-- Header and body of a frame (R4). -/
def Frame.covered (f : Frame) : List Byte :=
  [f.body.kind, f.sender] ++ bytes16 f.job ++ bytes16 (BitVec.ofNat 16 f.body.bytes.length) ++ f.body.bytes

/-- The bytes of a frame on the lane: header, body and frame check (R3, R4). -/
def Frame.bytes (f : Frame) : List Byte := f.covered ++ bytes32 (check f.covered)

/-- The body of an accepted frame, by kind, allowed length and kind-specific test (R12). -/
def bodyOf (kind sender : Byte) (l : List Byte) : Option FrameBody :=
  if kind = 1 then
    if l.length = 26 ∧ sender.toNat < 32 then some (.beacon (beaconOf l)) else none
  else if kind = 2 then
    if 19 ≤ l.length ∧ (byteAt l 18).toNat ≤ 8 ∧ l.length = 23 + 25 * (byteAt l 18).toNat then some (.job (jobOf l))
    else none
  else if kind = 3 then
    if l.length = 1 then some (.cancel (byteAt l 0)) else none
  else if kind = 4 then
    if l.length = 4110 then (parcelOf l).map .parcel else none
  else if kind = 5 then
    if l.length = 5 then some (.need (word32At l 0) (byteAt l 4)) else none
  else if kind = 6 then
    if 1 ≤ (byteAt l 0).toNat ∧ (byteAt l 0).toNat ≤ 8 ∧ l.length = 1 + 4 * (byteAt l 0).toNat then
      some (.recallList (segsOf (byteAt l 0).toNat (l.drop 1)))
    else none
  else none

/-- The frame a complete reception is accepted as, or none where it is a bad frame: undersized (R11), a check that does
not match, a body length field that differs, or a body that fails R12. -/
def acceptFrame (l : List Byte) : Option Frame :=
  if l.length < 11 then none
  else
    let covered := l.take (l.length - 4)
    let body := covered.drop 6
    if check covered = word32At (l.drop (l.length - 4)) 0 ∧ (word16At l 4).toNat = body.length then
      (bodyOf (byteAt l 0) (byteAt l 1) body).map fun b => { sender := byteAt l 1, job := word16At l 2, body := b }
    else none

/-- The owners an accepted frame is handed to (R15). -/
def FrameBody.owners : FrameBody → List Owner
  | .beacon _ => [.roster]
  | .job _ => [.jobController]
  | .cancel _ => [.jobController]
  | .parcel _ => [.segmentWindow, .repairUnit]
  | .need _ _ => [.repairUnit]
  | .recallList _ => [.recallUnit]

/-- A frame that a JP-308 or a panel can send: the operand sizes of R5 to R10 and the kind-specific tests of R12. -/
def Frame.wf (f : Frame) : Bool :=
  match f.body with
  | .beacon b => decide (f.sender.toNat < 32) && b.codes.length == 8
  | .job b => decide (b.patches.length ≤ 8) && b.patches.all fun p => p.value.length == 16
  | .cancel _ => true
  | .parcel b => b.payload.length == 4096
  | .need _ _ => true
  | .recallList segs => decide (1 ≤ segs.length) && decide (segs.length ≤ 8)

end Sys2Proof.Machine
end

