-- ==== Sys2Proof/Machine/Ops.lean ====
section
/-! DEFINITION. The operations every block's rules are written over: updates of one block, one slot or one socket, the
walk over the sockets and the slots, and the next random delay. Operations take the state last. -/
namespace Sys2Proof.Machine

/-! ### Updates of one block -/

/-- Change the identity block. -/
def updIdent (f : Ident → Ident) (s : State) : State := { s with ident := f s.ident }
/-- Change the bus port. -/
def updPort (f : Port → Port) (s : State) : State := { s with port := f s.port }
/-- Change the job record. -/
def updJob (f : Job → Job) (s : State) : State := { s with job := f s.job }
/-- Change the window. -/
def updWin (f : Window → Window) (s : State) : State := { s with win := f s.win }
/-- Change the repair unit. -/
def updRepair (f : Repair → Repair) (s : State) : State := { s with repair := f s.repair }
/-- Change the pacing unit. -/
def updPacing (f : Pacing → Pacing) (s : State) : State := { s with pacing := f s.pacing }
/-- Change the recall unit. -/
def updRv (f : Recall → Recall) (s : State) : State := { s with rv := f s.rv }
/-- Change one stored roster entry. -/
def updEntry (x : Fin 32) (f : RosterEntry → RosterEntry) (s : State) : State :=
  { s with roster := s.roster.set x (f s.roster[x]) }
/-- Change one socket. -/
def updSocket (k : Fin 8) (f : Socket → Socket) (s : State) : State :=
  { s with sockets := s.sockets.set k (f s.sockets[k]) }
/-- Replace the patch table. -/
def setPatches (p : List PatchEntry) (s : State) : State := { s with patches := p }
/-- Count one random delay as drawn. -/
def nextDraw (s : State) : State := { s with draws := s.draws + 1 }

/-! ### Slots by name -/

/-- The slot a descriptor names. -/
def State.slot (s : State) : SlotId → Slot
  | .win i => s.win.slots[i]
  | .rslot r => s.win.recalls[r]

/-- Change one slot. -/
def updSlot (id : SlotId) (f : Slot → Slot) (s : State) : State :=
  match id with
  | .win i => updWin (fun w => { w with slots := w.slots.set i (f w.slots[i]) }) s
  | .rslot r => updWin (fun w => { w with recalls := w.recalls.set r (f w.recalls[r]) }) s

/-- The window slot of a segment: its number is the segment index mod 16 (R62). -/
def winOf (seg : Nat) : Fin 16 := ⟨seg % 16, Nat.mod_lt _ (by decide)⟩

/-- The sockets, 0 to 7. -/
def allSockets : List (Fin 8) := [0, 1, 2, 3, 4, 5, 6, 7]

/-- The window slots, 0 to 15. -/
def allWinSlots : List (Fin 16) := [0, 1, 2, 3, 4, 5, 6, 7, 8, 9, 10, 11, 12, 13, 14, 15]

/-- The recall slots, 0 and 1. -/
def allRecallSlots : List (Fin 2) := [0, 1]

/-- The station numbers, 0 to 31. -/
def allStations : List (Fin 32) :=
  [0, 1, 2, 3, 4, 5, 6, 7, 8, 9, 10, 11, 12, 13, 14, 15, 16, 17, 18, 19, 20, 21, 22, 23, 24, 25, 26, 27, 28, 29, 30, 31]

/-- Every slot of the station. -/
def allSlots : List SlotId := allWinSlots.map .win ++ allRecallSlots.map .rslot

/-- Apply a state change once for each item of a list, in order. -/
def forEach {α : Type} (l : List α) (f : α → State → State) (s : State) : State := l.foldl (fun t a => f a t) s

/-- Apply a state change for each socket, in order 0 to 7. -/
def forSockets (f : Fin 8 → State → State) (s : State) : State := forEach allSockets f s

/-- Apply a state change where a condition holds. -/
def doIf (c : Bool) (f : State → State) (s : State) : State := if c then f s else s

/-- The commands other than the resets and the HOLD line act only outside the memory test of a power-on reset (R26, log
entry 13). -/
def whenUp (f : State → State) (s : State) : State := if s.ident.memTest then s else f s

/-! ### Readings of the slots -/

/-- FREE with nothing going on in it (R61, R80). -/
def Slot.usable (sl : Slot) : Bool :=
  sl.st == .free && sl.inFlight == 0 && !sl.masterRead && sl.toSend == 0

/-- No pending descriptor and no write in flight (R63). -/
def Slot.unclaimed (sl : Slot) : Bool := sl.pending == 0 && sl.inFlight == 0

/-- The slot holds segment `seg`. -/
def Slot.holds (sl : Slot) (seg : Nat) : Bool := sl.seg == some seg

/-- The slot holds segment `seg` in a given state. -/
def Slot.holdsIn (sl : Slot) (seg : Nat) (st : SlotState) : Bool := sl.seg == some seg && sl.st == st

/-- FREE: no segment, empty mask, timer stopped; the counts, the master read flag and the buffer stay (R61, R84). -/
def Slot.freed (sl : Slot) : Slot := { sl with st := .free, seg := none, mask := 0, timer := none }

/-- The 32,768 bytes of a slot's buffer. -/
def Slot.bytes (sl : Slot) : List Byte := sl.buf.slice 0 Config.segmentBytes

/-- The 4,096 payload bytes of parcel `p` of a slot's buffer (R5). -/
def Slot.payload (sl : Slot) (p : Fin 8) : List Byte := sl.buf.slice (p.val * Config.parcelBytes) Config.parcelBytes

/-- The mask bit of a parcel. -/
def parcelBit (p : Fin 8) : Byte := 1#8 <<< p.val

/-- Parcel `p` is set in a mask. -/
def hasParcel (m : Byte) (p : Fin 8) : Bool := m.getLsbD p.val

/-- A mask with every parcel set. -/
def fullMask : Byte := 0xFF

/-- The parcels 0 to 7. -/
def allParcels : List (Fin 8) := [0, 1, 2, 3, 4, 5, 6, 7]

/-- The mask of the parcels that satisfy a test. -/
def maskOf (t : Fin 8 → Bool) : Byte := allParcels.foldl (fun m p => if t p then m ||| parcelBit p else m) 0

/-- Some slot of the station, window or recall, holds `seg`. -/
def State.held (s : State) (seg : Nat) : Bool := allSlots.any fun id => (s.slot id).holds seg

/-- The recall slot that holds `seg`, the lowest-numbered if there were two. -/
def State.recallHolding (s : State) (seg : Nat) : Option (Fin 2) :=
  allRecallSlots.find? fun r => (s.slot (.rslot r)).holds seg

/-- The lowest-numbered usable recall slot. -/
def State.usableRecall (s : State) : Option (Fin 2) := allRecallSlots.find? fun r => (s.slot (.rslot r)).usable

/-! ### Readings of the job -/

/-- The station's number as a socket and roster key. -/
def State.own (s : State) : Fin 32 := s.ident.station.toFin

/-- The image size N of the adopted job; 0 with no job parameters. -/
def State.imageSize (s : State) : Nat :=
  match s.job.body with
  | some b => b.imageSize.toNat
  | none => 0

/-- A job state in which the station works on a job (R51, R58, R87). -/
def JobState.working : JobState → Bool
  | .enrolling | .copying | .closing | .orphaned => true
  | .idle | .finished | .cancelled => false

/-- A working job state other than ORPHANED. -/
def JobState.sourced : JobState → Bool
  | .enrolling | .copying | .closing => true
  | .idle | .finished | .cancelled | .orphaned => false

/-- COPYING or CLOSING (R174, R178, R179). -/
def JobState.recalling : JobState → Bool
  | .copying | .closing => true
  | .idle | .enrolling | .finished | .cancelled | .orphaned => false

/-- The verify setting of the job is on. -/
def State.verifyOn (s : State) : Bool :=
  match s.job.body with
  | some b => b.verify == 1
  | none => false

/-- `sender` is the source station the adopted job names. -/
def State.isSource (s : State) (sender : Byte) : Bool :=
  match s.job.body with
  | some b => b.srcStation == sender
  | none => false

/-- The master socket the adopted job names. -/
def State.masterSocket (s : State) : Fin 8 :=
  match s.job.body with
  | some b => ⟨b.srcSocket.toNat % 8, Nat.mod_lt _ (by decide)⟩
  | none => 0

/-- The header job number is the current job number. -/
def State.isCurrent (s : State) (job : Word16) : Bool := s.job.number == some job

end Sys2Proof.Machine
end

