-- ==== Sys2Proof/Machine/Flags.lean ====
section
/-! DEFINITION. What the station reports: codes, flags and lamps (R8, R36, R135, R137, R157), and the values computed from
the state that its rules test: SETTLED (R53), the low mark (R119, R120), the send mark (R65), the hold demand (R131). -/
namespace Sys2Proof.Machine

/-! ### Codes -/

/-- The job state codes (R8). -/
def JobState.code : JobState → BitVec 3
  | .idle => 0
  | .enrolling => 1
  | .copying => 2
  | .closing => 3
  | .finished => 4
  | .cancelled => 5
  | .orphaned => 6

/-- The refusal reason codes (R8). -/
def RefusalReason.code : RefusalReason → BitVec 3
  | .imageSize => 1
  | .source => 2
  | .config => 3
  | .patchKind => 4
  | .patchLength => 5
  | .patchPlace => 6
  | .patchNumber => 7

/-- The state code of a socket (R137). -/
def socketCode (st : SocketState) (r : Reason) : BitVec 4 :=
  match st with
  | .empty => 0
  | .attaching => 1
  | .ready => 2
  | .master => 3
  | .preparing => 4
  | .enrolled => 5
  | .copying => 6
  | .repaying => 7
  | .verifying => 8
  | .done => 9
  | .waiting => 10
  | .rejected => 11
  | .failed =>
    match r with
    | .owedOverflow | .unreachable => 13
    | .verifyLimit => 14
    | .sourceLost => 15
    | .writeError | .stall | .prepareError | .none | .tooSmall | .isProtected | .noResponse => 12

/-! ### Lamps -/

/-- The lamp patterns (R157). -/
inductive Lamp where
  | off | on | slow | fast
  deriving DecidableEq, Repr

/-- Green and amber by state and reason (R157). -/
def socketLamps (st : SocketState) (r : Reason) : Lamp × Lamp :=
  match st with
  | .empty => (.off, .off)
  | .attaching => (.fast, .off)
  | .ready => (.on, .slow)
  | .waiting => (.on, .slow)
  | .master => (.on, .fast)
  | .preparing => (.fast, .off)
  | .enrolled => (.slow, .off)
  | .copying => (.slow, .off)
  | .repaying => (.slow, .fast)
  | .verifying => (.fast, .fast)
  | .done => (.on, .off)
  | .rejected =>
    match r with
    | .isProtected => (.slow, .slow)
    | .noResponse => (.fast, .slow)
    | .tooSmall | .none | .writeError | .stall | .owedOverflow | .verifyLimit | .unreachable | .sourceLost
    | .prepareError => (.off, .slow)
  | .failed =>
    match r with
    | .stall | .unreachable => (.slow, .on)
    | .prepareError | .verifyLimit => (.fast, .on)
    | .sourceLost => (.on, .on)
    | .writeError | .owedOverflow | .none | .tooSmall | .isProtected | .noResponse => (.off, .on)

/-- Green and amber of a socket: off during the memory test, the MUTE pattern in MUTE, else by state (R32, R158). -/
def State.lamps (s : State) (k : Fin 8) : Lamp × Lamp :=
  if s.ident.memTest then (.off, .off)
  else if s.ident.mode = .mute then (.off, .fast)
  else socketLamps s.sockets[k].st s.sockets[k].reason

/-! ### SETTLED -/

/-- The states of a socket still in the job (R53, R150). -/
def SocketState.inJob : SocketState → Bool
  | .preparing | .enrolled | .copying | .repaying | .verifying => true
  | .empty | .attaching | .ready | .rejected | .done | .failed | .waiting | .master => false

/-- SETTLED: no socket is in PREPARING, ENROLLED, COPYING, REPAYING or VERIFYING (R53). -/
def State.settled (s : State) : Bool := allSockets.all fun k => !s.sockets[k].st.inJob

/-! ### Lists, rings and the low mark -/

/-- The owed list holds `seg`. -/
def Socket.owes (sk : Socket) (seg : Nat) : Bool := sk.owed.any fun e => e.seg == seg

/-- A descriptor in the ring names `seg`. -/
def Socket.queued (sk : Socket) (seg : Nat) : Bool := sk.ring.any fun d => d.seg == seg

/-- The socket lacks `seg`: not marked written, not in the ring, not owed (R106). -/
def Socket.lacks (sk : Socket) (seg : Nat) : Bool :=
  !sk.written.contains seg && !sk.queued seg && !sk.owes seg

/-- ENROLLED or COPYING (R67, R93, R120). -/
def SocketState.enrolledOrCopying : SocketState → Bool
  | .enrolled | .copying => true
  | .empty | .attaching | .ready | .rejected | .preparing | .repaying | .verifying | .done | .failed | .waiting
  | .master => false

/-- COPYING or REPAYING (R107, R109, R174). -/
def SocketState.copyingOrRepaying : SocketState → Bool
  | .copying | .repaying => true
  | .empty | .attaching | .ready | .rejected | .preparing | .enrolled | .verifying | .done | .failed | .waiting
  | .master => false

/-- First unwritten index (R119): the lowest segment below `n` neither marked nor owed; `n` if there is none. -/
def Socket.firstUnwritten (sk : Socket) (n : Nat) : Nat :=
  ((List.range n).find? fun i => !sk.written.contains i && !sk.owes i).getD n

/-- The contribution of a tied socket in ENROLLED or COPYING (R119, R120). -/
def State.contribution (s : State) (k : Fin 8) : Option Nat :=
  let sk := s.sockets[k]
  if sk.tie = .tied ∧ sk.st.enrolledOrCopying then some (max (sk.firstUnwritten s.imageSize) s.win.base) else none

/-- The station's low mark (R120). -/
def State.lowMark (s : State) : Option Nat := (allSockets.filterMap s.contribution).min?

/-- The segment of a new-data parcel the transmitter holds. -/
def Transmitter.newData : Transmitter → Option Nat
  | .holding { tag := .newData seg, .. } _ => some seg
  | .holding _ _ => none
  | .free => none

/-- The send mark (R65). -/
def State.sendMark (s : State) : Nat :=
  ((s.port.class6.map (·.1)) ++ s.port.tx.newData.toList).min?.getD s.win.next

/-! ### HOLD -/

/-- The enrollment cause (R131). -/
def State.enrollCause (s : State) : Bool :=
  s.job.st == .enrolling && allSockets.any fun k => s.sockets[k].st == .preparing

/-- The hold demand (R131), in ACTIVE (R133). -/
def State.holdDemand (s : State) : Bool := s.ident.mode == .active && (s.enrollCause || s.pacing.loss.cond)

/-- The HOLD line as the station sees it: the level last reported, or its own drive (R2, log entry 14). -/
def State.holdSeen (s : State) : Bool := s.port.holdLevel || s.pacing.hold == .asserted

/-- The hold-contribution flag of a socket (R135). -/
def State.holdFlag (s : State) (k : Fin 8) : Bool :=
  s.pacing.hold == .asserted && ((s.enrollCause && s.sockets[k].st == .preparing) || s.pacing.loss.cond)

/-! ### The beacon and the own roster entry -/

/-- A segment index, or 0FFFFFFFFh for none (R8). -/
def lowMarkField : Option Nat → Word32
  | some m => BitVec.ofNat 32 m
  | none => 0xFFFFFFFF#32

/-- The socket code byte (R8, R137). -/
def State.codeByte (s : State) (k : Fin 8) : Byte :=
  let sk := s.sockets[k]
  (0#2 ++ (BitVec.ofBool (s.holdFlag k) ++ BitVec.ofBool (sk.tie == .released))) ++ socketCode sk.st sk.reason

/-- The job number a beacon shows: 0 while IDLE (R36). -/
def State.shownJob (s : State) : Word16 := if s.job.st = .idle then 0 else s.job.number.getD 0

/-- The digest a beacon shows: 0 while IDLE (R36). -/
def State.shownDigest (s : State) : Word32 := if s.job.st = .idle then 0 else s.job.digest.getD 0

/-- The BEACON body fixed at this moment (R8, R36). -/
def State.beaconBody (s : State) : BeaconBody :=
  { modeBits := 1
    refusal := match s.job.refusal with
      | some r => r.code
      | none => 0
    jobState := s.job.st.code
    source := s.job.source
    settled := s.settled
    enrollClosed := s.job.enrollment == .closed
    digest := s.shownDigest
    base := if s.job.st = .idle then 0 else BitVec.ofNat 32 s.win.base
    lowMark := lowMarkField s.lowMark
    giveUps := s.port.giveUps
    badFrames := s.port.badFrames
    codes := allSockets.map s.codeByte }

/-- The station's own roster entry, as it stands (R37). -/
def State.ownEntry (s : State) : RosterEntry :=
  { st := .present
    job := s.shownJob
    digest := s.shownDigest
    jobState := s.job.st.code
    base := if s.job.st = .idle then 0 else BitVec.ofNat 32 s.win.base
    lowMark := s.lowMark
    settled := s.settled
    timer := none }

/-- A roster entry as a reader sees it: the own entry is computed (R37). -/
def State.entry (s : State) (x : Fin 32) : RosterEntry := if x = s.own then s.ownEntry else s.roster[x]

/-- A same-job entry: PRESENT, with the station's job number and digest (before R54). -/
def State.sameJob (s : State) (e : RosterEntry) : Bool :=
  e.st == .present && s.job.number == some e.job && s.job.digest == some e.digest

end Sys2Proof.Machine
end

