-- ==== Sys2Proof/Machine/Monitors.lean ====
section
/-! DEFINITION. The pacing unit's operations: the condition monitors (R123 to R126), the lag monitors with their ties
(R127 to R129), the loss monitor (R130) and the HOLD output (R131, R132). -/
namespace Sys2Proof.Machine

/-- The input level is high (R123). -/
def Monitor.high (m : Monitor) (level : Nat) : Bool := decide (m.threshold ≤ level)

/-- A running monitor takes an input report (R124); an idle one takes none. -/
def Monitor.report (level : Nat) (m : Monitor) : Monitor :=
  if !m.running then m
  else if m.high level then
    if m.cond || decide (1 ≤ m.duration) then { m with level := level } else { m with level := level, cond := true }
  else if m.cond && m.latched then { m with level := level }
  else { m with level := level, cond := false, run := 0 }

/-- A running monitor takes the end of a segment time (R125). -/
def Monitor.segmentEnd (m : Monitor) : Monitor :=
  if m.running && !m.cond && decide (1 ≤ m.duration) && m.high m.level then
    { m with run := m.run + 1, cond := decide (m.run + 1 = m.duration) }
  else m

/-- A monitor at adoption (R123): running or idle, with the job's threshold, duration and latch. -/
def Monitor.adopted (running : Bool) (threshold duration : Byte) (latched : Bool) : Monitor :=
  { running := running, level := 0, threshold := threshold.toNat, duration := duration.toNat, latched := latched, run := 0,
    cond := false }

/-- A lag condition acts on the tie: true releases a TIED socket, a return to false re-ties a RELEASED one (R128, R129). -/
def Tie.follow (before after : Bool) (t : Tie) : Tie :=
  match t with
  | .tied => if !before && after then .released else .tied
  | .released => if before && !after then .tied else .released
  | .none => .none
  | .loose => .loose

/-- Put a socket's lag monitor through a change, its tie following. -/
def Socket.lagBy (f : Monitor → Monitor) (sk : Socket) : Socket :=
  { sk with lag := f sk.lag, tie := sk.tie.follow sk.lag.cond (f sk.lag).cond }

/-- The occupancy of a socket's ring is reported to its lag monitor (R121, R127). -/
def reportOccupancy (k : Fin 8) : State → State := updSocket k fun sk => sk.lagBy (Monitor.report sk.ring.length)

/-- The HOLD output follows the hold demand (R132), as it stands at the end of a step: a demand whose cause changes within
one step stays true (log entry 24). -/
def judgeHold (s : State) : State :=
  if s.holdDemand then
    match s.pacing.hold with
    | .released => updPacing (fun p => { p with hold := .asserted, holdTimer := some Config.holdSpan }) s
    | .asserted | .spent => s
  else updPacing (fun p => { p with hold := .released, holdTimer := none }) s

/-- The number of pending needs is reported to the loss monitor (R85, R130). -/
def reportNeeds (s : State) : State := updPacing (fun p => { p with loss := p.loss.report s.repair.needs.length }) s

/-- A segment time ends at every running monitor (R122, R125). -/
def segmentTimeEnd (s : State) : State :=
  updPacing (fun p => { p with loss := p.loss.segmentEnd })
    (forSockets (fun k => updSocket k (Socket.lagBy Monitor.segmentEnd)) s)

/-- HOLD_EXPIRY (R132): an ASSERTED output whose timer runs becomes SPENT. -/
def holdExpired (s : State) : State :=
  if s.pacing.hold = .asserted ∧ s.pacing.holdTimer.isSome then
    updPacing (fun p => { p with hold := .spent, holdTimer := none }) s
  else s

end Sys2Proof.Machine
end

