-- ==== Sys2Proof/Machine/Operands.lean ====
section
/-! DEFINITION. The forms of the commands' operands: an arrival's frame and its hand-off (R15), a sender byte as a station
number, the data of a read, a capacity against an image size. -/
namespace Sys2Proof.Machine

/-- An arrival takes the hand-off the port made for it, if there is one (R15, log entry 7). -/
def takeHandoff (o : Owner) (sender : Byte) (job : Word16) (body : FrameBody) : State → State :=
  updPort fun p => { p with handoffs := p.handoffs.erase (o, { sender := sender, job := job, body := body }) }

/-- An arrival at a block: outside the memory test, the block acts on it and its hand-off is taken. -/
def arrival (o : Owner) (sender : Byte) (job : Word16) (body : FrameBody) (f : State → State) : State → State :=
  whenUp fun s => takeHandoff o sender job body (f s)

/-- The station number in a sender byte; none above 31, which R12 lets no BEACON carry. -/
def stationOf (sender : Byte) : Option (Fin 32) :=
  if h : sender.toNat < 32 then some ⟨sender.toNat, h⟩ else none

/-- The stick is large enough for the image: N × 64 sectors are N × 32,768 bytes (R45, R141). -/
def Socket.fits (sk : Socket) (n : Nat) : Bool := decide (n * Config.segmentSectors ≤ sk.capacity.getD 0)

/-- The 32,768 bytes a READ SEGMENT returned. -/
def readData (data : List Byte) : List Byte := exactBytes Config.segmentBytes data

/-- The 4,096 bytes of a PARCEL's payload. -/
def payloadData (data : List Byte) : List Byte := exactBytes Config.parcelBytes data

end Sys2Proof.Machine
end

