-- ==== Sys2Proof/Machine/Queues.lean ====
section
/-! DEFINITION. The operations of the write queues and of the socket lists: slot claims (R63), owed entries (R170, R171),
the emptying of a ring (R115), failure (R149), revocation (R112), queueing (R107, R108, R117), and what a descriptor write
starts from (R109, R160 to R162). -/
namespace Sys2Proof.Machine

/-! ### Claims on slots -/

/-- What a slot left with no claims becomes: a RETIRED slot FREE (R63), a WHOLE recall slot with no parcel to send FREE
(R83); any other keeps its state. -/
def Slot.settleClaims (isRecall : Bool) (sl : Slot) : Slot :=
  if sl.unclaimed then
    match sl.st with
    | .retired => sl.freed
    | .whole => if isRecall && sl.toSend == 0 then sl.freed else sl
    | .free | .reading | .filling | .damaged => sl
  else sl

/-- Whether a slot is a recall slot. -/
def SlotId.isRecall : SlotId → Bool
  | .win _ => false
  | .rslot _ => true

/-- The slot acts if it is left with no claims (R63, R83). -/
def settleSlot (id : SlotId) : State → State := updSlot id (Slot.settleClaims id.isRecall)

/-- A descriptor naming the slot was queued (R63). -/
def claimSlot (id : SlotId) : State → State := updSlot id fun sl => { sl with pending := sl.pending + 1 }

/-- A pending descriptor naming the slot was revoked or cancelled (R63). -/
def unclaimSlot (id : SlotId) (s : State) : State :=
  settleSlot id (updSlot id (fun sl => { sl with pending := sl.pending - 1 }) s)

/-- A descriptor naming the slot was taken by its engine (R63). -/
def startWrite (id : SlotId) : State → State :=
  updSlot id fun sl => { sl with pending := sl.pending - 1, inFlight := sl.inFlight + 1 }

/-- A write from the slot has ended (R63). -/
def endWrite (id : SlotId) (s : State) : State :=
  settleSlot id (updSlot id (fun sl => { sl with inFlight := sl.inFlight - 1 }) s)

/-- A master read into the slot ends without data: the flag is cleared, and a slot that still waits for it becomes FREE
(R69, R83). -/
def endMasterRead (dst : SlotId) : State → State :=
  updSlot dst fun sl =>
    if sl.masterRead && (sl.st == .reading || sl.st == .filling) then { sl.freed with masterRead := false }
    else { sl with masterRead := false }

/-! ### Ending the command in flight -/

/-- The command in flight is dropped with no result: a descriptor write's slot loses its write, a master read's slot its
flag (R115, R151, R152). -/
def abandonCommand (k : Fin 8) (s : State) : State :=
  let t := updSocket k (fun sk => { sk with cmd := none }) s
  match s.sockets[k].cmd with
  | some { purpose := .descriptor _ src _, .. } => endWrite src t
  | some { purpose := .master _ dst, .. } => endMasterRead dst t
  | some _ => t
  | none => t

/-! ### Emptying a ring; failing a socket -/

/-- The descriptor write in flight becomes detached; between attempts it ends at once (R115, log entry 21). -/
def detachWrite (k : Fin 8) (s : State) : State :=
  match s.sockets[k].cmd with
  | some c =>
    match c.purpose with
    | .descriptor seg src _ =>
      if c.portReset then abandonCommand k s
      else updSocket k (fun sk => { sk with cmd := some { c with purpose := .descriptor seg src true } }) s
    | .identify | .capacity | .protectStatus | .blanking | .verify _ | .master _ _ => s
  | none => s

/-- Empty a socket's ring (R115): pending descriptors end CANCELLED, a write in flight is detached, the occupancy of 0 is
reported. -/
def emptyRing (k : Fin 8) (s : State) : State :=
  let pend := s.sockets[k].ring.filter fun d => !d.inFlight
  let s := updSocket k (fun sk => { sk with ring := [] }) s
  let s := forEach pend (fun d => unclaimSlot d.src) s
  reportOccupancy k (detachWrite k s)

/-- Clear the lists of one socket: owed list, recheck list, verify record, expectation list (R165, R172). -/
def Socket.clearLists (sk : Socket) : Socket :=
  { sk with owed := [], recheck := [], passCount := 0, passList := [], cursor := none, expect := [] }

/-- A socket changes state, with its reason. -/
def setState (k : Fin 8) (st : SocketState) (r : Reason) : State → State :=
  updSocket k fun sk => { sk with st := st, reason := r }

/-- A socket becomes FAILED (R149); one that is FAILED already keeps its reason. -/
def failSocket (k : Fin 8) (r : Reason) (s : State) : State :=
  if s.sockets[k].st = .failed then s
  else
    setState k .failed r (emptyRing k (updSocket k (fun sk => { sk.clearLists with exit := none }) s))

/-! ### Owed entries -/

/-- Put an entry into an owed list at its ascending position; a segment already owed stays as it is (R171). -/
def insertOwed (e : OwedEntry) : List OwedEntry → List OwedEntry
  | [] => [e]
  | x :: xs => if e.seg < x.seg then e :: x :: xs else if e.seg = x.seg then x :: xs else x :: insertOwed e xs

/-- Add an owed entry (R171): a full list fails the socket, and a FAILED socket takes no additions (R114). -/
def addOwed (k : Fin 8) (seg : Nat) (origin : Origin) (attempts : Nat) (s : State) : State :=
  if s.sockets[k].st = .failed then s
  else if Config.owedSize ≤ s.sockets[k].owed.length then failSocket k .owedOverflow s
  else
    updSocket k (fun sk =>
      { sk with owed := insertOwed { seg := seg, record := { origin := origin, attempts := attempts } } sk.owed }) s

/-- The attempts a descriptor brings back to the owed list (R112). -/
def Descriptor.attempts (d : Descriptor) : Nat :=
  match d.owed with
  | some r => r.attempts
  | none => 0

/-! ### Revocation -/

/-- Revoke a pending descriptor of a socket's ring (R112, R108): it leaves the ring, its slot loses the claim, and its
segment is owed with the attempts already made. -/
def revoke (k : Fin 8) (d : Descriptor) (origin : Origin) (s : State) : State :=
  let s := updSocket k (fun sk => { sk with ring := sk.ring.erase d }) s
  let s := updSlot d.src (fun sl => { sl with pending := sl.pending - 1 }) s
  let s := addOwed k d.seg origin d.attempts s
  reportOccupancy k s

/-- Revoke every pending descriptor naming a slot, socket by socket in ring order (R112). A socket that fails on the way
has lost its other descriptors with its ring. -/
def revokeSlot (id : SlotId) : State → State :=
  forSockets fun k s =>
    forEach (s.sockets[k].ring.filter fun d => d.src == id && !d.inFlight)
      (fun d t => doIf (t.sockets[k].ring.contains d) (revoke k d .revoked) t) s

/-- A slot is taken back: its pending descriptors are revoked and it becomes FREE (R67, R68, R75, R79). -/
def takeBack (id : SlotId) (s : State) : State := updSlot id Slot.freed (revokeSlot id s)

/-! ### The patch plan -/

/-- An ASCII decimal digit. -/
def decDigit (n : Nat) : Byte := BitVec.ofNat 8 (0x30 + n % 10)

/-- An ASCII hexadecimal digit, capital letters (R160). -/
def hexDigit (n : Nat) : Byte := BitVec.ofNat 8 (if n % 16 < 10 then 0x30 + n % 16 else 0x41 + (n % 16 - 10))

/-- The byte string an entry produces for the socket with global socket number `g` (R160). -/
def patchString (serialBase : Word32) (g : Nat) (p : PatchEntry) : List Byte :=
  if p.kind = 1 then p.value.take p.len.toNat
  else if p.kind = 2 then [decDigit (g / 100), decDigit (g / 10), decDigit g]
  else
    let serial := (serialBase + BitVec.ofNat 32 g).toNat
    [7, 6, 5, 4, 3, 2, 1, 0].map fun i => hexDigit (serial / 16 ^ i)

/-- Put a replacement byte into a plan; a position already there keeps its byte. -/
def planInsert (pos : Nat) (b : Byte) : List (Nat × Byte) → List (Nat × Byte)
  | [] => [(pos, b)]
  | c :: cs =>
    if pos < c.1 then (pos, b) :: c :: cs else if pos = c.1 then c :: cs else c :: planInsert pos b cs

/-- Put a whole string into a plan from a position on. -/
def planString : Nat → List Byte → List (Nat × Byte) → List (Nat × Byte)
  | _, [], plan => plan
  | pos, b :: bs, plan => planString (pos + 1) bs (planInsert pos b plan)

/-- The patch plan for a segment and a socket (R161): entries in entry-number order, the lowest number winning. -/
def patchPlan (patches : List PatchEntry) (serialBase : Word32) (g seg : Nat) : List (Nat × Byte) :=
  (patches.filter fun p => p.seg.toNat == seg).foldl
    (fun plan p => planString p.offset.toNat (patchString serialBase g p) plan) []

/-- Pass bytes through a plan whose positions count from `pos` (R162). -/
def applyPlan : Nat → List (Nat × Byte) → List Byte → List Byte
  | _, _, [] => []
  | _, [], b :: bs => b :: bs
  | pos, c :: cs, b :: bs =>
    if c.1 = pos then c.2 :: applyPlan (pos + 1) cs bs else b :: applyPlan (pos + 1) (c :: cs) bs

/-- The global socket number (R25, R160). -/
def State.globalSocket (s : State) (k : Fin 8) : Nat := 8 * s.ident.station.toNat + k.val

/-- The serial base of the job. -/
def State.serialBase (s : State) : Word32 :=
  match s.job.body with
  | some b => b.serialBase
  | none => 0

/-- The plan the patch unit fixes for a socket and a segment (R162). -/
def State.planFor (s : State) (k : Fin 8) (seg : Nat) : List (Nat × Byte) :=
  patchPlan s.patches s.serialBase (s.globalSocket k) seg

/-- Some patch entry names the segment (R165). -/
def State.isPatched (s : State) (seg : Nat) : Bool := s.patches.any fun p => p.seg.toNat == seg

/-! ### Issuing a stick command -/

/-- A command at its first attempt, its stall timer started (R138). -/
def Command.first (p : Purpose) : Command :=
  { purpose := p, attempt := 1, stall := some Config.stallSpan, portReset := false, plan := [], reference := 0,
    verdict := none }

/-- The engine issues a command (R138). -/
def issue (k : Fin 8) (p : Purpose) : State → State := updSocket k fun sk => { sk with cmd := some (Command.first p) }

/-- The engine issues WRITE SEGMENT for a descriptor: plan and reference check are fixed at its start (R162). -/
def State.writeCommand (s : State) (k : Fin 8) (seg : Nat) (src : SlotId) : Command :=
  { Command.first (.descriptor seg src false) with plan := s.planFor k seg, reference := Sparse.read s.win.checkTable seg }

/-- The command is issued again for the same purpose (R139); a descriptor write fixes plan and reference anew (R162). -/
def retry (k : Fin 8) (s : State) : State :=
  match s.sockets[k].cmd with
  | some c =>
    let fresh : Command :=
      match c.purpose with
      | .descriptor seg src _ => s.writeCommand k seg src
      | .identify | .capacity | .protectStatus | .blanking | .verify _ | .master _ _ => Command.first c.purpose
    updSocket k (fun sk => { sk with cmd := some { fresh with attempt := c.attempt + 1 } }) s
  | none => s

/-! ### The engine takes a descriptor -/

/-- The source of a descriptor is ready (R109). -/
def State.ready (s : State) (d : Descriptor) : Bool :=
  match d.src with
  | .win i => (s.slot (.win i)).holdsIn d.seg .whole || (s.slot (.win i)).holdsIn d.seg .retired
  | .rslot r => (s.slot (.rslot r)).holdsIn d.seg .whole

/-- The descriptor the engine would take: the oldest PENDING one whose source is ready (R109). -/
def State.nextReady (s : State) (k : Fin 8) : Option Descriptor :=
  s.sockets[k].ring.find? fun d => !d.inFlight && s.ready d

/-- An idle engine in COPYING or REPAYING takes its oldest ready descriptor (R109, R145). -/
def takeDescriptor (k : Fin 8) (s : State) : State :=
  if s.sockets[k].st.copyingOrRepaying ∧ s.sockets[k].cmd = none ∧ s.sockets[k].exit = none then
    match s.nextReady k with
    | some d =>
      let s := startWrite d.src s
      let s := updSocket k (fun sk =>
        { sk with
          ring := sk.ring.replace d { d with inFlight := true }
          cmd := some (s.writeCommand k d.seg d.src) }) s
      reportOccupancy k s
    | none => s
  else s

/-! ### Queueing -/

/-- The oldest pending descriptor of a full ring is revoked with origin OVERRUN (R108). -/
def overrun (k : Fin 8) (s : State) : State :=
  if Config.ringSize ≤ s.sockets[k].ring.length then
    match s.sockets[k].ring.find? fun d => !d.inFlight with
    | some d => settleSlot d.src (revoke k d .overrun s)
    | none => s
  else s

/-- Queue a descriptor naming a slot to a socket (R107), after any overrun (R108). An ENROLLED socket moves to COPYING and
takes it in the same step (R144). A socket that the overrun has failed, or whose ring is still full, receives nothing. -/
def queueDescriptor (k : Fin 8) (id : SlotId) (seg : Nat) (s : State) : State :=
  let s := overrun k s
  let sk := s.sockets[k]
  if sk.st = .failed ∨ Config.ringSize ≤ sk.ring.length then s
  else
    let d : Descriptor :=
      { seg := seg, src := id, inFlight := false, owed := (sk.owed.find? fun e => e.seg == seg).map (·.record) }
    let s := updSocket k (fun sk =>
      { sk with ring := sk.ring ++ [d], owed := sk.owed.filter fun e => e.seg != seg }) s
    let s := reportOccupancy k (claimSlot id s)
    if sk.st = .enrolled then takeDescriptor k (setState k .copying .none s) else s

/-- The socket receives a descriptor at an offer of the slot (R107, the table of cases). -/
def Socket.wants (sk : Socket) (id : SlotId) (seg : Nat) : Bool :=
  match id with
  | .win _ =>
    (sk.st.enrolledOrCopying && sk.lacks seg) || ((sk.st.enrolledOrCopying || sk.st == .repaying) && sk.owes seg)
  | .rslot _ => sk.st.copyingOrRepaying && sk.owes seg

/-- A slot is offered to one socket, which takes it if it wants it (R107). -/
def offerTo (id : SlotId) (seg : Nat) (k : Fin 8) (s : State) : State :=
  doIf (s.sockets[k].wants id seg) (queueDescriptor k id seg) s

/-- The window offers a slot to the write queues (R107); a slot left without claims acts on it (R83). -/
def offer (id : SlotId) (seg : Nat) (s : State) : State := settleSlot id (forSockets (offerTo id seg) s)

/-- A slot that holds a segment for the offer of R117: a window slot in WHOLE or RETIRED, a recall slot in WHOLE. -/
def State.offering (s : State) (seg : Nat) : Option SlotId :=
  allSlots.find? fun id =>
    (s.slot id).holdsIn seg .whole || (!id.isRecall && (s.slot id).holdsIn seg .retired)

/-- A socket enters REPAYING and is offered the slots that hold what it owes, in ascending order (R117). -/
def enterRepaying (k : Fin 8) (s : State) : State :=
  let s := setState k .repaying .none s
  forEach (s.sockets[k].owed.map (·.seg))
    (fun seg t =>
      match t.offering seg with
      | some id => offerTo id seg k t
      | none => t) s

end Sys2Proof.Machine
end

