-- ==== Sys2Proof/Machine/PassOps.lean ====
section
/-! DEFINITION. The verify passes of a socket (R184 to R186) and the moving on of sockets (R146, R147). -/
namespace Sys2Proof.Machine

/-! ### Verify passes -/

/-- A verify pass ends with its last read (R186). -/
def endPass (k : Fin 8) (s : State) : State :=
  let sk := s.sockets[k]
  let s := updSocket k (fun sk => { sk with passList := [], cursor := none }) s
  if sk.owed = [] then setState k .done .none s
  else if sk.passCount < Config.maxPasses then enterRepaying k s
  else failSocket k .verifyLimit s

/-- The unit names the segment at the cursor, whose read is issued; past the last one the pass ends (R184, R185). -/
def nameNext (k : Fin 8) (s : State) : State :=
  match s.sockets[k].cursor.bind fun i => s.sockets[k].passList[i]? with
  | some seg => issue k (.verify seg) s
  | none => endPass k s

/-- A socket enters VERIFYING and a pass begins (R184). -/
def beginPass (k : Fin 8) (s : State) : State :=
  let n := s.imageSize
  let s := setState k .verifying .none s
  nameNext k (updSocket k (fun sk =>
    { sk with
      passCount := sk.passCount + 1
      passList := if sk.passCount = 0 then List.range n else sk.recheck
      recheck := []
      cursor := some 0 }) s)

/-! ### Moving on -/

/-- A socket with nothing left to write or repay: VERIFYING with verify on, DONE with it off (R146, R147). -/
def finishWriting (k : Fin 8) (s : State) : State := if s.verifyOn then beginPass k s else setState k .done .none s

/-- A socket with an empty ring moves on (R146, R147). -/
def moveOn (k : Fin 8) (s : State) : State :=
  let sk := s.sockets[k]
  if s.job.st.working ∧ sk.ring = [] ∧ sk.cmd = none ∧ sk.exit = none then
    if sk.st.enrolledOrCopying then
      if s.win.base = s.imageSize then if sk.owed = [] then finishWriting k s else enterRepaying k s else s
    else if sk.st = .repaying ∧ sk.owed = [] then finishWriting k s
    else s
  else s

end Sys2Proof.Machine
end

