-- ==== Sys2Proof/Machine/RepairOps.lean ====
section
/-! DEFINITION. The operations of the repair unit: gap reports and pending needs (R85 to R94), exhaustion (R93, R113), and
the answer queue (R97 to R102). -/
namespace Sys2Proof.Machine

/-- The pending need for a segment. -/
def State.need (s : State) (seg : Nat) : Option NeedEntry := s.repair.needs.find? fun e => e.seg == seg

/-- Change the pending need for a segment. -/
def updNeed (seg : Nat) (f : NeedEntry → NeedEntry) : State → State :=
  updRepair fun r => { r with needs := r.needs.map fun e => if e.seg = seg then f e else e }

/-- Put a pending need into the table at its ascending position. -/
def insertNeed (e : NeedEntry) : List NeedEntry → List NeedEntry
  | [] => [e]
  | x :: xs => if e.seg < x.seg then e :: x :: xs else if e.seg = x.seg then x :: xs else x :: insertNeed e xs

/-- The pending needs that fail a test leave the table, with their NEED frames waiting in class 4, and the count is
reported (R85, R94). -/
def keepNeeds (t : Nat → Bool) (s : State) : State :=
  reportNeeds
    (updPort (fun p => { p with class4 := p.class4.filter t })
      (updRepair (fun r => { r with needs := r.needs.filter fun e => t e.seg }) s))

/-- The pending need for a segment leaves the table (R94). -/
def dropNeed (seg : Nat) : State → State := keepNeeds fun x => x != seg

/-- The next delay before a NEED, 0 to 2 ms (R85). -/
def State.needDelay (s : State) : Timer := some (Config.drawnDelay s.draws 0 Config.needDelayMax)

/-- A pending need waits out a newly drawn delay (R87, R91, R92, R96). -/
def rewait (seg : Nat) (missing : Byte) (s : State) : State :=
  nextDraw (updNeed seg (fun e => { e with missing := missing, st := .waitingDelay, timer := s.needDelay }) s)

/-- A gap report: a segment and the parcels now known to be missing (R87). -/
def gapReport (seg : Nat) (m : Byte) (s : State) : State :=
  if s.job.st.working ∧ m ≠ 0 ∧ seg ∉ s.repair.exhausted ∧ s.win.base ≤ seg ∧ seg < s.win.base + Config.windowSlots then
    match s.need seg with
    | none =>
      reportNeeds (nextDraw (updRepair (fun r =>
        { r with needs := insertNeed { seg := seg, missing := m, count := 0, st := .waitingDelay, timer := s.needDelay }
                            r.needs }) s))
    | some e =>
      match e.st with
      | .waitingDelay | .asked _ => updNeed seg (fun e => { e with missing := e.missing ||| m }) s
      | .suppressed => if e.missing ||| m = e.missing then s else rewait seg (e.missing ||| m) s
  else s

/-- A slot has become DAMAGED (R90): a gap report of all eight parcels, which leaves the state, the count and the timer of
an entry that exists, a SUPPRESSED one too, where R87 would draw it a new delay (log entry 34). -/
def damageReport (seg : Nat) (s : State) : State :=
  match s.need seg with
  | some _ =>
    doIf (s.job.st.working && !s.repair.exhausted.contains seg && decide (s.win.base ≤ seg) &&
      decide (seg < s.win.base + Config.windowSlots)) (updNeed seg fun e => { e with missing := fullMask }) s
  | none => gapReport seg fullMask s

/-- The window has placed a parcel: its bit is cleared in the pending need, which leaves when its mask is empty (R94). -/
def parcelPlaced (seg : Nat) (p : Fin 8) (s : State) : State :=
  match s.need seg with
  | some e =>
    if e.missing &&& ~~~ parcelBit p = 0 then dropNeed seg s
    else updNeed seg (fun e => { e with missing := e.missing &&& ~~~ parcelBit p }) s
  | none => s

/-- The window reports a slot WHOLE: the pending need closes, and the segment leaves the exhausted set (R86, R94). -/
def segmentWhole (seg : Nat) (s : State) : State :=
  dropNeed seg (updRepair (fun r => { r with exhausted := r.exhausted.filter fun x => x != seg }) s)

/-- The answer entries that fail a test are removed, from class 5 too (R102). -/
def keepAnswers (t : Nat → Bool) (s : State) : State :=
  updPort (fun p => { p with class5 := p.class5.filter t })
    (updRepair (fun r => { r with answers := r.answers.filter fun e => t e.seg }) s)

/-- The answer entry for a segment is removed (R102). -/
def dropAnswer (seg : Nat) : State → State := keepAnswers fun x => x != seg

/-- A base rise passes every entry below the new base (R67, R86, R94, R102). -/
def passRepair (base : Nat) (s : State) : State :=
  keepNeeds (fun x => decide (base ≤ x))
    (keepAnswers (fun x => decide (base ≤ x))
      (updRepair (fun r => { r with exhausted := r.exhausted.filter fun x => decide (base ≤ x) }) s))

/-- The sockets in ENROLLED or COPYING that lack a segment come to owe it (R67, R93). -/
def oweLacking (seg : Nat) (origin : Origin) : State → State :=
  forSockets fun k s =>
    doIf (s.sockets[k].st.enrolledOrCopying && s.sockets[k].lacks seg) (addOwed k seg origin 0) s

/-- A pending need is exhausted (R93): it leaves, its segment joins the exhausted set and is owed, and the pending
descriptors of a DAMAGED slot that holds it are revoked (R113). -/
def exhaustNeed (seg : Nat) (s : State) : State :=
  let s := dropNeed seg (updRepair (fun r => { r with exhausted := insertSeg seg r.exhausted }) s)
  let s := oweLacking seg .needExhausted s
  doIf ((s.slot (.win (winOf seg))).holdsIn seg .damaged) (revokeSlot (.win (winOf seg))) s

/-! ### The answering side -/

/-- The answer entry for a segment. -/
def State.answer (s : State) (seg : Nat) : Option AnswerEntry := s.repair.answers.find? fun e => e.seg == seg

/-- Change the answer entry for a segment. -/
def updAnswer (seg : Nat) (f : AnswerEntry → AnswerEntry) : State → State :=
  updRepair fun r => { r with answers := r.answers.map fun e => if e.seg = seg then f e else e }

/-- The lowest parcel set in a mask; 0 in an empty one, which no entry has. -/
def lowestParcel (m : Byte) : Fin 8 := (allParcels.find? (hasParcel m)).getD 0

/-- The first parcel set in a mask from `start` on, in wrap order (R100). -/
def nextSet (m : Byte) (start : Fin 8) : Option (Fin 8) := (allParcels.map (start + ·)).find? (hasParcel m)

/-- A DELAYING entry enters SENDING and joins class 5 (R100). -/
def startSending (seg : Nat) (s : State) : State :=
  updPort (fun p => { p with class5 := p.class5 ++ [seg] })
    (updAnswer seg (fun e => { e with sending := true, timer := none, nextParcel := lowestParcel e.mask }) s)

/-- A NEED at the answering side (R98). The next parcel of a DELAYING entry, to which R97 gives no value, is 0 (DESIGN CHOICE,
log entry 31). -/
def answerNeed (seg : Nat) (m : Byte) (s : State) : State :=
  if (s.slot (.win (winOf seg))).holdsIn seg .whole ∧ (s.job.source = true → seg < s.win.next) then
    match s.answer seg with
    | some _ => updAnswer seg (fun e => { e with mask := e.mask ||| m }) s
    | none =>
      if Config.answerSize ≤ s.repair.answers.length then s
      else
        let e : AnswerEntry := { seg := seg, mask := m, sending := false, timer := none, nextParcel := 0 }
        if s.job.source then
          startSending seg (updRepair (fun r => { r with answers := r.answers ++ [e] }) s)
        else
          nextDraw (updRepair (fun r =>
            { r with answers := r.answers ++
                [{ e with timer := some (Config.drawnDelay s.draws Config.answerDelayMin Config.answerDelayMax) }] }) s)
  else s

/-- A NEED at the asking side (R95): one that covers the pending need of its segment suppresses it or restarts its
timer. -/
def coverNeed (seg : Nat) (m : Byte) (s : State) : State :=
  match s.need seg with
  | some e =>
    if e.missing &&& ~~~ m = 0 then
      match e.st with
      | .waitingDelay => updNeed seg (fun e => { e with st := .suppressed, timer := some Config.retrySpan }) s
      | .asked .inClass =>
        updPort (fun p => { p with class4 := p.class4.filter fun x => x != seg })
          (updNeed seg (fun e =>
            { e with st := .suppressed, count := e.count - 1, timer := some Config.retrySpan }) s)
      | .asked .held => s
      | .asked .retry => updNeed seg (fun e => { e with timer := some Config.retrySpan }) s
      | .suppressed => updNeed seg (fun e => { e with timer := some Config.retrySpan }) s
    else s
  | none => s

/-- A parcel for the segment that arrived now would be discarded (R75, R91). -/
def Slot.discards (sl : Slot) : Bool :=
  match sl.st with
  | .free => !sl.usable
  | .damaged | .retired => decide (0 < sl.inFlight)
  | .reading | .filling | .whole => false

end Sys2Proof.Machine
end

