-- ==== Sys2Proof/Machine/WindowOps.lean ====
section
/-! DEFINITION. The operations of the segment window: base rise (R67), enrollment close (R49), parcel placement and slot
completion (R75, R77, R81, R82), corruption (R79), master reads (R68, R69, R180). -/
namespace Sys2Proof.Machine

/-! ### Exit targets -/

/-- A socket reaches READY and is placed by the job state (R141). -/
def placeReady (k : Fin 8) (s : State) : State :=
  match s.job.st with
  | .idle | .finished | .cancelled => setState k .ready .none s
  | .enrolling =>
    if s.sockets[k].fits s.imageSize then setState k .preparing .none (issue k .blanking s)
    else setState k .rejected .tooSmall s
  | .copying | .closing | .orphaned => setState k .waiting .none s

/-- A socket takes an exit target (R150). -/
def takeTarget (k : Fin 8) (t : ExitTarget) (s : State) : State :=
  let s := updSocket k (fun sk => { sk with exit := none }) s
  match t with
  | .waiting => setState k .waiting .none s
  | .ready => placeReady k s
  | .sourceLost => failSocket k .sourceLost s

/-- A socket is given an exit target (R143, R150): taken at once with no command in flight or between attempts, otherwise
when the present attempt ends. -/
def giveExit (k : Fin 8) (t : ExitTarget) (s : State) : State :=
  match s.sockets[k].cmd with
  | none => takeTarget k t s
  | some c =>
    if c.portReset then takeTarget k t (abandonCommand k s)
    else updSocket k (fun sk => { sk with exit := some t }) s

/-- The present attempt of a socket ends with its result discarded, and an exit target is taken (R150). -/
def endDiscarded (k : Fin 8) (s : State) : State :=
  let t := abandonCommand k s
  match s.sockets[k].exit with
  | some x => takeTarget k x t
  | none => t

/-! ### Enrollment close -/

/-- Enrollment closes at the station, once (R49): ENROLLING, or the former state ENROLLING of an orphan, becomes COPYING,
and a socket still PREPARING is bound for WAITING (R143). -/
def closeEnrollment (s : State) : State :=
  let closeSockets : State → State :=
    forSockets fun k t => doIf (t.sockets[k].st == .preparing) (giveExit k .waiting) t
  if s.job.st = .enrolling then
    closeSockets (updJob (fun j => { j with st := .copying, enrollment := .closed }) s)
  else if s.job.st = .orphaned ∧ s.job.former = some .enrolling then
    closeSockets (updJob (fun j => { j with former := some .copying, enrollment := .closed }) s)
  else s

/-! ### Base -/

/-- A slot whose segment the base passes (R67). -/
def passSlot (base : Nat) (i : Fin 16) (s : State) : State :=
  let sl := s.slot (.win i)
  match sl.seg with
  | some seg =>
    if seg < base then
      match sl.st with
      | .whole => updSlot (.win i) (fun sl => if sl.unclaimed then sl.freed else { sl with st := .retired }) s
      | .filling => updSlot (.win i) Slot.freed s
      | .damaged => takeBack (.win i) s
      | .free | .reading | .retired => s
    else s
  | none => s

/-- The base has reached N: COPYING becomes CLOSING, as an orphan's former state too (R50). -/
def closeJob (s : State) : State :=
  if s.job.st = .copying then updJob (fun j => { j with st := .closing }) s
  else if s.job.st = .orphaned ∧ s.job.former = some .copying then updJob (fun j => { j with former := some .closing }) s
  else s

/-- The report that the base has reached N: to the job controller (R50), and to the engines, each of which judges in the
same step whether its socket moves on (R146). -/
def baseReached (s : State) : State := forSockets moveOn (closeJob s)

/-- The segments below `b` leave the window (R67): the base is `b`, then the repair unit's entries, the slots, and the
WINDOW-MISSED owed entries in ascending order. -/
def passBase (b : Nat) (s : State) : State :=
  let old := s.win.base
  let s := passRepair b (updWin (fun w => { w with base := b }) s)
  let s := forEach allWinSlots (passSlot b) s
  forEach (List.range' old (b - old)) (fun seg => oweLacking seg .windowMissed) s

/-- A rise of base to `b` (R67): when its step is complete, a base of N is reported. -/
def baseRise (b : Nat) (s : State) : State := doIf (b == s.imageSize) baseReached (passBase b s)

/-- A base reported by the source is adopted if it is larger and at most N (R66); a rise closes an enrollment that is
still open (R49). -/
def adoptBase (b : Nat) (s : State) : State :=
  if s.job.st.sourced ∧ s.win.base < b ∧ b ≤ s.imageSize then baseRise b (closeEnrollment s) else s

/-- The candidate base of the source (R65). -/
def State.candidateBase (s : State) : Nat :=
  let marks := allStations.filterMap fun x => if s.sameJob (s.entry x) then (s.entry x).lowMark else none
  min (marks.min?.getD s.sendMark) s.sendMark

/-- The source takes its candidate base if it is larger (R65). -/
def judgeBase (s : State) : State :=
  if s.job.source ∧ s.job.st.sourced ∧ s.win.base < s.candidateBase then baseRise s.candidateBase s else s

/-- The source's candidate is computed again, at most `n` times, after a rise that has itself made it larger: a rise may
fail a tied socket (R67, R112, R114), and the low mark it leaves is judged in the same step (R65, R120). -/
def judgeBases : Nat → State → State
  | 0, s => s
  | n + 1, s =>
    if s.job.source ∧ s.job.st.sourced ∧ s.win.base < s.candidateBase then judgeBases n (judgeBase s) else s

/-- The source's base at the end of a step: no candidate is larger (R65, R120). Each rise brings the base nearer to the
send mark, which no candidate passes and no rise moves. -/
def settleBase (s : State) : State := judgeBases (s.sendMark - s.win.base) s

/-! ### Parcels -/

/-- What becomes of a parcel at its slot (R75). -/
inductive Placing where
  | placed | discarded | ignored
  deriving DecidableEq, Repr

/-- A slot takes a segment with its first parcel (R75, R81). -/
def Slot.take (seg : Nat) (b : ParcelBody) (span : Nat) (sl : Slot) : Slot :=
  { sl with
    st := .filling, seg := some seg, mask := parcelBit b.parcel, check := b.check, timer := some span
    buf := sl.buf.store (b.parcel.val * Config.parcelBytes) (payloadData b.payload) }

/-- A slot takes a further parcel. -/
def Slot.addParcel (b : ParcelBody) (sl : Slot) : Slot :=
  { sl with
    mask := sl.mask ||| parcelBit b.parcel
    buf := sl.buf.store (b.parcel.val * Config.parcelBytes) (payloadData b.payload) }

/-- Place a parcel inside the window by the state of its slot (R75), with what became of it; a segment that a recall slot
already holds is refused (R62). -/
def placeParcel (seg : Nat) (b : ParcelBody) (s : State) : Placing × State :=
  let id := SlotId.win (winOf seg)
  let sl := s.slot id
  let fresh (t : State) : Placing × State :=
    if (t.slot id).usable then (.placed, updSlot id (Slot.take seg b Config.gapSpan) t) else (.discarded, t)
  let further : Placing × State :=
    if hasParcel sl.mask b.parcel then (.ignored, s)
    else (.placed, updSlot id (fun sl => { sl.addParcel b with timer := some Config.gapSpan }) s)
  if (s.recallHolding seg).isSome then (.ignored, s)
  else match sl.st with
  | .free => fresh s
  | .retired => fresh (takeBack id s)
  | .filling => if sl.holds seg then further else (.ignored, s)
  | .damaged =>
    if sl.holds seg then if sl.inFlight = 0 then further else (.discarded, s) else (.ignored, s)
  | .whole => (.ignored, s)
  | .reading => (.ignored, s)

/-- A window slot's mask is full: the check decides (R77). -/
def completeSlot (seg : Nat) (s : State) : State :=
  let id := SlotId.win (winOf seg)
  let sl := s.slot id
  if sl.mask = fullMask then
    if check sl.bytes = sl.check then
      let s := updSlot id (fun sl => { sl with st := .whole, timer := none }) s
      let s := updWin (fun w => { w with checkTable := Sparse.write w.checkTable seg sl.check }) s
      offer id seg (segmentWhole seg s)
    else
      damageReport seg
        (updSlot id (fun sl => { sl with st := .damaged, mask := 0, timer := some Config.gapSpan }) s)
  else s

/-- Place a parcel, report it to the repair unit and complete the slot if its mask is full (R75, R77, R94). The report of
the placed parcel comes before the completion's own report (R90), an order the spec leaves open (log entry 35). -/
def takeParcel (seg : Nat) (b : ParcelBody) (s : State) : Placing × State :=
  match placeParcel seg b s with
  | (.placed, t) => (.placed, completeSlot seg (parcelPlaced seg b.parcel t))
  | (.discarded, t) => (.discarded, t)
  | (.ignored, t) => (.ignored, t)

/-- The parcels of an earlier segment a new-data parcel shows to be missing (R88). -/
def State.missingOf (s : State) (seg : Nat) : Byte :=
  let sl := s.slot (.win (winOf seg))
  if sl.holds seg then
    match sl.st with
    | .filling | .damaged => ~~~ sl.mask
    | .whole | .free | .reading | .retired => 0
  else fullMask

/-- The parcels of its own segment a new-data parcel shows to be missing (R88). -/
def State.missingBefore (s : State) (seg : Nat) (p : Fin 8) (out : Placing) : Byte :=
  if out = .discarded then maskOf fun q => decide (q ≤ p)
  else
    let sl := s.slot (.win (winOf seg))
    if sl.holdsIn seg .filling || sl.holdsIn seg .damaged then maskOf fun q => decide (q < p) && !hasParcel sl.mask q
    else 0

/-- The gap reports of a new-data parcel, with the slots as they now stand (R88). -/
def gapReports (seg : Nat) (p : Fin 8) (out : Placing) (s : State) : State :=
  let s := gapReport seg (s.missingBefore seg p out) s
  forEach (List.range' s.win.base (seg - s.win.base)) (fun t u => gapReport t (u.missingOf t) u) s

/-! ### Recall slots at a sink -/

/-- A recall slot's mask is full: the check decides (R82). -/
def completeRecall (r : Fin 2) (seg : Nat) (s : State) : State :=
  let id := SlotId.rslot r
  let sl := s.slot id
  if sl.mask = fullMask then
    if check sl.bytes = sl.check then
      let s := updSlot id (fun sl => { sl with st := .whole, timer := none }) s
      let s := updWin (fun w => { w with checkTable := Sparse.write w.checkTable seg sl.check }) s
      offer id seg s
    else updSlot id (fun sl => { sl with st := .damaged, mask := 0, timer := some Config.recallSpan }) s
  else s

/-- Place a RECALL-flagged parcel in the first case that applies (R81). -/
def placeRecall (seg : Nat) (b : ParcelBody) (s : State) : State :=
  if (s.slot (.win (winOf seg))).holdsIn seg .retired then offer (.win (winOf seg)) seg s
  else
    match s.recallHolding seg with
    | some r =>
      let sl := s.slot (.rslot r)
      if (sl.st = .filling ∨ sl.st = .damaged) ∧ hasParcel sl.mask b.parcel = false ∧ sl.inFlight = 0 then
        completeRecall r seg (updSlot (.rslot r) (Slot.addParcel b) s)
      else s
    | none =>
      if s.held seg = false ∧ allSockets.any (fun k => s.sockets[k].owes seg) then
        match s.usableRecall with
        | some r => updSlot (.rslot r) (Slot.take seg b Config.recallSpan) s
        | none => s
      else s

/-! ### Corruption -/

/-- The recall parcels of a source recall slot are no longer to be sent: they leave class 7, the count becomes 0, and the
report of one already taken changes no count (R79). -/
def dropRecallParcels (r : Fin 2) (s : State) : State :=
  let s := updSlot (.rslot r) (fun sl => { sl with toSend := 0 }) s
  updPort (fun p =>
    { p with
      class7 := p.class7.filter fun x => x.1 != r
      tx := match p.tx with
        | .holding h ph => .holding (if h.tag = .recallParcel r then { h with tag := .stale } else h) ph
        | .free => .free }) s

/-- A corruption report for a slot and a segment (R79, R90, R102). -/
def corruption (id : SlotId) (seg : Nat) (s : State) : State :=
  let sl := s.slot id
  if sl.holds seg then
    match id with
    | .win i =>
      match sl.st with
      | .whole =>
        damageReport seg (dropAnswer seg
          (updSlot (.win i) (fun sl => { sl with st := .damaged, mask := 0, timer := some Config.gapSpan }) s))
      | .retired => takeBack (.win i) s
      | .free | .reading | .filling | .damaged => s
    | .rslot r =>
      match sl.st with
      | .whole => takeBack (.rslot r) (dropRecallParcels r s)
      | .free | .reading | .filling | .damaged | .retired => s
  else s

/-! ### Master reads -/

/-- The conditions of a read-ahead read, but for its slot (R68). -/
def State.readAheadDue (s : State) : Bool :=
  s.job.source && s.job.st.sourced && decide (s.win.readMark < s.imageSize) &&
    decide (s.win.readMark < s.win.base + Config.windowSlots) &&
    s.sockets[s.masterSocket].st == .master && s.sockets[s.masterSocket].cmd == none

/-- A read-ahead read is possible (R68): its slot is FREE and usable, or RETIRED and usable once taken back (log entry
33). -/
def State.readAheadPossible (s : State) : Bool :=
  s.readAheadDue &&
    ((s.slot (.win (winOf s.win.readMark))).usable ||
      ((s.slot (.win (winOf s.win.readMark))).st == .retired && (s.slot (.win (winOf s.win.readMark))).inFlight == 0))

/-- The data of a good master read goes to its slot (R69, R83): the check is computed and stored, and the slot is WHOLE. -/
def Slot.filled (data : List Byte) (sl : Slot) : Slot :=
  { sl with
    st := .whole, mask := fullMask, check := Sys2Proof.Machine.check data, timer := none, masterRead := false
    buf := sl.buf.store 0 data }

/-- The eight recall parcels of a slot, in parcel order (R180). -/
def recallParcels (r : Fin 2) : List (Fin 2 × Fin 8) := allParcels.map fun p => (r, p)

/-- A master read for a segment completes good (R69, R83, R180). A slot that no longer waits for it discards the data. -/
def masterReadGood (seg : Nat) (dst : SlotId) (data : List Byte) (s : State) : State :=
  let sl := s.slot dst
  if sl.masterRead ∧ ((sl.st = .reading ∨ sl.st = .filling) ∧ sl.holds seg) then
    let s := updSlot dst (Slot.filled data) s
    let s := updWin (fun w => { w with checkTable := Sparse.write w.checkTable seg (check data) }) s
    match dst with
    | .win _ => s
    | .rslot r =>
      let s := updSlot dst (fun sl => { sl with toSend := 8 }) s
      let s := updPort (fun p => { p with class7 := p.class7 ++ recallParcels r }) s
      offer dst seg s
  else endMasterRead dst s

end Sys2Proof.Machine
end

