-- ==== Sys2Proof/Machine/JobOps.lean ====
section
/-! DEFINITION. The operations of the job controller: the end of a job and its teardown (R51, R56, R59, R60, R32), the
CANCEL of the station's own (R52), the judgement and the adoption of a JOB frame (R44 to R46), and what the roster's
reports do (R54, R57 to R60). -/
namespace Sys2Proof.Machine

/-! ### The end of a job -/

/-- The job record at the end of a job (R51, R56): state, former state, role and timers. Number, digest and enrollment
keep their values for the beacon. -/
def Job.ended (st : JobState) (j : Job) : Job :=
  { j with st := st, former := none, source := false, orphanTimer := none, settleTimer := none, repeatTimer := none }

/-- A frame the transmitter holds for the job that ends: it is sent or given up, and its report has no effect (R84, R103,
R188). -/
def HeldTag.jobEnded : HeldTag → HeldTag
  | .need _ | .answer | .newData _ | .recallParcel _ | .recallRequest | .stale => .stale
  | .beacon => .beacon
  | .cancel => .cancel
  | .jobRepeat => .jobRepeat

/-- See `HeldTag.jobEnded`. -/
def Transmitter.jobEnded : Transmitter → Transmitter
  | .holding h ph => .holding { h with tag := h.tag.jobEnded } ph
  | .free => .free

/-- The bus port at teardown (R51): the job's items leave classes 3 to 7. -/
def Port.jobEnded (p : Port) : Port :=
  { p with tx := p.tx.jobEnded, jobRepeat := false, class4 := [], class5 := [], class6 := [], class7 := [] }

/-- A slot at teardown (R84): FREE, draining while a write or a master read is in flight on it. -/
def Slot.jobEnded (sl : Slot) : Slot := { sl.freed with pending := 0, toSend := 0 }

/-- The window at teardown (R84). -/
def Window.jobEnded (w : Window) : Window :=
  { w with
    slots := w.slots.map Slot.jobEnded, recalls := w.recalls.map Slot.jobEnded, base := 0, next := 0, readMark := 0
    highestNew := none }

/-- The lists, the tie and the lag monitor of a socket at teardown (R116, R134, R188). -/
def Socket.jobEnded (sk : Socket) : Socket := { sk.clearLists with tie := .none, lag := Monitor.idle }

/-- The teardown of every block but the socket states, with the job record as the end of the job leaves it (R84, R103,
R116, R134, R188). -/
def teardown (f : Job → Job) (s : State) : State :=
  let s := updPacing (fun _ => Pacing.reset) (updJob f s)
  let s := forSockets emptyRing s
  let s := forSockets (fun k => updSocket k Socket.jobEnded) s
  let s := updRepair (fun _ => Repair.empty) s
  let s := updWin Window.jobEnded s
  let s := updRv (fun _ => Recall.reset) s
  updPort Port.jobEnded s

/-- The sockets at the end of a job (R150): those still in the job are bound for `t`, MASTER for READY, WAITING becomes
READY. -/
def exitSockets (t : ExitTarget) : State → State :=
  forSockets fun k s =>
    if s.sockets[k].st.inJob then giveExit k t s
    else if s.sockets[k].st = .master then giveExit k .ready s
    else if s.sockets[k].st = .waiting then setState k .ready .none s
    else s

/-- Enter CANCELLED (R51). -/
def enterCancelled (s : State) : State := exitSockets .ready (teardown (Job.ended .cancelled) s)

/-- Enter FINISHED (R56). A socket still in the job, which only a final orphan leaves, is bound for FAILED (SOURCE-LOST)
(R59). -/
def enterFinished (s : State) : State := exitSockets .sourceLost (teardown (Job.ended .finished) s)

/-- The job record of a station that drops its job (R60). -/
def Job.dropped (j : Job) : Job :=
  { j.ended .idle with number := none, digest := none, lastAdopted := none, enrollment := .none }

/-- Drop the job into IDLE (R60). -/
def dropJob (s : State) : State := exitSockets .ready (teardown Job.dropped s)

/-- Enter MUTE (R32, R24): the job is torn down, the job record takes its reset values (R42), the arbiter is emptied, a
held frame is cut off, the beacon stops and HOLD is released. -/
def enterMute (s : State) : State :=
  let s :=
    if s.job.st = .idle then updJob (fun _ => Job.reset) s else exitSockets .ready (teardown (fun _ => Job.reset) s)
  let s := updPort (fun p => { p.jobEnded with tx := .free, cancels := [] }) s
  let s := updPacing (fun p => { p with hold := .released, holdTimer := none }) s
  updIdent (fun i => { i with mode := .mute, listenTimer := none, beaconTimer := none, debt := 0 }) s

/-! ### A CANCEL of the station's own -/

/-- Start a CANCEL (R52): the first copy is placed, two are still to send. -/
def startCancel (reason : Byte) (s : State) : State :=
  match s.job.number with
  | some n =>
    updPort (fun p => { p with cancels := p.cancels ++ [{ job := n, reason := reason }] })
      (updJob (fun j =>
        { j with cancel := some { copy := { job := n, reason := reason }, left := 2, timer := some Config.cancelSpan } }) s)
  | none => s

/-- The reasons a JP-308 cancels for (R10). -/
def reasonNotReady : Byte := 2
/-- See `reasonNotReady`. -/
def reasonReadError : Byte := 3
/-- See `reasonNotReady`. -/
def reasonRemoved : Byte := 4

/-- A master failure is reported to the job controller (R48). -/
def masterFailure (reason : Byte) (s : State) : State :=
  if s.job.source ∧ s.job.st.sourced then startCancel reason (enterCancelled s) else s

/-- A repeat time of the CANCEL in progress (R52): a copy is placed unless one still waits; the third repeat time ends it
(log entry 16). -/
def cancelRepeat (s : State) : State :=
  match s.job.cancel with
  | some c =>
    if c.left = 0 then updJob (fun j => { j with cancel := none }) s
    else
      doIf (!s.port.cancels.contains c.copy) (updPort fun p => { p with cancels := p.cancels ++ [c.copy] })
        (updJob (fun j => { j with cancel := some { c with left := c.left - 1, timer := some Config.cancelSpan } }) s)
  | none => s

/-! ### Judging a JOB frame -/

/-- A patch entry's length fits its kind (R44). -/
def lengthOk (p : PatchEntry) : Bool :=
  if p.kind = 1 then decide (1 ≤ p.len.toNat ∧ p.len.toNat ≤ 16)
  else if p.kind = 2 then p.len == 3
  else if p.kind = 3 then p.len == 8
  else true

/-- The CONFIG test of a JOB frame passes (R44). -/
def configOk (job : Word16) (b : JobBody) : Bool :=
  job != 0 && decide (b.policy.toNat ≤ 2) && decide (1 ≤ b.lagThreshold.toNat ∧ b.lagThreshold.toNat ≤ 15) &&
    decide (b.lagDuration.toNat ≤ 15) && decide (b.latch.toNat ≤ 1) &&
    decide (1 ≤ b.needThreshold.toNat ∧ b.needThreshold.toNat ≤ 16) && decide (b.lossDuration.toNat ≤ 15) &&
    decide (b.verify.toNat ≤ 1) && decide (b.enrollClosed.toNat ≤ 1) && b.digest == jobDigest b

/-- Each refusal reason with whether its test passes, in code order (R44). -/
def jobTests (job : Word16) (b : JobBody) : List (RefusalReason × Bool) :=
  [(.imageSize, decide (1 ≤ b.imageSize.toNat ∧ b.imageSize.toNat ≤ Config.maxImage)),
    (.source, decide (b.srcStation.toNat ≤ 31) && decide (b.srcSocket.toNat ≤ 7)),
    (.config, configOk job b),
    (.patchKind, b.patches.all fun p => p.kind == 1 || p.kind == 2 || p.kind == 3),
    (.patchLength, b.patches.all lengthOk),
    (.patchPlace, b.patches.all fun p =>
      decide (p.offset.toNat + p.len.toNat ≤ Config.segmentBytes) && decide (p.seg.toNat < b.imageSize.toNat)),
    (.patchNumber, (b.patches.all fun p => decide (p.number.toNat ≤ 7)) && decide (b.patches.map (·.number)).Nodup)]

/-- The refusal reason of a JOB frame: the failed test with the lowest code; none where it is valid (R44). -/
def judgeJob (job : Word16) (b : JobBody) : Option RefusalReason :=
  ((jobTests job b).find? fun t => !t.2).map (·.1)

/-! ### Adoption -/

/-- Put a patch entry into entry-number order (R159). -/
def insertPatch (p : PatchEntry) : List PatchEntry → List PatchEntry
  | [] => [p]
  | q :: qs => if p.number.toNat ≤ q.number.toNat then p :: q :: qs else q :: insertPatch p qs

/-- The patch table of a JOB body, in entry-number order (R159). -/
def patchTable (b : JobBody) : List PatchEntry := b.patches.foldr insertPatch []

/-- The tie each policy starts with (R118). -/
def tieOf (policy : Byte) : Tie := if policy = 1 then .loose else .tied

/-- A socket's ring, marks, tie, monitor and lists at adoption (R45, R106, R118, R123, R127, R165, R172). -/
def Socket.adopted (b : JobBody) (sk : Socket) : Socket :=
  { sk.clearLists with
    ring := []
    written := sk.written.filter fun i => decide (b.imageSize.toNat ≤ i)
    tie := tieOf b.policy
    lag := Monitor.adopted (b.policy == 2) b.lagThreshold b.lagDuration (b.latch == 1) }

/-- The job record at adoption (R45). -/
def Job.adopted (job : Word16) (b : JobBody) (j : Job) : Job :=
  { j with
    number := some job, body := some b, digest := some b.digest
    st := if b.enrollClosed = 0 then .enrolling else .copying
    former := none, source := false
    enrollment := if b.enrollClosed = 0 then .opened else .closed
    confirmed := false, orphanTimer := none, settleTimer := none, repeatTimer := none, refusal := none
    lastAdopted := some job }

/-- Every block takes its adoption values, after the exit-bound sockets have taken their targets (R45, R151). -/
def adoptBlocks (job : Word16) (b : JobBody) (s : State) : State :=
  let s := forSockets (fun k t => doIf t.sockets[k].exit.isSome (endDiscarded k) t) s
  let s := forSockets (fun k => updSocket k (Socket.adopted b)) s
  let s := updRepair (fun _ => Repair.empty) s
  let s := updWin Window.jobEnded s
  let s := setPatches (patchTable b) (updPacing (fun p =>
    { p with loss := Monitor.adopted true b.needThreshold b.lossDuration false }) (updJob (Job.adopted job b) s))
  let s := updRv (fun _ => Recall.reset) s
  updPort Port.jobEnded s

/-- Each READY socket is enrolled, rejected as too small, or sent to WAITING (R45). -/
def enrollReady : State → State :=
  forSockets fun k t => doIf (t.sockets[k].st == .ready) (placeReady k) t

/-- Adopt a valid JOB frame in one step (R45, R46). -/
def adopt (job : Word16) (b : JobBody) (s : State) : State :=
  let s := adoptBlocks job b s
  if b.srcStation.toNat = s.ident.station.toNat then
    let k := s.masterSocket
    if s.sockets[k].st = .ready ∧ s.sockets[k].fits b.imageSize.toNat = true then
      let s := updJob (fun j =>
        { j with source := true, settleTimer := some Config.settleSpan, repeatTimer := some Config.repeatSpan }) s
      enrollReady (setState k .master .none s)
    else startCancel reasonNotReady (enterCancelled s)
  else enrollReady (updJob (fun j => { j with orphanTimer := some Config.orphanSpan }) s)

/-- A JOB frame is judged for adoption (R44, R45). -/
def judgeAdoption (job : Word16) (b : JobBody) (s : State) : State :=
  match judgeJob job b with
  | some r => updJob (fun j => { j with refusal := some r }) s
  | none => adopt job b s

/-- A JOB frame in ACTIVE (R43). -/
def takeJob (job : Word16) (b : JobBody) (s : State) : State :=
  match s.job.st with
  | .idle => judgeAdoption job b s
  | .enrolling | .copying | .closing | .orphaned => s
  | .finished | .cancelled => if s.job.lastAdopted = some job then s else judgeAdoption job b s

/-! ### Watching the source -/

/-- The source is confirmed (R57). -/
def confirm : State → State := updJob fun j => { j with confirmed := true, orphanTimer := none }

/-- Enter ORPHANED (R58). -/
def enterOrphaned : State → State :=
  updJob fun j => { j with st := .orphaned, former := some j.st, orphanTimer := some Config.orphanSpan }

/-- The former state of an orphan: ENROLLING, COPYING or CLOSING (R42). -/
def Job.formerState (j : Job) : JobState :=
  match j.former with
  | some .enrolling => .enrolling
  | some .closing => .closing
  | some .copying | some .idle | some .finished | some .cancelled | some .orphaned | none => .copying

/-- Return from ORPHANED to the former state (R58). -/
def returnFromOrphan : State → State :=
  updJob fun j => { j with st := j.formerState, former := none, orphanTimer := none }

/-- A report on the source's entry that is a same-job entry with the state code `code` (R54, R57, R58). A code that no row
of R58 names has no effect (log entry 18). -/
def sameJobReport (code : BitVec 3) (s : State) : State :=
  if code = JobState.enrolling.code ∨ code = JobState.copying.code ∨ code = JobState.closing.code then
    if s.job.st = .orphaned then returnFromOrphan s else confirm s
  else if code = JobState.cancelled.code then enterCancelled s
  else if code = JobState.finished.code then
    if s.settled then enterFinished (confirm s)
    else if s.job.st = .orphaned then s
    else enterOrphaned (confirm s)
  else s

/-- A roster report on the source's entry at a station in the job (R58). -/
def sourceReport (e : RosterEntry) (s : State) : State :=
  match e.st with
  | .present =>
    if s.job.number = some e.job then
      if s.job.digest = some e.digest then sameJobReport e.jobState s else dropJob s
    else if s.job.st = .orphaned ∨ s.job.confirmed then enterFinished s
    else s
  | .silent => if s.job.st ≠ .orphaned ∧ s.job.confirmed then enterOrphaned s else s
  | .absent => s

/-- The station a sink watches: the source its job names. -/
def State.watches (s : State) (x : Fin 32) : Bool :=
  !s.job.source && s.job.st.working && s.isSource (BitVec.ofNat 8 x.val)

/-- The job controller takes a roster report (R40, R54, R58). The source's own check (R55) stands at the end of the step. -/
def jobReport (x : Fin 32) (s : State) : State := if s.watches x then sourceReport (s.entry x) s else s

/-- The window takes a roster report (R40, R66). The source's own candidate base (R65) stands at the end of the step. -/
def windowReport (x : Fin 32) (s : State) : State :=
  if s.watches x ∧ s.sameJob (s.entry x) = true then adoptBase (s.entry x).base.toNat s else s

/-- The roster reports on an entry (R40); none in MUTE. The order of the two readers is open (log entry 6). -/
def rosterReport (windowFirst : Bool) (x : Fin 32) (s : State) : State :=
  if s.ident.mode = .mute then s
  else if windowFirst then jobReport x (windowReport x s)
  else windowReport x (jobReport x s)

/-! ### Finishing -/

/-- A recall read is in flight at the master socket (R55). -/
def State.recallReading (s : State) : Bool :=
  match s.sockets[s.masterSocket].cmd with
  | some { purpose := .master _ (.rslot _), .. } => true
  | some _ => false
  | none => false

/-- The source's finishing condition (R55). -/
def State.sourceDone (s : State) : Bool :=
  s.job.source && s.job.st == .closing && s.rv.queue.isEmpty && !s.recallReading && s.settled &&
    allStations.all fun x => !s.sameJob (s.entry x) || (s.entry x).settled

/-- The finishing condition of a station without the SOURCE role, when it becomes SETTLED (R54). -/
def State.sinkDone (s : State) : Bool :=
  !s.job.source && s.job.st.working && s.settled &&
    allStations.any fun x =>
      s.isSource (BitVec.ofNat 8 x.val) && s.sameJob (s.entry x) && (s.entry x).jobState == JobState.finished.code

end Sys2Proof.Machine
end

