-- ==== Sys2Proof/Machine/EngineOps.lean ====
section
/-! DEFINITION. The operations of the socket engines, of the expectation lists and of verification: attach (R140),
attempts (R139), the judgement of a stream (R163, R164), completions (R110, R111, R165 to R167, R183), verify reads (R185) and
removal (R152). -/
namespace Sys2Proof.Machine

/-! ### Commands in flight -/

/-- The engine holds no command any more. -/
def clearCommand (k : Fin 8) : State → State := updSocket k fun sk => { sk with cmd := none }

/-- The purpose of a descriptor write that has been detached (R115). -/
def Purpose.isDetached : Purpose → Bool
  | .descriptor _ _ d => d
  | .identify | .capacity | .protectStatus | .blanking | .verify _ | .master _ _ => false

/-- The attempt in flight: a command that is not between attempts. -/
def Socket.attempt (sk : Socket) : Option Command := sk.cmd.filter fun c => !c.portReset

/-- The attempt in flight is the last for its command, its result discarded: the socket is exit-bound or the write
detached (R139, R150). -/
def Socket.discards (sk : Socket) (c : Command) : Bool := sk.exit.isSome || c.purpose.isDetached

/-- An attach ends in REJECTED (R140). -/
def rejectAttach (k : Fin 8) (r : Reason) (s : State) : State :=
  setState k .rejected r (updSocket k (fun sk => { sk with cmd := none, attachTimer := none }) s)

/-! ### The judgement of a stream -/

/-- The checks of an attempt's stream from the slot's buffer as it stands (R163). -/
def State.streamed (s : State) (src : SlotId) (c : Command) : Verdict :=
  let bytes := (s.slot src).bytes
  { clean := check bytes == c.reference, patched := check (applyPlan 0 c.plan bytes) }

/-- Judge the stream of a descriptor write's attempt, once; a corrupt one is reported (R163, R164). -/
def judgeStream (k : Fin 8) (s : State) : State :=
  match s.sockets[k].attempt with
  | some c =>
    match c.purpose with
    | .descriptor seg src _ =>
      if c.verdict.isSome then s
      else
        let v := s.streamed src c
        let s := updSocket k (fun sk => { sk with cmd := some { c with verdict := some v } }) s
        if v.clean then s else corruption src seg s
    | .identify | .capacity | .protectStatus | .blanking | .verify _ | .master _ _ => s
  | none => s

/-- Words of a slot's buffer have changed in the DRAM (log entry 10); offsets beyond the segment name no byte of it. -/
def upsetSlot (id : SlotId) (upsets : List (Nat × Byte)) : State → State :=
  updSlot id fun sl => { sl with buf := sl.buf.patchBytes (upsets.filter fun u => decide (u.1 < Config.segmentBytes)) }

/-- The slot a held parcel of the job was taken from (R71, R101, R180). -/
def HeldFrame.source (h : HeldFrame) : Option (SlotId × ParcelBody) :=
  match h.frame.body, h.tag with
  | .parcel b, .newData seg => some (.win (winOf seg), b)
  | .parcel b, .answer => some (.win (winOf b.seg.toNat), b)
  | .parcel b, .recallParcel r => some (.rslot r, b)
  | _, _ => none

/-- The payload bytes of parcel `p` with the changed bytes of its segment that fall into it. -/
def upsetPayload (p : Fin 8) (upsets : List (Nat × Byte)) (payload : List Byte) : List Byte :=
  upsets.foldl (fun l u =>
    if p.val * Config.parcelBytes ≤ u.1 then l.set (u.1 - p.val * Config.parcelBytes) u.2 else l) payload

/-- A held frame whose parcel was taken from the slot, of the segment that is streamed, carries the changed bytes. -/
def HeldFrame.upset (id : SlotId) (seg : Nat) (upsets : List (Nat × Byte)) (h : HeldFrame) : HeldFrame :=
  match h.source with
  | some (src, b) =>
    if src = id ∧ b.seg.toNat = seg then
      { h with frame := { h.frame with body := .parcel { b with payload := upsetPayload b.parcel upsets b.payload } } }
    else h
  | none => h

/-- The bytes a stream finds changed had changed before a parcel of the slot that the transmitter holds was taken: it
carries the bad data (R79, R102, log entry 10). -/
def upsetHeld (id : SlotId) (seg : Nat) (upsets : List (Nat × Byte)) : State → State :=
  updPort fun p =>
    { p with
      tx := match p.tx with
        | .holding h ph => .holding (h.upset id seg upsets) ph
        | .free => .free }

/-! ### Expectation lists -/

/-- Put an entry into an expectation list at its ascending position, replacing one for its segment (R165, R166). -/
def insertExpect (e : ExpectEntry) : List ExpectEntry → List ExpectEntry
  | [] => [e]
  | x :: xs => if e.seg < x.seg then e :: x :: xs else if e.seg = x.seg then e :: xs else x :: insertExpect e xs

/-- The expectation entry of a segment (R169). -/
def Socket.expected (sk : Socket) (seg : Nat) : Option ExpectEntry := sk.expect.find? fun e => e.seg == seg

/-- The number P of distinct segments named in the patch table (R165). -/
def State.patchedCount (s : State) : Nat := (s.patches.map fun p => p.seg.toNat).dedup.length

/-- The expectation list has room for a segment, or an entry for it (R165, R167). -/
def State.expectRoom (s : State) (k : Fin 8) (seg : Nat) : Bool :=
  (s.sockets[k].expected seg).isSome || s.isPatched seg ||
    decide ((s.sockets[k].expect.filter fun e => !s.isPatched e.seg).length < Config.expectSize - s.patchedCount)

/-- Remove the expectation entry of a segment. -/
def dropExpect (k : Fin 8) (seg : Nat) : State → State :=
  updSocket k fun sk => { sk with expect := sk.expect.filter fun e => e.seg != seg }

/-- Add a segment to the recheck list of a socket in REPAYING, with verify on (R183). -/
def addRecheck (k : Fin 8) (seg : Nat) (s : State) : State :=
  if s.verifyOn ∧ s.sockets[k].st = .repaying then
    updSocket k (fun sk => { sk with recheck := insertSeg seg sk.recheck }) s
  else s

/-- What a WRITTEN completion records (R166, R183). -/
def recordWritten (k : Fin 8) (seg : Nat) (patched : Word32) (s : State) : State :=
  addRecheck k seg
    (if s.isPatched seg then
      updSocket k (fun sk =>
        { sk with expect := insertExpect { seg := seg, check := patched, poisoned := false } sk.expect }) s
    else dropExpect k seg s)

/-- What a POISONED completion records (R167, R183). -/
def recordPoisoned (k : Fin 8) (seg attempts : Nat) (s : State) : State :=
  if s.verifyOn ∧ s.expectRoom k seg then
    addRecheck k seg
      (updSocket k (fun sk => { sk with expect := insertExpect { seg := seg, check := 0, poisoned := true } sk.expect }) s)
  else addOwed k seg .poisoned attempts (dropExpect k seg s)

/-! ### The end of a descriptor write -/

/-- The IN-FLIGHT descriptor for a segment leaves the ring with its command; slot and lag monitor are told (R110, R111). -/
def handBack (k : Fin 8) (seg : Nat) (src : SlotId) (s : State) : State :=
  let s := updSocket k (fun sk =>
    { sk with cmd := none, ring := sk.ring.filter fun d => !(d.inFlight && d.seg == seg) }) s
  reportOccupancy k (endWrite src s)

/-- The attempts of the IN-FLIGHT descriptor's owed record (R167). -/
def Socket.flightAttempts (sk : Socket) (seg : Nat) : Nat :=
  match sk.ring.find? fun d => d.inFlight && d.seg == seg with
  | some d => d.attempts
  | none => 0

/-- A descriptor ends WRITTEN or POISONED (R110), and the engine takes the next one (R145). -/
def endWritten (k : Fin 8) (seg : Nat) (src : SlotId) (v : Verdict) (s : State) : State :=
  let attempts := s.sockets[k].flightAttempts seg
  let s := handBack k seg src s
  let s := updSocket k (fun sk => { sk with written := insertSeg seg sk.written }) s
  let s := if v.clean then recordWritten k seg v.patched s else recordPoisoned k seg attempts s
  takeDescriptor k s

/-- A descriptor ends WRITE-ERROR and the socket fails (R111). -/
def endWriteError (k : Fin 8) (seg : Nat) (src : SlotId) (r : Reason) (s : State) : State :=
  failSocket k r (handBack k seg src s)

/-- The good end of a descriptor write's attempt: a stream not judged yet is judged now (log entry 11). -/
def writeGood (k : Fin 8) (s : State) : State :=
  let s := judgeStream k s
  match s.sockets[k].cmd with
  | some { purpose := .descriptor seg src _, verdict := some v, .. } => endWritten k seg src v s
  | some _ => s
  | none => s

/-- A command's fourth attempt has failed (R139); `stalled` says whether it stalled. -/
def commandFailed (k : Fin 8) (p : Purpose) (stalled : Bool) (s : State) : State :=
  let r := if stalled then Reason.stall else .writeError
  match p with
  | .blanking => failSocket k .prepareError (clearCommand k s)
  | .descriptor seg src _ => endWriteError k seg src r s
  | .verify _ => failSocket k r (clearCommand k s)
  | .master _ dst => masterFailure reasonReadError (endMasterRead dst (clearCommand k s))
  | .identify | .capacity | .protectStatus => rejectAttach k .noResponse s

/-- An attempt of a WRITE SEGMENT or READ SEGMENT has ended in error (R139). -/
def attemptError (k : Fin 8) (c : Command) (s : State) : State :=
  if c.attempt < Config.maxCommandAttempts then retry k s else commandFailed k c.purpose false s

/-! ### Verify reads -/

/-- The stick's copy of a segment matches what it must have (R185). -/
def State.matchesCopy (s : State) (k : Fin 8) (seg : Nat) (data : List Byte) : Bool :=
  match s.sockets[k].expected seg with
  | some e => !e.poisoned && check data == e.check
  | none => check data == Sparse.read s.win.checkTable seg

/-- A verify read completes good (R185). -/
def verifyGood (k : Fin 8) (seg : Nat) (data : List Byte) (s : State) : State :=
  let s := clearCommand k s
  let s := if s.matchesCopy k seg data then s else addOwed k seg .verifyMismatch 0 s
  if s.sockets[k].st = .verifying then
    nameNext k (updSocket k (fun sk => { sk with cursor := sk.cursor.map (· + 1) }) s)
  else s

/-! ### Removal -/

/-- The stick is removed (R152). -/
def removeStick (k : Fin 8) (s : State) : State :=
  let st := s.sockets[k].st
  let s := emptyRing k (abandonCommand k s)
  let s := updSocket k (fun sk => { sk.clearLists with capacity := none, exit := none, attachTimer := none }) s
  let s := setState k .empty .none s
  if st = .master then masterFailure reasonRemoved s else s

end Sys2Proof.Machine
end

