-- ==== Sys2Proof/Machine/RecallOps.lean ====
section
/-! DEFINITION. The operations of recall: candidates and the request of a sink (R173 to R177), the queue of the source
(R178), the issue of master reads (R68, R179). -/
namespace Sys2Proof.Machine

/-- The segments owed by sockets in COPYING or REPAYING, ascending (R174, R178). -/
def State.owedByWriters (s : State) : List Nat :=
  (allSockets.flatMap fun k => if s.sockets[k].st.copyingOrRepaying then s.sockets[k].owed.map (·.seg) else []).foldr
    insertSeg []

/-- The candidates for the next RECALL, ascending (R174). -/
def State.candidates (s : State) : List Nat :=
  s.owedByWriters.filter fun seg =>
    decide (seg < s.win.base) && (s.recallHolding seg).isNone && !s.rv.heard.contains seg

/-- The conditions of a request, but for its being IDLE (R173, R174). -/
def State.requestOpen (s : State) : Bool :=
  !s.job.source && s.ident.mode == .active && s.job.st.recalling && s.usableRecall.isSome && !s.candidates.isEmpty

/-- The request is placed in class 8 (R174). -/
def placeRequest (s : State) : State :=
  if s.rv.request = .idle ∧ s.requestOpen then updRv (fun r => { r with request := .queued }) s else s

/-- A QUEUED request returns to IDLE as soon as a condition fails (R174). -/
def withdrawRequest (s : State) : State :=
  if s.rv.request = .queued ∧ s.requestOpen = false then updRv (fun r => { r with request := .idle }) s else s

/-- One attempt more for each owed entry of a listed segment, up to 4 (R175). -/
def Socket.countRecall (listed : List Nat) (sk : Socket) : Socket :=
  if sk.st.copyingOrRepaying then
    { sk with
      owed := sk.owed.map fun e =>
        if listed.contains e.seg then
          { e with record := { e.record with attempts := min Config.maxRecalls (e.record.attempts + 1) } }
        else e }
  else sk

/-- A socket still owes a listed segment at 4 attempts, with no recall slot gathering it (R176). -/
def State.unreachable (s : State) (k : Fin 8) : Bool :=
  s.sockets[k].st.copyingOrRepaying &&
    s.sockets[k].owed.any fun e =>
      s.rv.listed.contains e.seg && e.record.attempts == Config.maxRecalls && (s.recallHolding e.seg).isNone

/-- The recall wait expires (R176). -/
def waitExpired (s : State) : State :=
  if s.rv.request = .waiting then
    let failing := if s.job.st = .orphaned then [] else allSockets.filter s.unreachable
    let s := forEach failing (fun k => failSocket k .unreachable) s
    updRv (fun r => { r with request := .idle, wait := none, listed := [] }) s
  else s

/-- One index of a heard RECALL (R177). -/
def hearSegment (seg : Nat) (s : State) : State :=
  if seg < s.imageSize ∧ s.rv.heard.length < Config.recallQueueSize then
    updRv (fun r => { r with heard := insertSeg seg r.heard }) s
  else s

/-- One index joins the source's recall queue unless it is excluded (R178). -/
def joinQueue (seg : Nat) (s : State) : State :=
  let gathering := allRecallSlots.any fun r =>
    (s.slot (.rslot r)).holdsIn seg .filling || ((s.slot (.rslot r)).holds seg && (s.slot (.rslot r)).toSend != 0)
  if seg < s.win.base ∧ gathering = false ∧ s.rv.queue.length < Config.recallQueueSize then
    updRv (fun r => { r with queue := insertSeg seg r.queue }) s
  else s

/-- The source's own requests (R178), in ascending order (log entry 23). -/
def ownRequests (s : State) : State :=
  if s.job.source ∧ s.job.st.recalling then forEach s.owedByWriters joinQueue s else s

/-! ### Issuing master reads -/

/-- A slot takes a segment for a master read: its mask cleared, its master read flag set, no timer (R68, R83). -/
def Slot.reads (st : SlotState) (seg : Nat) (sl : Slot) : Slot :=
  { sl with st := st, seg := some seg, mask := 0, masterRead := true, timer := none }

/-- Issue the read-ahead read (R68). -/
def issueReadAhead (s : State) : State :=
  let seg := s.win.readMark
  let s := updSlot (.win (winOf seg)) (Slot.reads .reading seg) s
  let s := updWin (fun w => { w with readMark := w.readMark + 1 }) s
  issue s.masterSocket (.master seg (.win (winOf seg))) s

/-- READ_AHEAD_READ (R68): a RETIRED target slot is taken back, and the read is issued if the slot is usable. -/
def readAhead (s : State) : State :=
  if s.readAheadDue then
    let id := SlotId.win (winOf s.win.readMark)
    let s := if (s.slot id).st = .retired then takeBack id s else s
    if (s.slot id).usable then issueReadAhead s else s
  else s

/-- The segment and slot of the recall read that is due (R179). -/
def State.recallReadDue (s : State) : Option (Nat × Fin 2) :=
  if s.job.source ∧ s.job.st.recalling ∧ s.sockets[s.masterSocket].st = .master ∧ s.sockets[s.masterSocket].cmd = none ∧
      s.readAheadPossible = false then
    match s.rv.queue.find? fun seg => !s.held seg, s.usableRecall with
    | some seg, some r => some (seg, r)
    | some _, none => none
    | none, _ => none
  else none

/-- RECALL_READ_ISSUE (R179, R83). -/
def recallRead (s : State) : State :=
  match s.recallReadDue with
  | some (seg, r) =>
    let s := updRv (fun v => { v with queue := v.queue.filter fun x => x != seg }) s
    let s := updSlot (.rslot r) (Slot.reads .filling seg) s
    issue s.masterSocket (.master seg (.rslot r)) s
  | none => s

end Sys2Proof.Machine
end

