-- ==== Sys2Proof/Machine/PortOps.lean ====
section
/-! DEFINITION. The operations of the bus port: its counts (R13), the choice of the arbiter (R23), the frames fixed at a
take (R16, R36, R47, R71, R91, R100, R101, R175, R180), and the reports of an outcome (R18, R22). -/
namespace Sys2Proof.Machine

/-! ### Counts and receptions -/

/-- One more, staying at 65,535 (R13). -/
def satInc (w : Word16) : Word16 := if w = 0xFFFF#16 then w else w + 1

/-- A bad frame, or a late collision of the station's own, is counted (R13). -/
def countBad : State → State := updPort fun p => { p with badFrames := satInc p.badFrames }

/-- The transmitter places symbols on the lane: SENDING or JAMMING (R1). -/
def Transmitter.onLane : Transmitter → Bool
  | .holding _ .sending => true
  | .holding _ .jamming => true
  | .holding _ .deferring => false
  | .holding _ (.backingOff _) => false
  | .free => false

/-- A reception is judged and counted: the receiver is not waiting for an idle lane (R11), and the reception does not
overlap the port's own attempt (R14, log entry 8). -/
def State.judged (s : State) (overlapsOwn : Bool) : Bool := !s.port.rxWait && !overlapsOwn && !s.port.tx.onLane

/-- A complete reception (R11, R12, R15): an accepted frame is handed to its owners, any other is a bad frame. -/
def receive (bytes : List Byte) (s : State) : State :=
  match acceptFrame bytes with
  | some f => updPort (fun p => { p with handoffs := p.handoffs ++ f.body.owners.map fun o => (o, f) }) s
  | none => countBad s

/-! ### The arbiter -/

/-- What the arbiter offers (R23). -/
inductive Choice where
  | beacon
  | cancel (c : CancelCopy)
  | jobRepeat
  | need (seg : Nat)
  | answer (seg : Nat)
  | newData (seg : Nat) (p : Fin 8)
  | recallParcel (r : Fin 2) (p : Fin 8)
  | recallRequest
  deriving DecidableEq, Repr

/-- The oldest item of each class, in class order 1 to 9 (R23). -/
def State.classHeads (s : State) : List (Option Choice) :=
  [if s.ident.debt = 8 then some .beacon else none,
    s.port.cancels.head?.map .cancel,
    if s.port.jobRepeat then some .jobRepeat else none,
    s.port.class4.head?.map .need,
    s.port.class5.head?.map .answer,
    s.port.class6.head?.map fun x => .newData x.1 x.2,
    s.port.class7.head?.map fun x => .recallParcel x.1 x.2,
    if s.rv.request = .queued then some .recallRequest else none,
    if 1 ≤ s.ident.debt ∧ s.ident.debt ≤ 7 then some .beacon else none]

/-- The arbiter's choice: the first class that is not empty, in ACTIVE only (R23, R24). -/
def State.choice (s : State) : Option Choice :=
  if s.ident.mode = .active then s.classHeads.findSome? id else none

/-! ### Fixing a frame -/

/-- The transmitter takes a frame (R16): the station's own number as sender (R4), attempt count 0, DEFERRING. -/
def hold (tag : HeldTag) (job : Word16) (body : FrameBody) (s : State) : State :=
  let f : Frame := { sender := s.ident.station.setWidth 8, job := job, body := body }
  updPort (fun p => { p with tx := .holding { frame := f, tag := tag, attempts := 0 } .deferring }) s

/-- The current job number as a header field. -/
def State.jobField (s : State) : Word16 := s.job.number.getD 0

/-- A PARCEL body fixed from a slot (R71, R101, R180). -/
def State.parcelFrom (s : State) (id : SlotId) (seg : Nat) (p : Fin 8) : ParcelBody :=
  { seg := BitVec.ofNat 32 seg, parcel := p, isRepair := false, isRecall := false, isFinal := false
    base := BitVec.ofNat 32 s.win.base, check := (s.slot id).check, payload := (s.slot id).payload p }

/-- Take the JOB repeat (R47): the adopted body but for the enroll-closed byte. -/
def takeRepeat (s : State) : State :=
  let t := updPort (fun p => { p with jobRepeat := false }) s
  match s.job.body with
  | some b =>
    let closed : Byte := if 0 < s.win.next ∨ b.enrollClosed = 1 then 1 else 0
    hold .jobRepeat s.jobField (.job { b with enrollClosed := closed }) t
  | none => t

/-- Take the NEED of a pending need (R91): its missing mask as it stands. -/
def takeNeed (seg : Nat) (s : State) : State :=
  let mask : Byte := match s.need seg with
    | some e => e.missing
    | none => 0
  let s := updPort (fun p => { p with class4 := p.class4.drop 1 }) s
  hold (.need seg) s.jobField (.need (BitVec.ofNat 32 seg) mask) (updNeed seg (fun e => { e with st := .asked .held }) s)

/-- Take one parcel of an answer entry (R100, R101). -/
def takeAnswer (seg : Nat) (s : State) : State :=
  match s.answer seg with
  | some e =>
    match nextSet e.mask e.nextParcel with
    | some q =>
      let m := e.mask &&& ~~~ parcelBit q
      let b := { s.parcelFrom (.win (winOf seg)) seg q with isRepair := true }
      hold .answer s.jobField (.parcel b)
        (if m = 0 then dropAnswer seg s else updAnswer seg (fun e => { e with mask := m, nextParcel := q + 1 }) s)
    | none => dropAnswer seg s
  | none => dropAnswer seg s

/-- Take a new-data parcel (R71); FINAL on the parcels of segment N − 1 (R5). -/
def takeNewData (seg : Nat) (p : Fin 8) (s : State) : State :=
  let b := { s.parcelFrom (.win (winOf seg)) seg p with isFinal := decide (seg + 1 = s.imageSize) }
  hold (.newData seg) s.jobField (.parcel b) (updPort (fun q => { q with class6 := q.class6.drop 1 }) s)

/-- Take a recall parcel (R180). -/
def takeRecallParcel (r : Fin 2) (p : Fin 8) (s : State) : State :=
  let b := { s.parcelFrom (.rslot r) ((s.slot (.rslot r)).seg.getD 0) p with isRecall := true }
  hold (.recallParcel r) s.jobField (.parcel b) (updPort (fun q => { q with class7 := q.class7.drop 1 }) s)

/-- Take the RECALL request (R175): the lowest candidates are listed, and their owed entries count an attempt. -/
def takeRequest (s : State) : State :=
  let listed := s.candidates.take Config.maxListed
  let s := updRv (fun r => { r with request := .taken, listed := listed }) s
  let s := forSockets (fun k => updSocket k (Socket.countRecall listed)) s
  hold .recallRequest s.jobField (.recallList (listed.map (BitVec.ofNat 32))) s

/-- The transmitter takes what the arbiter offers (R16). -/
def takeChoice (c : Choice) (s : State) : State :=
  match c with
  | .beacon => hold .beacon s.shownJob (.beacon s.beaconBody) s
  | .cancel c => hold .cancel c.job (.cancel c.reason) (updPort (fun p => { p with cancels := p.cancels.drop 1 }) s)
  | .jobRepeat => takeRepeat s
  | .need seg => takeNeed seg s
  | .answer seg => takeAnswer seg s
  | .newData seg p => takeNewData seg p s
  | .recallParcel r p => takeRecallParcel r p s
  | .recallRequest => takeRequest s

/-! ### The outcome of a frame -/

/-- An outcome is reported to the block that offered the frame (R18, R22): `sent`, or given up. -/
def reportOutcome (tag : HeldTag) (sent : Bool) (s : State) : State :=
  match tag with
  | .beacon => if sent then updIdent (fun i => { i with debt := 0 }) s else s
  | .need seg =>
    updNeed seg (fun e =>
      if e.st = .asked .held then { e with st := .asked .retry, timer := some Config.retrySpan } else e) s
  | .recallParcel r =>
    settleSlot (.rslot r) (updSlot (.rslot r) (fun sl => { sl with toSend := sl.toSend - 1 }) s)
  | .recallRequest =>
    if s.rv.request = .taken then updRv (fun r => { r with request := .waiting, wait := some Config.recallSpan }) s else s
  | .cancel | .jobRepeat | .answer | .newData _ | .stale => s

/-- The transmitter lets its frame go. -/
def freeTx : State → State := updPort fun p => { p with tx := .free }

/-- The contention slots drawn after a collision (R20): uniform over 0 to 2^m − 1, m the smaller of the attempts and 6. -/
def backoffSlots (attempts draw : Nat) : Nat := draw % 2 ^ min attempts 6

/-- The jam ends (R19, R20, R22). -/
def jamEnded (h : HeldFrame) (draw : Nat) (s : State) : State :=
  let n := h.attempts + 1
  if Config.maxFrameAttempts ≤ n then
    reportOutcome h.tag false (freeTx (updPort (fun p => { p with giveUps := satInc p.giveUps }) s))
  else
    let slots := backoffSlots n draw
    updPort (fun p =>
      { p with tx := .holding { h with attempts := n } (if slots = 0 then .deferring else .backingOff slots) }) s

end Sys2Proof.Machine
end

