-- ==== Sys2Proof/Machine/Settle.lean ====
section
/-! DEFINITION. The judgements the spec makes "in the same step" at whatever event completes their condition, made at the
end of the step (log entry 24): the source's candidate base (R65, R120), a socket moving on (R146, R147), the source's own
recall requests (R178), a queued request withdrawn (R174), the finishing checks (R54, R55), the hold demand (R131). -/
namespace Sys2Proof.Machine

/-- The finishing checks: the sink's when SETTLED has changed (R53, R54), the source's at any event (R55). -/
def judgeFinish (settledBefore : Bool) (s : State) : State :=
  if s.sourceDone ∨ (s.settled ≠ settledBefore ∧ s.sinkDone) then enterFinished s else s

/-- The judgements at the end of a step. -/
def settle (settledBefore : Bool) (s : State) : State :=
  judgeHold (judgeFinish settledBefore (withdrawRequest (ownRequests (forSockets moveOn (settleBase s)))))

/-- A command outside the memory test, with the judgements at the end of its step. -/
def act (f : State → State) : State → State := whenUp fun s => settle s.settled (f s)

/-- An arrival at a block, with the judgements at the end of its step. -/
def actOnArrival (o : Owner) (sender : Byte) (job : Word16) (body : FrameBody) (f : State → State) : State → State :=
  whenUp fun s => takeHandoff o sender job body (settle s.settled (f s))

end Sys2Proof.Machine
end

