-- ==== Sys2Proof/Machine/ResetCmds.lean ====
section
/-! DEFINITION. The reset and mode commands: POWER_ON_RESET, MEMORY_TEST_END, RESETN, LISTENING_TIMER_EXPIRY,
BEACON_TIMER_EXPIRY (R25 to R30, R34). -/
namespace Sys2Proof.Machine

/-- The outcome of a step that goes on. -/
abbrev Answer := Host.Outcome State Fault Refusal

/-- The window at a reset: every slot FREE and usable over the buffer it had, the check table kept (R27, R61, R78, R80). -/
def Window.cleared (w : Window) : Window :=
  { Window.reset with
    slots := w.slots.map (fun sl => Slot.empty sl.buf), recalls := w.recalls.map (fun sl => Slot.empty sl.buf)
    checkTable := w.checkTable }

/-- Every block takes its reset values (R28); the DRAM, the HOLD line and the model's own fields stay. -/
def resetBlocks (ident : Ident) (s : State) : State :=
  { s with
    ident := ident
    roster := Vector.replicate 32 RosterEntry.empty
    port := Port.reset s.port.holdLevel
    job := Job.reset
    win := s.win.cleared
    repair := Repair.empty
    sockets := s.sockets.map fun sk => Socket.reset sk.written
    pacing := Pacing.reset
    rv := Recall.reset
    patches := [] }

/-- The identity block at the end of a reset: LISTENING, or MUTE with the memory-fault latch set (R26, R27, R28). -/
def identAfter (fault : Bool) (straps : BitVec 5) : Ident := if fault then Ident.resetMute straps else Ident.reset straps

/-- The identity block during the memory test: mode and latch are as they were until the outcome sets them, so that a
station leaves MUTE only when the test passes and one that fails does not pass through LISTENING (R26, R33, log entry
13). -/
def Ident.testing (i : Ident) : Ident :=
  { i with listenTimer := none, beaconTimer := none, debt := 0, memTest := true, blink := false }

/-- POWER_ON_RESET (R26): the memory test begins. The DRAM contents are undefined (log entry 9). -/
def execPowerOnReset (s : State) : Answer :=
  .next (resetBlocks s.ident.testing
    { s with win := Window.reset, sockets := Vector.replicate 8 (Socket.reset []) })

/-- MEMORY_TEST_END (R26): the power-on reset ends by the outcome of the test. -/
def execMemoryTestEnd (pass : Bool) (straps : BitVec 5) (s : State) : Answer :=
  .next (doIf s.ident.memTest (resetBlocks (identAfter (!pass) straps)) s)

/-- RESETN (R27): not taken during the memory test (R26). -/
def execResetn (straps : BitVec 5) (s : State) : Answer :=
  .next (whenUp (fun s => resetBlocks (identAfter s.ident.memFault straps) s) s)

/-- ENTER_ACTIVE (R30). -/
def enterActive : State → State :=
  updIdent fun i => { i with mode := .active, listenTimer := none, beaconTimer := some Config.tb, debt := 1 }

/-- LISTENING_TIMER_EXPIRY (R29, R30). -/
def execListeningTimerExpiry (s : State) : Answer :=
  .next (whenUp (fun s => doIf (s.ident.mode == .listening && s.ident.listenTimer.isSome) enterActive s) s)

/-- BEACON_TIMER_EXPIRY (R34): the debt rises by one, up to 8. -/
def execBeaconTimerExpiry (s : State) : Answer :=
  .next (whenUp (fun s => doIf (s.ident.mode == .active && s.ident.beaconTimer.isSome)
    (updIdent fun i => { i with debt := min 8 (i.debt + 1), beaconTimer := some Config.tb }) s) s)

end Sys2Proof.Machine
end

