-- ==== Sys2Proof/Machine/BusCmds.lean ====
section
/-! DEFINITION. The commands of the frame lane and of the HOLD line: receptions (R11 to R15), the transmitter (R16 to R22)
and HOLD (R2, R132). -/
namespace Sys2Proof.Machine

/-- RECEPTION_COMPLETE (R12, R14, R15). -/
def execReceptionComplete (bytes : List Byte) (overlapsOwn : Bool) (s : State) : Answer :=
  .next (whenUp (fun s => doIf (s.judged overlapsOwn) (receive bytes) s) s)

/-- RECEPTION_BROKEN (R11): more than 64 stored bytes make a bad frame, fewer a collision fragment. -/
def execReceptionBroken (stored : Nat) (overlapsOwn : Bool) (s : State) : Answer :=
  .next (whenUp (fun s => doIf (s.judged overlapsOwn && decide (64 < stored)) countBad s) s)

/-- RECEPTION_OVERLONG (R11): a bad frame, and the receiver ignores the lane until it is next idle. -/
def execReceptionOverlong (overlapsOwn : Bool) (s : State) : Answer :=
  .next (whenUp (fun s =>
    updPort (fun p => { p with rxWait := true }) (doIf (s.judged overlapsOwn) countBad s)) s)

/-- LANE_IDLE (R11): the receiver that waits for an idle lane opens receptions again. -/
def execLaneIdle (s : State) : Answer := .next (whenUp (updPort fun p => { p with rxWait := false }) s)

/-- TRANSMITTER_TAKE (R16, R23): a FREE transmitter takes what the arbiter offers. -/
def execTransmitterTake (s : State) : Answer :=
  .next (whenUp (fun s =>
    match s.port.tx with
    | .free =>
      match s.choice with
      | some c => takeChoice c s
      | none => s
    | .holding _ _ => s) s)

/-- INTER_FRAME_GAP_COMPLETE (R17): DEFERRING becomes SENDING. -/
def execInterFrameGapComplete (s : State) : Answer :=
  .next (whenUp (fun s =>
    match s.port.tx with
    | .holding h .deferring => updPort (fun p => { p with tx := .holding h .sending }) s
    | .holding _ .sending => s
    | .holding _ .jamming => s
    | .holding _ (.backingOff _) => s
    | .free => s) s)

/-- FRAME_SENT (R18): the transmitter is FREE, and *sent* is reported. -/
def execFrameSent (s : State) : Answer :=
  .next (act (fun s =>
    match s.port.tx with
    | .holding h .sending => reportOutcome h.tag true (freeTx s)
    | .holding _ .deferring => s
    | .holding _ .jamming => s
    | .holding _ (.backingOff _) => s
    | .free => s) s)

/-- COLLISION (R19, R21): SENDING becomes JAMMING; at byte position 65 or later the bad-frame count rises. -/
def execCollision (position : Nat) (s : State) : Answer :=
  .next (whenUp (fun s =>
    match s.port.tx with
    | .holding h .sending =>
      updPort (fun p => { p with tx := .holding h .jamming }) (doIf (decide (65 ≤ position)) countBad s)
    | .holding _ .deferring => s
    | .holding _ .jamming => s
    | .holding _ (.backingOff _) => s
    | .free => s) s)

/-- JAM_END (R19, R20, R22): the attempt count rises; the frame is given up at 16, otherwise a backoff is drawn. -/
def execJamEnd (draw : Nat) (s : State) : Answer :=
  .next (act (fun s =>
    match s.port.tx with
    | .holding h .jamming => jamEnded h draw s
    | .holding _ .deferring => s
    | .holding _ .sending => s
    | .holding _ (.backingOff _) => s
    | .free => s) s)

/-- BACKOFF_END (R20): BACKING-OFF becomes DEFERRING. -/
def execBackoffEnd (s : State) : Answer :=
  .next (whenUp (fun s =>
    match s.port.tx with
    | .holding h (.backingOff _) => updPort (fun p => { p with tx := .holding h .deferring }) s
    | .holding _ .deferring => s
    | .holding _ .sending => s
    | .holding _ .jamming => s
    | .free => s) s)

/-- HOLD_LINE_CHANGE (R2): the line belongs to the tower, so its level is seen in every mode and during the memory test. -/
def execHoldLineChange (asserted : Bool) (s : State) : Answer :=
  .next (updPort (fun p => { p with holdLevel := asserted }) s)

/-- HOLD_EXPIRY (R132): ASSERTED becomes SPENT. -/
def execHoldExpiry (s : State) : Answer := .next (whenUp holdExpired s)

end Sys2Proof.Machine
end

