-- ==== Sys2Proof/Machine/RosterCmds.lean ====
section
/-! DEFINITION. The roster's commands: BEACON_ARRIVAL and SILENCE_TIMER_EXPIRY (R31, R38 to R40). -/
namespace Sys2Proof.Machine

/-- A low mark field as the roster stores it: 0FFFFFFFFh is absent (R37). -/
def lowMarkOf (w : Word32) : Option Nat := if w = 0xFFFFFFFF#32 then none else some w.toNat

/-- The entry a beacon makes (R38). -/
def heardEntry (job : Word16) (b : BeaconBody) : RosterEntry :=
  { st := .present, job := job, digest := b.digest, jobState := b.jobState, base := b.base
    lowMark := lowMarkOf b.lowMark, settled := b.settled, timer := some Config.presentSpan }

/-- A BEACON with the station's own number (R31). -/
def ownNumberHeard (s : State) : State := doIf (s.ident.mode != .mute) enterMute s

/-- BEACON_ARRIVAL (R31, R38, R40). A sender above 31 passes no acceptance (R12) and has no entry. -/
def execBeaconArrival (sender : Byte) (job : Word16) (b : BeaconBody) (windowFirst : Bool) (s : State) : Answer :=
  .next (actOnArrival .roster sender job (.beacon b) (fun s =>
    match stationOf sender with
    | some x =>
      if x = s.own then ownNumberHeard s
      else rosterReport windowFirst x (updEntry x (fun _ => heardEntry job b) s)
    | none => s) s)

/-- An entry's silence timer expires (R39). -/
def RosterEntry.silenced (e : RosterEntry) : RosterEntry :=
  match e.st with
  | .present => { e with st := .silent, timer := some Config.silentSpan }
  | .silent => RosterEntry.empty
  | .absent => e

/-- SILENCE_TIMER_EXPIRY (R39, R40). The own entry's timer, and an ABSENT entry's, are stopped (R37). -/
def execSilenceTimerExpiry (x : Fin 32) (windowFirst : Bool) (s : State) : Answer :=
  .next (act (fun s =>
    if x ≠ s.own ∧ s.roster[x].timer.isSome then rosterReport windowFirst x (updEntry x RosterEntry.silenced s) else s) s)

end Sys2Proof.Machine
end

