-- ==== Sys2Proof/Machine/JobCmds.lean ====
section
/-! DEFINITION. The job controller's commands (R43 to R60). -/
namespace Sys2Proof.Machine

/-- JOB_ARRIVAL (R43): taken in ACTIVE only. -/
def execJobArrival (sender : Byte) (job : Word16) (b : JobBody) (s : State) : Answer :=
  .next (actOnArrival .jobController sender job (.job b) (fun s => doIf (s.ident.mode == .active) (takeJob job b) s) s)

/-- CANCEL_ARRIVAL (R51): the sender and the reason make no difference. -/
def execCancelArrival (sender : Byte) (job : Word16) (reason : Byte) (s : State) : Answer :=
  .next (actOnArrival .jobController sender job (.cancel reason) (fun s =>
    doIf (s.ident.mode == .active && s.isCurrent job && s.job.st.working) enterCancelled s) s)

/-- CANCEL_REPEAT_EXPIRY (R52). -/
def execCancelRepeatExpiry (s : State) : Answer := .next (whenUp cancelRepeat s)

/-- JOB_REPEAT_TIMER_EXPIRY (R47): one repeat waits in class 3; the timer runs on. -/
def execJobRepeatTimerExpiry (s : State) : Answer :=
  .next (whenUp (fun s => doIf (s.job.source && s.job.repeatTimer.isSome)
    (updPort fun p => { p with jobRepeat := true }) s) s)

/-- SETTLE_TIMER_EXPIRY (R46, R70). -/
def execSettleTimerExpiry (s : State) : Answer := .next (whenUp (updJob fun j => { j with settleTimer := none }) s)

/-- The orphan timer expires (R57, R59). -/
def orphanExpired (s : State) : State :=
  let t := updJob (fun j => { j with orphanTimer := none }) s
  if s.job.st = .orphaned then enterFinished t
  else if s.job.st.working ∧ s.job.confirmed = false then enterCancelled t
  else t

/-- ORPHAN_TIMER_EXPIRY (R57, R59). -/
def execOrphanTimerExpiry (s : State) : Answer :=
  .next (act (fun s => doIf s.job.orphanTimer.isSome orphanExpired s) s)

end Sys2Proof.Machine
end

