-- ==== Sys2Proof/Machine/WindowCmds.lean ====
section
/-! DEFINITION. The segment window's commands (R68, R70 to R76, R81, R82). -/
namespace Sys2Proof.Machine

/-- The opening rule (R70). -/
def State.mayOpen (s : State) : Bool :=
  s.job.source && (s.job.st == .enrolling || s.job.st == .copying) && s.job.settleTimer.isNone &&
    decide (s.win.next < s.imageSize) && decide (s.win.next < s.win.base + Config.windowSlots) && !s.holdSeen &&
    (s.slot (.win (winOf s.win.next))).holdsIn s.win.next .whole

/-- The eight new-data parcels of a segment, in parcel order (R71). -/
def newDataParcels (seg : Nat) : List (Nat × Fin 8) := allParcels.map fun p => (seg, p)

/-- Open segment next (R71, R49). -/
def openSegment (endFirst : Bool) (s : State) : State :=
  let seg := s.win.next
  let s := updPort (fun p => { p with class6 := p.class6 ++ newDataParcels seg }) s
  let s := updWin (fun w => { w with next := w.next + 1 }) s
  let s := if endFirst then offer (.win (winOf seg)) seg (segmentTimeEnd s)
    else segmentTimeEnd (offer (.win (winOf seg)) seg s)
  doIf (seg == 0) closeEnrollment s

/-- SEGMENT_OPEN (R70, R71). -/
def execSegmentOpen (endFirst : Bool) (s : State) : Answer :=
  .next (act (fun s => doIf s.mayOpen (openSegment endFirst) s) s)

/-- READ_AHEAD_READ (R68). -/
def execReadAheadRead (s : State) : Answer := .next (act readAhead s)

/-- A parcel at the source's window (R72). -/
def sourceParcel (job : Word16) (b : ParcelBody) (s : State) : State :=
  let seg := b.seg.toNat
  let sl := s.slot (.win (winOf seg))
  if s.isCurrent job ∧ s.job.st.sourced ∧ b.isRecall = false ∧ s.win.base ≤ seg ∧ seg < s.win.base + Config.windowSlots ∧
      sl.holdsIn seg .damaged ∧ sl.inFlight = 0 then
    (takeParcel seg b s).2
  else s

/-- The parcel's index becomes the highest new index (R73). -/
def State.raisesNew (s : State) (b : ParcelBody) : Bool :=
  !b.isRepair && !b.isRecall &&
    match s.win.highestNew with
    | some h => decide (h < b.seg.toNat)
    | none => true

/-- A parcel judged against the base and placed (R74, R75, R81, R88). -/
def judgeParcel (sender : Byte) (b : ParcelBody) (s : State) : State :=
  let seg := b.seg.toNat
  let s := if s.isSource sender then adoptBase b.base.toNat s else s
  if b.isRecall then placeRecall seg b s
  else if seg < s.win.base ∨ s.win.base + Config.windowSlots ≤ seg then s
  else
    match takeParcel seg b s with
    | (out, t) => if b.isRepair then t else gapReports seg b.parcel out t

/-- A parcel at a sink's window (R73): enrollment closes (R49); outside an orphan's source and within the image, a segment
time may end, before or after the parcel is handled (R125). Whether the end may fall between two reports that the handling
makes to one monitor is open; the model takes it before all of them or after all of them (log entry 36). -/
def sinkParcel (sender : Byte) (job : Word16) (b : ParcelBody) (endFirst : Bool) (s : State) : State :=
  if s.isCurrent job ∧ s.job.st.working then
    let s := closeEnrollment s
    if (s.job.st = .orphaned ∧ s.isSource sender) ∨ s.imageSize ≤ b.seg.toNat then s
    else if s.raisesNew b then
      let s := updWin (fun w => { w with highestNew := some b.seg.toNat }) s
      if endFirst then judgeParcel sender b (segmentTimeEnd s) else segmentTimeEnd (judgeParcel sender b s)
    else judgeParcel sender b s
  else s

/-- PARCEL_ARRIVAL_WINDOW (R72 to R75, R81). -/
def execParcelArrivalWindow (sender : Byte) (job : Word16) (b : ParcelBody) (endFirst : Bool) (s : State) : Answer :=
  .next (actOnArrival .segmentWindow sender job (.parcel b) (fun s =>
    if s.job.source then sourceParcel job b s else sinkParcel sender job b endFirst s) s)

/-- GAP_TIMER_EXPIRY (R76, R89): the timer stops, and the parcels not in the slot are reported missing; the hold demand is
judged, since a need may be new (R131). -/
def execGapTimerExpiry (i : Fin 16) (s : State) : Answer :=
  .next (whenUp (fun s =>
    let sl := s.slot (.win i)
    match sl.timer, sl.seg with
    | some _, some seg =>
      judgeHold (gapReport seg (~~~ sl.mask) (updSlot (.win i) (fun sl => { sl with timer := none }) s))
    | some _, none => s
    | none, _ => s) s)

/-- RECALL_SLOT_TIMER_EXPIRY (R82): a slot still FILLING or DAMAGED becomes FREE. -/
def execRecallSlotTimerExpiry (r : Fin 2) (s : State) : Answer :=
  .next (whenUp (fun s =>
    let sl := s.slot (.rslot r)
    doIf (sl.timer.isSome && (sl.st == .filling || sl.st == .damaged)) (updSlot (.rslot r) Slot.freed) s) s)

end Sys2Proof.Machine
end

