-- ==== Sys2Proof/Machine/RepairCmds.lean ====
section
/-! DEFINITION. The repair unit's commands (R91 to R100). -/
namespace Sys2Proof.Machine

/-- A REPAIR parcel heard for a DELAYING answer entry (R99). An entry in SENDING is left alone, at the source too, whose
entries are in SENDING at once (R98): R72's example, that a parcel suppresses part of an answer the source has queued, is not
followed (DESIGN CHOICE, log entry 37). -/
def repairHeard (seg : Nat) (p : Fin 8) (s : State) : State :=
  match s.answer seg with
  | some e =>
    if e.sending then s
    else if e.mask &&& ~~~ parcelBit p = 0 then dropAnswer seg s
    else updAnswer seg (fun e => { e with mask := e.mask &&& ~~~ parcelBit p }) s
  | none => s

/-- PARCEL_ARRIVAL_REPAIR (R99). -/
def execParcelArrivalRepair (sender : Byte) (job : Word16) (b : ParcelBody) (s : State) : Answer :=
  .next (arrival .repairUnit sender job (.parcel b) (fun s =>
    doIf (b.isRepair && s.isCurrent job) (repairHeard b.seg.toNat b.parcel) s) s)

/-- NEED_ARRIVAL (R95, R98). -/
def execNeedArrival (sender : Byte) (job : Word16) (seg : Word32) (mask : Byte) (s : State) : Answer :=
  .next (arrival .repairUnit sender job (.need seg mask) (fun s =>
    doIf (s.job.st.working && s.isCurrent job && mask != 0 && decide (seg.toNat < s.imageSize))
      (fun s => answerNeed seg.toNat mask (coverNeed seg.toNat mask s)) s) s)

/-- An entry asks (R91): its NEED joins class 4. -/
def askNeed (seg : Nat) (s : State) : State :=
  updPort (fun p => { p with class4 := p.class4 ++ [seg] })
    (updNeed seg (fun e => { e with count := e.count + 1, st := .asked .inClass, timer := none }) s)

/-- NEED_DELAY_EXPIRY (R91): the entry asks, unless its slot would throw the parcels away. -/
def execNeedDelayExpiry (seg : Nat) (s : State) : Answer :=
  .next (whenUp (fun s =>
    match s.need seg with
    | some e =>
      if e.st = .waitingDelay then
        if (s.slot (.win (winOf seg))).discards then rewait seg e.missing s else askNeed seg s
      else s
    | none => s) s)

/-- NEED_RETRY_EXPIRY (R92, R93): a new delay, or exhaustion at six NEED frames. -/
def execNeedRetryExpiry (seg : Nat) (s : State) : Answer :=
  .next (act (fun s =>
    match s.need seg with
    | some e =>
      if e.st = .asked .retry then
        if e.count < Config.maxNeeds then rewait seg e.missing s else exhaustNeed seg s
      else s
    | none => s) s)

/-- SUPPRESSION_EXPIRY (R96). -/
def execSuppressionExpiry (seg : Nat) (s : State) : Answer :=
  .next (whenUp (fun s =>
    match s.need seg with
    | some e => if e.st = .suppressed then rewait seg e.missing s else s
    | none => s) s)

/-- ANSWER_DELAY_EXPIRY (R100). -/
def execAnswerDelayExpiry (seg : Nat) (s : State) : Answer :=
  .next (whenUp (fun s =>
    match s.answer seg with
    | some e => if e.sending then s else startSending seg s
    | none => s) s)

end Sys2Proof.Machine
end

