-- ==== Sys2Proof/Machine/SocketCmds.lean ====
section
/-! DEFINITION. The commands of the socket engines (R109, R138 to R152, R163). -/
namespace Sys2Proof.Machine

/-- INSERTION (R140): an EMPTY socket begins to attach. -/
def execInsertion (k : Fin 8) (s : State) : Answer :=
  .next (whenUp (fun s => doIf (s.sockets[k].st == .empty)
    (fun s => setState k .attaching .none
      (issue k .identify (updSocket k (fun sk => { sk with attachTimer := some Config.attachSpan }) s))) s) s)

/-- ATTACH_TIMER_EXPIRY (R140). -/
def execAttachTimerExpiry (k : Fin 8) (s : State) : Answer :=
  .next (whenUp (fun s => doIf (s.sockets[k].st == .attaching && s.sockets[k].attachTimer.isSome)
    (rejectAttach k .noResponse) s) s)

/-- The attempt in flight at a socket serves a given attach command. -/
def State.attachAt (s : State) (k : Fin 8) (p : Purpose) : Bool :=
  match s.sockets[k].attempt with
  | some c => s.sockets[k].st == .attaching && c.purpose == p
  | none => false

/-- IDENTIFY_COMPLETE (R140). -/
def execIdentifyComplete (k : Fin 8) (good : Bool) (s : State) : Answer :=
  .next (whenUp (fun s => doIf (s.attachAt k .identify)
    (if good then issue k .capacity else rejectAttach k .noResponse) s) s)

/-- CAPACITY_COMPLETE (R140, R138): the sector count is recorded. -/
def execCapacityComplete (k : Fin 8) (sectors : Option Nat) (s : State) : Answer :=
  .next (whenUp (fun s => doIf (s.attachAt k .capacity)
    (match sectors with
      | some n => fun s => issue k .protectStatus (updSocket k (fun sk => { sk with capacity := some n }) s)
      | none => rejectAttach k .noResponse) s) s)

/-- An attach succeeds: the socket reaches READY and is placed (R140, R141). -/
def attachSucceeds (k : Fin 8) (s : State) : State :=
  placeReady k (updSocket k (fun sk => { sk with cmd := none, attachTimer := none }) s)

/-- PROTECT_STATUS_COMPLETE (R140, R141). -/
def execProtectStatusComplete (k : Fin 8) (isProtected : Option Bool) (s : State) : Answer :=
  .next (act (fun s => doIf (s.attachAt k .protectStatus)
    (match isProtected with
      | some true => rejectAttach k .isProtected
      | some false => attachSucceeds k
      | none => rejectAttach k .noResponse) s) s)

/-- DESCRIPTOR_TAKE (R109). -/
def execDescriptorTake (k : Fin 8) (s : State) : Answer := .next (whenUp (takeDescriptor k) s)

/-- The end of a WRITE SEGMENT attempt (R139, R143, R145). The good attempt of an exit-bound or detached write has its
stream judged all the same (R164). -/
def writeEnds (k : Fin 8) (good : Bool) (c : Command) (s : State) : State :=
  match c.purpose with
  | .blanking =>
    if s.sockets[k].discards c then endDiscarded k s
    else if good then setState k .enrolled .none (clearCommand k s)
    else attemptError k c s
  | .descriptor seg src _ =>
    if s.sockets[k].discards c then endDiscarded k (doIf good (judgeStream k) s)
    else if good then writeGood k s
    else attemptError k c s
  | .identify | .capacity | .protectStatus | .verify _ | .master _ _ => s

/-- WRITE_SEGMENT_COMPLETE (R139, R143, R145). A completion with no attempt in flight is ignored (R138). -/
def execWriteSegmentComplete (k : Fin 8) (good : Bool) (s : State) : Answer :=
  .next (act (fun s =>
    match s.sockets[k].attempt with
    | some c => writeEnds k good c s
    | none => s) s)

/-- The end of a READ SEGMENT attempt (R139, R148, R154). -/
def readEnds (k : Fin 8) (data : Option (List Byte)) (c : Command) (s : State) : State :=
  match c.purpose with
  | .verify seg =>
    if s.sockets[k].discards c then endDiscarded k s
    else
      match data with
      | some bytes => verifyGood k seg (readData bytes) s
      | none => attemptError k c s
  | .master seg dst =>
    if s.sockets[k].discards c then endDiscarded k s
    else
      match data with
      | some bytes => masterReadGood seg dst (readData bytes) (clearCommand k s)
      | none => attemptError k c s
  | .identify | .capacity | .protectStatus | .blanking | .descriptor _ _ _ => s

/-- READ_SEGMENT_COMPLETE (R148, R69, R180). A completion with no attempt in flight is ignored (R138). -/
def execReadSegmentComplete (k : Fin 8) (data : Option (List Byte)) (s : State) : Answer :=
  .next (act (fun s =>
    match s.sockets[k].attempt with
    | some c => readEnds k data c s
    | none => s) s)

/-- LAST_BYTE_STREAMED (R163, R164). -/
def lastByteStreamed (k : Fin 8) (upsets : List (Nat × Byte)) (s : State) : State :=
  match s.sockets[k].attempt with
  | some c =>
    match c.purpose with
    | .descriptor seg src _ =>
      if c.verdict.isSome then s else judgeStream k (upsetHeld src seg upsets (upsetSlot src upsets s))
    | .identify | .capacity | .protectStatus | .blanking | .verify _ | .master _ _ => s
  | none => s

/-- LAST_BYTE_STREAMED (R163, R164). -/
def execLastByteStreamed (k : Fin 8) (upsets : List (Nat × Byte)) (s : State) : Answer :=
  .next (act (lastByteStreamed k upsets) s)

/-- An attempt has stalled (R138, R139): the port is reset; an attach command makes one attempt only (R140), and so does a
command whose result is discarded. -/
def attemptStalled (k : Fin 8) (c : Command) (s : State) : State :=
  if s.sockets[k].discards c then endDiscarded k s
  else
    match c.purpose with
    | .identify | .capacity | .protectStatus => rejectAttach k .noResponse s
    | .blanking | .descriptor _ _ _ | .verify _ | .master _ _ =>
      if c.attempt < Config.maxCommandAttempts then
        updSocket k (fun sk => { sk with cmd := some { c with stall := none, portReset := true } }) s
      else commandFailed k c.purpose true s

/-- STALL_TIMER_EXPIRY (R138, R139). -/
def execStallTimerExpiry (k : Fin 8) (s : State) : Answer :=
  .next (act (fun s =>
    match s.sockets[k].attempt with
    | some c => doIf c.stall.isSome (attemptStalled k c) s
    | none => s) s)

/-- PORT_RESET_END (R139): the next attempt is issued. -/
def execPortResetEnd (k : Fin 8) (s : State) : Answer :=
  .next (act (fun s =>
    match s.sockets[k].cmd with
    | some c => if c.portReset then if s.sockets[k].discards c then endDiscarded k s else retry k s else s
    | none => s) s)

/-- REMOVAL (R152). -/
def execRemoval (k : Fin 8) (s : State) : Answer :=
  .next (act (fun s => doIf (s.sockets[k].st != .empty) (removeStick k) s) s)

end Sys2Proof.Machine
end

