-- ==== Sys2Proof/Machine/RecallCmds.lean ====
section
/-! DEFINITION. The commands of the recall and verify unit (R174 to R179). -/
namespace Sys2Proof.Machine

/-- RECALL_REQUEST_PLACE (R174). -/
def execRecallRequestPlace (s : State) : Answer := .next (whenUp placeRequest s)

/-- RECALL_WAIT_EXPIRY (R176). -/
def execRecallWaitExpiry (s : State) : Answer := .next (act waitExpired s)

/-- A RECALL frame at a station without the SOURCE role (R177); at the source it is RECALL_ARRIVAL_SOURCE's. -/
def hearRecall (job : Word16) (segs : List Word32) (s : State) : State :=
  doIf (!s.job.source && s.ident.mode == .active && (s.job.st.recalling || s.job.st == .orphaned) && s.isCurrent job)
    (forEach segs fun w => hearSegment w.toNat) s

/-- RECALL_ARRIVAL_SINK (R177). -/
def execRecallArrivalSink (sender : Byte) (job : Word16) (segs : List Word32) (s : State) : Answer :=
  .next (actOnArrival .recallUnit sender job (.recallList segs) (hearRecall job segs) s)

/-- HEARD_SET_EXPIRY (R177): the segment leaves the set. -/
def execHeardSetExpiry (seg : Nat) (s : State) : Answer :=
  .next (whenUp (updRv fun r => { r with heard := r.heard.filter fun x => x != seg }) s)

/-- A RECALL frame at the source (R178); at any other station it is RECALL_ARRIVAL_SINK's. -/
def queueRecall (job : Word16) (segs : List Word32) (s : State) : State :=
  doIf (s.job.source && s.job.st.recalling && s.isCurrent job) (forEach segs fun w => joinQueue w.toNat) s

/-- RECALL_ARRIVAL_SOURCE (R178). -/
def execRecallArrivalSource (sender : Byte) (job : Word16) (segs : List Word32) (s : State) : Answer :=
  .next (actOnArrival .recallUnit sender job (.recallList segs) (queueRecall job segs) s)

/-- RECALL_READ_ISSUE (R179). -/
def execRecallReadIssue (s : State) : Answer := .next (act recallRead s)

end Sys2Proof.Machine
end

