-- ==== Sys2Proof/Machine/Dispatch.lean ====
section
/-! DEFINITION. The meaning of each command: one arm for each row of spec/opcode_table.json. -/
namespace Sys2Proof.Machine

/-- The effect of a command on everything but the queue. -/
def exec (i : Instr) (s : State) : Host.Outcome State Fault Refusal :=
  match i with
  | .powerOnReset => Sys2Proof.Machine.execPowerOnReset s
  | .memoryTestEnd pass straps => Sys2Proof.Machine.execMemoryTestEnd pass straps s
  | .resetn straps => Sys2Proof.Machine.execResetn straps s
  | .listeningTimerExpiry => Sys2Proof.Machine.execListeningTimerExpiry s
  | .beaconTimerExpiry => Sys2Proof.Machine.execBeaconTimerExpiry s
  | .receptionComplete bytes overlapsOwn => Sys2Proof.Machine.execReceptionComplete bytes overlapsOwn s
  | .receptionBroken stored overlapsOwn => Sys2Proof.Machine.execReceptionBroken stored overlapsOwn s
  | .receptionOverlong overlapsOwn => Sys2Proof.Machine.execReceptionOverlong overlapsOwn s
  | .beaconArrival sender job body windowFirst => Sys2Proof.Machine.execBeaconArrival sender job body windowFirst s
  | .silenceTimerExpiry station windowFirst => Sys2Proof.Machine.execSilenceTimerExpiry station windowFirst s
  | .jobArrival sender job body => Sys2Proof.Machine.execJobArrival sender job body s
  | .cancelArrival sender job reason => Sys2Proof.Machine.execCancelArrival sender job reason s
  | .cancelRepeatExpiry => Sys2Proof.Machine.execCancelRepeatExpiry s
  | .jobRepeatTimerExpiry => Sys2Proof.Machine.execJobRepeatTimerExpiry s
  | .settleTimerExpiry => Sys2Proof.Machine.execSettleTimerExpiry s
  | .orphanTimerExpiry => Sys2Proof.Machine.execOrphanTimerExpiry s
  | .transmitterTake => Sys2Proof.Machine.execTransmitterTake s
  | .interFrameGapComplete => Sys2Proof.Machine.execInterFrameGapComplete s
  | .frameSent => Sys2Proof.Machine.execFrameSent s
  | .collision position => Sys2Proof.Machine.execCollision position s
  | .jamEnd draw => Sys2Proof.Machine.execJamEnd draw s
  | .backoffEnd => Sys2Proof.Machine.execBackoffEnd s
  | .holdLineChange asserted => Sys2Proof.Machine.execHoldLineChange asserted s
  | .segmentOpen endFirst => Sys2Proof.Machine.execSegmentOpen endFirst s
  | .readAheadRead => Sys2Proof.Machine.execReadAheadRead s
  | .readSegmentComplete socket data => Sys2Proof.Machine.execReadSegmentComplete socket data s
  | .parcelArrivalWindow sender job body endFirst => Sys2Proof.Machine.execParcelArrivalWindow sender job body endFirst s
  | .gapTimerExpiry slot => Sys2Proof.Machine.execGapTimerExpiry slot s
  | .recallSlotTimerExpiry slot => Sys2Proof.Machine.execRecallSlotTimerExpiry slot s
  | .parcelArrivalRepair sender job body => Sys2Proof.Machine.execParcelArrivalRepair sender job body s
  | .needArrival sender job seg mask => Sys2Proof.Machine.execNeedArrival sender job seg mask s
  | .needDelayExpiry seg => Sys2Proof.Machine.execNeedDelayExpiry seg s
  | .needRetryExpiry seg => Sys2Proof.Machine.execNeedRetryExpiry seg s
  | .suppressionExpiry seg => Sys2Proof.Machine.execSuppressionExpiry seg s
  | .answerDelayExpiry seg => Sys2Proof.Machine.execAnswerDelayExpiry seg s
  | .descriptorTake socket => Sys2Proof.Machine.execDescriptorTake socket s
  | .writeSegmentComplete socket good => Sys2Proof.Machine.execWriteSegmentComplete socket good s
  | .lastByteStreamed socket upsets => Sys2Proof.Machine.execLastByteStreamed socket upsets s
  | .holdExpiry => Sys2Proof.Machine.execHoldExpiry s
  | .insertion socket => Sys2Proof.Machine.execInsertion socket s
  | .attachTimerExpiry socket => Sys2Proof.Machine.execAttachTimerExpiry socket s
  | .identifyComplete socket good => Sys2Proof.Machine.execIdentifyComplete socket good s
  | .capacityComplete socket sectors => Sys2Proof.Machine.execCapacityComplete socket sectors s
  | .protectStatusComplete socket isProtected => Sys2Proof.Machine.execProtectStatusComplete socket isProtected s
  | .stallTimerExpiry socket => Sys2Proof.Machine.execStallTimerExpiry socket s
  | .portResetEnd socket => Sys2Proof.Machine.execPortResetEnd socket s
  | .removal socket => Sys2Proof.Machine.execRemoval socket s
  | .recallRequestPlace => Sys2Proof.Machine.execRecallRequestPlace s
  | .recallWaitExpiry => Sys2Proof.Machine.execRecallWaitExpiry s
  | .recallArrivalSink sender job segs => Sys2Proof.Machine.execRecallArrivalSink sender job segs s
  | .heardSetExpiry seg => Sys2Proof.Machine.execHeardSetExpiry seg s
  | .recallArrivalSource sender job segs => Sys2Proof.Machine.execRecallArrivalSource sender job segs s
  | .recallReadIssue => Sys2Proof.Machine.execRecallReadIssue s
  | .laneIdle => Sys2Proof.Machine.execLaneIdle s

end Sys2Proof.Machine
end

