-- ==== Sys2Proof/Safety.lean ====
section
/-! DEFINITION. What is safe: the predicates that every step keeps, and what a step leaves alone. -/
namespace Sys2Proof.Safety
open Sys2Proof.Machine

/-- What lies outside the work of a job: identity, stored roster, the two counts, the receiver's wait, the HOLD line,
the hand-offs and the queue of commands. -/
structure Outer where
  ident : Ident
  roster : Vector RosterEntry 32
  badFrames : Word16
  giveUps : Word16
  rxWait : Bool
  holdLevel : Bool
  handoffs : List (Owner × Frame)
  pending : List Instr

/-- That part of a state. -/
def outer (s : State) : Outer :=
  { ident := s.ident, roster := s.roster, badFrames := s.port.badFrames, giveUps := s.port.giveUps
    rxWait := s.port.rxWait, holdLevel := s.port.holdLevel, handoffs := s.port.handoffs, pending := s.pending }

/-- The beacon of a station (R28, R30, R34): the debt is at most 8; outside ACTIVE it is 0 and the beacon timer is
stopped. -/
def beaconOk (s : State) : Prop :=
  s.ident.debt ≤ 8 ∧ (s.ident.mode ≠ .active → s.ident.debt = 0 ∧ s.ident.beaconTimer = none)

/-- A station outside ACTIVE has withdrawn (R24, R29, R32): it sends nothing, drives no HOLD and is IDLE. -/
def withdrawn (s : State) : Prop :=
  s.ident.mode ≠ .active → s.port.tx = .free ∧ s.pacing.hold ≠ .asserted ∧ s.job.st = .idle

/-- The DRAM regions are in canonical form, within their sizes (R61, R78, R80, R106). -/
def storageOk (s : State) : Prop :=
  (∀ id : SlotId, Memory.wf (s.slot id).buf ∧ ∀ c ∈ (s.slot id).buf, c.1 < Config.segmentBytes) ∧
    Sparse.wf s.win.checkTable ∧ ∀ k : Fin 8, ascending s.sockets[k].written

/-- Rings, owed lists, heard set, recall queue and patch table are within their capacities; those kept in segment order are
strictly ascending, and the patch table is in strict entry-number order (R104, R159, R170, R173, R178). -/
def capacityOk (s : State) : Prop :=
  (∀ k : Fin 8, s.sockets[k].ring.length ≤ Config.ringSize ∧ s.sockets[k].owed.length ≤ Config.owedSize ∧
      ascending (s.sockets[k].owed.map (·.seg))) ∧
    s.rv.heard.length ≤ Config.recallQueueSize ∧ ascending s.rv.heard ∧
    s.rv.queue.length ≤ Config.recallQueueSize ∧ ascending s.rv.queue ∧
    s.patches.length ≤ 8 ∧ s.patches.Pairwise fun p q => p.number.toNat < q.number.toNat

/-- The former state is held exactly while ORPHANED, and is ENROLLING, COPYING or CLOSING (R42, R58). -/
def formerOk (s : State) : Prop :=
  (s.job.st = .orphaned ↔ s.job.former.isSome) ∧
    ∀ g, s.job.former = some g → g = .enrolling ∨ g = .copying ∨ g = .closing

/-- A segment that a socket owes, has in its ring, has to check again, or is writing or reading. -/
def concerns (sk : Socket) (seg : Nat) : Prop :=
  seg ∈ sk.recheck ∨ sk.owes seg = true ∨ (∃ d ∈ sk.ring, d.seg = seg) ∨
    ∃ c, sk.cmd = some c ∧ (c.purpose = .verify seg ∨ ∃ src x, c.purpose = .descriptor seg src x)

/-- What keeps a recheck list within its 32 entries: it is empty outside REPAYING, but for a socket that is done with the job,
at an exit-bound socket and under a blanking write; a VERIFYING socket has an empty ring; and the segments that concern a
REPAYING socket are among the at most 32 that it owed when it entered REPAYING (R147, R171, R182, R183, R184, R186). -/
def recheckOk (sk : Socket) : Prop :=
  (sk.exit.isSome ∨ ¬ (sk.st = .repaying ∨ sk.st = .done ∨ sk.st = .failed ∨ sk.st = .rejected) → sk.recheck = []) ∧
    (∀ c, sk.cmd = some c → c.purpose = .blanking → sk.recheck = []) ∧ (sk.st = .verifying → sk.ring = []) ∧
    (sk.st = .repaying → ∃ l : List Nat, l.length ≤ Config.owedSize ∧ ∀ seg, concerns sk seg → seg ∈ l)

/-- The expectation and recheck lists are within their capacities, 16 and 32, and in strict segment order; an expectation list
has at most 16 - P entries of segments that are not patched (R165, R182). -/
def listsOk (s : State) : Prop :=
  ∀ k : Fin 8, s.sockets[k].expect.length ≤ Config.expectSize ∧ ascending (s.sockets[k].expect.map (·.seg)) ∧
    (s.sockets[k].expect.filter fun e => !s.isPatched e.seg).length ≤ Config.expectSize - s.patchedCount ∧
    s.sockets[k].recheck.length ≤ Config.owedSize ∧ ascending s.sockets[k].recheck ∧ recheckOk s.sockets[k]

/-- The pending needs and the exhausted segments are distinct and lie in the window; the answer queue is within its
capacity (R85, R86, R97). -/
def needsOk (s : State) : Prop :=
  ascending (s.repair.needs.map (·.seg)) ∧ ascending s.repair.exhausted ∧
    (∀ e ∈ s.repair.needs, s.win.base ≤ e.seg ∧ e.seg < s.win.base + Config.windowSlots) ∧
    (∀ g ∈ s.repair.exhausted, s.win.base ≤ g ∧ g < s.win.base + Config.windowSlots) ∧
    s.repair.answers.length ≤ Config.answerSize

/-- The HOLD output follows the demand (R131, R132): it is RELEASED exactly while the demand is false, and its expiry
timer runs exactly while it is ASSERTED. -/
def holdOk (s : State) : Prop :=
  (s.pacing.hold = .released ↔ s.holdDemand = false) ∧ (s.pacing.holdTimer.isSome ↔ s.pacing.hold = .asserted)

/-- Outside a job the loss monitor is idle (R134), and a station outside ACTIVE is IDLE (R29, R32). -/
def monitorOk (s : State) : Prop :=
  (s.job.st.working = false → s.pacing.loss = Monitor.idle) ∧ (s.ident.mode ≠ .active → s.job.st = .idle)

/-! ### Who may change what -/

/-- The commands of a reset. -/
def isReset : Instr → Bool
  | .powerOnReset | .memoryTestEnd _ _ | .resetn _ => true
  | _ => false

/-- The commands that may change the identity block: the resets, its two timers, a BEACON with the own number, a beacon
sent. -/
def mayChangeIdent : Instr → Bool
  | .listeningTimerExpiry | .beaconTimerExpiry | .beaconArrival _ _ _ _ | .frameSent => true
  | c => isReset c

/-- The commands that may change the stored roster. -/
def mayChangeRoster : Instr → Bool
  | .beaconArrival _ _ _ _ | .silenceTimerExpiry _ _ => true
  | c => isReset c

/-- The commands that may change the bad-frame count (R13). -/
def mayCountBad : Instr → Bool
  | .receptionComplete _ _ | .receptionBroken _ _ | .receptionOverlong _ | .collision _ => true
  | c => isReset c

/-- The commands that may change the give-up count (R13). -/
def mayGiveUp : Instr → Bool
  | .jamEnd _ => true
  | c => isReset c

/-- The commands that may change the patch table (R159). -/
def mayChangePatches : Instr → Bool
  | .jobArrival _ _ _ => true
  | c => isReset c

/-- The commands that may store into the DRAM: a good read, a parcel, bytes that have changed, and power-on. -/
def mayStore : Instr → Bool
  | .powerOnReset | .parcelArrivalWindow _ _ _ _ => true
  | .readSegmentComplete _ data => data.isSome
  | .lastByteStreamed _ upsets => !upsets.isEmpty
  | _ => false

/-! ### The outcome of a frame -/

/-- What the report of an outcome, sent or given up, changes in the block that offered the frame (R18, R22, R92, R175, R180);
the beacon's debt, which only *sent* changes, is in the identity block. A NEED's entry starts its retry timer; a recall parcel
counts as no longer to be sent, and its slot is freed if it has none left and no claims (R83); a RECALL starts its wait. The
window, the repair unit and the recall unit are otherwise unchanged. -/
def outcomeReported (tag : HeldTag) (s u : State) : Prop :=
  match tag with
  | .need seg =>
    u.win = s.win ∧ u.rv = s.rv ∧ u.repair.exhausted = s.repair.exhausted ∧ u.repair.answers = s.repair.answers ∧
      (∀ g, g ≠ seg → u.need g = s.need g) ∧ (s.need seg = none → u.need seg = none) ∧
      ∀ e, s.need seg = some e →
        u.need seg = some (if e.st = .asked .held then
          { e with st := .asked .retry, timer := some (8 * Config.ms) } else e)
  | .recallParcel r =>
    u.repair = s.repair ∧ u.rv = s.rv ∧ u.win = { s.win with recalls := u.win.recalls } ∧
      (∀ id, id ≠ .rslot r → u.slot id = s.slot id) ∧
      let sl := s.slot (.rslot r)
      let n := sl.toSend - 1
      u.slot (.rslot r) =
        if ((n = 0 ∧ sl.st = .whole) ∨ sl.st = .retired) ∧ sl.pending = 0 ∧ sl.inFlight = 0 then
          { sl with st := .free, seg := none, mask := 0, timer := none, toSend := n }
        else { sl with toSend := n }
  | .recallRequest =>
    u.win = s.win ∧ u.repair = s.repair ∧
      u.rv = if s.rv.request = .taken then { s.rv with request := .waiting, wait := some (200 * Config.ms) } else s.rv
  | .beacon | .cancel | .jobRepeat | .answer | .newData _ | .stale =>
    u.win = s.win ∧ u.repair = s.repair ∧ u.rv = s.rv

/-! ### After a reset, after a teardown -/

/-- The blocks other than the identity as a reset leaves them (R28 and the chapters it names); the DRAM contents and the
HOLD line are those of `s`. -/
def afterReset (s t : State) : Prop :=
  (∀ x : Fin 32, t.roster[x] = RosterEntry.empty) ∧ t.port = Port.reset s.port.holdLevel ∧ t.job = Job.reset ∧
    t.repair = Repair.empty ∧ t.pacing = Pacing.reset ∧ t.rv = Recall.reset ∧ t.patches = [] ∧
    t.win.base = 0 ∧ t.win.next = 0 ∧ t.win.readMark = 0 ∧ t.win.highestNew = none ∧
    t.win.checkTable = s.win.checkTable ∧ (∀ id : SlotId, t.slot id = Slot.empty (s.slot id).buf) ∧
    ∀ k : Fin 8, t.sockets[k] = Socket.reset s.sockets[k].written

/-- The station after a teardown (R84, R103, R116, R134, R150, R188): no role and no timer of the job, an empty repair unit
and recall unit, the window at 0 with every slot FREE and unclaimed by pending descriptors, the pacing unit released and
idle, no item of the job in classes 3 to 7, every ring and list empty, every tie none; a socket still in the job is bound
for an exit. -/
def tornDown (t : State) : Prop :=
  t.job.source = false ∧ t.job.former = none ∧ t.job.orphanTimer = none ∧ t.job.settleTimer = none ∧
    t.job.repeatTimer = none ∧ t.repair = Repair.empty ∧ t.rv = Recall.reset ∧ t.pacing = Pacing.reset ∧
    t.win.base = 0 ∧ t.win.next = 0 ∧ t.win.readMark = 0 ∧ t.win.highestNew = none ∧
    (t.port.jobRepeat = false ∧ t.port.class4 = [] ∧ t.port.class5 = [] ∧ t.port.class6 = [] ∧ t.port.class7 = []) ∧
    (∀ id : SlotId, (t.slot id).st = .free ∧ (t.slot id).seg = none ∧ (t.slot id).mask = 0 ∧
      (t.slot id).timer = none ∧ (t.slot id).pending = 0 ∧ (t.slot id).toSend = 0) ∧
    ∀ k : Fin 8, t.sockets[k].ring = [] ∧ t.sockets[k].owed = [] ∧ t.sockets[k].recheck = [] ∧
      t.sockets[k].expect = [] ∧ t.sockets[k].passList = [] ∧ t.sockets[k].passCount = 0 ∧ t.sockets[k].cursor = none ∧
      t.sockets[k].tie = .none ∧ t.sockets[k].lag = Monitor.idle ∧
      (t.sockets[k].st.inJob = true ∨ t.sockets[k].st = .master → t.sockets[k].exit.isSome) ∧ t.sockets[k].st ≠ .waiting

end Sys2Proof.Safety
end

