-- ==== Sys2Proof/Laws/State.lean ====
section
/-! SUPPORT. One lemma for each field of each update, so that no proof unfolds a record update; the walk over a list. -/
namespace Sys2Proof.Machine

@[simp] theorem updIdent_ident (f : Ident → Ident) (s : State) : (updIdent f s).ident = f s.ident := rfl
@[simp] theorem updIdent_roster (f : Ident → Ident) (s : State) : (updIdent f s).roster = s.roster := rfl
@[simp] theorem updIdent_port (f : Ident → Ident) (s : State) : (updIdent f s).port = s.port := rfl
@[simp] theorem updIdent_job (f : Ident → Ident) (s : State) : (updIdent f s).job = s.job := rfl
@[simp] theorem updIdent_win (f : Ident → Ident) (s : State) : (updIdent f s).win = s.win := rfl
@[simp] theorem updIdent_repair (f : Ident → Ident) (s : State) : (updIdent f s).repair = s.repair := rfl
@[simp] theorem updIdent_sockets (f : Ident → Ident) (s : State) : (updIdent f s).sockets = s.sockets := rfl
@[simp] theorem updIdent_pacing (f : Ident → Ident) (s : State) : (updIdent f s).pacing = s.pacing := rfl
@[simp] theorem updIdent_rv (f : Ident → Ident) (s : State) : (updIdent f s).rv = s.rv := rfl
@[simp] theorem updIdent_patches (f : Ident → Ident) (s : State) : (updIdent f s).patches = s.patches := rfl
@[simp] theorem updIdent_draws (f : Ident → Ident) (s : State) : (updIdent f s).draws = s.draws := rfl
@[simp] theorem updIdent_pending (f : Ident → Ident) (s : State) : (updIdent f s).pending = s.pending := rfl

@[simp] theorem updPort_ident (f : Port → Port) (s : State) : (updPort f s).ident = s.ident := rfl
@[simp] theorem updPort_roster (f : Port → Port) (s : State) : (updPort f s).roster = s.roster := rfl
@[simp] theorem updPort_port (f : Port → Port) (s : State) : (updPort f s).port = f s.port := rfl
@[simp] theorem updPort_job (f : Port → Port) (s : State) : (updPort f s).job = s.job := rfl
@[simp] theorem updPort_win (f : Port → Port) (s : State) : (updPort f s).win = s.win := rfl
@[simp] theorem updPort_repair (f : Port → Port) (s : State) : (updPort f s).repair = s.repair := rfl
@[simp] theorem updPort_sockets (f : Port → Port) (s : State) : (updPort f s).sockets = s.sockets := rfl
@[simp] theorem updPort_pacing (f : Port → Port) (s : State) : (updPort f s).pacing = s.pacing := rfl
@[simp] theorem updPort_rv (f : Port → Port) (s : State) : (updPort f s).rv = s.rv := rfl
@[simp] theorem updPort_patches (f : Port → Port) (s : State) : (updPort f s).patches = s.patches := rfl
@[simp] theorem updPort_draws (f : Port → Port) (s : State) : (updPort f s).draws = s.draws := rfl
@[simp] theorem updPort_pending (f : Port → Port) (s : State) : (updPort f s).pending = s.pending := rfl

@[simp] theorem updJob_ident (f : Job → Job) (s : State) : (updJob f s).ident = s.ident := rfl
@[simp] theorem updJob_roster (f : Job → Job) (s : State) : (updJob f s).roster = s.roster := rfl
@[simp] theorem updJob_port (f : Job → Job) (s : State) : (updJob f s).port = s.port := rfl
@[simp] theorem updJob_job (f : Job → Job) (s : State) : (updJob f s).job = f s.job := rfl
@[simp] theorem updJob_win (f : Job → Job) (s : State) : (updJob f s).win = s.win := rfl
@[simp] theorem updJob_repair (f : Job → Job) (s : State) : (updJob f s).repair = s.repair := rfl
@[simp] theorem updJob_sockets (f : Job → Job) (s : State) : (updJob f s).sockets = s.sockets := rfl
@[simp] theorem updJob_pacing (f : Job → Job) (s : State) : (updJob f s).pacing = s.pacing := rfl
@[simp] theorem updJob_rv (f : Job → Job) (s : State) : (updJob f s).rv = s.rv := rfl
@[simp] theorem updJob_patches (f : Job → Job) (s : State) : (updJob f s).patches = s.patches := rfl
@[simp] theorem updJob_draws (f : Job → Job) (s : State) : (updJob f s).draws = s.draws := rfl
@[simp] theorem updJob_pending (f : Job → Job) (s : State) : (updJob f s).pending = s.pending := rfl

@[simp] theorem updWin_ident (f : Window → Window) (s : State) : (updWin f s).ident = s.ident := rfl
@[simp] theorem updWin_roster (f : Window → Window) (s : State) : (updWin f s).roster = s.roster := rfl
@[simp] theorem updWin_port (f : Window → Window) (s : State) : (updWin f s).port = s.port := rfl
@[simp] theorem updWin_job (f : Window → Window) (s : State) : (updWin f s).job = s.job := rfl
@[simp] theorem updWin_win (f : Window → Window) (s : State) : (updWin f s).win = f s.win := rfl
@[simp] theorem updWin_repair (f : Window → Window) (s : State) : (updWin f s).repair = s.repair := rfl
@[simp] theorem updWin_sockets (f : Window → Window) (s : State) : (updWin f s).sockets = s.sockets := rfl
@[simp] theorem updWin_pacing (f : Window → Window) (s : State) : (updWin f s).pacing = s.pacing := rfl
@[simp] theorem updWin_rv (f : Window → Window) (s : State) : (updWin f s).rv = s.rv := rfl
@[simp] theorem updWin_patches (f : Window → Window) (s : State) : (updWin f s).patches = s.patches := rfl
@[simp] theorem updWin_draws (f : Window → Window) (s : State) : (updWin f s).draws = s.draws := rfl
@[simp] theorem updWin_pending (f : Window → Window) (s : State) : (updWin f s).pending = s.pending := rfl

@[simp] theorem updRepair_ident (f : Repair → Repair) (s : State) : (updRepair f s).ident = s.ident := rfl
@[simp] theorem updRepair_roster (f : Repair → Repair) (s : State) : (updRepair f s).roster = s.roster := rfl
@[simp] theorem updRepair_port (f : Repair → Repair) (s : State) : (updRepair f s).port = s.port := rfl
@[simp] theorem updRepair_job (f : Repair → Repair) (s : State) : (updRepair f s).job = s.job := rfl
@[simp] theorem updRepair_win (f : Repair → Repair) (s : State) : (updRepair f s).win = s.win := rfl
@[simp] theorem updRepair_repair (f : Repair → Repair) (s : State) : (updRepair f s).repair = f s.repair := rfl
@[simp] theorem updRepair_sockets (f : Repair → Repair) (s : State) : (updRepair f s).sockets = s.sockets := rfl
@[simp] theorem updRepair_pacing (f : Repair → Repair) (s : State) : (updRepair f s).pacing = s.pacing := rfl
@[simp] theorem updRepair_rv (f : Repair → Repair) (s : State) : (updRepair f s).rv = s.rv := rfl
@[simp] theorem updRepair_patches (f : Repair → Repair) (s : State) : (updRepair f s).patches = s.patches := rfl
@[simp] theorem updRepair_draws (f : Repair → Repair) (s : State) : (updRepair f s).draws = s.draws := rfl
@[simp] theorem updRepair_pending (f : Repair → Repair) (s : State) : (updRepair f s).pending = s.pending := rfl

@[simp] theorem updPacing_ident (f : Pacing → Pacing) (s : State) : (updPacing f s).ident = s.ident := rfl
@[simp] theorem updPacing_roster (f : Pacing → Pacing) (s : State) : (updPacing f s).roster = s.roster := rfl
@[simp] theorem updPacing_port (f : Pacing → Pacing) (s : State) : (updPacing f s).port = s.port := rfl
@[simp] theorem updPacing_job (f : Pacing → Pacing) (s : State) : (updPacing f s).job = s.job := rfl
@[simp] theorem updPacing_win (f : Pacing → Pacing) (s : State) : (updPacing f s).win = s.win := rfl
@[simp] theorem updPacing_repair (f : Pacing → Pacing) (s : State) : (updPacing f s).repair = s.repair := rfl
@[simp] theorem updPacing_sockets (f : Pacing → Pacing) (s : State) : (updPacing f s).sockets = s.sockets := rfl
@[simp] theorem updPacing_pacing (f : Pacing → Pacing) (s : State) : (updPacing f s).pacing = f s.pacing := rfl
@[simp] theorem updPacing_rv (f : Pacing → Pacing) (s : State) : (updPacing f s).rv = s.rv := rfl
@[simp] theorem updPacing_patches (f : Pacing → Pacing) (s : State) : (updPacing f s).patches = s.patches := rfl
@[simp] theorem updPacing_draws (f : Pacing → Pacing) (s : State) : (updPacing f s).draws = s.draws := rfl
@[simp] theorem updPacing_pending (f : Pacing → Pacing) (s : State) : (updPacing f s).pending = s.pending := rfl

@[simp] theorem updRv_ident (f : Recall → Recall) (s : State) : (updRv f s).ident = s.ident := rfl
@[simp] theorem updRv_roster (f : Recall → Recall) (s : State) : (updRv f s).roster = s.roster := rfl
@[simp] theorem updRv_port (f : Recall → Recall) (s : State) : (updRv f s).port = s.port := rfl
@[simp] theorem updRv_job (f : Recall → Recall) (s : State) : (updRv f s).job = s.job := rfl
@[simp] theorem updRv_win (f : Recall → Recall) (s : State) : (updRv f s).win = s.win := rfl
@[simp] theorem updRv_repair (f : Recall → Recall) (s : State) : (updRv f s).repair = s.repair := rfl
@[simp] theorem updRv_sockets (f : Recall → Recall) (s : State) : (updRv f s).sockets = s.sockets := rfl
@[simp] theorem updRv_pacing (f : Recall → Recall) (s : State) : (updRv f s).pacing = s.pacing := rfl
@[simp] theorem updRv_rv (f : Recall → Recall) (s : State) : (updRv f s).rv = f s.rv := rfl
@[simp] theorem updRv_patches (f : Recall → Recall) (s : State) : (updRv f s).patches = s.patches := rfl
@[simp] theorem updRv_draws (f : Recall → Recall) (s : State) : (updRv f s).draws = s.draws := rfl
@[simp] theorem updRv_pending (f : Recall → Recall) (s : State) : (updRv f s).pending = s.pending := rfl

@[simp] theorem updEntry_ident (x : Fin 32) (f : RosterEntry → RosterEntry) (s : State) : (updEntry x f s).ident = s.ident := rfl
@[simp] theorem updEntry_roster (x : Fin 32) (f : RosterEntry → RosterEntry) (s : State) : (updEntry x f s).roster = s.roster.set x (f s.roster[x]) := rfl
@[simp] theorem updEntry_port (x : Fin 32) (f : RosterEntry → RosterEntry) (s : State) : (updEntry x f s).port = s.port := rfl
@[simp] theorem updEntry_job (x : Fin 32) (f : RosterEntry → RosterEntry) (s : State) : (updEntry x f s).job = s.job := rfl
@[simp] theorem updEntry_win (x : Fin 32) (f : RosterEntry → RosterEntry) (s : State) : (updEntry x f s).win = s.win := rfl
@[simp] theorem updEntry_repair (x : Fin 32) (f : RosterEntry → RosterEntry) (s : State) : (updEntry x f s).repair = s.repair := rfl
@[simp] theorem updEntry_sockets (x : Fin 32) (f : RosterEntry → RosterEntry) (s : State) : (updEntry x f s).sockets = s.sockets := rfl
@[simp] theorem updEntry_pacing (x : Fin 32) (f : RosterEntry → RosterEntry) (s : State) : (updEntry x f s).pacing = s.pacing := rfl
@[simp] theorem updEntry_rv (x : Fin 32) (f : RosterEntry → RosterEntry) (s : State) : (updEntry x f s).rv = s.rv := rfl
@[simp] theorem updEntry_patches (x : Fin 32) (f : RosterEntry → RosterEntry) (s : State) : (updEntry x f s).patches = s.patches := rfl
@[simp] theorem updEntry_draws (x : Fin 32) (f : RosterEntry → RosterEntry) (s : State) : (updEntry x f s).draws = s.draws := rfl
@[simp] theorem updEntry_pending (x : Fin 32) (f : RosterEntry → RosterEntry) (s : State) : (updEntry x f s).pending = s.pending := rfl

@[simp] theorem updSocket_ident (k : Fin 8) (f : Socket → Socket) (s : State) : (updSocket k f s).ident = s.ident := rfl
@[simp] theorem updSocket_roster (k : Fin 8) (f : Socket → Socket) (s : State) : (updSocket k f s).roster = s.roster := rfl
@[simp] theorem updSocket_port (k : Fin 8) (f : Socket → Socket) (s : State) : (updSocket k f s).port = s.port := rfl
@[simp] theorem updSocket_job (k : Fin 8) (f : Socket → Socket) (s : State) : (updSocket k f s).job = s.job := rfl
@[simp] theorem updSocket_win (k : Fin 8) (f : Socket → Socket) (s : State) : (updSocket k f s).win = s.win := rfl
@[simp] theorem updSocket_repair (k : Fin 8) (f : Socket → Socket) (s : State) : (updSocket k f s).repair = s.repair := rfl
@[simp] theorem updSocket_sockets (k : Fin 8) (f : Socket → Socket) (s : State) : (updSocket k f s).sockets = s.sockets.set k (f s.sockets[k]) := rfl
@[simp] theorem updSocket_pacing (k : Fin 8) (f : Socket → Socket) (s : State) : (updSocket k f s).pacing = s.pacing := rfl
@[simp] theorem updSocket_rv (k : Fin 8) (f : Socket → Socket) (s : State) : (updSocket k f s).rv = s.rv := rfl
@[simp] theorem updSocket_patches (k : Fin 8) (f : Socket → Socket) (s : State) : (updSocket k f s).patches = s.patches := rfl
@[simp] theorem updSocket_draws (k : Fin 8) (f : Socket → Socket) (s : State) : (updSocket k f s).draws = s.draws := rfl
@[simp] theorem updSocket_pending (k : Fin 8) (f : Socket → Socket) (s : State) : (updSocket k f s).pending = s.pending := rfl

@[simp] theorem setPatches_ident (p : List PatchEntry) (s : State) : (setPatches p s).ident = s.ident := rfl
@[simp] theorem setPatches_roster (p : List PatchEntry) (s : State) : (setPatches p s).roster = s.roster := rfl
@[simp] theorem setPatches_port (p : List PatchEntry) (s : State) : (setPatches p s).port = s.port := rfl
@[simp] theorem setPatches_job (p : List PatchEntry) (s : State) : (setPatches p s).job = s.job := rfl
@[simp] theorem setPatches_win (p : List PatchEntry) (s : State) : (setPatches p s).win = s.win := rfl
@[simp] theorem setPatches_repair (p : List PatchEntry) (s : State) : (setPatches p s).repair = s.repair := rfl
@[simp] theorem setPatches_sockets (p : List PatchEntry) (s : State) : (setPatches p s).sockets = s.sockets := rfl
@[simp] theorem setPatches_pacing (p : List PatchEntry) (s : State) : (setPatches p s).pacing = s.pacing := rfl
@[simp] theorem setPatches_rv (p : List PatchEntry) (s : State) : (setPatches p s).rv = s.rv := rfl
@[simp] theorem setPatches_patches (p : List PatchEntry) (s : State) : (setPatches p s).patches = p := rfl
@[simp] theorem setPatches_draws (p : List PatchEntry) (s : State) : (setPatches p s).draws = s.draws := rfl
@[simp] theorem setPatches_pending (p : List PatchEntry) (s : State) : (setPatches p s).pending = s.pending := rfl

@[simp] theorem nextDraw_ident (s : State) : (nextDraw s).ident = s.ident := rfl
@[simp] theorem nextDraw_roster (s : State) : (nextDraw s).roster = s.roster := rfl
@[simp] theorem nextDraw_port (s : State) : (nextDraw s).port = s.port := rfl
@[simp] theorem nextDraw_job (s : State) : (nextDraw s).job = s.job := rfl
@[simp] theorem nextDraw_win (s : State) : (nextDraw s).win = s.win := rfl
@[simp] theorem nextDraw_repair (s : State) : (nextDraw s).repair = s.repair := rfl
@[simp] theorem nextDraw_sockets (s : State) : (nextDraw s).sockets = s.sockets := rfl
@[simp] theorem nextDraw_pacing (s : State) : (nextDraw s).pacing = s.pacing := rfl
@[simp] theorem nextDraw_rv (s : State) : (nextDraw s).rv = s.rv := rfl
@[simp] theorem nextDraw_patches (s : State) : (nextDraw s).patches = s.patches := rfl
@[simp] theorem nextDraw_draws (s : State) : (nextDraw s).draws = s.draws + 1 := rfl
@[simp] theorem nextDraw_pending (s : State) : (nextDraw s).pending = s.pending := rfl

@[simp] theorem updSlot_ident (id : SlotId) (f : Slot → Slot) (s : State) : (updSlot id f s).ident = s.ident := by
  cases id <;> rfl
@[simp] theorem updSlot_roster (id : SlotId) (f : Slot → Slot) (s : State) : (updSlot id f s).roster = s.roster := by
  cases id <;> rfl
@[simp] theorem updSlot_port (id : SlotId) (f : Slot → Slot) (s : State) : (updSlot id f s).port = s.port := by
  cases id <;> rfl
@[simp] theorem updSlot_job (id : SlotId) (f : Slot → Slot) (s : State) : (updSlot id f s).job = s.job := by
  cases id <;> rfl
@[simp] theorem updSlot_repair (id : SlotId) (f : Slot → Slot) (s : State) : (updSlot id f s).repair = s.repair := by
  cases id <;> rfl
@[simp] theorem updSlot_sockets (id : SlotId) (f : Slot → Slot) (s : State) : (updSlot id f s).sockets = s.sockets := by
  cases id <;> rfl
@[simp] theorem updSlot_pacing (id : SlotId) (f : Slot → Slot) (s : State) : (updSlot id f s).pacing = s.pacing := by
  cases id <;> rfl
@[simp] theorem updSlot_rv (id : SlotId) (f : Slot → Slot) (s : State) : (updSlot id f s).rv = s.rv := by
  cases id <;> rfl
@[simp] theorem updSlot_patches (id : SlotId) (f : Slot → Slot) (s : State) : (updSlot id f s).patches = s.patches := by
  cases id <;> rfl
@[simp] theorem updSlot_draws (id : SlotId) (f : Slot → Slot) (s : State) : (updSlot id f s).draws = s.draws := by
  cases id <;> rfl
@[simp] theorem updSlot_pending (id : SlotId) (f : Slot → Slot) (s : State) : (updSlot id f s).pending = s.pending := by
  cases id <;> rfl

/-- The updated slot. -/
@[simp] theorem updSlot_same (id : SlotId) (f : Slot → Slot) (s : State) : (updSlot id f s).slot id = f (s.slot id) := by
  cases id <;> simp [updSlot, State.slot, updWin]

/-- Any other slot. -/
theorem updSlot_other {id j : SlotId} (h : j ≠ id) (f : Slot → Slot) (s : State) : (updSlot id f s).slot j = s.slot j := by
  cases id <;> cases j <;> simp [updSlot, State.slot, updWin] <;>
    exact Vector.getElem_set_ne _ _ (by simpa [Fin.ext_iff, eq_comm] using h)

@[simp] theorem updSlot_base (id : SlotId) (f : Slot → Slot) (s : State) : (updSlot id f s).win.base = s.win.base := by
  cases id <;> rfl
@[simp] theorem updSlot_next (id : SlotId) (f : Slot → Slot) (s : State) : (updSlot id f s).win.next = s.win.next := by
  cases id <;> rfl
@[simp] theorem updSlot_readMark (id : SlotId) (f : Slot → Slot) (s : State) :
    (updSlot id f s).win.readMark = s.win.readMark := by
  cases id <;> rfl
@[simp] theorem updSlot_highestNew (id : SlotId) (f : Slot → Slot) (s : State) :
    (updSlot id f s).win.highestNew = s.win.highestNew := by
  cases id <;> rfl
@[simp] theorem updSlot_checkTable (id : SlotId) (f : Slot → Slot) (s : State) :
    (updSlot id f s).win.checkTable = s.win.checkTable := by
  cases id <;> rfl

/-- The updated socket. -/
@[simp] theorem updSocket_same (k : Fin 8) (f : Socket → Socket) (s : State) :
    (updSocket k f s).sockets[k] = f s.sockets[k] := by
  simp

/-- Any other socket. -/
theorem updSocket_other {k j : Fin 8} (h : j ≠ k) (f : Socket → Socket) (s : State) :
    (updSocket k f s).sockets[j] = s.sockets[j] :=
  Vector.getElem_set_ne k.isLt j.isLt (by simpa [Fin.ext_iff, eq_comm] using h)

/-- The updated roster entry. -/
@[simp] theorem updEntry_same (x : Fin 32) (f : RosterEntry → RosterEntry) (s : State) :
    (updEntry x f s).roster[x] = f s.roster[x] := by
  simp

/-- Any other roster entry. -/
theorem updEntry_other {x y : Fin 32} (h : y ≠ x) (f : RosterEntry → RosterEntry) (s : State) :
    (updEntry x f s).roster[y] = s.roster[y] :=
  Vector.getElem_set_ne x.isLt y.isLt (by simpa [Fin.ext_iff, eq_comm] using h)

/-- What each step of a walk keeps, the walk keeps. -/
theorem forEach_keeps {α : Type} {R : State → State → Prop} (refl : ∀ s, R s s)
    (trans : ∀ {a b c}, R a b → R b c → R a c) (l : List α) (f : α → State → State) (h : ∀ a s, R s (f a s)) (s : State) :
    R s (forEach l f s) := by
  induction l generalizing s with
  | nil => exact refl s
  | cons a l ih => exact trans (h a s) (ih (f a s))

/-- A property of one state that each step of a walk keeps, the walk keeps. -/
theorem forEach_inv {α : Type} {P : State → Prop} (l : List α) (f : α → State → State)
    (h : ∀ a s, P s → P (f a s)) (s : State) (hs : P s) : P (forEach l f s) := by
  induction l generalizing s with
  | nil => exact hs
  | cons a l ih => exact ih _ (h a s hs)

/-- A property of one state that the step for each socket keeps. -/
theorem forSockets_inv {P : State → Prop} (f : Fin 8 → State → State) (h : ∀ k s, P s → P (f k s)) (s : State) (hs : P s) :
    P (forSockets f s) :=
  forEach_inv _ f h s hs

theorem doIf_true (f : State → State) (s : State) : doIf true f s = f s := rfl
theorem doIf_false (f : State → State) (s : State) : doIf false f s = s := rfl

/-- A property that a change keeps, the change made on a condition keeps. -/
theorem doIf_inv {P : State → Prop} (c : Bool) (f : State → State) (s : State) (h : P s → P (f s)) (hs : P s) :
    P (doIf c f s) := by
  cases c
  · exact hs
  · exact h hs

end Sys2Proof.Machine
end

