-- ==== Sys2Proof/Laws/Memory.lean ====
section
/-! SUPPORT. The operations over the DRAM regions keep the canonical form, and what is read after them. -/
namespace Sys2Proof.Machine

theorem Sparse.write_key {w : Nat} {m : Sparse w} {a : Nat} {v : BitVec w} {c : Nat × BitVec w}
    (h : c ∈ m.write a v) : c.1 = a ∨ c ∈ m := by
  induction m with
  | nil =>
    unfold Sparse.write at h
    split at h
    · exact .inr h
    · exact .inl (by rw [List.mem_singleton.1 h])
  | cons d m ih =>
    unfold Sparse.write at h
    repeat' split at h
    · exact .inr h
    · rcases List.mem_cons.1 h with h | h
      · exact .inl (by rw [h])
      · exact .inr h
    · exact .inr (List.mem_cons_of_mem _ h)
    · rcases List.mem_cons.1 h with h | h
      · exact .inl (by rw [h])
      · exact .inr (List.mem_cons_of_mem _ h)
    · rcases List.mem_cons.1 h with h | h
      · exact .inr (h ▸ List.mem_cons_self)
      · exact (ih h).imp_right (List.mem_cons_of_mem _)

/-- Writing keeps the canonical form. -/
theorem Sparse.write_wf {w : Nat} (m : Sparse w) (a : Nat) (v : BitVec w) (h : Sparse.wf m) : Sparse.wf (m.write a v) := by
  induction m with
  | nil =>
    unfold Sparse.write
    split
    · exact h
    · rename_i hv
      exact ⟨List.pairwise_singleton _ _, fun c hc => by rw [List.mem_singleton.1 hc]; exact hv⟩
  | cons d m ih =>
    have hd := List.pairwise_cons.1 h.1
    have hm : Sparse.wf m := ⟨hd.2, fun c hc => h.2 c (List.mem_cons_of_mem _ hc)⟩
    unfold Sparse.write
    split
    · rename_i hlt
      split
      · exact h
      · rename_i hv
        refine ⟨List.pairwise_cons.2 ⟨fun c hc => ?_, h.1⟩, fun c hc => ?_⟩
        · rcases List.mem_cons.1 hc with rfl | hc
          · exact hlt
          · exact Nat.lt_trans hlt (hd.1 c hc)
        · rcases List.mem_cons.1 hc with rfl | hc
          · exact hv
          · exact h.2 c hc
    · split
      · rename_i heq
        split
        · exact hm
        · rename_i hv
          refine ⟨List.pairwise_cons.2 ⟨fun c hc => heq ▸ hd.1 c hc, hd.2⟩, fun c hc => ?_⟩
          rcases List.mem_cons.1 hc with rfl | hc
          · exact hv
          · exact hm.2 c hc
      · rename_i hn he
        have ih := ih hm
        refine ⟨List.pairwise_cons.2 ⟨fun c hc => ?_, ih.1⟩, fun c hc => ?_⟩
        · rcases Sparse.write_key hc with hk | hk
          · rw [hk]
            exact Nat.lt_of_le_of_ne (Nat.le_of_not_lt hn) (Ne.symm he)
          · exact hd.1 c hk
        · rcases List.mem_cons.1 hc with rfl | hc
          · exact h.2 _ List.mem_cons_self
          · exact ih.2 c hc

theorem Sparse.read_below {w : Nat} (m : Sparse w) (a : Nat) (h : ∀ c ∈ m, a < c.1) : m.read a = 0 := by
  have : m.find? (fun c => c.1 == a) = none := List.find?_eq_none.2 fun c hc => by
    simp only [beq_iff_eq]
    exact Nat.ne_of_gt (h c hc)
  simp [Sparse.read, this]

theorem Sparse.read_cons_same {w : Nat} (m : Sparse w) (a : Nat) (v : BitVec w) : Sparse.read ((a, v) :: m) a = v := by
  simp [Sparse.read]

theorem Sparse.read_cons_other {w : Nat} (m : Sparse w) (d : Nat × BitVec w) {b : Nat} (h : d.1 ≠ b) :
    Sparse.read (d :: m) b = Sparse.read m b := by
  simp [Sparse.read, h]

/-- What is read at any key after one is written. -/
theorem Sparse.read_write {w : Nat} (m : Sparse w) (a b : Nat) (v : BitVec w) (h : Sparse.wf m) :
    (m.write a v).read b = if b = a then v else m.read b := by
  induction m with
  | nil =>
    unfold Sparse.write
    split
    · rename_i hv
      rw [hv]
      simp [Sparse.read]
    · by_cases hb : b = a
      · rw [hb, Sparse.read_cons_same, if_pos rfl]
      · rw [Sparse.read_cons_other _ _ (Ne.symm hb), if_neg hb]
  | cons d m ih =>
    have hd := List.pairwise_cons.1 h.1
    have hm : Sparse.wf m := ⟨hd.2, fun c hc => h.2 c (List.mem_cons_of_mem _ hc)⟩
    unfold Sparse.write
    split
    · rename_i hlt
      split
      · rename_i hv
        by_cases hb : b = a
        · rw [if_pos hb, hb, hv]
          exact Sparse.read_below _ _ fun c hc => by
            rcases List.mem_cons.1 hc with rfl | hc
            · exact hlt
            · exact Nat.lt_trans hlt (hd.1 c hc)
        · rw [if_neg hb]
      · by_cases hb : b = a
        · rw [hb, Sparse.read_cons_same, if_pos rfl]
        · rw [Sparse.read_cons_other _ _ (Ne.symm hb), if_neg hb]
    · split
      · rename_i heq
        split
        · rename_i hv
          by_cases hb : b = a
          · rw [if_pos hb, hb, hv]
            exact Sparse.read_below _ _ fun c hc => heq ▸ hd.1 c hc
          · rw [if_neg hb, Sparse.read_cons_other _ _ (by rw [← heq]; exact Ne.symm hb)]
        · by_cases hb : b = a
          · rw [hb, Sparse.read_cons_same, if_pos rfl]
          · rw [if_neg hb, Sparse.read_cons_other _ _ (Ne.symm hb),
              Sparse.read_cons_other _ _ (by rw [← heq]; exact Ne.symm hb)]
      · rename_i hn he
        by_cases hd1 : d.1 = b
        · have hb : b ≠ a := fun e => he (by rw [← e, hd1])
          rw [if_neg hb]
          subst hd1
          rw [Sparse.read_cons_same (v := d.2), Sparse.read_cons_same (v := d.2)]
        · rw [Sparse.read_cons_other _ _ hd1, Sparse.read_cons_other _ _ hd1, ih hm]

theorem cellsFrom_key {a : Nat} {l : List Byte} {c : Host.Cell} (h : c ∈ cellsFrom a l) :
    a ≤ c.1 ∧ c.1 < a + l.length ∧ c.2 ≠ 0 := by
  induction l generalizing a with
  | nil => cases h
  | cons b l ih =>
    unfold cellsFrom at h
    simp only [List.length_cons]
    split at h
    · have := ih h
      exact ⟨by omega, by omega, this.2.2⟩
    · rename_i hb
      rcases List.mem_cons.1 h with rfl | h
      · exact ⟨Nat.le_refl _, by dsimp only; omega, hb⟩
      · have := ih h
        exact ⟨by omega, by omega, this.2.2⟩

theorem cellsFrom_wf (a : Nat) (l : List Byte) : Memory.wf (cellsFrom a l) := by
  refine ⟨?_, fun c hc => (cellsFrom_key hc).2.2⟩
  induction l generalizing a with
  | nil => exact .nil
  | cons b l ih =>
    unfold cellsFrom
    split
    · exact ih _
    · exact List.pairwise_cons.2 ⟨fun c hc => by have := (cellsFrom_key hc).1; dsimp only; omega, ih _⟩

/-- Storing a run of bytes keeps the canonical form. -/
theorem Memory.store_wf (m : Memory) (a : Nat) (l : List Byte) (h : Memory.wf m) : Memory.wf (m.store a l) := by
  have cw := cellsFrom_wf a l
  refine ⟨?_, fun c hc => ?_⟩
  · refine List.pairwise_append.2 ⟨List.pairwise_append.2 ⟨h.1.sublist List.filter_sublist, cw.1, ?_⟩,
      h.1.sublist List.filter_sublist, ?_⟩
    · intro c hc d hd
      have hc := of_decide_eq_true (List.mem_filter.1 hc).2
      have := (cellsFrom_key hd).1
      omega
    · intro c hc d hd
      have hd := of_decide_eq_true (List.mem_filter.1 hd).2
      rcases List.mem_append.1 hc with hc | hc
      · have hc := of_decide_eq_true (List.mem_filter.1 hc).2
        omega
      · have := (cellsFrom_key hc).2.1
        omega
  · rcases List.mem_append.1 hc with hc | hc
    · rcases List.mem_append.1 hc with hc | hc
      · exact h.2 c (List.mem_of_mem_filter hc)
      · exact cw.2 c hc
    · exact h.2 c (List.mem_of_mem_filter hc)

/-- Storing within a bound keeps the buffer within it. -/
theorem Memory.store_lt (m : Memory) (a : Nat) (l : List Byte) (n : Nat) (h : ∀ c ∈ m, c.1 < n) (hl : a + l.length ≤ n) :
    ∀ c ∈ m.store a l, c.1 < n := by
  intro c hc
  rcases List.mem_append.1 hc with hc | hc
  · rcases List.mem_append.1 hc with hc | hc
    · exact h c (List.mem_of_mem_filter hc)
    · have := (cellsFrom_key hc).2.1
      omega
  · exact h c (List.mem_of_mem_filter hc)

/-- Storing single bytes keeps the canonical form. -/
theorem Memory.patchBytes_wf (m : Memory) (u : List (Nat × Byte)) (h : Memory.wf m) : Memory.wf (m.patchBytes u) := by
  induction u generalizing m with
  | nil => exact h
  | cons x u ih => exact ih _ (Sparse.write_wf (w := 8) m x.1 x.2 h)

/-- Storing single bytes within a bound keeps the buffer within it. -/
theorem Memory.patchBytes_lt (m : Memory) (u : List (Nat × Byte)) (n : Nat) (h : ∀ c ∈ m, c.1 < n)
    (hu : ∀ x ∈ u, x.1 < n) : ∀ c ∈ m.patchBytes u, c.1 < n := by
  induction u generalizing m with
  | nil => exact h
  | cons x u ih =>
    refine ih _ (fun c hc => ?_) fun y hy => hu y (List.mem_cons_of_mem _ hy)
    rcases Sparse.write_key (w := 8) hc with hk | hk
    · rw [hk]
      exact hu x List.mem_cons_self
    · exact h c hk

theorem Memory.read_append (m n : Memory) (b : Nat) :
    Memory.read (m ++ n) b = if m.any (fun c => c.1 == b) then Memory.read m b else Memory.read n b := by
  unfold Memory.read Sparse.read
  rw [List.find?_append]
  cases h : m.find? (fun c => c.1 == b) with
  | none =>
    have : (m.any fun c => c.1 == b) = false := by
      rw [List.find?_eq_none] at h
      simpa using h
    rw [if_neg (by rw [this]; simp)]
    rfl
  | some c =>
    have : (m.any fun c => c.1 == b) = true :=
      List.any_eq_true.2 ⟨c, List.mem_of_find?_eq_some h, by simpa using List.find?_some h⟩
    rw [if_pos this]
    rfl

theorem Memory.read_none (m : Memory) (b : Nat) (h : (m.any fun c => c.1 == b) = false) : Memory.read m b = 0 := by
  have : m.find? (fun c => c.1 == b) = none := List.find?_eq_none.2 (by simpa using h)
  simp only [Memory.read, Sparse.read, this]

theorem Memory.read_filter (m : Memory) (t : Nat → Bool) (b : Nat) :
    Memory.read (m.filter fun c => t c.1) b = if t b then Memory.read m b else 0 := by
  unfold Memory.read Sparse.read
  induction m with
  | nil => simp
  | cons c m ih =>
    by_cases hb : c.1 = b
    · cases ht : t b
      · rw [ht] at ih
        rw [List.filter_cons_of_neg (by rw [hb, ht]; simp)]
        exact ih
      · rw [List.filter_cons_of_pos (by rw [hb]; exact ht)]
        simp [hb]
    · cases ht : t c.1
      · rw [List.filter_cons_of_neg (by rw [ht]; simp), List.find?_cons_of_neg (by simpa using hb)]
        exact ih
      · rw [List.filter_cons_of_pos (by exact ht), List.find?_cons_of_neg (by simpa using hb),
          List.find?_cons_of_neg (by simpa using hb)]
        exact ih

theorem Memory.read_cellsFrom (a : Nat) (l : List Byte) (b : Nat) :
    Memory.read (cellsFrom a l) b = if a ≤ b then l.getD (b - a) 0 else 0 := by
  induction l generalizing a with
  | nil => simp [cellsFrom, Memory.read, Sparse.read]
  | cons x l ih =>
    have off (h : a ≠ b) : (if a + 1 ≤ b then l.getD (b - (a + 1)) 0 else (0 : Byte)) =
        if a ≤ b then (x :: l).getD (b - a) 0 else 0 := by
      by_cases hb : a + 1 ≤ b
      · rw [if_pos hb, if_pos (by omega), show b - a = (b - (a + 1)) + 1 by omega, List.getD_cons_succ]
      · rw [if_neg hb, if_neg (by omega)]
    unfold cellsFrom
    split
    · rename_i hx
      rw [ih]
      by_cases h : a = b
      · subst h
        simp [hx]
      · exact off h
    · by_cases h : a = b
      · subst h
        simp [Memory.read, Sparse.read]
      · rw [show Memory.read ((a, x) :: cellsFrom (a + 1) l) b = Memory.read (cellsFrom (a + 1) l) b from
          Sparse.read_cons_other (w := 8) _ (a, x) h, ih]
        exact off h

/-- What is read at any offset after a run of bytes is stored. -/
theorem Memory.read_store (m : Memory) (a : Nat) (l : List Byte) (b : Nat) :
    Memory.read (m.store a l) b = if a ≤ b ∧ b < a + l.length then l.getD (b - a) 0 else Memory.read m b := by
  have low := Memory.read_filter m (fun x => decide (x < a)) b
  have high := Memory.read_filter m (fun x => decide (a + l.length ≤ x)) b
  unfold Memory.store
  rw [Memory.read_append, Memory.read_append, high, low, Memory.read_cellsFrom]
  rcases Nat.lt_or_ge b a with h | h
  · have no : ((cellsFrom a l).any fun c => c.1 == b) = false := by
      simp only [List.any_eq_false, beq_iff_eq]
      intro c hc
      have := (cellsFrom_key hc).1
      omega
    rw [List.any_append, no, Bool.or_false]
    by_cases hf : ((m.filter fun c => decide (c.1 < a)).any fun c => c.1 == b) = true
    · rw [if_pos hf, if_pos hf]
      simp [h, Nat.not_le.2 h]
    · have hm : (m.any fun c => c.1 == b) = false := by
        simp only [List.any_filter, Bool.not_eq_true, List.any_eq_false, Bool.and_eq_true, decide_eq_true_eq,
          beq_iff_eq] at hf ⊢
        exact fun c hc e => hf c hc ⟨by omega, e⟩
      rw [if_neg hf]
      simp [Memory.read_none m b hm, Nat.not_le.2 h]
  · have no : ((m.filter fun c => decide (c.1 < a)).any fun c => c.1 == b) = false := by
      simp only [List.any_filter, List.any_eq_false, Bool.and_eq_true, decide_eq_true_eq, beq_iff_eq]
      intro c _
      omega
    rw [List.any_append, no, Bool.false_or]
    simp only [Bool.false_eq_true, if_false, if_pos h]
    rcases Nat.lt_or_ge b (a + l.length) with g | g
    · have r := Memory.read_cellsFrom a l b
      rw [if_pos h] at r
      rw [if_pos (show a ≤ b ∧ b < a + l.length from ⟨h, g⟩)]
      split
      · rfl
      · rename_i hc
        rw [Memory.read_none _ b (by simpa only [Bool.not_eq_true] using hc)] at r
        simpa [Nat.not_le.2 g] using r
    · have nc : ((cellsFrom a l).any fun c => c.1 == b) = false := by
        simp only [List.any_eq_false, beq_iff_eq]
        intro c hc
        have := (cellsFrom_key hc).2.1
        omega
      simp [nc, g, Nat.not_lt.2 g]

theorem bytesFrom_eq (n a : Nat) (m : Memory) (h : m.Pairwise fun c d => c.1 < d.1) (ha : ∀ c ∈ m, a ≤ c.1) :
    bytesFrom n a m = (List.range' a n).map m.read := by
  induction n generalizing a m with
  | zero => rfl
  | succ n ih =>
    rw [List.range'_succ, List.map_cons]
    cases m with
    | nil =>
      rw [bytesFrom, ih (a + 1) [] .nil (fun _ h => absurd h List.not_mem_nil)]
      simp [Memory.read, Sparse.read]
    | cons c m =>
      have hc := List.pairwise_cons.1 h
      unfold bytesFrom
      split
      · rename_i e
        subst e
        rw [ih (c.1 + 1) m hc.2 fun d hd => hc.1 d hd]
        refine congrArg₂ _ (by simp [Memory.read, Sparse.read]) (List.map_congr_left fun b hb => ?_)
        have hb := (List.mem_range'_1.1 hb).1
        exact (Sparse.read_cons_other (w := 8) m c (b := b) (by omega)).symm
      · rename_i e
        have hlt : a < c.1 := Nat.lt_of_le_of_ne (ha c List.mem_cons_self) (Ne.symm e)
        have hall : ∀ d ∈ c :: m, a < d.1 := fun d hd => by
          rcases List.mem_cons.1 hd with rfl | hd
          · exact hlt
          · exact Nat.lt_trans hlt (hc.1 d hd)
        rw [ih (a + 1) (c :: m) h hall]
        exact congrArg₂ _ (Sparse.read_below (w := 8) _ _ hall).symm rfl

/-- The bytes of a slice are the bytes read there. -/
theorem Memory.slice_eq (m : Memory) (a n : Nat) (h : Memory.wf m) : m.slice a n = (List.range' a n).map m.read := by
  unfold Memory.slice
  rw [bytesFrom_eq n a _ (h.1.sublist List.filter_sublist) fun c hc => of_decide_eq_true (List.mem_filter.1 hc).2]
  refine List.map_congr_left fun b hb => ?_
  rw [Memory.read_filter m (fun x => decide (a ≤ x)) b]
  simp [(List.mem_range'_1.1 hb).1]

end Sys2Proof.Machine
end

