-- ==== Sys2Proof/Laws/Local.lean ====
section
/-! SUPPORT. The operations on one socket leave every other socket alone: `<operation>_only`. -/
namespace Sys2Proof.Machine

/-- Of the sockets, at most socket `k` changes. -/
def Only (k : Fin 8) (s t : State) : Prop := ∀ j : Fin 8, j ≠ k → t.sockets[j] = s.sockets[j]

namespace Only

theorem none (k : Fin 8) (s : State) : Only k s s := fun _ _ => rfl
theorem after {k : Fin 8} {s t u : State} (g : Only k t u) (h : Only k s t) : Only k s u :=
  fun j hj => (g j hj).trans (h j hj)

/-- No socket changes at all. -/
theorem same {k : Fin 8} {s t : State} (h : t.sockets = s.sockets) : Only k s t := fun j _ => by rw [h]

theorem socket (k : Fin 8) (f : Socket → Socket) (s : State) : Only k s (updSocket k f s) :=
  fun _ hj => updSocket_other hj f s

theorem when {k : Fin 8} (c : Bool) (f : State → State) (s : State) (h : Only k s (f s)) : Only k s (doIf c f s) := by
  cases c
  · exact none k s
  · exact h

theorem each {α : Type} {k : Fin 8} (l : List α) (f : α → State → State) (h : ∀ a s, Only k s (f a s)) (s : State) :
    Only k s (forEach l f s) :=
  forEach_keeps (none k) (fun p q => q.after p) l f h s

end Only

/-- A walk over sockets whose step for `k` changes only socket `k`: what each step keeps of the whole state holds at the
end, and what each step makes of its own socket, found as it was, holds of every socket walked. -/
theorem forEach_each {I : State → Prop} {Q : Fin 8 → Socket → Prop} (s : State) (l : List (Fin 8)) (hl : l.Nodup)
    (f : Fin 8 → State → State) (only : ∀ k t, Only k t (f k t))
    (hI : ∀ k t, I t → t.sockets[k] = s.sockets[k] → I (f k t))
    (hQ : ∀ k t, I t → t.sockets[k] = s.sockets[k] → Q k (f k t).sockets[k]) (t : State) (ht : I t)
    (hs : ∀ k ∈ l, t.sockets[k] = s.sockets[k]) :
    I (forEach l f t) ∧ (∀ k ∈ l, Q k (forEach l f t).sockets[k]) ∧
      ∀ k, k ∉ l → (forEach l f t).sockets[k] = t.sockets[k] := by
  induction l generalizing t with
  | nil => exact ⟨ht, fun _ h => absurd h List.not_mem_nil, fun _ _ => rfl⟩
  | cons a l ih =>
    have hn := List.nodup_cons.1 hl
    have ne : ∀ k ∈ l, k ≠ a := fun k hk e => hn.1 (e ▸ hk)
    have r := ih hn.2 (f a t) (hI a t ht (hs a List.mem_cons_self)) fun k hk =>
      (only a t k (ne k hk)).trans (hs k (List.mem_cons_of_mem _ hk))
    refine ⟨r.1, fun k hk => ?_, fun k hk => ?_⟩
    · rcases List.mem_cons.1 hk with rfl | hk
      · have e : (forEach (k :: l) f t).sockets[k] = (f k t).sockets[k] := r.2.2 k hn.1
        rw [e]
        exact hQ k t ht (hs k List.mem_cons_self)
      · exact r.2.1 k hk
    · have hk := not_or.1 (fun h => hk (List.mem_cons.2 h))
      exact (r.2.2 k hk.2).trans (only a t k hk.1)

theorem forSockets_each {I : State → Prop} {Q : Fin 8 → Socket → Prop} (f : Fin 8 → State → State) (s : State)
    (only : ∀ k t, Only k t (f k t)) (hI : ∀ k t, I t → I (f k t))
    (hQ : ∀ k t, I t → t.sockets[k] = s.sockets[k] → Q k (f k t).sockets[k]) (hs : I s) :
    I (forSockets f s) ∧ ∀ k, Q k (forSockets f s).sockets[k] := by
  have r := forEach_each (Q := Q) s allSockets (by decide) f only (fun k t h _ => hI k t h) hQ s hs fun _ _ => rfl
  exact ⟨r.1, fun k => r.2.1 k (by revert k; decide)⟩

theorem judgeHold_sockets (s : State) : (judgeHold s).sockets = s.sockets := by
  unfold judgeHold
  repeat' split
  all_goals rfl

@[simp] theorem settleSlot_sockets (id : SlotId) (s : State) : (settleSlot id s).sockets = s.sockets := updSlot_sockets _ _ _
@[simp] theorem endWrite_sockets (id : SlotId) (s : State) : (endWrite id s).sockets = s.sockets := by simp [endWrite]
@[simp] theorem startWrite_sockets (id : SlotId) (s : State) : (startWrite id s).sockets = s.sockets := updSlot_sockets _ _ _
@[simp] theorem claimSlot_sockets (id : SlotId) (s : State) : (claimSlot id s).sockets = s.sockets := updSlot_sockets _ _ _
@[simp] theorem unclaimSlot_sockets (id : SlotId) (s : State) : (unclaimSlot id s).sockets = s.sockets := by
  simp [unclaimSlot]
@[simp] theorem endMasterRead_sockets (id : SlotId) (s : State) : (endMasterRead id s).sockets = s.sockets :=
  updSlot_sockets _ _ _

theorem reportOccupancy_only (k : Fin 8) (s : State) : Only k s (reportOccupancy k s) := .socket k _ s

theorem setState_only (k : Fin 8) (st : SocketState) (r : Reason) (s : State) : Only k s (setState k st r s) :=
  .socket k _ s

theorem abandonCommand_only (k : Fin 8) (s : State) : Only k s (abandonCommand k s) := by
  have h : Only k s (updSocket k (fun sk => { sk with cmd := none }) s) := .socket k _ s
  unfold abandonCommand
  split
  · exact .after (.same (endWrite_sockets _ _)) h
  · exact .after (.same (endMasterRead_sockets _ _)) h
  · exact h
  · exact h

theorem detachWrite_only (k : Fin 8) (s : State) : Only k s (detachWrite k s) := by
  unfold detachWrite
  repeat' split
  · exact abandonCommand_only k s
  · exact .socket k _ s
  all_goals exact .none k s

theorem emptyRing_only (k : Fin 8) (s : State) : Only k s (emptyRing k s) :=
  .after (reportOccupancy_only k _) (.after (detachWrite_only k _)
    (.after (.each _ _ (fun (d : Descriptor) t => .same (unclaimSlot_sockets d.src t)) _) (.socket k _ s)))

theorem failSocket_only (k : Fin 8) (r : Reason) (s : State) : Only k s (failSocket k r s) := by
  unfold failSocket
  split
  · exact .none k s
  · exact .after (setState_only k _ _ _) (.after (emptyRing_only k _) (.socket k _ s))

theorem addOwed_only (k : Fin 8) (g : Nat) (o : Origin) (n : Nat) (s : State) : Only k s (addOwed k g o n s) := by
  unfold addOwed
  repeat' split
  · exact .none k s
  · exact failSocket_only k _ s
  · exact .socket k _ s

theorem revoke_only (k : Fin 8) (d : Descriptor) (o : Origin) (s : State) : Only k s (revoke k d o s) :=
  .after (reportOccupancy_only k _) (.after (addOwed_only k _ _ _ _)
    (.after (.same (updSlot_sockets d.src _ _)) (.socket k _ s)))

theorem issue_only (k : Fin 8) (p : Purpose) (s : State) : Only k s (issue k p s) := .socket k _ s

theorem retry_only (k : Fin 8) (s : State) : Only k s (retry k s) := by
  unfold retry
  split
  · exact .socket k _ s
  · exact .none k s

theorem takeDescriptor_only (k : Fin 8) (s : State) : Only k s (takeDescriptor k s) := by
  unfold takeDescriptor
  split
  · split
    · exact .after (reportOccupancy_only k _) (.after (.socket k _ _) (.same (startWrite_sockets _ _)))
    · exact .none k s
  · exact .none k s

theorem overrun_only (k : Fin 8) (s : State) : Only k s (overrun k s) := by
  unfold overrun
  split
  · split
    · exact .after (.same (settleSlot_sockets _ _)) (revoke_only k _ _ s)
    · exact .none k s
  · exact .none k s

theorem queueDescriptor_only (k : Fin 8) (id : SlotId) (g : Nat) (s : State) : Only k s (queueDescriptor k id g s) := by
  refine .after ?_ (overrun_only k s)
  unfold queueDescriptor
  extract_lets u sk d v w
  have hw : Only k u w :=
    .after (reportOccupancy_only k _) (.after (.same (claimSlot_sockets _ _)) (.socket k _ u))
  split
  · exact .none k u
  · split
    · exact .after (takeDescriptor_only k _) (.after (setState_only k _ _ _) hw)
    · exact hw

theorem offerTo_only (id : SlotId) (g : Nat) (k : Fin 8) (s : State) : Only k s (offerTo id g k s) :=
  .when _ _ s (queueDescriptor_only k id g s)

theorem enterRepaying_only (k : Fin 8) (s : State) : Only k s (enterRepaying k s) := by
  refine .after (.each _ _ (fun g t => ?_) _) (setState_only k _ _ s)
  split
  · exact offerTo_only _ g k t
  · exact .none k t

theorem placeReady_only (k : Fin 8) (s : State) : Only k s (placeReady k s) := by
  unfold placeReady
  repeat' split
  case' isTrue => exact .after (setState_only k _ _ _) (issue_only k _ s)
  all_goals exact setState_only k _ _ s

theorem takeTarget_only (k : Fin 8) (x : ExitTarget) (s : State) : Only k s (takeTarget k x s) := by
  have h : Only k s (updSocket k (fun sk => { sk with exit := none }) s) := .socket k _ s
  unfold takeTarget
  cases x
  · exact .after (setState_only k _ _ _) h
  · exact .after (placeReady_only k _) h
  · exact .after (failSocket_only k _ _) h

theorem giveExit_only (k : Fin 8) (x : ExitTarget) (s : State) : Only k s (giveExit k x s) := by
  unfold giveExit
  repeat' split
  · exact takeTarget_only k x s
  · exact .after (takeTarget_only k x _) (abandonCommand_only k s)
  · exact .socket k _ s

theorem endDiscarded_only (k : Fin 8) (s : State) : Only k s (endDiscarded k s) := by
  unfold endDiscarded
  extract_lets t
  split
  · exact .after (takeTarget_only k _ _) (abandonCommand_only k s)
  · exact abandonCommand_only k s

/-! ### Engines -/

theorem clearCommand_only (k : Fin 8) (s : State) : Only k s (clearCommand k s) := .socket k _ s

theorem rejectAttach_only (k : Fin 8) (r : Reason) (s : State) : Only k s (rejectAttach k r s) :=
  .after (setState_only k _ _ _) (.socket k _ s)

theorem addRecheck_only (k : Fin 8) (g : Nat) (s : State) : Only k s (addRecheck k g s) := by
  unfold addRecheck
  split
  · exact .socket k _ s
  · exact .none k s

theorem dropExpect_only (k : Fin 8) (g : Nat) (s : State) : Only k s (dropExpect k g s) := .socket k _ s

theorem recordWritten_only (k : Fin 8) (g : Nat) (v : Word32) (s : State) : Only k s (recordWritten k g v s) := by
  unfold recordWritten
  refine .after (addRecheck_only k g _) ?_
  split <;> exact .socket k _ s

theorem recordPoisoned_only (k : Fin 8) (g n : Nat) (s : State) : Only k s (recordPoisoned k g n s) := by
  unfold recordPoisoned
  split
  · exact .after (addRecheck_only k g _) (.socket k _ s)
  · exact .after (addOwed_only k _ _ _ _) (dropExpect_only k g s)

theorem handBack_only (k : Fin 8) (g : Nat) (src : SlotId) (s : State) : Only k s (handBack k g src s) :=
  .after (reportOccupancy_only k _) (.after (.same (endWrite_sockets _ _)) (.socket k _ s))

theorem endWritten_only (k : Fin 8) (g : Nat) (src : SlotId) (v : Verdict) (s : State) :
    Only k s (endWritten k g src v s) := by
  unfold endWritten
  extract_lets n t u w
  have hu : Only k s u := .after (.socket k _ t) (handBack_only k g src s)
  have hw : Only k u w := by
    simp only [w]
    split
    · exact recordWritten_only k _ _ u
    · exact recordPoisoned_only k _ _ u
  exact .after (takeDescriptor_only k w) (.after hw hu)

theorem endWriteError_only (k : Fin 8) (g : Nat) (src : SlotId) (r : Reason) (s : State) :
    Only k s (endWriteError k g src r s) :=
  .after (failSocket_only k _ _) (handBack_only k g src s)

theorem endPass_only (k : Fin 8) (s : State) : Only k s (endPass k s) := by
  unfold endPass
  extract_lets sk t
  have h : Only k s t := .socket k _ s
  repeat' split
  · exact .after (setState_only k _ _ _) h
  · exact .after (enterRepaying_only k _) h
  · exact .after (failSocket_only k _ _) h

theorem nameNext_only (k : Fin 8) (s : State) : Only k s (nameNext k s) := by
  unfold nameNext
  split
  · exact issue_only k _ s
  · exact endPass_only k s

theorem beginPass_only (k : Fin 8) (s : State) : Only k s (beginPass k s) := by
  unfold beginPass
  extract_lets n t
  exact .after (nameNext_only k _) (.after (.socket k _ t) (setState_only k _ _ s))

theorem verifyGood_only (k : Fin 8) (g : Nat) (l : List Byte) (s : State) : Only k s (verifyGood k g l s) := by
  unfold verifyGood
  extract_lets t u
  have hu : Only k s u := by
    refine .after ?_ (clearCommand_only k s)
    simp only [u]
    split
    · exact .none k t
    · exact addOwed_only k _ _ _ t
  split
  · exact .after (nameNext_only k _) (.after (.socket k _ u) hu)
  · exact hu

theorem finishWriting_only (k : Fin 8) (s : State) : Only k s (finishWriting k s) := by
  unfold finishWriting
  split
  · exact beginPass_only k s
  · exact setState_only k _ _ s

theorem moveOn_only (k : Fin 8) (s : State) : Only k s (moveOn k s) := by
  unfold moveOn
  extract_lets sk
  repeat' split
  case' isTrue.isTrue.isTrue.isTrue => exact finishWriting_only k s
  case' isTrue.isTrue.isTrue.isFalse => exact enterRepaying_only k s
  case' isTrue.isFalse.isTrue => exact finishWriting_only k s
  all_goals exact .none k s

/-! ### What becomes of the socket itself -/

theorem setState_socket (k : Fin 8) (st : SocketState) (r : Reason) (s : State) :
    (setState k st r s).sockets[k] = { s.sockets[k] with st := st, reason := r } := updSocket_same k _ s

theorem abandonCommand_sockets (k : Fin 8) (s : State) :
    (abandonCommand k s).sockets = (updSocket k (fun sk => { sk with cmd := none }) s).sockets ∧
      (abandonCommand k s).pacing = s.pacing := by
  unfold abandonCommand
  split
  · exact ⟨endWrite_sockets _ _, by simp [endWrite, Machine.settleSlot]⟩
  · exact ⟨endMasterRead_sockets _ _, by simp [endMasterRead]⟩
  · exact ⟨rfl, rfl⟩
  · exact ⟨rfl, rfl⟩

theorem abandonCommand_socket (k : Fin 8) (s : State) :
    (abandonCommand k s).sockets[k] = { s.sockets[k] with cmd := none } := by
  simp only [(abandonCommand_sockets k s).1, updSocket_same]

end Sys2Proof.Machine
end

