-- ==== Sys2Proof/Laws/Sockets.lean ====
section
/-! SUPPORT. What the ring and the lists of one socket keep (`SocketOk`), and which changes of a socket keep it. -/
namespace Sys2Proof.Machine
open Sys2Proof.Safety

/-- What a socket's ring, owed list and written map keep. -/
def RingOk (sk : Socket) : Prop :=
  sk.ring.length ≤ Config.ringSize ∧ sk.owed.length ≤ Config.owedSize ∧ ascending (sk.owed.map (·.seg)) ∧
    ascending sk.written

/-- What an expectation list keeps over a patch table (R165). -/
def ExpectOk (p : List PatchEntry) (l : List ExpectEntry) : Prop :=
  ascending (l.map (·.seg)) ∧ (l.filter fun e => !p.any fun q => q.seg.toNat == e.seg).length ≤
    Config.expectSize - (p.map fun q => q.seg.toNat).dedup.length

/-- What the ring and the lists of a socket keep. -/
structure SocketOk (p : List PatchEntry) (sk : Socket) : Prop where
  ring : RingOk sk
  expect : ExpectOk p sk.expect
  size : sk.recheck.length ≤ Config.owedSize
  order : ascending sk.recheck
  recheck : recheckOk sk

/-! ### Ascending lists -/

theorem insertOwed_mem {e x : OwedEntry} {l : List OwedEntry} (h : x ∈ insertOwed e l) : x = e ∨ x ∈ l := by
  induction l with
  | nil => simpa [insertOwed] using h
  | cons y ys ih =>
    unfold insertOwed at h
    split at h
    · simpa using h
    · split at h
      · exact .inr h
      · rcases List.mem_cons.1 h with h | h
        · exact .inr (h ▸ List.mem_cons_self)
        · exact (ih h).imp_right (List.mem_cons_of_mem _)

/-- An addition drops nothing, and the segment is owed after it. -/
theorem insertOwed_has (e : OwedEntry) (l : List OwedEntry) :
    (∀ x ∈ l, x ∈ insertOwed e l) ∧ ∃ x ∈ insertOwed e l, x.seg = e.seg := by
  induction l with
  | nil => exact ⟨fun _ h => absurd h List.not_mem_nil, e, by simp [insertOwed], rfl⟩
  | cons y ys ih =>
    unfold insertOwed
    split
    · exact ⟨fun x h => List.mem_cons_of_mem _ h, e, by simp, rfl⟩
    · split
      · rename_i h
        exact ⟨fun x h => h, y, by simp, h.symm⟩
      · refine ⟨fun x h => ?_, ?_⟩
        · rcases List.mem_cons.1 h with rfl | h
          · simp
          · exact List.mem_cons_of_mem _ (ih.1 x h)
        · obtain ⟨x, h, e⟩ := ih.2
          exact ⟨x, List.mem_cons_of_mem _ h, e⟩

theorem insertOwed_length (e : OwedEntry) (l : List OwedEntry) : (insertOwed e l).length ≤ l.length + 1 := by
  induction l with
  | nil => simp [insertOwed]
  | cons y ys ih =>
    unfold insertOwed
    repeat' split
    all_goals simp only [List.length_cons]; omega

theorem insertOwed_ascending (e : OwedEntry) (l : List OwedEntry) (h : ascending (l.map (·.seg))) :
    ascending ((insertOwed e l).map (·.seg)) := by
  induction l with
  | nil => simp [insertOwed, ascending]
  | cons y ys ih =>
    have hy := List.pairwise_cons.1 h
    unfold insertOwed
    split
    · rename_i hlt
      refine List.pairwise_cons.2 ⟨?_, h⟩
      intro a ha
      rcases List.mem_cons.1 ha with ha | ha
      · exact ha ▸ hlt
      · exact Nat.lt_trans hlt (hy.1 a ha)
    · split
      · exact h
      · rename_i h1 h2
        refine List.pairwise_cons.2 ⟨?_, ih hy.2⟩
        intro a ha
        obtain ⟨x, hx, rfl⟩ := List.mem_map.1 ha
        rcases insertOwed_mem hx with rfl | hx
        · exact Nat.lt_of_le_of_ne (Nat.le_of_not_lt h1) (Ne.symm h2)
        · exact hy.1 _ (List.mem_map_of_mem hx)

theorem insertSeg_mem {g x : Nat} {l : List Nat} (h : x ∈ insertSeg g l) : x = g ∨ x ∈ l := by
  induction l with
  | nil => simpa [insertSeg] using h
  | cons y ys ih =>
    unfold insertSeg at h
    split at h
    · simpa using h
    · split at h
      · exact .inr h
      · rcases List.mem_cons.1 h with h | h
        · exact .inr (h ▸ List.mem_cons_self)
        · exact (ih h).imp_right (List.mem_cons_of_mem _)

theorem insertSeg_has (g : Nat) (l : List Nat) : (∀ x ∈ l, x ∈ insertSeg g l) ∧ g ∈ insertSeg g l := by
  induction l with
  | nil => exact ⟨fun x h => absurd h List.not_mem_nil, by simp [insertSeg]⟩
  | cons y ys ih =>
    unfold insertSeg
    split
    · exact ⟨fun x h => List.mem_cons_of_mem _ h, List.mem_cons_self⟩
    · split
      · rename_i e
        subst e
        exact ⟨fun x h => h, List.mem_cons_self⟩
      · refine ⟨fun x h => ?_, List.mem_cons_of_mem _ ih.2⟩
        rcases List.mem_cons.1 h with rfl | h
        · exact List.mem_cons_self
        · exact List.mem_cons_of_mem _ (ih.1 x h)

theorem insertSeg_ascending (g : Nat) (l : List Nat) (h : ascending l) : ascending (insertSeg g l) := by
  induction l with
  | nil => simp [insertSeg, ascending]
  | cons y ys ih =>
    have hy := List.pairwise_cons.1 h
    unfold insertSeg
    split
    · rename_i hlt
      refine List.pairwise_cons.2 ⟨?_, h⟩
      intro a ha
      rcases List.mem_cons.1 ha with ha | ha
      · exact ha ▸ hlt
      · exact Nat.lt_trans hlt (hy.1 a ha)
    · split
      · exact h
      · rename_i h1 h2
        refine List.pairwise_cons.2 ⟨?_, ih hy.2⟩
        intro a ha
        rcases insertSeg_mem ha with rfl | ha
        · exact Nat.lt_of_le_of_ne (Nat.le_of_not_lt h1) (Ne.symm h2)
        · exact hy.1 _ ha

theorem insertSeg_length (g : Nat) (l : List Nat) : (insertSeg g l).length ≤ l.length + 1 := by
  induction l with
  | nil => simp [insertSeg]
  | cons y ys ih =>
    unfold insertSeg
    repeat' split
    all_goals simp only [List.length_cons]; omega

theorem owedFilter_ok {l : List OwedEntry} (t : OwedEntry → Bool) (h : l.length ≤ Config.owedSize)
    (ha : ascending (l.map (·.seg))) :
    (l.filter t).length ≤ Config.owedSize ∧ ascending ((l.filter t).map (·.seg)) :=
  ⟨Nat.le_trans (List.length_filter_le _ _) h, ha.sublist (List.filter_sublist.map _)⟩

/-- A list without duplicates inside another is no longer. -/
theorem length_le_of_mem {l m : List Nat} (h : ascending l) (hm : ∀ g ∈ l, g ∈ m) : l.length ≤ m.length :=
  (List.subperm_of_subset (h.imp fun h => Nat.ne_of_lt h) hm).length_le

theorem insertExpect_mem {e x : ExpectEntry} {l : List ExpectEntry} (h : x ∈ insertExpect e l) : x = e ∨ x ∈ l := by
  induction l with
  | nil => simpa [insertExpect] using h
  | cons y ys ih =>
    unfold insertExpect at h
    split at h
    · simpa using h
    · split at h
      · exact (List.mem_cons.1 h).imp_right (List.mem_cons_of_mem _)
      · rcases List.mem_cons.1 h with h | h
        · exact .inr (h ▸ List.mem_cons_self)
        · exact (ih h).imp_right (List.mem_cons_of_mem _)

theorem insertExpect_ascending (e : ExpectEntry) (l : List ExpectEntry) (h : ascending (l.map (·.seg))) :
    ascending ((insertExpect e l).map (·.seg)) := by
  induction l with
  | nil => simp [insertExpect, ascending]
  | cons y ys ih =>
    have hy := List.pairwise_cons.1 h
    unfold insertExpect
    split
    · rename_i hlt
      refine List.pairwise_cons.2 ⟨?_, h⟩
      intro a ha
      rcases List.mem_cons.1 ha with ha | ha
      · exact ha ▸ hlt
      · exact Nat.lt_trans hlt (hy.1 a ha)
    · split
      · rename_i h1 h2
        exact List.pairwise_cons.2 ⟨fun a ha => by show e.seg < a; rw [h2]; exact hy.1 a ha, hy.2⟩
      · rename_i h1 h2
        refine List.pairwise_cons.2 ⟨?_, ih hy.2⟩
        intro a ha
        obtain ⟨x, hx, rfl⟩ := List.mem_map.1 ha
        rcases insertExpect_mem hx with rfl | hx
        · exact Nat.lt_of_le_of_ne (Nat.le_of_not_lt h1) (Ne.symm h2)
        · exact hy.1 _ (List.mem_map_of_mem hx)

/-- How many entries of a kind an insertion adds: none where an entry of the segment was there. -/
theorem insertExpect_count (e : ExpectEntry) (t : Nat → Bool) (l : List ExpectEntry) (h : ascending (l.map (·.seg))) :
    ((insertExpect e l).filter fun x => t x.seg).length ≤
      (l.filter fun x => t x.seg).length + (if t e.seg = true ∧ ∀ x ∈ l, x.seg ≠ e.seg then 1 else 0) := by
  induction l with
  | nil =>
    cases h : t e.seg <;> simp [insertExpect, h]
  | cons y ys ih =>
    have hy := List.pairwise_cons.1 h
    have ih := ih hy.2
    unfold insertExpect
    split
    · rename_i h1
      have hne : ∀ x ∈ y :: ys, x.seg ≠ e.seg := by
        intro x hx
        rcases List.mem_cons.1 hx with rfl | hx
        · exact (Nat.ne_of_lt h1).symm
        · exact (Nat.ne_of_lt (Nat.lt_trans h1 (hy.1 _ (List.mem_map_of_mem hx)))).symm
      cases he : t e.seg
      · simp [he]
      · rw [if_pos ⟨rfl, hne⟩, List.filter_cons_of_pos (by simpa using he), List.length_cons]
    · split
      · rename_i h2
        refine Nat.le_trans (Nat.le_of_eq ?_) (Nat.le_add_right _ _)
        simp only [List.filter_cons, h2]
        split <;> rfl
      · rename_i h2
        have hc : (∀ x ∈ y :: ys, x.seg ≠ e.seg) ↔ ∀ x ∈ ys, x.seg ≠ e.seg :=
          ⟨fun h x hx => h x (List.mem_cons_of_mem _ hx), fun h x hx => by
            rcases List.mem_cons.1 hx with rfl | hx
            · exact Ne.symm h2
            · exact h x hx⟩
        simp only [List.filter_cons, hc]
        cases t y.seg
        · exact ih
        · simp only [if_true, List.length_cons]
          omega

theorem replace_mem {α : Type} [BEq α] {a b x : α} {l : List α} (h : x ∈ l.replace a b) : x ∈ l ∨ x = b := by
  induction l with
  | nil => simp at h
  | cons y ys ih =>
    rw [List.replace_cons] at h
    split at h
    · exact (List.mem_cons.1 h).symm.imp_left (List.mem_cons_of_mem _)
    · rcases List.mem_cons.1 h with h | h
      · exact .inl (h ▸ List.mem_cons_self)
      · exact (ih h).imp_left (List.mem_cons_of_mem _)

/-! ### Expectation lists (R165) -/

theorem ExpectOk.nil (p : List PatchEntry) : ExpectOk p [] := ⟨.nil, Nat.zero_le _⟩

theorem ExpectOk.filter {p : List PatchEntry} {l : List ExpectEntry} (h : ExpectOk p l) (t : ExpectEntry → Bool) :
    ExpectOk p (l.filter t) :=
  ⟨h.1.sublist (List.filter_sublist.map _), Nat.le_trans ((List.filter_sublist.filter _).length_le) h.2⟩

/-- An entry goes in for a segment that has one, or that is patched, or while there is room. -/
theorem ExpectOk.insert {p : List PatchEntry} {l : List ExpectEntry} (h : ExpectOk p l) (e : ExpectEntry)
    (hr : (∃ x ∈ l, x.seg = e.seg) ∨ (p.any fun q => q.seg.toNat == e.seg) = true ∨
      (l.filter fun x => !p.any fun q => q.seg.toNat == x.seg).length <
        Config.expectSize - (p.map fun q => q.seg.toNat).dedup.length) : ExpectOk p (insertExpect e l) := by
  refine ⟨insertExpect_ascending e l h.1, Nat.le_trans
    (insertExpect_count e (fun g => !p.any fun q => q.seg.toNat == g) l h.1) ?_⟩
  rcases hr with ⟨x, hx, hs⟩ | hp | hl
  · rw [if_neg fun c => c.2 x hx hs]
    exact h.2
  · rw [if_neg fun c => by rw [hp] at c; cases c.1]
    exact h.2
  · split
    · exact hl
    · exact h.2

/-! ### Changes of one socket -/

variable {p : List PatchEntry} {a b : Socket}

/-- A socket with an empty recheck list, a VERIFYING one with an empty ring. -/
theorem SocketOk.ofEmpty (hr : RingOk b) (he : ExpectOk p b.expect) (h0 : b.recheck = [])
    (hv : b.st = .verifying → b.ring = []) (hl : b.st = .repaying → ∃ l : List Nat, l.length ≤ Config.owedSize ∧
      ∀ g, concerns b g → g ∈ l) : SocketOk p b :=
  ⟨hr, he, by rw [h0]; exact Nat.zero_le _, by rw [h0]; exact .nil, fun _ => h0, fun _ _ _ => h0, hv, hl⟩

/-- A change that keeps state, exit target, recheck list and expectation list, under which no new segment concerns a
REPAYING socket. -/
theorem SocketOk.change (h : SocketOk p a) (hr : RingOk b) (he : b.expect = a.expect) (hc : b.recheck = a.recheck)
    (hst : b.st = a.st) (hex : b.exit = a.exit)
    (hbl : ∀ c, b.cmd = some c → c.purpose = .blanking → a.recheck = [])
    (hri : b.st = .verifying → a.ring = [] → b.ring = []) (hco : b.st = .repaying → ∀ g, concerns b g → concerns a g) :
    SocketOk p b := by
  obtain ⟨h1, h2, h3, h4⟩ := h.recheck
  refine ⟨hr, by rw [he]; exact h.expect, by rw [hc]; exact h.size, by rw [hc]; exact h.order, ?_, ?_, ?_, ?_⟩
  · rw [hex, hst, hc]
    exact h1
  · intro c hb hp
    rw [hc]
    exact hbl c hb hp
  · intro hs
    exact hri hs (h3 (hst ▸ hs))
  · intro hs
    obtain ⟨l, hl, hm⟩ := h4 (hst ▸ hs)
    exact ⟨l, hl, fun g hg => hm g (hco hs g hg)⟩

/-- A change of nothing that is kept. -/
theorem SocketOk.quiet (h : SocketOk p a) (hr : b.ring = a.ring) (ho : b.owed = a.owed) (hw : b.written = a.written)
    (he : b.expect = a.expect) (hc : b.recheck = a.recheck) (hst : b.st = a.st) (hex : b.exit = a.exit)
    (hcm : b.cmd = a.cmd) : SocketOk p b :=
  h.change (by rw [RingOk, hr, ho, hw]; exact h.ring) he hc hst hex (by rw [hcm]; exact h.recheck.2.1)
    (by rw [hr]; exact fun _ => id)
    (fun _ g => by rw [concerns, concerns, hc, hr, hcm, Socket.owes, Socket.owes, ho]; exact id)

/-- A command concerns a segment. -/
def Command.concerns (c : Command) (g : Nat) : Prop :=
  c.purpose = .verify g ∨ ∃ src x, c.purpose = .descriptor g src x

/-- The command in flight changes: at a REPAYING socket to one of a segment that concerns it, a blanking write only over
an empty recheck list. -/
theorem SocketOk.command (h : SocketOk p a) (c : Option Command)
    (hbl : ∀ d, c = some d → d.purpose = .blanking → a.recheck = [])
    (hco : a.st = .repaying → ∀ d g, c = some d → d.concerns g → Safety.concerns a g) :
    SocketOk p { a with cmd := c } := by
  refine h.change (b := { a with cmd := c }) h.ring rfl rfl rfl rfl hbl (fun _ => id) fun hs g hg => ?_
  rcases hg with hg | hg | hg | ⟨d, hd, hg⟩
  · exact .inl hg
  · exact .inr (.inl hg)
  · exact .inr (.inr (.inl hg))
  · exact hco hs d g hd hg

/-- The command in flight ends. -/
theorem SocketOk.idle (h : SocketOk p a) : SocketOk p { a with cmd := none } :=
  h.command none (fun _ e => by cases e) fun _ _ _ e => by cases e

/-- The command in flight goes on with another purpose of the same segment, or of none. -/
theorem SocketOk.goesOn (h : SocketOk p a) (c d : Command) (hc : a.cmd = some c)
    (hb : d.purpose = .blanking → c.purpose = .blanking) (hg : ∀ g, d.concerns g → c.concerns g) :
    SocketOk p { a with cmd := some d } :=
  h.command (some d) (fun _ e hp => by cases e; exact h.recheck.2.1 c hc (hb hp)) fun _ _ g e hd => by
    cases e
    exact .inr (.inr (.inr ⟨c, hc, hg g hd⟩))

/-- A socket is done with the job: DONE, FAILED or REJECTED. -/
theorem SocketOk.ended (h : SocketOk p a) (st : SocketState) (r : Reason)
    (hs : st = .done ∨ st = .failed ∨ st = .rejected) : SocketOk p { a with st := st, reason := r } := by
  obtain ⟨h1, h2, _, _⟩ := h.recheck
  refine ⟨h.ring, h.expect, h.size, h.order, ?_, h2, ?_, ?_⟩
  · rintro (he | hn)
    · exact h1 (.inl he)
    · exact absurd (by rcases hs with rfl | rfl | rfl <;> simp) hn
  all_goals rintro rfl; simp at hs

/-- A socket whose recheck list is empty for one of the reasons of `recheckOk`. -/
def Calm (sk : Socket) : Prop :=
  sk.recheck = [] ∨ sk.exit.isSome ∨ ¬ (sk.st = .repaying ∨ sk.st = .done ∨ sk.st = .failed ∨ sk.st = .rejected)

theorem Calm.empty (h : Calm a) (ok : SocketOk p a) : a.recheck = [] := by
  rcases h with h | h
  · exact h
  · exact ok.recheck.1 h

/-- A calm socket takes any state but VERIFYING and REPAYING, and any command of no segment. -/
theorem SocketOk.calm (h : SocketOk p a) (hc : Calm a) (st : SocketState) (r : Reason) (x : Option ExitTarget)
    (c : Option Command) (hv : st ≠ .verifying) (hs : st ≠ .repaying) :
    SocketOk p { a with st := st, reason := r, exit := x, cmd := c } :=
  .ofEmpty h.ring h.expect (hc.empty h) (fun e => absurd e hv) fun e => absurd e hs

/-- The ring loses entries. -/
theorem SocketOk.ringSub (h : SocketOk p a) (l : List Descriptor) (hl : l.length ≤ a.ring.length)
    (hm : ∀ d ∈ l, d ∈ a.ring) : SocketOk p { a with ring := l } := by
  refine h.change (b := { a with ring := l }) ⟨Nat.le_trans hl h.ring.1, h.ring.2⟩ rfl rfl rfl rfl h.recheck.2.1 ?_ ?_
  · intro _ e
    exact List.length_eq_zero_iff.1 (Nat.le_zero.1 (by simpa [e] using hl))
  · rintro _ g (hg | hg | ⟨d, hd, hg⟩ | hg)
    · exact .inl hg
    · exact .inr (.inl hg)
    · exact .inr (.inr (.inl ⟨d, hm d hd, hg⟩))
    · exact .inr (.inr (.inr hg))

/-- A REPAYING socket's segments, and one more, are few enough. -/
def Bounded (sk : Socket) (seg : Nat) : Prop :=
  ∃ l : List Nat, l.length ≤ Config.owedSize ∧ (∀ g, concerns sk g → g ∈ l) ∧ seg ∈ l

/-- A segment that concerned the socket as it was is one of few. -/
theorem SocketOk.bounded (h : SocketOk p a) (seg : Nat) (hs : a.st = .repaying) (hm : ∀ g, concerns b g → concerns a g)
    (hc : concerns a seg) : Bounded b seg := by
  obtain ⟨l, hl, hi⟩ := h.recheck.2.2.2 hs
  exact ⟨l, hl, fun g hg => hi g (hm g hg), hi seg hc⟩

/-- A segment is owed. -/
theorem SocketOk.owing (h : SocketOk p a) (e : OwedEntry) (hl : a.owed.length < Config.owedSize)
    (hc : a.st = .repaying → Bounded a e.seg) : SocketOk p { a with owed := insertOwed e a.owed } := by
  obtain ⟨h1, h2, h3, _⟩ := h.recheck
  refine ⟨⟨h.ring.1, Nat.le_trans (insertOwed_length _ _) hl, insertOwed_ascending _ _ h.ring.2.2.1, h.ring.2.2.2⟩,
    h.expect, h.size, h.order, h1, h2, h3, fun hs => ?_⟩
  obtain ⟨l, hn, hm, he⟩ := hc hs
  refine ⟨l, hn, ?_⟩
  rintro g (hg | hg | hg)
  · exact hm g (.inl hg)
  · simp only [Socket.owes, List.any_eq_true, beq_iff_eq] at hg
    obtain ⟨x, hx, rfl⟩ := hg
    rcases insertOwed_mem hx with rfl | hx
    · exact he
    · exact hm _ (.inr (.inl (by simp only [Socket.owes, List.any_eq_true, beq_iff_eq]; exact ⟨x, hx, rfl⟩)))
  · exact hm g (.inr (.inr hg))

/-- A segment is to be checked again, at a REPAYING socket that is not exit-bound. -/
theorem SocketOk.rechecking (h : SocketOk p a) (g : Nat) (hs : a.st = .repaying) (hx : a.exit = none)
    (hb : ∀ c, a.cmd = some c → c.purpose ≠ .blanking) (hc : Bounded a g) :
    SocketOk p { a with recheck := insertSeg g a.recheck } := by
  obtain ⟨l, hn, hm, he⟩ := hc
  have mem : ∀ x ∈ insertSeg g a.recheck, x ∈ l := fun x hx =>
    (insertSeg_mem hx).elim (fun e => e ▸ he) fun hx => hm x (.inl hx)
  have order := insertSeg_ascending g a.recheck h.order
  refine ⟨h.ring, h.expect, Nat.le_trans (length_le_of_mem order mem) hn, order, ?_, ?_, ?_, fun _ => ⟨l, hn, ?_⟩⟩
  · rintro (e | e)
    · rw [hx] at e
      cases e
    · exact absurd (.inl hs) e
  · exact fun c e q => absurd q (hb c e)
  · intro e
    rw [hs] at e
    cases e
  · rintro x (hx | hx)
    · exact mem x hx
    · exact hm x (.inr hx)

/-- A descriptor is queued, its segment no longer owed. -/
theorem SocketOk.queued (h : SocketOk p a) (d : Descriptor) (hl : a.ring.length < Config.ringSize)
    (hv : a.st ≠ .verifying) (hr : a.st = .repaying → a.owes d.seg = true) :
    SocketOk p { a with ring := a.ring ++ [d], owed := a.owed.filter fun e => e.seg != d.seg } := by
  have hf := owedFilter_ok (fun e => e.seg != d.seg) h.ring.2.1 h.ring.2.2.1
  refine h.change (b := { a with ring := a.ring ++ [d], owed := a.owed.filter fun e => e.seg != d.seg })
    ⟨by simpa using hl, hf.1, hf.2, h.ring.2.2.2⟩ rfl rfl rfl rfl h.recheck.2.1 (fun e => absurd e hv) ?_
  rintro hs g (hg | hg | ⟨x, hx, rfl⟩ | hg)
  · exact .inl hg
  · simp only [Socket.owes, List.any_eq_true, List.mem_filter, beq_iff_eq] at hg
    obtain ⟨x, hx, rfl⟩ := hg
    exact .inr (.inl (by simp only [Socket.owes, List.any_eq_true, beq_iff_eq]; exact ⟨x, hx.1, rfl⟩))
  · rcases List.mem_append.1 hx with hx | hx
    · exact .inr (.inr (.inl ⟨x, hx, rfl⟩))
    · rw [List.mem_singleton.1 hx]
      exact .inr (.inl (hr hs))
  · exact .inr (.inr (.inr hg))

/-- The engine takes a descriptor of the ring. -/
theorem SocketOk.taken (h : SocketOk p a) (d : Descriptor) (c : Command) (x : Bool) (hd : d ∈ a.ring)
    (hv : a.st ≠ .verifying) (hc : c.purpose = .descriptor d.seg d.src x) :
    SocketOk p { a with ring := a.ring.replace d { d with inFlight := true }, cmd := some c } := by
  refine h.change (b := { a with ring := a.ring.replace d { d with inFlight := true }, cmd := some c })
    ⟨by simpa using h.ring.1, h.ring.2⟩ rfl rfl rfl rfl ?_ (fun e => absurd e hv) ?_
  · intro e he hp
    cases he
    rw [hc] at hp
    cases hp
  · rintro hs g (hg | hg | ⟨y, hy, rfl⟩ | ⟨e, he, hg⟩)
    · exact .inl hg
    · exact .inr (.inl hg)
    · rcases replace_mem hy with hy | rfl
      · exact .inr (.inr (.inl ⟨y, hy, rfl⟩))
      · exact .inr (.inr (.inl ⟨d, hd, rfl⟩))
    · cases he
      rw [hc] at hg
      refine .inr (.inr (.inl ⟨d, hd, ?_⟩))
      rcases hg with hg | ⟨_, _, hg⟩ <;> cases hg
      rfl

/-- The exit target is dropped. -/
theorem SocketOk.unbound (h : SocketOk p a) : SocketOk p { a with exit := none } := by
  obtain ⟨h1, h2, h3, h4⟩ := h.recheck
  refine ⟨h.ring, h.expect, h.size, h.order, ?_, h2, h3, h4⟩
  rintro (e | e)
  · cases e
  · exact h1 (.inr e)

/-- A calm socket is bound for an exit. -/
theorem SocketOk.bound (h : SocketOk p a) (hc : Calm a) (x : Option ExitTarget) : SocketOk p { a with exit := x } := by
  obtain ⟨_, h2, h3, h4⟩ := h.recheck
  exact ⟨h.ring, h.expect, h.size, h.order, fun _ => hc.empty h, h2, h3, h4⟩

/-- The recheck list is dropped, the owed list cut down, the expectation list replaced. -/
theorem SocketOk.dropped (h : SocketOk p a) (hr : RingOk b) (he : ExpectOk p b.expect) (h0 : b.recheck = [])
    (hst : b.st = a.st) (hri : a.ring = [] → b.ring = []) (hco : ∀ g, concerns b g → concerns a g) : SocketOk p b := by
  obtain ⟨_, _, h3, h4⟩ := h.recheck
  refine .ofEmpty hr he h0 (fun e => hri (h3 (hst ▸ e))) fun e => ?_
  obtain ⟨l, hl, hm⟩ := h4 (hst ▸ e)
  exact ⟨l, hl, fun g hg => hm g (hco g hg)⟩

/-- The lists of a socket are cleared. -/
theorem SocketOk.cleared (h : SocketOk p a) : SocketOk p a.clearLists := by
  refine h.dropped (b := a.clearLists) ⟨h.ring.1, Nat.zero_le _, .nil, h.ring.2.2.2⟩ (.nil p) rfl rfl id ?_
  rintro g (hg | hg | hg)
  · exact absurd hg List.not_mem_nil
  · cases hg
  · exact .inr (.inr hg)

/-- A calm socket with an empty ring and no command enters REPAYING. -/
theorem SocketOk.repaying (h : SocketOk p a) (hc : Calm a) (hr : a.ring = []) (hn : a.cmd = none) (r : Reason) :
    SocketOk p { a with st := .repaying, reason := r } := by
  have h0 := hc.empty h
  refine .ofEmpty (b := { a with st := .repaying, reason := r }) h.ring h.expect h0 (fun e => by cases e) fun _ =>
    ⟨a.owed.map (·.seg), by rw [List.length_map]; exact h.ring.2.1, ?_⟩
  rintro g (hg | hg | ⟨d, hd, _⟩ | ⟨c, e, _⟩)
  · have hg : g ∈ a.recheck := hg
    rw [h0] at hg
    cases hg
  · simp only [Socket.owes, List.any_eq_true, beq_iff_eq] at hg
    obtain ⟨x, hx, rfl⟩ := hg
    exact List.mem_map_of_mem hx
  · have hd : d ∈ a.ring := hd
    rw [hr] at hd
    cases hd
  · have e : a.cmd = some c := e
    rw [hn] at e
    cases e

/-- The expectation list changes. -/
theorem SocketOk.expecting (h : SocketOk p a) (l : List ExpectEntry) (hl : ExpectOk p l) : SocketOk p { a with expect := l } :=
  ⟨h.ring, hl, h.size, h.order, h.recheck⟩

/-- A blanking write has ended well: the socket is ENROLLED. -/
theorem SocketOk.enrolled (h : SocketOk p a) (c : Command) (hc : a.cmd = some c) (hb : c.purpose = .blanking) (r : Reason) :
    SocketOk p { a with st := .enrolled, reason := r, cmd := none } :=
  .ofEmpty h.ring h.expect (h.recheck.2.1 c hc hb) (fun e => by cases e) fun e => by cases e

/-- After a reset. -/
theorem SocketOk.reset (w : List Nat) (h : ascending w) : SocketOk p (Socket.reset w) :=
  .ofEmpty ⟨Nat.zero_le _, Nat.zero_le _, .nil, h⟩ (.nil _) rfl (fun _ => rfl) fun e => by cases e

/-! ### A write handed back -/

/-- A socket whose write of a segment has been handed back: the segment may be owed, or checked again. -/
def HandedBack (p : List PatchEntry) (seg : Nat) (sk : Socket) : Prop :=
  SocketOk p sk ∧ sk.cmd = none ∧ (sk.st = .repaying → sk.exit = none ∧ Bounded sk seg)

theorem HandedBack.expecting {seg : Nat} (h : HandedBack p seg a) (l : List ExpectEntry) (hl : ExpectOk p l) :
    HandedBack p seg { a with expect := l } :=
  ⟨h.1.expecting l hl, h.2⟩

/-- A socket that hands a write back keeps what it keeps; what concerns it concerned it before. -/
theorem SocketOk.handedBack {p : List PatchEntry} {a : Socket} (h : SocketOk p a) (t : Descriptor → Bool)
    (m : Monitor) (x : Tie) (l : List Nat) (hl : ascending l) :
    SocketOk p { a with cmd := none, ring := a.ring.filter t, lag := m, tie := x, written := l } ∧
      ∀ g, concerns { a with cmd := none, ring := a.ring.filter t, lag := m, tie := x, written := l } g → concerns a g := by
  have hc : ∀ g, concerns { a with cmd := none, ring := a.ring.filter t, lag := m, tie := x, written := l } g →
      concerns a g := by
    rintro g (hg | hg | ⟨d, hd, hg⟩ | ⟨c, hc, _⟩)
    · exact .inl hg
    · exact .inr (.inl hg)
    · exact .inr (.inr (.inl ⟨d, List.mem_of_mem_filter hd, hg⟩))
    · cases hc
  refine ⟨h.change (b := { a with cmd := none, ring := a.ring.filter t, lag := m, tie := x, written := l })
    ⟨Nat.le_trans (List.length_filter_le _ _) h.ring.1, h.ring.2.1, h.ring.2.2.1, hl⟩ rfl rfl rfl rfl
    (fun _ e => by cases e) (fun _ e => ?_) fun _ => hc, hc⟩
  simp [e]

theorem attempt_cmd {c : Command} (h : a.attempt = some c) : a.cmd = some c := (Option.filter_eq_some_iff.1 h).1

end Sys2Proof.Machine
end

