-- ==== Sys2Proof/Laws/Works.lean ====
section
/-! SUPPORT. The work on sockets, slots and HOLD, once for all: its elementary changes, and one lemma for each operation
of Machine/Monitors and Machine/Queues and for the exit targets, `<operation>_works`, that it is a run of them. A run
leaves every other part of the station alone (`Works.apart`). -/
namespace Sys2Proof.Machine

open Sys2Proof.Safety

/-- What an elementary change of the pacing unit keeps. -/
structure PacingKept (p q : Pacing) : Prop where
  hold : p.hold ≠ .asserted → q.hold ≠ .asserted
  timer : (p.holdTimer.isSome ↔ p.hold = .asserted) → (q.holdTimer.isSome ↔ q.hold = .asserted)
  loss : p.loss = Monitor.idle → q.loss = Monitor.idle

/-- Only the loss monitor changes, and an idle one does not. -/
theorem PacingKept.monitor (p : Pacing) (f : Monitor → Monitor) (h : f Monitor.idle = Monitor.idle) :
    PacingKept p { p with loss := f p.loss } :=
  ⟨id, id, fun e => by dsimp only; rw [e, h]⟩

/-- HOLD is left without a timer. -/
theorem PacingKept.released (p : Pacing) (x : HoldState) (h : x ≠ .asserted) :
    PacingKept p { p with hold := x, holdTimer := none } :=
  ⟨fun _ => h, fun _ => ⟨fun e => absurd e (by simp), fun e => absurd e h⟩, id⟩

/-- A change of a slot but for its buffer, or of socket `k`. -/
inductive Touch (k : Fin 8) : State → State → Prop
  | slot (id : SlotId) (f : Slot → Slot) (s : State) (h : (f (s.slot id)).buf = (s.slot id).buf) :
      Touch k s (updSlot id f s)
  | socket (f : Socket → Socket) (s : State) : Touch k s (updSocket k f s)

/-- A run of such changes. -/
abbrev Touches (k : Fin 8) : State → State → Prop := Relation.ReflTransGen (Touch k)

/-- One elementary change of a slot, of a socket or of the pacing unit. -/
inductive Work : State → State → Prop
  /-- A slot changes but for its buffer. -/
  | slot (id : SlotId) (f : Slot → Slot) (s : State) (h : (f (s.slot id)).buf = (s.slot id).buf) : Work s (updSlot id f s)
  /-- The pacing unit changes: no HOLD asserted, the expiry timer with HOLD, an idle loss monitor left idle. -/
  | pacing (f : Pacing → Pacing) (s : State) (h : PacingKept s.pacing (f s.pacing)) : Work s (updPacing f s)
  /-- The HOLD output follows the demand. -/
  | judge (s : State) : Work s (judgeHold s)
  /-- One socket changes, and slots with it; its ring and lists keep what they keep. -/
  | socket (k : Fin 8) (s t : State) (run : Touches k s t)
      (h : SocketOk s.patches s.sockets[k] → SocketOk s.patches t.sockets[k]) : Work s t

/-- A run of such changes. -/
abbrev Works : State → State → Prop := Relation.ReflTransGen Work

/-- What lies apart from that work. -/
structure Apart (s t : State) : Prop where
  ident : t.ident = s.ident
  roster : t.roster = s.roster
  port : t.port = s.port
  job : t.job = s.job
  repair : t.repair = s.repair
  rv : t.rv = s.rv
  patches : t.patches = s.patches
  draws : t.draws = s.draws
  pending : t.pending = s.pending
  base : t.win.base = s.win.base
  next : t.win.next = s.win.next
  readMark : t.win.readMark = s.win.readMark
  highestNew : t.win.highestNew = s.win.highestNew
  checkTable : t.win.checkTable = s.win.checkTable

theorem Apart.refl (s : State) : Apart s s := by constructor <;> rfl

theorem Apart.trans {s t u : State} (h : Apart s t) (a : Apart t u) : Apart s u :=
  ⟨a.ident.trans h.ident, a.roster.trans h.roster, a.port.trans h.port, a.job.trans h.job,
    a.repair.trans h.repair, a.rv.trans h.rv, a.patches.trans h.patches, a.draws.trans h.draws,
    a.pending.trans h.pending, a.base.trans h.base, a.next.trans h.next, a.readMark.trans h.readMark,
    a.highestNew.trans h.highestNew, a.checkTable.trans h.checkTable⟩

/-- What touches a socket and slots leaves alone: everything apart, the buffers, the pacing unit, the other sockets. -/
theorem Touches.spec {k : Fin 8} {s t : State} (h : Touches k s t) :
    Apart s t ∧ (∀ id, (t.slot id).buf = (s.slot id).buf) ∧ t.pacing = s.pacing ∧ Only k s t := by
  induction h with
  | refl => exact ⟨.refl s, fun _ => rfl, rfl, .none k s⟩
  | tail _ w ih =>
    obtain ⟨a, b, p, o⟩ := ih
    cases w with
    | slot id f u h =>
      refine ⟨a.trans ?_, fun j => Eq.trans ?_ (b j), (updSlot_pacing _ _ _).trans p,
        .after (.same (updSlot_sockets _ _ _)) o⟩
      · cases id <;> constructor <;> rfl
      · by_cases e : j = id
        · rw [e, updSlot_same, h]
        · rw [updSlot_other e]
    | socket f =>
      exact ⟨a.trans (by constructor <;> rfl), fun j => Eq.trans (by cases j <;> rfl) (b j), p, .after (.socket k f _) o⟩

theorem Work.apart {s t : State} (h : Work s t) : Apart s t := by
  cases h with
  | slot id f s h => cases id <;> constructor <;> rfl
  | pacing f s h => constructor <;> rfl
  | judge s =>
    unfold judgeHold
    repeat' split
    all_goals constructor <;> rfl
  | socket k s t h => exact h.spec.1

namespace Works

theorem one {s t : State} (h : Work s t) : Works s t := .single h
theorem none (s : State) : Works s s := .refl
theorem andThen {s t u : State} (h : Works s t) (g : Works t u) : Works s u := h.trans g

/-- The last run of a composition first. -/
theorem after {s t u : State} (g : Works t u) (h : Works s t) : Works s u := h.trans g

/-- A walk whose steps are runs is a run. -/
theorem each {α : Type} (l : List α) (f : α → State → State) (h : ∀ a s, Works s (f a s)) (s : State) :
    Works s (forEach l f s) :=
  forEach_keeps none andThen l f h s

theorem sockets (f : Fin 8 → State → State) (h : ∀ k s, Works s (f k s)) (s : State) : Works s (forSockets f s) :=
  each _ f h s

/-- A walk over the sockets finds each as it was. -/
theorem eachSocket (f : Fin 8 → State → State) (s : State) (only : ∀ k t, Only k t (f k t))
    (h : ∀ k t, t.sockets[k] = s.sockets[k] → Works t (f k t)) : Works s (forSockets f s) :=
  (forEach_each (I := Works s) (Q := fun _ _ => True) s allSockets (by decide) f only
    (fun k t w e => w.trans (h k t e)) (fun _ _ _ _ => trivial) s (none s) fun _ _ => rfl).1

theorem when (c : Bool) (f : State → State) (s : State) (h : Works s (f s)) : Works s (doIf c f s) := by
  cases c
  · exact none s
  · exact h

theorem whenever (c : Bool) (f : State → State) (s : State) (h : c = true → Works s (f s)) : Works s (doIf c f s) := by
  cases c
  · exact none s
  · exact h rfl

/-- A run leaves the rest of the station alone. -/
theorem apart {s t : State} (h : Works s t) : Apart s t := by
  induction h with
  | refl => exact .refl s
  | tail _ w ih => exact ih.trans w.apart

end Works

/-! ### Sockets -/

/-- A change of a socket under which its ring and lists keep what they keep. -/
theorem socket_works (k : Fin 8) (f : Socket → Socket) (s : State)
    (h : SocketOk s.patches s.sockets[k] → SocketOk s.patches (f s.sockets[k])) : Works s (updSocket k f s) :=
  .one (.socket k s _ (.single (.socket f s)) fun ok => by rw [updSocket_same]; exact h ok)

/-- A run on one socket and slots that leaves a given socket. -/
theorem touches_works {k : Fin 8} {s t : State} {sk : Socket} (h : Touches k s t) (e : t.sockets[k] = sk)
    (ok : SocketOk s.patches s.sockets[k] → SocketOk s.patches sk) : Works s t :=
  .one (.socket k s t h fun g => e ▸ ok g)

theorem reportOccupancy_socket (k : Fin 8) (s : State) :
    (reportOccupancy k s).sockets[k] = s.sockets[k].lagBy (Monitor.report s.sockets[k].ring.length) := updSocket_same _ _ _

theorem reportOccupancy_works (k : Fin 8) (s : State) : Works s (reportOccupancy k s) :=
  socket_works k _ s fun ok => ok.quiet rfl rfl rfl rfl rfl rfl rfl rfl

theorem slot_works (id : SlotId) (f : Slot → Slot) (s : State) (h : (f (s.slot id)).buf = (s.slot id).buf) :
    Works s (updSlot id f s) :=
  .one (.slot id f s h)

theorem reportNeeds_works (s : State) : Works s (reportNeeds s) := .one (.pacing _ s (.monitor _ _ rfl))

theorem segmentTimeEnd_works (s : State) : Works s (segmentTimeEnd s) :=
  .after (.one (.pacing _ _ (.monitor _ _ rfl))) (.sockets _ (fun k t =>
    socket_works k _ t fun ok => ok.quiet rfl rfl rfl rfl rfl rfl rfl rfl) s)

theorem holdExpired_works (s : State) : Works s (holdExpired s) := by
  unfold holdExpired
  split
  · exact .one (.pacing _ s (.released _ _ (by simp)))
  · exact .none s

theorem settleClaims_buf (r : Bool) (sl : Slot) : (sl.settleClaims r).buf = sl.buf := by
  unfold Slot.settleClaims
  repeat' split
  all_goals rfl

theorem settleSlot_works (id : SlotId) (s : State) : Works s (settleSlot id s) := slot_works id _ s (settleClaims_buf _ _)

theorem claimSlot_works (id : SlotId) (s : State) : Works s (claimSlot id s) := slot_works id _ s rfl

theorem unclaimSlot_works (id : SlotId) (s : State) : Works s (unclaimSlot id s) :=
  .after (settleSlot_works id _) (slot_works id _ s rfl)

theorem startWrite_works (id : SlotId) (s : State) : Works s (startWrite id s) := slot_works id _ s rfl

theorem endWrite_works (id : SlotId) (s : State) : Works s (endWrite id s) :=
  .after (settleSlot_works id _) (slot_works id _ s rfl)

theorem endMasterRead_works (id : SlotId) (s : State) : Works s (endMasterRead id s) :=
  slot_works id _ s (by split <;> rfl)

theorem abandonCommand_works (k : Fin 8) (s : State) : Works s (abandonCommand k s) := by
  have h : Works s (updSocket k (fun sk => { sk with cmd := none }) s) := socket_works k _ s SocketOk.idle
  unfold abandonCommand
  split
  · exact h.andThen (endWrite_works _ _)
  · exact h.andThen (endMasterRead_works _ _)
  · exact h
  · exact h

theorem detachWrite_works (k : Fin 8) (s : State) : Works s (detachWrite k s) := by
  unfold detachWrite
  split
  · rename_i c hc
    split
    · rename_i seg src x hp
      split
      · exact abandonCommand_works k s
      · refine socket_works k _ s fun ok => ok.goesOn c _ hc (fun e => by cases e) fun g hg => ?_
        rcases hg with hg | ⟨_, _, hg⟩ <;> cases hg
        exact .inr ⟨_, _, hp⟩
    all_goals exact .none s
  · exact .none s

theorem emptyRing_works (k : Fin 8) (s : State) : Works s (emptyRing k s) :=
  .after (reportOccupancy_works k _) (.after (detachWrite_works k _)
    (.after (.each _ _ (fun (d : Descriptor) t => unclaimSlot_works d.src t) _)
      (socket_works k _ s fun ok => ok.ringSub [] (Nat.zero_le _) fun _ h => absurd h List.not_mem_nil)))

/-- A socket is done with the job. -/
theorem ended_works (k : Fin 8) (st : SocketState) (r : Reason) (s : State)
    (h : st = .done ∨ st = .failed ∨ st = .rejected) : Works s (setState k st r s) :=
  socket_works k _ s fun ok => ok.ended st r h

/-- A socket with an empty recheck list takes any state but VERIFYING and REPAYING. -/
theorem setState_works (k : Fin 8) (st : SocketState) (r : Reason) (s : State) (h : Calm s.sockets[k])
    (hv : st ≠ .verifying) (hs : st ≠ .repaying) : Works s (setState k st r s) :=
  socket_works k _ s fun ok => ok.calm h st r s.sockets[k].exit s.sockets[k].cmd hv hs

theorem failSocket_works (k : Fin 8) (r : Reason) (s : State) : Works s (failSocket k r s) := by
  unfold failSocket
  split
  · exact .none s
  · exact .after (ended_works k _ _ _ (.inr (.inl rfl)))
      (.after (emptyRing_works k _) (socket_works k _ s fun ok => ok.cleared.unbound))

theorem failSocket_failed (k : Fin 8) (r : Reason) (s : State) : (failSocket k r s).sockets[k].st = .failed := by
  unfold failSocket
  split
  · assumption
  · rw [setState_socket]

/-- An owed addition at the end of a run on one socket: the segment concerned the socket before the run. -/
theorem addOwed_after {k : Fin 8} {s t : State} (run : Touches k s t) (seg : Nat) (o : Origin) (n : Nat)
    (h : SocketOk s.patches s.sockets[k] → SocketOk s.patches t.sockets[k] ∧
      (t.sockets[k].st = .repaying → Bounded t.sockets[k] seg)) : Works s (addOwed k seg o n t) := by
  have hw : Works s t := touches_works run rfl fun ok => (h ok).1
  unfold addOwed
  split
  · exact hw
  · split
    · exact .after (failSocket_works k _ t) hw
    · rename_i hl
      exact touches_works (run.tail (.socket _ t)) (updSocket_same _ _ _) fun ok =>
        (h ok).1.owing _ (Nat.lt_of_not_le hl) (h ok).2

theorem addOwed_works (k : Fin 8) (seg : Nat) (o : Origin) (n : Nat) (s : State)
    (h : s.sockets[k].st = .repaying → concerns s.sockets[k] seg) : Works s (addOwed k seg o n s) :=
  addOwed_after .refl seg o n fun ok => ⟨ok, fun hs => ok.bounded seg hs (fun _ => id) (h hs)⟩

theorem revoke_works (k : Fin 8) (d : Descriptor) (o : Origin) (s : State) (hd : d ∈ s.sockets[k].ring) :
    Works s (revoke k d o s) := by
  refine .after (reportOccupancy_works k _) (addOwed_after
    (t := updSlot d.src (fun sl => { sl with pending := sl.pending - 1 })
      (updSocket k (fun sk => { sk with ring := sk.ring.erase d }) s))
    ((Relation.ReflTransGen.single (.socket _ s)).tail (.slot _ _ _ rfl)) _ _ _ fun ok => ?_)
  rw [updSlot_sockets, updSocket_same]
  refine ⟨ok.ringSub _ List.length_erase_le fun _ => List.mem_of_mem_erase, fun hs =>
    ok.bounded _ hs (fun g hg => ?_) (.inr (.inr (.inl ⟨d, hd, rfl⟩)))⟩
  exact hg.imp_right (Or.imp_right (Or.imp_left fun ⟨e, he, h⟩ => ⟨e, List.mem_of_mem_erase he, h⟩))

/-- A socket has failed, or keeps its state, its exit target and what it owes. -/
def Kept (a b : Socket) : Prop :=
  b.st = .failed ∨ (b.st = a.st ∧ b.exit = a.exit ∧ ∀ g, a.owes g = true → b.owes g = true)

theorem Kept.refl (a : Socket) : Kept a a := .inr ⟨rfl, rfl, fun _ => id⟩

theorem Kept.trans {a b c : Socket} (h : Kept a b) (g : Kept b c) : Kept a c := by
  rcases g with g | ⟨g1, g2, g3⟩
  · exact .inl g
  · exact h.imp (fun h => g1.trans h) fun ⟨h1, h2, h3⟩ => ⟨g1.trans h1, g2.trans h2, fun x hx => g3 x (h3 x hx)⟩

theorem revoke_kept (k : Fin 8) (d : Descriptor) (o : Origin) (s : State) :
    Kept s.sockets[k] (revoke k d o s).sockets[k] := by
  unfold revoke
  extract_lets t u v
  have hu : u.sockets[k] = { s.sockets[k] with ring := s.sockets[k].ring.erase d } := by
    rw [updSlot_sockets, updSocket_same]
  have hv : Kept s.sockets[k] v.sockets[k] := by
    simp only [v]
    unfold addOwed
    split
    · exact .inl ‹_›
    · split
      · exact .inl (failSocket_failed k _ u)
      · rw [updSocket_same, hu]
        refine .inr ⟨rfl, rfl, fun g hg => ?_⟩
        simp only [Socket.owes, List.any_eq_true] at hg ⊢
        obtain ⟨x, hx, e⟩ := hg
        exact ⟨x, (insertOwed_has _ _).1 x hx, e⟩
  rw [reportOccupancy_socket]
  exact hv

/-- A slot taken back leaves every socket as revocations do. -/
theorem takeBack_kept (id : SlotId) (s : State) (j : Fin 8) : Kept s.sockets[j] (takeBack id s).sockets[j] := by
  have one (k : Fin 8) (d : Descriptor) (o : Origin) (t : State) : Kept t.sockets[j] (revoke k d o t).sockets[j] := by
    by_cases e : j = k
    · rw [e]
      exact revoke_kept k d o t
    · rw [revoke_only k d o t j e]
      exact .refl _
  have h : Kept s.sockets[j] (revokeSlot id s).sockets[j] := by
    refine forEach_keeps (R := fun a b => Kept a.sockets[j] b.sockets[j]) (fun _ => .refl _) Kept.trans _ _ (fun k t => ?_) s
    refine forEach_keeps (R := fun a b => Kept a.sockets[j] b.sockets[j]) (fun _ => .refl _) Kept.trans _ _ (fun d u => ?_) t
    cases hc : u.sockets[k].ring.contains d
    · exact .refl _
    · exact one k d _ u
  unfold takeBack
  simp only [updSlot_sockets]
  exact h

theorem revokeSlot_works (id : SlotId) (s : State) : Works s (revokeSlot id s) :=
  .sockets _ (fun k t => .each _ _ (fun d u => .whenever _ _ u fun h =>
    revoke_works k d _ u (by simpa using h)) t) s

theorem takeBack_works (id : SlotId) (s : State) : Works s (takeBack id s) :=
  .after (slot_works id _ _ rfl) (revokeSlot_works id s)

/-- A command that is no blanking write, at a socket outside REPAYING. -/
theorem issue_works (k : Fin 8) (p : Purpose) (s : State) (hp : p ≠ .blanking) (h : s.sockets[k].st ≠ .repaying) :
    Works s (issue k p s) :=
  socket_works k _ s fun ok => ok.command _ (fun d e q => by cases e; exact absurd q hp) fun e => absurd e h

theorem retry_works (k : Fin 8) (s : State) : Works s (retry k s) := by
  unfold retry
  split
  · rename_i c hc
    refine socket_works k _ s fun ok => ok.goesOn c _ hc ?_ fun g => ?_
    · rcases hp : c.purpose with _ | _ | _ | _ | _ | _ | _ <;> intro e <;> first | rfl | cases e
    · unfold Command.concerns
      rcases hp : c.purpose with _ | _ | _ | _ | ⟨a, b, x⟩ | _ | _ <;> rintro (e | ⟨_, _, e⟩) <;> cases e
      · exact .inr ⟨_, _, rfl⟩
      · exact .inl rfl
  · exact .none s

theorem takeDescriptor_works (k : Fin 8) (s : State) : Works s (takeDescriptor k s) := by
  unfold takeDescriptor
  split
  · rename_i hg
    split
    · rename_i d hd
      refine .after (reportOccupancy_works k _) (.after (socket_works k _ _ fun ok => ?_) (startWrite_works _ s))
      rw [startWrite_sockets] at ok ⊢
      refine ok.taken d _ false (List.mem_of_find?_eq_some hd) (fun e => ?_) rfl
      rw [e] at hg
      cases hg.1
    · exact .none s
  · exact .none s

theorem overrun_works (k : Fin 8) (s : State) : Works s (overrun k s) := by
  unfold overrun
  split
  · split
    · rename_i d hd
      exact .after (settleSlot_works _ _) (revoke_works k _ _ s (List.mem_of_find?_eq_some hd))
    · exact .none s
  · exact .none s

theorem overrun_kept (k : Fin 8) (s : State) : Kept s.sockets[k] (overrun k s).sockets[k] := by
  unfold overrun
  split
  · split
    · simp only [settleSlot_sockets]
      exact revoke_kept k _ _ s
    · exact .refl _
  · exact .refl _

/-- A descriptor goes to a socket outside VERIFYING, to a REPAYING one for a segment it owes. -/
theorem queueDescriptor_works (k : Fin 8) (id : SlotId) (seg : Nat) (s : State) (hv : s.sockets[k].st ≠ .verifying)
    (hr : s.sockets[k].st = .repaying → s.sockets[k].owes seg = true) : Works s (queueDescriptor k id seg s) := by
  refine .andThen (overrun_works k s) ?_
  have kept := overrun_kept k s
  unfold queueDescriptor
  extract_lets u sk d v w
  split
  · exact .none _
  · rename_i h
    rw [not_or] at h
    obtain ⟨st, _, ow⟩ := kept.resolve_left h.1
    have hv : Works u v := socket_works k _ u fun ok => ok.queued d (Nat.lt_of_not_le h.2) (by rw [st]; exact hv)
      fun e => ow _ (hr (st ▸ e))
    have hw : Works u w := .after (reportOccupancy_works k _) (.after (claimSlot_works id _) hv)
    split
    · rename_i he
      refine .after (takeDescriptor_works k _) (.after (setState_works k _ _ _ (.inr (.inr ?_)) (by simp) (by simp)) hw)
      have : w.sockets[k].st = sk.st := by
        rw [reportOccupancy_socket, claimSlot_sockets, updSocket_same]
        rfl
      rw [this, he]
      simp
    · exact hw

/-- A socket that wants a slot is outside VERIFYING, and owes its segment in REPAYING (R107). -/
theorem wants_spec {sk : Socket} {id : SlotId} {seg : Nat} (h : sk.wants id seg = true) :
    sk.st ≠ .verifying ∧ (sk.st = .repaying → sk.owes seg = true) := by
  unfold Socket.wants at h
  cases id <;> refine ⟨fun e => ?_, fun e => ?_⟩ <;> rw [e] at h
  · cases h
  · simpa [SocketState.enrolledOrCopying] using h
  · cases h
  · exact (Bool.and_eq_true_iff.1 h).2

theorem offerTo_works (id : SlotId) (seg : Nat) (k : Fin 8) (s : State) : Works s (offerTo id seg k s) :=
  .whenever _ _ s fun h => queueDescriptor_works k id seg s (wants_spec h).1 (wants_spec h).2

theorem offer_works (id : SlotId) (seg : Nat) (s : State) : Works s (offer id seg s) :=
  .after (settleSlot_works id _) (.sockets _ (fun k t => offerTo_works id seg k t) s)

/-- A socket that writes nothing enters REPAYING: from VERIFYING, or on an empty ring with nothing to check again. -/
theorem enterRepaying_works (k : Fin 8) (s : State) (hn : s.sockets[k].cmd = none) (hc : Calm s.sockets[k])
    (hr : s.sockets[k].st = .verifying ∨ s.sockets[k].ring = []) : Works s (enterRepaying k s) := by
  refine .after (.each _ _ (fun seg t => ?_) _) (socket_works k _ s fun ok =>
    ok.repaying hc (hr.elim ok.recheck.2.2.1 id) hn _)
  split
  · exact offerTo_works _ seg k t
  · exact .none t

/-! ### Verify passes and moving on -/

theorem calm_in {sk : Socket} {st : SocketState} (h : sk.st = st)
    (hs : ¬ (st = .repaying ∨ st = .done ∨ st = .failed ∨ st = .rejected)) : Calm sk := .inr (.inr (h ▸ hs))

theorem endPass_works (k : Fin 8) (s : State) (hn : s.sockets[k].cmd = none) (hs : s.sockets[k].st = .verifying) :
    Works s (endPass k s) := by
  unfold endPass
  extract_lets sk t
  have h : Works s t := socket_works k _ s fun ok => ok.quiet rfl rfl rfl rfl rfl rfl rfl rfl
  have e : t.sockets[k] = { sk with passList := [], cursor := none } := updSocket_same _ _ _
  have st : t.sockets[k].st = .verifying := by rw [e]; exact hs
  split
  · exact .after (ended_works _ _ _ _ (.inl rfl)) h
  · split
    · exact .after (enterRepaying_works k t (by rw [e]; exact hn) (calm_in st (by decide)) (.inl st)) h
    · exact .after (failSocket_works _ _ _) h

theorem nameNext_works (k : Fin 8) (s : State) (hn : s.sockets[k].cmd = none) (hs : s.sockets[k].st = .verifying) :
    Works s (nameNext k s) := by
  unfold nameNext
  split
  · exact issue_works _ _ s (by simp) (by rw [hs]; simp)
  · exact endPass_works k s hn hs

theorem beginPass_works (k : Fin 8) (s : State) (hn : s.sockets[k].cmd = none) (hr : s.sockets[k].ring = []) :
    Works s (beginPass k s) := by
  unfold beginPass
  extract_lets n t
  refine .after (nameNext_works k _ ?_ ?_) (touches_works (k := k)
    (.tail (.single (.socket _ s)) (.socket _ t)) (updSocket_same _ _ _) fun ok => ?_)
  · rw [updSocket_same, setState_socket]
    exact hn
  · rw [updSocket_same, setState_socket]
  · rw [setState_socket]
    exact .ofEmpty ok.ring ok.expect rfl (fun _ => hr) fun e => by cases e

theorem finishWriting_works (k : Fin 8) (s : State) (hn : s.sockets[k].cmd = none) (hr : s.sockets[k].ring = []) :
    Works s (finishWriting k s) := by
  unfold finishWriting
  split
  · exact beginPass_works k s hn hr
  · exact ended_works _ _ _ s (.inl rfl)

theorem moveOn_works (k : Fin 8) (s : State) : Works s (moveOn k s) := by
  unfold moveOn
  extract_lets sk
  split
  · rename_i g
    split
    · rename_i e
      split
      · split
        · exact finishWriting_works k s g.2.2.1 g.2.1
        · refine enterRepaying_works k s g.2.2.1 (calm_in rfl fun o => ?_) (.inr g.2.1)
          change sk.st = _ ∨ _ at o
          rcases o with o | o | o | o <;> rw [o] at e <;> cases e
      · exact .none s
    · split
      · exact finishWriting_works k s g.2.2.1 g.2.1
      · exact .none s
  · exact .none s

/-! ### Exit targets -/

/-- A calm socket, but for its exit target, is given a state. -/
theorem place_after {k : Fin 8} {s t : State} {x : Option ExitTarget} (run : Touches k s t) (h : Calm s.sockets[k])
    (e : t.sockets[k] = { s.sockets[k] with exit := x }) (st : SocketState) (r : Reason) (hv : st ≠ .verifying)
    (hs : st ≠ .repaying) : Works s (setState k st r t) :=
  touches_works (run.tail (.socket _ t)) (updSocket_same _ _ _) fun ok => by
    rw [e]
    exact ok.calm h st r x s.sockets[k].cmd hv hs

theorem placeReady_after {k : Fin 8} {s t : State} {x : Option ExitTarget} (run : Touches k s t) (h : Calm s.sockets[k])
    (e : t.sockets[k] = { s.sockets[k] with exit := x }) : Works s (placeReady k t) := by
  unfold placeReady
  split
  case h_4 =>
    split
    · refine touches_works ((run.tail (.socket _ t)).tail (.socket _ (issue k .blanking t))) (updSocket_same _ _ _)
        fun ok => ?_
      rw [show (issue k .blanking t).sockets[k] = _ from updSocket_same _ _ _, e]
      exact ok.calm h _ _ x _ (by simp) (by simp)
    · exact place_after run h e _ _ (by simp) (by simp)
  all_goals exact place_after run h e _ _ (by simp) (by simp)

theorem placeReady_works (k : Fin 8) (s : State) (h : Calm s.sockets[k]) : Works s (placeReady k s) :=
  placeReady_after .refl h rfl

theorem takeTarget_works (k : Fin 8) (x : ExitTarget) (s : State) (h : Calm s.sockets[k]) : Works s (takeTarget k x s) := by
  have run : Touches k s (updSocket k (fun sk => { sk with exit := none }) s) := .single (.socket _ s)
  unfold takeTarget
  cases x
  · exact place_after run h (updSocket_same _ _ _) _ _ (by simp) (by simp)
  · exact placeReady_after run h (updSocket_same _ _ _)
  · exact .after (failSocket_works k _ _) (socket_works k _ s SocketOk.unbound)

theorem giveExit_works (k : Fin 8) (x : ExitTarget) (s : State) (h : Calm s.sockets[k]) : Works s (giveExit k x s) := by
  have calm : Calm (abandonCommand k s).sockets[k] := by
    rw [abandonCommand_socket]
    exact h
  unfold giveExit
  split
  · exact takeTarget_works k x s h
  · split
    · exact .after (takeTarget_works k x _ calm) (abandonCommand_works k s)
    · exact socket_works k _ s fun ok => ok.bound h _

theorem endDiscarded_works (k : Fin 8) (s : State) : Works s (endDiscarded k s) := by
  unfold endDiscarded
  extract_lets t
  split
  · rename_i x e
    refine .after (takeTarget_works k x _ (.inr (.inl ?_))) (abandonCommand_works k s)
    rw [abandonCommand_socket, e]
    rfl
  · exact abandonCommand_works k s

end Sys2Proof.Machine
end

