-- ==== Sys2Proof/Laws/Elementary.lean ====
section
/-! SUPPORT. The elementary changes that the operations make, each with what it is known to keep. Every operation of
Machine/RepairOps to Machine/Settle is a run of them; one lemma for each operation, `<operation>_does`. A predicate that
each elementary change keeps is kept by every operation (`Does.keeps`). -/
namespace Sys2Proof.Machine

/-- What the repair unit keeps over a window from `base` on. -/
def RepairOk (base : Nat) (r : Repair) : Prop :=
  ascending (r.needs.map (·.seg)) ∧ ascending r.exhausted ∧
    (∀ e ∈ r.needs, base ≤ e.seg ∧ e.seg < base + Config.windowSlots) ∧
    (∀ g ∈ r.exhausted, base ≤ g ∧ g < base + Config.windowSlots) ∧ r.answers.length ≤ Config.answerSize

/-- What the recall unit keeps. -/
def RecallOk (r : Recall) : Prop :=
  r.heard.length ≤ Config.recallQueueSize ∧ ascending r.heard ∧ r.queue.length ≤ Config.recallQueueSize ∧
    ascending r.queue

/-- What the job record keeps of the former state (R42, R58): it is held exactly while ORPHANED, and is ENROLLING, COPYING
or CLOSING. -/
def FormerRule (j : Job) : Prop :=
  (j.st = .orphaned ↔ j.former.isSome) ∧ ∀ g, j.former = some g → g = .enrolling ∨ g = .copying ∨ g = .closing

/-- One elementary change that stores nothing in the DRAM. -/
inductive Elem : State → State → Prop
  /-- Work on a slot, a socket or the pacing unit. -/
  | work (s t : State) (h : Work s t) : Elem s t
  /-- Next, read mark and highest new index move. -/
  | marks (f : Window → Window) (s : State) (h : ∀ w, (f w).slots = w.slots ∧ (f w).recalls = w.recalls ∧
      (f w).base = w.base ∧ (f w).checkTable = w.checkTable) : Elem s (updWin f s)
  /-- The base rises, and the repair unit drops what it passes. -/
  | rise (b : Nat) (s : State) (h : s.win.base ≤ b) :
      Elem s (passRepair b (updWin (fun w => { w with base := b }) s))
  /-- The window is torn down, outside a job and after the repair unit. -/
  | windowEnd (s : State) (hr : s.repair = Repair.empty) (hj : s.job.st.working = false) :
      Elem s (updWin Window.jobEnded s)
  /-- The job record changes; an IDLE station stays IDLE, a station in a job stays in it, and one outside stays out. -/
  | job (f : Job → Job) (s : State) (hi : s.job.st = .idle → (f s.job).st = .idle)
      (hw : (f s.job).st.working = s.job.st.working) (hf : FormerRule s.job → FormerRule (f s.job)) : Elem s (updJob f s)
  /-- A job ends, and the pacing unit with it. -/
  | jobEnd (f : Job → Job) (s : State) (hi : s.job.st = .idle → (f s.job).st = .idle)
      (hw : (f s.job).st.working = false) (hf : (f s.job).former = none) :
      Elem s (updPacing (fun _ => Pacing.reset) (updJob f s))
  /-- The port changes but for its counts, its receiver, the line and the hand-offs; a FREE transmitter stays FREE. -/
  | port (f : Port → Port) (s : State) (hb : (f s.port).badFrames = s.port.badFrames)
      (hg : (f s.port).giveUps = s.port.giveUps) (hr : (f s.port).rxWait = s.port.rxWait)
      (hl : (f s.port).holdLevel = s.port.holdLevel) (hh : (f s.port).handoffs = s.port.handoffs)
      (ht : s.port.tx = .free → (f s.port).tx = .free) : Elem s (updPort f s)
  | repair (f : Repair → Repair) (s : State) (h : RepairOk s.win.base s.repair → RepairOk s.win.base (f s.repair)) :
      Elem s (updRepair f s)
  | rv (f : Recall → Recall) (s : State) (h : RecallOk s.rv → RecallOk (f s.rv)) : Elem s (updRv f s)
  | draw (s : State) : Elem s (nextDraw s)

/-- A run of elementary changes. -/
abbrev Does : State → State → Prop := Relation.ReflTransGen Elem

namespace Does

theorem one {s t : State} (h : Elem s t) : Does s t := .single h
theorem none (s : State) : Does s s := .refl
theorem andThen {s t u : State} (h : Does s t) (g : Does t u) : Does s u := h.trans g

/-- The last run of a composition first. -/
theorem after {s t u : State} (g : Does t u) (h : Does s t) : Does s u := h.trans g

/-- A predicate that each elementary change keeps is kept. -/
theorem keeps {P : State → Prop} (h : ∀ {s t}, Elem s t → P s → P t) {s t : State} (d : Does s t) (hs : P s) : P t := by
  induction d with
  | refl => exact hs
  | tail _ e ih => exact h e ih

/-- A walk whose steps are runs is a run. -/
theorem each {α : Type} (l : List α) (f : α → State → State) (h : ∀ a s, Does s (f a s)) (s : State) :
    Does s (forEach l f s) :=
  forEach_keeps none andThen l f h s

theorem sockets (f : Fin 8 → State → State) (h : ∀ k s, Does s (f k s)) (s : State) : Does s (forSockets f s) :=
  each _ f h s

theorem whenever (c : Bool) (f : State → State) (s : State) (h : c = true → Does s (f s)) : Does s (doIf c f s) := by
  cases c
  · exact none s
  · exact h rfl

theorem when (c : Bool) (f : State → State) (s : State) (h : Does s (f s)) : Does s (doIf c f s) := by
  cases c
  · exact none s
  · exact h

end Does

/-- One elementary change, or a store into the DRAM. -/
inductive Change : State → State → Prop
  | elem (s t : State) (h : Elem s t) : Change s t
  /-- Bytes inside the segment are stored into a slot's buffer. -/
  | buffer (id : SlotId) (f : Slot → Slot) (s : State) (a : Nat) (bytes : List Byte)
      (fits : a + bytes.length ≤ Config.segmentBytes) (h : (f (s.slot id)).buf = (s.slot id).buf.store a bytes) :
      Change s (updSlot id f s)
  /-- Single bytes of a buffer change. -/
  | upset (id : SlotId) (changes : List (Nat × Byte)) (s : State) (h : ∀ u ∈ changes, u.1 < Config.segmentBytes) :
      Change s (updSlot id (fun sl => { sl with buf := sl.buf.patchBytes changes }) s)
  /-- An entry of the check table is written. -/
  | table (seg : Nat) (v : Word32) (s : State) :
      Change s (updWin (fun w => { w with checkTable := Sparse.write w.checkTable seg v }) s)

/-- A run of changes that may store into the DRAM. -/
abbrev Stores : State → State → Prop := Relation.ReflTransGen Change

namespace Stores

theorem none (s : State) : Stores s s := .refl
theorem andThen {s t u : State} (h : Stores s t) (g : Stores t u) : Stores s u := h.trans g
theorem after {s t u : State} (g : Stores t u) (h : Stores s t) : Stores s u := h.trans g

/-- A predicate that each change keeps is kept. -/
theorem keeps {P : State → Prop} (h : ∀ {s t}, Change s t → P s → P t) {s t : State} (d : Stores s t) (hs : P s) : P t := by
  induction d with
  | refl => exact hs
  | tail _ e ih => exact h e ih

end Stores

/-- A run that stores nothing. -/
theorem Does.stores {s t : State} (h : Does s t) : Stores s t := by
  induction h with
  | refl => exact .refl
  | tail _ e ih => exact ih.tail (.elem _ _ e)

/-- Work on sockets and slots is a run. -/
theorem Works.does {s t : State} (h : Works s t) : Does s t := by
  induction h with
  | refl => exact .none s
  | tail _ w ih => exact ih.andThen (.one (.work _ _ w))

theorem slot_does (id : SlotId) (f : Slot → Slot) (s : State) (h : (f (s.slot id)).buf = (s.slot id).buf) :
    Does s (updSlot id f s) :=
  (slot_works id f s h).does

theorem socket_does (k : Fin 8) (f : Socket → Socket) (s : State)
    (h : SocketOk s.patches s.sockets[k] → SocketOk s.patches (f s.sockets[k])) : Does s (updSocket k f s) :=
  (socket_works k f s h).does

theorem judge_does (s : State) : Does s (judgeHold s) := .one (.work _ _ (.judge s))

theorem failSocket_does (k : Fin 8) (r : Reason) (s : State) : Does s (failSocket k r s) := (failSocket_works k r s).does

theorem offer_does (id : SlotId) (seg : Nat) (s : State) : Does s (offer id seg s) := (offer_works id seg s).does

/-- A change of the job record that leaves state and former state alone. -/
theorem record_does (f : Job → Job) (s : State) (hs : (f s.job).st = s.job.st) (hf : (f s.job).former = s.job.former) :
    Does s (updJob f s) :=
  .one (.job f s (fun h => hs.trans h) (by rw [hs]) fun h => by rw [FormerRule, hs, hf]; exact h)

/-! ### The repair unit -/

theorem updNeed_does (seg : Nat) (f : NeedEntry → NeedEntry) (s : State) (h : ∀ e, (f e).seg = e.seg) :
    Does s (updNeed seg f s) := by
  have hm : ∀ e : NeedEntry, (if e.seg = seg then f e else e).seg = e.seg := fun e => by split <;> simp [h]
  refine .one (.repair _ s fun ok => ⟨?_, ok.2.1, ?_, ok.2.2.2⟩)
  · simpa [List.map_map, Function.comp_def, hm] using ok.1
  · intro e he
    obtain ⟨x, hx, rfl⟩ := List.mem_map.1 he
    rw [hm]
    exact ok.2.2.1 x hx

theorem insertNeed_mem {e x : NeedEntry} {l : List NeedEntry} (h : x ∈ insertNeed e l) : x = e ∨ x ∈ l := by
  induction l with
  | nil => simpa [insertNeed] using h
  | cons y ys ih =>
    unfold insertNeed at h
    split at h
    · simpa using h
    · split at h
      · exact .inr h
      · rcases List.mem_cons.1 h with h | h
        · exact .inr (h ▸ List.mem_cons_self)
        · exact (ih h).imp_right (List.mem_cons_of_mem _)

theorem insertNeed_ascending (e : NeedEntry) (l : List NeedEntry) (h : ascending (l.map (·.seg))) :
    ascending ((insertNeed e l).map (·.seg)) := by
  induction l with
  | nil => simp [insertNeed, ascending]
  | cons y ys ih =>
    have hy := List.pairwise_cons.1 h
    unfold insertNeed
    split
    · rename_i hlt
      refine List.pairwise_cons.2 ⟨?_, h⟩
      intro a ha
      rcases List.mem_cons.1 ha with ha | ha
      · exact ha ▸ hlt
      · exact Nat.lt_trans hlt (hy.1 a ha)
    · split
      · exact h
      · rename_i h1 h2
        refine List.pairwise_cons.2 ⟨?_, ih hy.2⟩
        intro a ha
        obtain ⟨x, hx, rfl⟩ := List.mem_map.1 ha
        rcases insertNeed_mem hx with rfl | hx
        · exact Nat.lt_of_le_of_ne (Nat.le_of_not_lt h1) (Ne.symm h2)
        · exact hy.1 _ (List.mem_map_of_mem hx)

/-- A change of the port that leaves its outer part alone and frees no one's transmitter. -/
theorem port_does (f : Port → Port) (s : State) (hb : (f s.port).badFrames = s.port.badFrames)
    (hg : (f s.port).giveUps = s.port.giveUps) (hr : (f s.port).rxWait = s.port.rxWait)
    (hl : (f s.port).holdLevel = s.port.holdLevel) (hh : (f s.port).handoffs = s.port.handoffs)
    (ht : (f s.port).tx = s.port.tx) : Does s (updPort f s) :=
  .one (.port f s hb hg hr hl hh fun h => ht.trans h)

/-- Keep the needs, the answers and the exhausted segments that pass tests. -/
theorem repairFilter_ok {b : Nat} {r : Repair} (tn : NeedEntry → Bool) (tg : Nat → Bool) (ta : AnswerEntry → Bool)
    (ok : RepairOk b r) :
    RepairOk b { needs := r.needs.filter tn, exhausted := r.exhausted.filter tg, answers := r.answers.filter ta } :=
  ⟨ok.1.sublist (List.filter_sublist.map _), ok.2.1.sublist List.filter_sublist,
    fun e he => ok.2.2.1 e (List.mem_of_mem_filter he), fun g hg => ok.2.2.2.1 g (List.mem_of_mem_filter hg),
    Nat.le_trans (List.length_filter_le _ _) ok.2.2.2.2⟩

theorem keepNeeds_does (t : Nat → Bool) (s : State) : Does s (keepNeeds t s) :=
  .after (reportNeeds_works _).does (.after (port_does _ _ rfl rfl rfl rfl rfl rfl)
    (.one (.repair _ s fun ok => ⟨ok.1.sublist (List.filter_sublist.map _), ok.2.1,
      fun e he => ok.2.2.1 e (List.mem_of_mem_filter he), ok.2.2.2⟩)))

theorem dropNeed_does (seg : Nat) (s : State) : Does s (dropNeed seg s) := keepNeeds_does _ s

theorem rewait_does (seg : Nat) (m : Byte) (s : State) : Does s (rewait seg m s) :=
  .after (.one (.draw _)) (updNeed_does seg _ s fun _ => rfl)

theorem gapReport_does (seg : Nat) (m : Byte) (s : State) : Does s (gapReport seg m s) := by
  unfold gapReport
  split
  · rename_i h
    split
    · refine .after (reportNeeds_works _).does (.after (.one (.draw _)) (.one (.repair _ s fun ok => ?_)))
      refine ⟨insertNeed_ascending _ _ ok.1, ok.2.1, ?_, ok.2.2.2⟩
      intro e he
      rcases insertNeed_mem he with rfl | he
      · exact h.2.2.2
      · exact ok.2.2.1 e he
    · split
      · exact updNeed_does seg _ s fun _ => rfl
      · exact updNeed_does seg _ s fun _ => rfl
      · split
        · exact .none s
        · exact rewait_does seg _ s
  · exact .none s

theorem damageReport_does (seg : Nat) (s : State) : Does s (damageReport seg s) := by
  unfold damageReport
  split
  · exact .when _ _ s (updNeed_does seg _ s fun _ => rfl)
  · exact gapReport_does seg _ s

theorem parcelPlaced_does (seg : Nat) (p : Fin 8) (s : State) : Does s (parcelPlaced seg p s) := by
  unfold parcelPlaced
  repeat' split
  · exact dropNeed_does seg s
  · exact updNeed_does seg _ s fun _ => rfl
  · exact .none s

theorem exhaustedFilter_does (t : Nat → Bool) (s : State) :
    Does s (updRepair (fun r => { r with exhausted := r.exhausted.filter t }) s) :=
  .one (.repair _ s fun ok => ⟨ok.1, ok.2.1.sublist List.filter_sublist, ok.2.2.1,
    fun g hg => ok.2.2.2.1 g (List.mem_of_mem_filter hg), ok.2.2.2.2⟩)

theorem segmentWhole_does (seg : Nat) (s : State) : Does s (segmentWhole seg s) :=
  .after (dropNeed_does seg _) (exhaustedFilter_does _ s)

theorem keepAnswers_does (t : Nat → Bool) (s : State) : Does s (keepAnswers t s) :=
  .after (port_does _ _ rfl rfl rfl rfl rfl rfl) (.one (.repair _ s fun ok =>
    ⟨ok.1, ok.2.1, ok.2.2.1, ok.2.2.2.1, Nat.le_trans (List.length_filter_le _ _) ok.2.2.2.2⟩))

theorem dropAnswer_does (seg : Nat) (s : State) : Does s (dropAnswer seg s) := keepAnswers_does _ s

theorem oweLacking_works (seg : Nat) (o : Origin) (s : State) : Works s (oweLacking seg o s) :=
  .sockets _ (fun k t => .whenever _ _ t fun h => addOwed_works k seg o 0 t fun e => by rw [e] at h; cases h) s

theorem oweLacking_does (seg : Nat) (o : Origin) (s : State) : Does s (oweLacking seg o s) := (oweLacking_works seg o s).does

/-- A pending need's segment lies in the window, where the repair unit keeps what it keeps. -/
theorem need_mem {s : State} {seg : Nat} {e : NeedEntry} (h : s.need seg = some e) : e ∈ s.repair.needs ∧ e.seg = seg :=
  ⟨List.mem_of_find?_eq_some h, by simpa using List.find?_some h⟩

theorem exhaustNeed_does (seg : Nat) (s : State) (hn : (s.need seg).isSome) : Does s (exhaustNeed seg s) := by
  obtain ⟨e, he⟩ := Option.isSome_iff_exists.1 hn
  obtain ⟨hm, hs⟩ := need_mem he
  refine .after (.when _ _ _ (revokeSlot_works _ _).does) (.after (oweLacking_does seg _ _) (.after (dropNeed_does seg _) ?_))
  refine .one (.repair _ s fun ok => ⟨ok.1, insertSeg_ascending _ _ ok.2.1, ok.2.2.1, ?_, ok.2.2.2.2⟩)
  intro g hg
  rcases insertSeg_mem hg with rfl | hg
  · exact hs ▸ ok.2.2.1 e hm
  · exact ok.2.2.2.1 g hg

theorem updAnswer_does (seg : Nat) (f : AnswerEntry → AnswerEntry) (s : State) : Does s (updAnswer seg f s) :=
  .one (.repair _ s fun ok => ⟨ok.1, ok.2.1, ok.2.2.1, ok.2.2.2.1, by simpa using ok.2.2.2.2⟩)

theorem startSending_does (seg : Nat) (s : State) : Does s (startSending seg s) :=
  .after (port_does _ _ rfl rfl rfl rfl rfl rfl) (updAnswer_does seg _ s)

theorem answerNeed_does (seg : Nat) (m : Byte) (s : State) : Does s (answerNeed seg m s) := by
  have add (e : AnswerEntry) (h : s.repair.answers.length < Config.answerSize) :
      Does s (updRepair (fun r => { r with answers := r.answers ++ [e] }) s) :=
    .one (.repair _ s fun ok => ⟨ok.1, ok.2.1, ok.2.2.1, ok.2.2.2.1, by simpa using h⟩)
  unfold answerNeed
  split
  · split
    · exact updAnswer_does seg _ s
    · split
      · exact .none s
      · rename_i h
        have h := Nat.lt_of_not_le h
        extract_lets e
        split
        · exact .after (startSending_does seg _) (add e h)
        · exact .after (.one (.draw _)) (add _ h)
  · exact .none s

theorem coverNeed_does (seg : Nat) (m : Byte) (s : State) : Does s (coverNeed seg m s) := by
  unfold coverNeed
  repeat' split
  · exact updNeed_does seg _ s fun _ => rfl
  · exact .after (port_does _ _ rfl rfl rfl rfl rfl rfl) (updNeed_does seg _ s fun _ => rfl)
  · exact .none s
  · exact updNeed_does seg _ s fun _ => rfl
  · exact updNeed_does seg _ s fun _ => rfl
  · exact .none s
  · exact .none s

/-! ### The window -/

/-- The PREPARING sockets are bound for WAITING (R49, R143). -/
theorem closeSockets_works (s : State) :
    Works s (forSockets (fun k t => doIf (t.sockets[k].st == .preparing) (giveExit k .waiting) t) s) :=
  .sockets _ (fun k t => .whenever _ _ t fun h => giveExit_works k _ t (calm_in (eq_of_beq h) (by decide))) s

theorem closeEnrollment_does (s : State) : Does s (closeEnrollment s) := by
  unfold closeEnrollment
  extract_lets c
  split
  · rename_i h
    refine .after (closeSockets_works _).does (.one (.job _ s (fun hi => by simp [h] at hi) (by rw [h]; rfl) fun f => ?_))
    have : s.job.former = none := by simpa [h] using f.1
    exact ⟨by simp [this], by simp [this]⟩
  · split
    · rename_i h
      exact .after (closeSockets_works _).does (.one (.job _ s (fun h => h) rfl fun _ => ⟨by simp [h.1], by simp⟩))
    · exact .none s

theorem passSlot_works (b : Nat) (i : Fin 16) (s : State) : Works s (passSlot b i s) := by
  unfold passSlot
  extract_lets sl
  repeat' split
  · exact slot_works _ _ s (by split <;> rfl)
  · exact slot_works _ _ s rfl
  · exact takeBack_works _ s
  all_goals exact .none s

theorem passSlot_does (b : Nat) (i : Fin 16) (s : State) : Does s (passSlot b i s) := (passSlot_works b i s).does

theorem closeJob_does (s : State) : Does s (closeJob s) := by
  unfold closeJob
  split
  · rename_i h
    refine .one (.job _ s (fun hi => by simp [h] at hi) (by rw [h]; rfl) fun f => ?_)
    have : s.job.former = none := by simpa [h] using f.1
    exact ⟨by simp [this], by simp [this]⟩
  · split
    · rename_i h
      exact .one (.job _ s (fun h => h) rfl fun _ => ⟨by simp [h.1], by simp⟩)
    · exact .none s

theorem baseReached_does (s : State) : Does s (baseReached s) :=
  .after (Works.sockets _ moveOn_works _).does (closeJob_does s)

/-- The passing of segments works on slots and sockets only, once the base has risen and the repair unit knows. -/
theorem passBase_works (b : Nat) (s : State) :
    Works (passRepair b (updWin (fun w => { w with base := b }) s)) (passBase b s) :=
  .after (.each _ _ (fun seg t => oweLacking_works seg _ t) _) (.each _ _ (fun i t => passSlot_works b i t) _)

theorem baseRise_does (b : Nat) (s : State) (h : s.win.base ≤ b) : Does s (baseRise b s) :=
  .after (.when _ _ _ (baseReached_does _)) (.after (passBase_works b s).does (.one (.rise b s h)))

/-- The report of a base of N touches neither base nor send mark. -/
theorem baseReached_marks (s : State) :
    (baseReached s).win.base = s.win.base ∧ (baseReached s).sendMark = s.sendMark := by
  have w : Works (closeJob s) (baseReached s) := .sockets _ moveOn_works _
  have c : (closeJob s).win = s.win ∧ (closeJob s).port = s.port := by
    unfold closeJob
    repeat' split
    all_goals exact ⟨rfl, rfl⟩
  unfold State.sendMark
  rw [w.apart.base, w.apart.next, w.apart.port, c.1, c.2]
  exact ⟨rfl, rfl⟩

/-- A rise takes the base to its target and moves no send mark. -/
theorem baseRise_marks (b : Nat) (s : State) :
    (baseRise b s).win.base = b ∧ (baseRise b s).sendMark = s.sendMark := by
  have p : (passBase b s).win.base = b ∧ (passBase b s).sendMark = s.sendMark := by
    have a := (passBase_works b s).apart
    unfold State.sendMark
    rw [a.base, a.next, a.port]
    exact ⟨rfl, rfl⟩
  have r := baseReached_marks (passBase b s)
  unfold baseRise
  cases b == s.imageSize
  · exact p
  · exact ⟨r.1.trans p.1, r.2.trans p.2⟩

/-- Closing enrollment changes the job record, and then works on sockets only. -/
theorem closeEnrollment_works (s : State) : ∃ f : Job → Job, Works (updJob f s) (closeEnrollment s) := by
  unfold closeEnrollment
  extract_lets c
  repeat' split
  · exact ⟨_, closeSockets_works _⟩
  · exact ⟨_, closeSockets_works _⟩
  · exact ⟨id, .none s⟩

/-- Closing enrollment leaves the base alone. -/
theorem closeEnrollment_base (s : State) : (closeEnrollment s).win.base = s.win.base := by
  obtain ⟨f, h⟩ := closeEnrollment_works s
  rw [h.apart.base, updJob_win]

theorem adoptBase_does (b : Nat) (s : State) : Does s (adoptBase b s) := by
  unfold adoptBase
  split
  · rename_i h
    exact .after (baseRise_does b _ (by rw [closeEnrollment_base]; exact Nat.le_of_lt h.2.1)) (closeEnrollment_does s)
  · exact .none s

theorem judgeBase_does (s : State) : Does s (judgeBase s) := by
  unfold judgeBase
  split
  · rename_i h
    exact baseRise_does _ s (Nat.le_of_lt h.2.2)
  · exact .none s

/-- No candidate passes the send mark (R65). -/
theorem candidateBase_le (s : State) : s.candidateBase ≤ s.sendMark := Nat.min_le_right _ _

/-- Where the source takes its candidate, that is its base, and the send mark stays. -/
theorem judgeBase_rises {s : State} (h : s.job.source ∧ s.job.st.sourced ∧ s.win.base < s.candidateBase) :
    (judgeBase s).win.base = s.candidateBase ∧ (judgeBase s).sendMark = s.sendMark := by
  unfold judgeBase
  rw [if_pos h]
  exact baseRise_marks _ s

theorem judgeBases_does (n : Nat) (s : State) : Does s (judgeBases n s) := by
  induction n generalizing s with
  | zero => exact .none s
  | succ n ih =>
    unfold judgeBases
    split
    · exact .after (ih _) (judgeBase_does s)
    · exact .none s

theorem settleBase_does (s : State) : Does s (settleBase s) := judgeBases_does _ s

/-- Where no candidate is larger, no base rises. -/
theorem judgeBases_same {s : State} (h : ¬ (s.job.source ∧ s.job.st.sourced ∧ s.win.base < s.candidateBase)) (n : Nat) :
    judgeBases n s = s := by
  cases n
  · rfl
  · exact if_neg h

theorem settleBase_same {s : State} (h : ¬ (s.job.source ∧ s.job.st.sourced ∧ s.win.base < s.candidateBase)) :
    settleBase s = s :=
  judgeBases_same h _

/-- As many judgements as lie between base and send mark are enough: more of them change nothing. -/
theorem judgeBases_enough {n : Nat} {s : State} (h : s.sendMark - s.win.base ≤ n) : judgeBases n s = settleBase s := by
  induction n using Nat.strongRecOn generalizing s with
  | _ n ih =>
    by_cases g : s.job.source ∧ s.job.st.sourced ∧ s.win.base < s.candidateBase
    · have c := candidateBase_le s
      obtain ⟨b, m⟩ := judgeBase_rises g
      obtain ⟨n, rfl⟩ : ∃ k, n = k + 1 := ⟨n - 1, by omega⟩
      obtain ⟨k, hk⟩ : ∃ k, s.sendMark - s.win.base = k + 1 := ⟨s.sendMark - s.win.base - 1, by omega⟩
      unfold settleBase
      rw [hk]
      unfold judgeBases
      rw [if_pos g, if_pos g, ih n (Nat.lt_succ_self n) (by omega)]
      by_cases e : k = n
      · rw [e, ih n (Nat.lt_succ_self n) (by omega)]
      · rw [ih k (by omega) (by omega)]
    · rw [judgeBases_same g, settleBase_same g]

/-- A rise is followed by the judgement of the state it leaves. -/
theorem settleBase_again (s : State) : settleBase s = settleBase (judgeBase s) := by
  by_cases g : s.job.source ∧ s.job.st.sourced ∧ s.win.base < s.candidateBase
  · have c := candidateBase_le s
    obtain ⟨b, m⟩ := judgeBase_rises g
    obtain ⟨k, hk⟩ : ∃ k, s.sendMark - s.win.base = k + 1 := ⟨s.sendMark - s.win.base - 1, by omega⟩
    have e : settleBase s = judgeBases k (judgeBase s) := by
      unfold settleBase
      rw [hk]
      exact if_pos g
    rw [e]
    exact judgeBases_enough (by omega)
  · unfold judgeBase
    rw [if_neg g]

/-- At the end no candidate is larger than the base. -/
theorem settleBase_done (s : State) :
    ¬ ((settleBase s).job.source ∧ (settleBase s).job.st.sourced ∧
      (settleBase s).win.base < (settleBase s).candidateBase) := by
  induction n : s.sendMark - s.win.base using Nat.strongRecOn generalizing s with
  | _ n ih =>
    by_cases g : s.job.source ∧ s.job.st.sourced ∧ s.win.base < s.candidateBase
    · have c := candidateBase_le s
      obtain ⟨b, m⟩ := judgeBase_rises g
      rw [settleBase_again]
      exact ih _ (by omega) _ rfl
    · rw [settleBase_same g]
      exact g

/-- A parcel's bytes go into the buffer at the parcel's place. -/
theorem parcel_fits (p : Fin 8) (l : List Byte) :
    p.val * Config.parcelBytes + (payloadData l).length ≤ Config.segmentBytes := by
  have h : (payloadData l).length = Config.parcelBytes := by
    simp only [payloadData, exactBytes, List.length_append, List.length_take, List.length_replicate]
    omega
  rw [h]
  have := p.isLt
  simp only [Config.parcelBytes, Config.segmentBytes]
  omega

theorem takeSlot_stores (id : SlotId) (seg : Nat) (b : ParcelBody) (span : Nat) (s : State) :
    Stores s (updSlot id (Slot.take seg b span) s) :=
  .single (.buffer id _ s _ _ (parcel_fits b.parcel b.payload) rfl)

theorem addParcel_stores (id : SlotId) (b : ParcelBody) (g : Timer → Timer) (s : State) :
    Stores s (updSlot id (fun sl => { sl.addParcel b with timer := g sl.timer }) s) :=
  .single (.buffer id _ s _ _ (parcel_fits b.parcel b.payload) rfl)

theorem placeParcel_stores (seg : Nat) (b : ParcelBody) (s : State) : Stores s (placeParcel seg b s).2 := by
  have fresh (t : State) (h : Stores s t) : Stores s (if (t.slot (.win (winOf seg))).usable then
      (Placing.placed, updSlot (.win (winOf seg)) (Slot.take seg b Config.gapSpan) t) else (Placing.discarded, t)).2 := by
    split
    · have g := takeSlot_stores (.win (winOf seg)) seg b Config.gapSpan t
      exact h.andThen g
    · exact h
  unfold placeParcel
  extract_lets id sl fr fu
  have hu : Stores s fu.2 := by
    simp only [fu]
    split
    · exact .none s
    · exact addParcel_stores id b (fun _ => some Config.gapSpan) s
  split
  · exact .none s
  split
  · exact fresh s (.none s)
  · exact fresh _ (takeBack_works _ s).does.stores
  · split
    · exact hu
    · exact .none s
  · split
    · split
      · exact hu
      · exact .none s
    · exact .none s
  · exact .none s
  · exact .none s

theorem checkTable_stores (seg : Nat) (v : Word32) (s : State) :
    Stores s (updWin (fun w => { w with checkTable := Sparse.write w.checkTable seg v }) s) :=
  .single (.table seg v s)

theorem completeSlot_stores (seg : Nat) (s : State) : Stores s (completeSlot seg s) := by
  unfold completeSlot
  extract_lets id sl
  split
  · split
    · exact .after (Does.after (offer_does _ _ _) (segmentWhole_does _ _)).stores
        (.after (checkTable_stores _ _ _) (slot_does id _ s rfl).stores)
    · exact (Does.after (damageReport_does _ _) (slot_does id _ s rfl)).stores
  · exact .none s

theorem takeParcel_stores (seg : Nat) (b : ParcelBody) (s : State) : Stores s (takeParcel seg b s).2 := by
  have h := placeParcel_stores seg b s
  unfold takeParcel
  split
  all_goals rename_i e; rw [e] at h
  · exact .after (completeSlot_stores _ _) (.after (parcelPlaced_does _ _ _).stores h)
  · exact h
  · exact h

theorem gapReports_does (seg : Nat) (p : Fin 8) (out : Placing) (s : State) : Does s (gapReports seg p out s) :=
  .after (.each _ _ (fun t u => gapReport_does t _ u) _) (gapReport_does seg _ s)

theorem completeRecall_stores (r : Fin 2) (seg : Nat) (s : State) : Stores s (completeRecall r seg s) := by
  unfold completeRecall
  extract_lets id sl
  split
  · split
    · exact .after (offer_does _ _ _).stores (.after (checkTable_stores _ _ _) (slot_does id _ s rfl).stores)
    · exact (slot_does id _ s rfl).stores
  · exact .none s

theorem placeRecall_stores (seg : Nat) (b : ParcelBody) (s : State) : Stores s (placeRecall seg b s) := by
  unfold placeRecall
  split
  · exact (offer_does _ _ s).stores
  · split
    · extract_lets sl
      split
      · exact .after (completeRecall_stores _ _ _) (addParcel_stores _ b id s)
      · exact .none s
    · split
      · split
        · exact takeSlot_stores _ seg b _ s
        · exact .none s
      · exact .none s

theorem dropRecallParcels_does (r : Fin 2) (s : State) : Does s (dropRecallParcels r s) := by
  unfold dropRecallParcels
  extract_lets t
  refine .after (.one (.port _ t rfl rfl rfl rfl rfl fun h => ?_)) (slot_does _ _ s rfl)
  simp only [h]

theorem corruption_does (id : SlotId) (seg : Nat) (s : State) : Does s (corruption id seg s) := by
  unfold corruption
  extract_lets sl
  split
  · split
    · split
      · exact .after (damageReport_does _ _) (.after (dropAnswer_does _ _) (slot_does _ _ s rfl))
      · exact (takeBack_works _ s).does
      all_goals exact .none s
    · split
      · exact .after (takeBack_works _ _).does (dropRecallParcels_does _ s)
      all_goals exact .none s
  · exact .none s

theorem gapReport_sockets (seg : Nat) (m : Byte) (s : State) : (gapReport seg m s).sockets = s.sockets := by
  unfold gapReport
  repeat' split
  all_goals rfl

theorem damageReport_sockets (seg : Nat) (s : State) : (damageReport seg s).sockets = s.sockets := by
  unfold damageReport
  split
  · unfold doIf
    split <;> rfl
  · exact gapReport_sockets _ _ s

theorem corruption_kept (id : SlotId) (seg : Nat) (s : State) (k : Fin 8) :
    Kept s.sockets[k] (corruption id seg s).sockets[k] := by
  unfold corruption
  extract_lets sl
  split
  · split
    · split
      · simp only [damageReport_sockets, dropAnswer, keepAnswers, updPort_sockets, updRepair_sockets, updSlot_sockets]
        exact .refl _
      · exact takeBack_kept _ s k
      all_goals exact .refl _
    · rename_i r _
      split
      · have e : (dropRecallParcels r s).sockets[k] = s.sockets[k] := by
          simp only [dropRecallParcels, updPort_sockets, updSlot_sockets]
        have h := takeBack_kept (.rslot r) (dropRecallParcels r s) k
        rw [e] at h
        exact h
      all_goals exact .refl _
  · exact .refl _

/-- A read's bytes fill a buffer. -/
theorem read_fits (l : List Byte) : 0 + (readData l).length ≤ Config.segmentBytes := by
  simp only [readData, exactBytes, List.length_append, List.length_take, List.length_replicate]
  omega

theorem masterReadGood_stores (seg : Nat) (dst : SlotId) (l : List Byte) (s : State) :
    Stores s (masterReadGood seg dst (readData l) s) := by
  unfold masterReadGood
  extract_lets sl u v
  have hv : Stores s v := .after (checkTable_stores _ _ _) (.single (.buffer dst _ s 0 _ (read_fits l) rfl))
  split
  · split
    · exact hv
    · exact .after (Does.after (offer_does _ _ _) (.after (port_does _ _ rfl rfl rfl rfl rfl rfl) (slot_does _ _ _ rfl))).stores
        hv
  · exact (endMasterRead_works dst s).does.stores

end Sys2Proof.Machine
end

