-- ==== Sys2Proof/Laws/Runs.lean ====
section
/-! SUPPORT. The operations of the job controller, the engines, recall and the end of a step, as runs of elementary
changes: `<operation>_does`. Adoption and MUTE are runs around one change that is not elementary. -/
namespace Sys2Proof.Machine
open Sys2Proof.Safety

/-! ### The end of a job -/

theorem Transmitter.jobEnded_free {t : Transmitter} (h : t = .free) : t.jobEnded = .free := by rw [h]; rfl

theorem endPort_does (s : State) : Does s (updPort Port.jobEnded s) :=
  .one (.port _ s rfl rfl rfl rfl rfl Transmitter.jobEnded_free)

theorem recallReset_ok : RecallOk Recall.reset := ⟨Nat.zero_le _, .nil, Nat.zero_le _, .nil⟩

theorem repairEmpty_ok (b : Nat) : RepairOk b Repair.empty :=
  ⟨.nil, .nil, fun _ h => absurd h List.not_mem_nil, fun _ h => absurd h List.not_mem_nil, Nat.zero_le _⟩

theorem emptyRepair_does (s : State) : Does s (updRepair (fun _ => Repair.empty) s) :=
  .one (.repair _ s fun _ => repairEmpty_ok _)

theorem resetRv_does (s : State) : Does s (updRv (fun _ => Recall.reset) s) := .one (.rv _ s fun _ => recallReset_ok)

theorem jobEnded_works (k : Fin 8) (s : State) : Works s (updSocket k Socket.jobEnded s) :=
  socket_works k Socket.jobEnded s fun ok =>
    SocketOk.quiet (b := s.sockets[k].jobEnded) ok.cleared rfl rfl rfl rfl rfl rfl rfl rfl

/-- The teardown: the job record and the pacing unit, work on the sockets and slots, then each block is emptied. -/
theorem teardown_eq (f : Job → Job) (s : State) : ∃ u, Works (updPacing (fun _ => Pacing.reset) (updJob f s)) u ∧
    teardown f s = updPort Port.jobEnded (updRv (fun _ => Recall.reset) (updWin Window.jobEnded
      (updRepair (fun _ => Repair.empty) u))) :=
  ⟨forSockets (fun k => updSocket k Socket.jobEnded)
      (forSockets emptyRing (updPacing (fun _ => Pacing.reset) (updJob f s))),
    .after (.sockets _ jobEnded_works _)
      (.sockets _ (fun k t => emptyRing_works k t) _), rfl⟩

theorem teardown_job (f : Job → Job) (s : State) : (teardown f s).job = f s.job := by
  obtain ⟨u, hu, e⟩ := teardown_eq f s
  rw [e]
  simp only [updPort_job, updRv_job, updWin_job, updRepair_job]
  exact hu.apart.job

/-- A teardown leaves every recheck list empty (R188). -/
theorem teardown_recheck (f : Job → Job) (s : State) (k : Fin 8) : (teardown f s).sockets[k].recheck = [] :=
  (forSockets_each (I := fun _ => True) (Q := fun _ sk => sk.recheck = []) (fun k => updSocket k Socket.jobEnded)
    (forSockets emptyRing (updPacing (fun _ => Pacing.reset) (updJob f s))) (fun k t => .socket k _ t)
    (fun _ _ _ => trivial) (fun k t _ _ => by rw [updSocket_same]; rfl) trivial).2 k

theorem teardown_does (f : Job → Job) (s : State) (hi : s.job.st = .idle → (f s.job).st = .idle)
    (hw : (f s.job).st.working = false) (hf : (f s.job).former = none) : Does s (teardown f s) := by
  obtain ⟨u, hu, e⟩ := teardown_eq f s
  rw [e]
  refine .after (endPort_does _) (.after (resetRv_does _) (.after (.one (.windowEnd _ rfl ?_))
    (.after (emptyRepair_does u) (.after hu.does (.one (.jobEnd f s hi hw hf))))))
  rw [updRepair_job, hu.apart.job]
  exact hw

theorem exitSockets_works (x : ExitTarget) (s : State) (h : ∀ k : Fin 8, s.sockets[k].recheck = []) :
    Works s (exitSockets x s) := by
  refine .eachSocket _ s (fun k t => ?_) (fun k t e => ?_)
  · repeat' split
    · exact giveExit_only k _ t
    · exact giveExit_only k _ t
    · exact setState_only k _ _ t
    · exact .none k t
  · have calm : Calm t.sockets[k] := .inl (by rw [e]; exact h k)
    repeat' split
    · exact giveExit_works k x t calm
    · exact giveExit_works k .ready t calm
    · exact setState_works k _ _ t calm (by simp) (by simp)
    · exact .none t

theorem endJob_does (f : Job → Job) (s : State) (hi : s.job.st = .idle → (f s.job).st = .idle)
    (hw : (f s.job).st.working = false) (hf : (f s.job).former = none) (x : ExitTarget) :
    Does s (exitSockets x (teardown f s)) :=
  .after (exitSockets_works x _ (teardown_recheck f s)).does (teardown_does f s hi hw hf)

theorem enterCancelled_does (s : State) (h : s.job.st ≠ .idle) : Does s (enterCancelled s) :=
  endJob_does _ s (fun hi => absurd hi h) rfl rfl _

theorem enterFinished_does (s : State) (h : s.job.st ≠ .idle) : Does s (enterFinished s) :=
  endJob_does _ s (fun hi => absurd hi h) rfl rfl _

theorem dropJob_does (s : State) : Does s (dropJob s) := endJob_does _ s (fun _ => rfl) rfl rfl _

theorem not_idle {st : JobState} (h : st.working = true) : st ≠ .idle := by rintro rfl; cases h

theorem sourced_working {st : JobState} (h : st.sourced = true) : st.working = true := by
  cases st <;> first | rfl | cases h

theorem startCancel_does (r : Byte) (s : State) : Does s (startCancel r s) := by
  unfold startCancel
  split
  · exact .after (port_does _ _ rfl rfl rfl rfl rfl rfl) (record_does _ s rfl rfl)
  · exact .none s

theorem masterFailure_does (r : Byte) (s : State) : Does s (masterFailure r s) := by
  unfold masterFailure
  split
  · rename_i h
    exact .after (startCancel_does r _) (enterCancelled_does s (not_idle (sourced_working h.2)))
  · exact .none s

theorem cancelRepeat_does (s : State) : Does s (cancelRepeat s) := by
  unfold cancelRepeat
  split
  · split
    · exact record_does _ s rfl rfl
    · exact .after (.when _ _ _ (port_does _ _ rfl rfl rfl rfl rfl rfl)) (record_does _ s rfl rfl)
  · exact .none s

/-! ### Watching the source -/

theorem confirm_does (s : State) : Does s (confirm s) := record_does _ s rfl rfl

theorem enterOrphaned_does (s : State) (h : s.job.st.sourced = true) : Does s (enterOrphaned s) :=
  .one (.job _ s (fun hi => absurd hi (not_idle (sourced_working h))) (sourced_working h).symm fun _ =>
    ⟨by simp, fun g e => by
      obtain rfl : s.job.st = g := by simpa using e
      revert h
      cases s.job.st <;> simp [JobState.sourced]⟩)

theorem sourced_of_working {st : JobState} (h : st.working = true) (hn : st ≠ .orphaned) : st.sourced = true := by
  cases st <;> first | exact absurd rfl hn | rfl | cases h

theorem formerState_sourced (j : Job) : j.formerState.sourced = true := by
  unfold Job.formerState
  split <;> rfl

theorem returnFromOrphan_does (s : State) (h : s.job.st = .orphaned) : Does s (returnFromOrphan s) := by
  refine .one (.job _ s (fun hi => by rw [h] at hi; cases hi)
    ((sourced_working (formerState_sourced s.job)).trans (by rw [h]; rfl)) fun _ => ⟨?_, by simp⟩)
  have := formerState_sourced s.job
  simp only [Option.isSome_none, Bool.false_eq_true, iff_false]
  intro e
  rw [e] at this
  cases this

theorem sameJobReport_does (c : BitVec 3) (s : State) (h : s.job.st.working = true) : Does s (sameJobReport c s) := by
  unfold sameJobReport
  split
  · split
    · rename_i ho
      exact returnFromOrphan_does s ho
    · exact confirm_does s
  · split
    · exact enterCancelled_does s (not_idle h)
    · split
      · split
        · exact .after (enterFinished_does _ (not_idle h)) (confirm_does s)
        · split
          · exact .none s
          · rename_i hn
            exact .after (enterOrphaned_does _ (sourced_of_working h hn)) (confirm_does s)
      · exact .none s

theorem sourceReport_does (e : RosterEntry) (s : State) (h : s.job.st.working = true) : Does s (sourceReport e s) := by
  unfold sourceReport
  split
  · split
    · split
      · exact sameJobReport_does _ s h
      · exact dropJob_does s
    · split
      · exact enterFinished_does s (not_idle h)
      · exact .none s
  · split
    · rename_i hn
      exact enterOrphaned_does s (sourced_of_working h hn.1)
    · exact .none s
  · exact .none s

theorem jobReport_does (x : Fin 32) (s : State) : Does s (jobReport x s) := by
  unfold jobReport
  split
  · rename_i h
    simp only [State.watches, Bool.and_eq_true] at h
    exact sourceReport_does _ s h.1.2
  · exact .none s

theorem windowReport_does (x : Fin 32) (s : State) : Does s (windowReport x s) := by
  unfold windowReport
  split
  · exact adoptBase_does _ s
  · exact .none s

theorem rosterReport_does (b : Bool) (x : Fin 32) (s : State) : Does s (rosterReport b x s) := by
  unfold rosterReport
  repeat' split
  · exact .none s
  · exact .after (jobReport_does x _) (windowReport_does x s)
  · exact .after (windowReport_does x _) (jobReport_does x s)

/-! ### Adoption and MUTE -/

theorem ascending_filter {l : List Nat} (t : Nat → Bool) (h : ascending l) : ascending (l.filter t) :=
  h.sublist List.filter_sublist

/-- The loss monitor at adoption. -/
def lossOf (b : JobBody) : Monitor := Monitor.adopted true b.needThreshold b.lossDuration false

/-- The job record, the loss monitor and the patch table at adoption. -/
def adoptRecord (job : Word16) (b : JobBody) (s : State) : State :=
  setPatches (patchTable b) (updPacing (fun p => { p with loss := lossOf b }) (updJob (Job.adopted job b) s))

theorem adopted_works (b : JobBody) (k : Fin 8) (s : State) : Works s (updSocket k (Socket.adopted b) s) :=
  socket_works k (Socket.adopted b) s fun ok =>
    SocketOk.dropped (b := s.sockets[k].adopted b) ok ⟨Nat.zero_le _, Nat.zero_le _, .nil, ascending_filter _ ok.ring.2.2.2⟩
      (.nil _) rfl rfl (fun _ => rfl) fun g hg => by
        rcases hg with hg | hg | ⟨_, hg, _⟩ | hg
        · exact absurd hg List.not_mem_nil
        · cases hg
        · exact absurd hg List.not_mem_nil
        · exact .inr (.inr (.inr hg))

/-- Every block takes its adoption values: the old job's exits and the sockets, then each block is emptied, with the new
record. -/
theorem adoptBlocks_eq (job : Word16) (b : JobBody) (s : State) :
    ∃ u, Works s u ∧ (∀ k : Fin 8, u.sockets[k].expect = []) ∧ adoptBlocks job b s = updPort Port.jobEnded (updRv (fun _ => Recall.reset) (adoptRecord job b
      (updWin Window.jobEnded (updRepair (fun _ => Repair.empty) u)))) := by
  refine ⟨forSockets (fun k => updSocket k (Socket.adopted b))
    (forSockets (fun k t => doIf t.sockets[k].exit.isSome (endDiscarded k) t) s), ?_, ?_, rfl⟩
  · exact .after (.sockets _ (adopted_works b) _) (.sockets _ (fun k t => .when _ _ t (endDiscarded_works k t)) s)
  · exact (forSockets_each (I := fun _ => True) (Q := fun _ sk => sk.expect = []) (fun k => updSocket k (Socket.adopted b)) _
      (fun k t => .socket k _ t) (fun _ _ _ => trivial) (fun k t _ _ => by rw [updSocket_same]; rfl) trivial).2

theorem adopted_working (job : Word16) (b : JobBody) (j : Job) : (Job.adopted job b j).st.working = true := by
  simp only [Job.adopted]
  split <;> rfl

/-- A READY socket takes the state of the job, or becomes MASTER. -/
theorem ready_calm {sk : Socket} (h : sk.st = .ready) : Calm sk := calm_in h (by decide)

/-- After the adoption of the blocks, the rest of an adoption is a run. -/
theorem adopt_rest (job : Word16) (b : JobBody) (s : State) (h : (adoptBlocks job b s).job.st ≠ .idle) :
    Does (adoptBlocks job b s) (adopt job b s) := by
  have enroll (t : State) : Does t (enrollReady t) :=
    (Works.sockets _ (fun k u => .whenever _ _ u fun e => placeReady_works k u (ready_calm (eq_of_beq e))) t).does
  unfold adopt
  extract_lets t k
  split
  · split
    · rename_i u _ g
      exact .after (enroll _) (.after (setState_works k .master .none u (ready_calm g.1) (by simp) (by simp)).does
        (record_does _ t rfl rfl))
    · exact .after (startCancel_does _ _) (enterCancelled_does t h)
  · exact .after (enroll _) (record_does _ t rfl rfl)

/-- Adoption: a run that leaves the expectation lists empty, the new record, and a run. -/
theorem adopt_runs (job : Word16) (b : JobBody) (s : State) (h : s.job.st.working = false) :
    ∃ m, Does s m ∧ m.job = s.job ∧ (∀ k : Fin 8, m.sockets[k].expect = []) ∧
      Does (adoptRecord job b m) (adopt job b s) := by
  obtain ⟨u, hu, he, e⟩ := adoptBlocks_eq job b s
  refine ⟨updWin Window.jobEnded (updRepair (fun _ => Repair.empty) u),
    .after (.one (.windowEnd _ rfl ?_)) (.after (emptyRepair_does u) hu.does), ?_, he, .after (adopt_rest job b s ?_) ?_⟩
  · rw [updRepair_job, hu.apart.job]
    exact h
  · rw [updWin_job, updRepair_job, hu.apart.job]
  · rw [e]
    exact not_idle (adopted_working job b _)
  · rw [e]
    exact .after (endPort_does _) (resetRv_does _)

/-- The station as MUTE finds it, before its mode changes: a run, with nothing left in hand. -/
theorem enterMute_runs (s : State) : ∃ m, Does s m ∧ m.job.st = .idle ∧ m.port.tx = .free ∧
    m.pacing.hold = .released ∧ m.pacing.holdTimer = none ∧
    enterMute s = updIdent (fun i => { i with mode := .mute, listenTimer := none, beaconTimer := none, debt := 0 }) m := by
  unfold enterMute
  extract_lets u v w
  have hu : Does s u ∧ u.job = Job.reset := by
    simp only [u]
    split
    · rename_i h
      exact ⟨.one (.job _ s (fun _ => rfl) (by rw [h]; rfl) fun _ => ⟨by simp [Job.reset], by simp [Job.reset]⟩), rfl⟩
    · exact ⟨endJob_does _ s (fun _ => rfl) rfl rfl _,
        by rw [(exitSockets_works _ _ (teardown_recheck _ s)).apart.job, teardown_job]⟩
  have hv : Does u v := .one (.port _ u rfl rfl rfl rfl rfl fun _ => rfl)
  have hw : Does v w := .one (.work _ _ (.pacing _ v (.released _ _ (by simp))))
  have hj : w.job.st = .idle := by
    simp only [w, v, updPacing_job, updPort_job, hu.2]
    rfl
  exact ⟨w, .after hw (.after hv hu.1), hj, rfl, rfl, rfl, rfl⟩

/-! ### Engines -/

theorem clearCommand_does (k : Fin 8) (s : State) : Does s (clearCommand k s) := socket_does k _ s SocketOk.idle

theorem rejectAttach_does (k : Fin 8) (r : Reason) (s : State) : Does s (rejectAttach k r s) :=
  .after (ended_works k _ _ _ (.inr (.inr rfl))).does
    (socket_does k _ s fun ok => ok.idle.quiet rfl rfl rfl rfl rfl rfl rfl rfl)

theorem judgeStream_does (k : Fin 8) (s : State) : Does s (judgeStream k s) := by
  unfold judgeStream
  split
  · rename_i c hc
    split
    · split
      · exact .none s
      · extract_lets v t
        have h : Does s t := socket_does k _ s fun ok => ok.goesOn c _ (attempt_cmd hc) id fun _ => id
        split
        · exact h
        · exact .after (corruption_does _ _ _) h
    all_goals exact .none s
  · exact .none s

theorem judgeStream_kept (k : Fin 8) (s : State) : Kept s.sockets[k] (judgeStream k s).sockets[k] := by
  unfold judgeStream
  split
  · split
    · split
      · exact .refl _
      · extract_lets v t
        have h : Kept s.sockets[k] t.sockets[k] := by
          rw [updSocket_same]
          exact .refl _
        split
        · exact h
        · exact h.trans (corruption_kept _ _ t k)
    all_goals exact .refl _
  · exact .refl _

theorem upsetSlot_stores (id : SlotId) (u : List (Nat × Byte)) (s : State) : Stores s (upsetSlot id u s) :=
  .single (.upset id _ s fun x hx => by simpa using (List.mem_filter.1 hx).2)

theorem upsetHeld_does (id : SlotId) (g : Nat) (u : List (Nat × Byte)) (s : State) : Does s (upsetHeld id g u s) :=
  .one (.port _ s rfl rfl rfl rfl rfl fun h => by rw [h])

/-- With no byte changed nothing is stored. -/
theorem upsetSlot_nil (id : SlotId) (s : State) : Does s (upsetSlot id [] s) := slot_does id _ s rfl

theorem handBack_touches (k : Fin 8) (seg : Nat) (src : SlotId) (s : State) : Touches k s (handBack k seg src s) := by
  refine .tail (.tail (.tail (.single (.socket _ s)) (.slot src _ _ rfl)) (.slot src _ _ (settleClaims_buf _ _)))
    (.socket _ _)

theorem handBack_socket (k : Fin 8) (seg : Nat) (src : SlotId) (s : State) :
    ∃ m t, (handBack k seg src s).sockets[k] = { s.sockets[k] with
      cmd := none, ring := s.sockets[k].ring.filter (fun d => !(d.inFlight && d.seg == seg)), lag := m, tie := t } := by
  unfold handBack
  extract_lets t
  simp only [reportOccupancy_socket, endWrite_sockets, t, updSocket_same]
  exact ⟨_, _, rfl⟩

theorem handBack_does (k : Fin 8) (seg : Nat) (src : SlotId) (s : State) : Does s (handBack k seg src s) := by
  obtain ⟨m, t, e⟩ := handBack_socket k seg src s
  exact (touches_works (handBack_touches k seg src s) e fun ok => (ok.handedBack _ m t _ ok.ring.2.2.2).1).does

theorem addRecheck_after {k : Fin 8} {s t : State} {seg : Nat} (run : Touches k s t)
    (h : SocketOk s.patches s.sockets[k] → HandedBack s.patches seg t.sockets[k]) : Works s (addRecheck k seg t) := by
  unfold addRecheck
  split
  · rename_i g
    refine touches_works (run.tail (.socket _ t)) (updSocket_same _ _ _) fun ok => ?_
    obtain ⟨h1, h2, h3⟩ := h ok
    obtain ⟨hx, hb⟩ := h3 g.2
    exact h1.rechecking seg g.2 hx (fun c e => by rw [h2] at e; cases e) hb
  · exact touches_works run rfl fun ok => (h ok).1

/-- A change of the expectation list, after a write has been handed back. -/
theorem expecting_after {k : Fin 8} {s t : State} {seg : Nat} (f : List ExpectEntry → List ExpectEntry) (run : Touches k s t)
    (h : SocketOk s.patches s.sockets[k] → HandedBack s.patches seg t.sockets[k])
    (hf : ExpectOk s.patches t.sockets[k].expect → ExpectOk s.patches (f t.sockets[k].expect)) :
    Touches k s (updSocket k (fun sk => { sk with expect := f sk.expect }) t) ∧
      (SocketOk s.patches s.sockets[k] → HandedBack s.patches seg
        (updSocket k (fun sk => { sk with expect := f sk.expect }) t).sockets[k]) := by
  refine ⟨run.tail (.socket _ t), fun ok => ?_⟩
  rw [updSocket_same]
  exact (h ok).expecting _ (hf (h ok).1.expect)

theorem recordWritten_after {k : Fin 8} {s t : State} {seg : Nat} (v : Word32) (run : Touches k s t)
    (h : SocketOk s.patches s.sockets[k] → HandedBack s.patches seg t.sockets[k]) : Works s (recordWritten k seg v t) := by
  unfold recordWritten
  split
  · rename_i hp
    rw [State.isPatched, run.spec.1.patches] at hp
    obtain ⟨r, q⟩ := expecting_after (insertExpect { seg := seg, check := v, poisoned := false }) run h fun ok =>
      ok.insert _ (.inr (.inl hp))
    exact addRecheck_after r q
  · obtain ⟨r, q⟩ := expecting_after (List.filter fun e => e.seg != seg) run h fun ok => ok.filter _
    exact addRecheck_after r q

theorem recordPoisoned_after {k : Fin 8} {s t : State} {seg : Nat} (n : Nat) (run : Touches k s t)
    (h : SocketOk s.patches s.sockets[k] → HandedBack s.patches seg t.sockets[k]) : Works s (recordPoisoned k seg n t) := by
  unfold recordPoisoned
  split
  · rename_i g
    obtain ⟨r, q⟩ := expecting_after (insertExpect { seg := seg, check := 0, poisoned := true }) run h fun ok => by
      have room := g.2
      simp only [State.expectRoom, State.isPatched, State.patchedCount, Socket.expected, run.spec.1.patches,
        Bool.or_eq_true, decide_eq_true_eq, List.find?_isSome, beq_iff_eq] at room
      exact ok.insert _ (or_assoc.1 room)
    exact addRecheck_after r q
  · obtain ⟨r, q⟩ := expecting_after (List.filter fun e => e.seg != seg) run h fun ok => ok.filter _
    exact addOwed_after r seg _ _ fun ok => ⟨(q ok).1, fun hs => ((q ok).2.2 hs).2⟩

/-- A descriptor write ends good, at a socket that is not exit-bound. -/
theorem endWritten_works (k : Fin 8) (seg : Nat) (src : SlotId) (v : Verdict) (s : State)
    (hc : ∃ c x, s.sockets[k].cmd = some c ∧ c.purpose = .descriptor seg src x)
    (hx : s.sockets[k].st = .repaying → s.sockets[k].exit = none) : Works s (endWritten k seg src v s) := by
  obtain ⟨c, x, hc, hp⟩ := hc
  obtain ⟨m, y, e⟩ := handBack_socket k seg src s
  unfold endWritten
  extract_lets n t u w
  have run : Touches k s u := (handBack_touches k seg src s).tail (.socket _ t)
  have h : SocketOk s.patches s.sockets[k] → HandedBack s.patches seg u.sockets[k] := fun ok => by
    have hb := ok.handedBack (fun d => !(d.inFlight && d.seg == seg)) m y _
      (insertSeg_ascending seg s.sockets[k].written ok.ring.2.2.2)
    have hu : u.sockets[k] = { t.sockets[k] with written := insertSeg seg t.sockets[k].written } := updSocket_same _ _ _
    rw [hu, e]
    exact ⟨hb.1, rfl, fun hs => ⟨hx hs, ok.bounded seg hs hb.2 (.inr (.inr (.inr ⟨c, hc, .inr ⟨_, _, hp⟩⟩)))⟩⟩
  refine .after (takeDescriptor_works k w) ?_
  simp only [w]
  split
  · exact recordWritten_after _ run h
  · exact recordPoisoned_after _ run h

theorem endWriteError_does (k : Fin 8) (seg : Nat) (src : SlotId) (r : Reason) (s : State) :
    Does s (endWriteError k seg src r s) :=
  .after (failSocket_does _ _ _) (handBack_does k seg src s)

theorem writeGood_does (k : Fin 8) (s : State) (hx : s.sockets[k].exit = none) : Does s (writeGood k s) := by
  have h := judgeStream_does k s
  have kept := judgeStream_kept k s
  unfold writeGood
  extract_lets t
  split
  · rename_i seg src x _ _ _ _ _ _ hc
    refine .after (endWritten_works k seg src _ t ⟨_, x, hc, rfl⟩ fun hs => ?_).does h
    rcases kept with f | ⟨_, e, _⟩
    · rw [f] at hs
      cases hs
    · exact e.trans hx
  · exact h
  · exact h

theorem commandFailed_does (k : Fin 8) (p : Purpose) (b : Bool) (s : State) : Does s (commandFailed k p b s) := by
  unfold commandFailed
  extract_lets r
  split
  · exact .after (failSocket_does _ _ _) (clearCommand_does k s)
  · exact endWriteError_does _ _ _ _ s
  · exact .after (failSocket_does _ _ _) (clearCommand_does k s)
  · exact .after (masterFailure_does _ _) (.after (endMasterRead_works _ _).does (clearCommand_does k s))
  all_goals exact rejectAttach_does _ _ s

theorem attemptError_does (k : Fin 8) (c : Command) (s : State) : Does s (attemptError k c s) := by
  unfold attemptError
  split
  · exact (retry_works k s).does
  · exact commandFailed_does _ _ _ s

/-- An owed addition fails the socket, or changes its owed list alone. -/
theorem addOwed_socket (k : Fin 8) (seg : Nat) (o : Origin) (n : Nat) (s : State) :
    (addOwed k seg o n s).sockets[k].st = .failed ∨
      ∃ l, (addOwed k seg o n s).sockets[k] = { s.sockets[k] with owed := l } := by
  unfold addOwed
  split
  · exact .inl ‹_›
  · split
    · exact .inl (failSocket_failed k _ s)
    · exact .inr ⟨_, updSocket_same _ _ _⟩

theorem verifyGood_does (k : Fin 8) (seg : Nat) (l : List Byte) (s : State)
    (hc : ∃ c, s.sockets[k].cmd = some c ∧ c.purpose = .verify seg) : Does s (verifyGood k seg l s) := by
  obtain ⟨c, hc, hp⟩ := hc
  unfold verifyGood
  extract_lets t u
  have ht : t.sockets[k] = { s.sockets[k] with cmd := none } := updSocket_same _ _ _
  have hu : Works s u := by
    simp only [u]
    split
    · exact socket_works k _ s SocketOk.idle
    · refine addOwed_after (t := t) (.single (.socket _ s)) seg _ _ fun ok => ?_
      rw [ht]
      refine ⟨ok.idle, fun hs => ok.bounded seg hs ?_ (.inr (.inr (.inr ⟨c, hc, .inl hp⟩)))⟩
      rintro g (hg | hg | hg | ⟨d, hd, _⟩)
      · exact .inl hg
      · exact .inr (.inl hg)
      · exact .inr (.inr (.inl hg))
      · cases hd
  split
  · rename_i hs
    have hn : u.sockets[k].cmd = none := by
      have h : u.sockets[k].st = .failed ∨ u.sockets[k].cmd = none := by
        simp only [u]
        split
        · exact .inr (by rw [ht])
        · rcases addOwed_socket k seg .verifyMismatch 0 t with f | ⟨_, e⟩
          · exact .inl f
          · exact .inr (by rw [e, ht])
      exact h.resolve_left (by rw [hs]; simp)
    refine .after (nameNext_works k _ ?_ ?_).does (.after (socket_does k _ u fun ok =>
      ok.quiet rfl rfl rfl rfl rfl rfl rfl rfl) hu.does)
    · rw [updSocket_same]
      exact hn
    · rw [updSocket_same]
      exact hs
  · exact hu.does

theorem removeStick_does (k : Fin 8) (s : State) : Does s (removeStick k s) := by
  unfold removeStick
  extract_lets st t u v
  have h : Does s v := .after (setState_works k _ _ u (.inl (by rw [updSocket_same]; rfl)) (by simp) (by simp)).does
    (.after (socket_does k _ t fun ok => ok.cleared.unbound.quiet rfl rfl rfl rfl rfl rfl rfl rfl)
      (.after (emptyRing_works k _).does (abandonCommand_works k s).does))
  split
  · exact .after (masterFailure_does _ _) h
  · exact h

/-! ### Recall -/

theorem rv_does (f : Recall → Recall) (s : State) (hh : (f s.rv).heard = s.rv.heard) (hq : (f s.rv).queue = s.rv.queue) :
    Does s (updRv f s) :=
  .one (.rv f s fun ok => by rw [RecallOk, hh, hq]; exact ok)

theorem placeRequest_does (s : State) : Does s (placeRequest s) := by
  unfold placeRequest
  split
  · exact rv_does _ s rfl rfl
  · exact .none s

theorem withdrawRequest_does (s : State) : Does s (withdrawRequest s) := by
  unfold withdrawRequest
  split
  · exact rv_does _ s rfl rfl
  · exact .none s

theorem countRecall_does (k : Fin 8) (l : List Nat) (s : State) : Does s (updSocket k (Socket.countRecall l) s) := by
  refine socket_does k _ s fun ok => ?_
  unfold Socket.countRecall
  split
  · have h : ∀ e : OwedEntry, (if l.contains e.seg then
        { e with record := { e.record with attempts := min Config.maxRecalls (e.record.attempts + 1) } } else e).seg =
        e.seg := fun e => by split <;> rfl
    refine ok.change (b := { s.sockets[k] with owed := _ }) ⟨ok.ring.1, by simpa using ok.ring.2.1, ?_, ok.ring.2.2.2⟩
      rfl rfl rfl rfl ok.recheck.2.1 (fun _ => id) fun _ g hg => ?_
    · simpa only [List.map_map, Function.comp_def, h] using ok.ring.2.2.1
    · refine hg.imp_right (Or.imp_left fun hg => ?_)
      simpa only [Socket.owes, List.any_map, Function.comp_def, h] using hg
  · exact ok

theorem waitExpired_does (s : State) : Does s (waitExpired s) := by
  unfold waitExpired
  split
  · exact .after (rv_does _ _ rfl rfl) (.each _ _ (fun k t => failSocket_does k _ t) s)
  · exact .none s

theorem hearSegment_does (seg : Nat) (s : State) : Does s (hearSegment seg s) := by
  unfold hearSegment
  split
  · rename_i h
    exact .one (.rv _ s fun ok => ⟨Nat.le_trans (insertSeg_length _ _) h.2, insertSeg_ascending _ _ ok.2.1, ok.2.2⟩)
  · exact .none s

theorem joinQueue_does (seg : Nat) (s : State) : Does s (joinQueue seg s) := by
  unfold joinQueue
  extract_lets g
  split
  · rename_i h
    exact .one (.rv _ s fun ok => ⟨ok.1, ok.2.1, Nat.le_trans (insertSeg_length _ _) h.2.2,
      insertSeg_ascending _ _ ok.2.2.2⟩)
  · exact .none s

theorem ownRequests_does (s : State) : Does s (ownRequests s) := by
  unfold ownRequests
  split
  · exact .each _ _ joinQueue_does s
  · exact .none s

theorem issueReadAhead_does (s : State) (h : s.sockets[s.masterSocket].st ≠ .repaying) : Does s (issueReadAhead s) := by
  unfold issueReadAhead
  extract_lets seg t u
  refine .after (issue_works _ _ u (by simp) ?_).does
    (.after (.one (.marks _ t fun w => ⟨rfl, rfl, rfl, rfl⟩)) (slot_does _ _ s rfl))
  exact h

theorem readAhead_does (s : State) : Does s (readAhead s) := by
  unfold readAhead
  split
  · rename_i g
    extract_lets id t
    have h : Does s t ∧ t.job = s.job ∧ ∀ k : Fin 8, Kept s.sockets[k] t.sockets[k] := by
      simp only [t]
      split
      · exact ⟨(takeBack_works _ s).does, (takeBack_works _ s).apart.job, takeBack_kept _ s⟩
      · exact ⟨.none s, rfl, fun _ => .refl _⟩
    split
    · refine .after (issueReadAhead_does t fun e => ?_) h.1
      have hm : s.sockets[s.masterSocket].st = .master := by
        simp only [State.readAheadDue, Bool.and_eq_true, beq_iff_eq] at g
        exact g.1.2
      have same : t.masterSocket = s.masterSocket := by rw [State.masterSocket, h.2.1]; rfl
      have kept : ∀ k : Fin 8, k = s.masterSocket → t.sockets[k].st ≠ .repaying := by
        rintro k rfl e
        rcases h.2.2 s.masterSocket with f | ⟨f, _⟩
        · rw [f] at e
          cases e
        · rw [f, hm] at e
          cases e
      exact kept _ same e
    · exact h.1
  · exact .none s

theorem recallRead_does (s : State) : Does s (recallRead s) := by
  unfold recallRead
  split
  · rename_i g
    extract_lets t u
    refine .after (issue_works _ _ u (by simp) ?_).does (.after (slot_does _ _ _ rfl) (.one (.rv _ s fun ok =>
      ⟨ok.1, ok.2.1, Nat.le_trans (List.length_filter_le _ _) ok.2.2.1, ascending_filter _ ok.2.2.2⟩)))
    unfold State.recallReadDue at g
    split at g
    · rename_i c
      have e : u.sockets[u.masterSocket] = s.sockets[s.masterSocket] := rfl
      rw [e, c.2.2.1]
      simp
    · cases g
  · exact .none s

/-! ### The end of a step -/

theorem judgeFinish_does (b : Bool) (s : State) : Does s (judgeFinish b s) := by
  unfold judgeFinish
  split
  · rename_i h
    refine enterFinished_does s ?_
    rcases h with h | h
    · simp only [State.sourceDone, Bool.and_eq_true, beq_iff_eq] at h
      rw [h.1.1.1.1.2]
      simp
    · have h := h.2
      simp only [State.sinkDone, Bool.and_eq_true] at h
      exact not_idle h.1.1.2
  · exact .none s

theorem settle_does (b : Bool) (s : State) : Does s (settle b s) :=
  .after (judge_does _) (.after (judgeFinish_does b _) (.after (withdrawRequest_does _) (.after (ownRequests_does _)
    (.after (Works.sockets _ moveOn_works _).does (settleBase_does s)))))

theorem act_stores (f : State → State) (s : State) (h : Stores s (f s)) : Stores s (act f s) := by
  unfold act whenUp
  split
  · exact .none s
  · exact .after (settle_does _ _).stores h

theorem act_does (f : State → State) (s : State) (h : Does s (f s)) : Does s (act f s) := by
  unfold act whenUp
  split
  · exact .none s
  · exact .after (settle_does _ _) h

end Sys2Proof.Machine
end

