-- ==== Sys2Proof/Laws/Keeps.lean ====
section
/-! SUPPORT. What every elementary change, and so every run of them, leaves alone or keeps: the outer part of the station,
the base within a job, and the predicates of Sys2Proof/Safety.lean as far as they hold within a step. -/
namespace Sys2Proof.Machine
open Sys2Proof.Safety

theorem passRepair_outer (b : Nat) (s : State) : outer (passRepair b s) = outer s := rfl

theorem Work.outer {s t : State} (h : Work s t) : outer t = outer s := by
  have a := h.apart
  simp only [Safety.outer, a.ident, a.roster, a.port, a.pending]

/-- An elementary change leaves the outer part alone. -/
theorem Elem.outer {s t : State} (h : Elem s t) : outer t = outer s := by
  cases h with
  | work _ _ h => exact h.outer
  | rise b s _ => rw [passRepair_outer]; rfl
  | port f s hb hg hr hl hh ht =>
    simp only [Safety.outer, updPort_ident, updPort_roster, updPort_port, updPort_pending, hb, hg, hr, hl, hh]
  | marks | windowEnd | job | jobEnd | repair | rv | draw => rfl

theorem Does.outer {s t : State} (h : Does s t) : outer t = outer s := by
  induction h with
  | refl => rfl
  | tail _ e ih => exact e.outer.trans ih

/-- A run leaves the identity block alone. -/
theorem Does.ident {s t : State} (h : Does s t) : t.ident = s.ident := congrArg Outer.ident h.outer

/-- A run leaves the patch table alone. -/
theorem Does.patches {s t : State} (h : Does s t) : t.patches = s.patches := by
  induction h with
  | refl => rfl
  | tail _ e ih =>
    refine Eq.trans ?_ ih
    cases e with
    | work _ _ h => exact h.apart.patches
    | rise b s _ =>
      rfl
    | marks | windowEnd | job | jobEnd | port | repair | rv | draw => rfl

/-- A run on sockets and slots, or on the repair unit, as it passes a base. -/
theorem passRepair_win (b : Nat) (s : State) : (passRepair b s).win = s.win ∧ (passRepair b s).job = s.job := ⟨rfl, rfl⟩

/-- A run that ends inside a job began inside it, at a base no higher (R64). -/
theorem Does.base_le {s t : State} (h : Does s t) (hw : t.job.st.working = true) :
    s.job.st.working = true ∧ s.win.base ≤ t.win.base := by
  induction h with
  | refl => exact ⟨hw, Nat.le_refl _⟩
  | tail _ e ih =>
    rename_i u v _
    have step : u.job.st.working = true ∧ u.win.base ≤ v.win.base := by
      cases e with
      | work _ _ h =>
        have a := h.apart
        rw [a.job] at hw
        exact ⟨hw, Nat.le_of_eq a.base.symm⟩
      | rise b s hb =>
        have p := passRepair_win b (updWin (fun w => { w with base := b }) u)
        rw [p.2] at hw
        rw [p.1]
        exact ⟨hw, hb⟩
      | marks f s h => exact ⟨hw, Nat.le_of_eq (h _).2.2.1.symm⟩
      | windowEnd s hr hj =>
        rw [updWin_job, hj] at hw
        cases hw
      | job f s hi hk _ =>
        rw [updJob_job, hk] at hw
        exact ⟨hw, Nat.le_refl _⟩
      | jobEnd f s hi hk _ =>
        rw [updPacing_job, updJob_job, hk] at hw
        cases hw
      | port | repair | rv | draw => exact ⟨hw, Nat.le_refl _⟩
    exact ⟨(ih step.1).1, Nat.le_trans (ih step.1).2 step.2⟩

/-! ### The DRAM -/

/-- What the buffers and the check table keep. -/
def DramOk (s : State) : Prop :=
  (∀ id : SlotId, Memory.wf (s.slot id).buf ∧ ∀ c ∈ (s.slot id).buf, c.1 < Config.segmentBytes) ∧
    Sparse.wf s.win.checkTable

theorem DramOk.ofBuffers {s t : State} (h : DramOk s) (hb : ∀ id, (t.slot id).buf = (s.slot id).buf)
    (ht : t.win.checkTable = s.win.checkTable) : DramOk t :=
  ⟨fun id => by rw [hb id]; exact h.1 id, by rw [ht]; exact h.2⟩

/-- One slot changes its buffer to a good one. -/
theorem DramOk.ofSlot {s : State} (h : DramOk s) (id : SlotId) (f : Slot → Slot)
    (hf : Memory.wf (f (s.slot id)).buf ∧ ∀ c ∈ (f (s.slot id)).buf, c.1 < Config.segmentBytes) :
    DramOk (updSlot id f s) := by
  refine ⟨fun j => ?_, by rw [updSlot_checkTable]; exact h.2⟩
  by_cases e : j = id
  · rw [e, updSlot_same]
    exact hf
  · rw [updSlot_other e]
    exact h.1 j

theorem Work.buffers {s t : State} (h : Work s t) (id : SlotId) : (t.slot id).buf = (s.slot id).buf := by
  cases h with
  | slot j f s h =>
    by_cases e : id = j
    · rw [e, updSlot_same, h]
    · rw [updSlot_other e]
  | pacing => rfl
  | socket k s t h => exact h.spec.2.1 id
  | judge s =>
    unfold judgeHold
    repeat' split
    all_goals rfl

/-- An elementary change leaves every buffer and the check table alone. -/
theorem Elem.memory {s t : State} (e : Elem s t) :
    (∀ id, (t.slot id).buf = (s.slot id).buf) ∧ t.win.checkTable = s.win.checkTable := by
  cases e with
  | work _ _ w => exact ⟨w.buffers, w.apart.checkTable⟩
  | marks f s hf =>
    refine ⟨fun id => ?_, (hf _).2.2.2⟩
    cases id
    · simp only [State.slot, updWin_win, (hf _).1]
    · simp only [State.slot, updWin_win, (hf _).2.1]
  | rise b s _ =>
    refine ⟨fun id => ?_, ?_⟩
    · cases id <;> simp only [State.slot, (passRepair_win b _).1, updWin_win]
    · simp only [(passRepair_win b _).1, updWin_win]
  | windowEnd s _ _ =>
    refine ⟨fun id => ?_, rfl⟩
    cases id <;> simp [State.slot, Window.jobEnded, Slot.jobEnded, Slot.freed]
  | job | jobEnd | port | repair | rv | draw => exact ⟨fun _ => rfl, rfl⟩

/-- A run that stores nothing leaves every buffer and the check table alone. -/
theorem Does.memory {s t : State} (h : Does s t) :
    (∀ id, (t.slot id).buf = (s.slot id).buf) ∧ t.win.checkTable = s.win.checkTable := by
  induction h with
  | refl => exact ⟨fun _ => rfl, rfl⟩
  | tail _ e ih => exact ⟨fun id => (e.memory.1 id).trans (ih.1 id), e.memory.2.trans ih.2⟩

theorem Change.dram {s t : State} (e : Change s t) (h : DramOk s) : DramOk t := by
  cases e with
  | elem _ _ e => exact h.ofBuffers e.memory.1 e.memory.2
  | buffer id f s a l fits hf =>
    refine h.ofSlot id f ?_
    rw [hf]
    exact ⟨Memory.store_wf _ _ _ (h.1 id).1, Memory.store_lt _ _ _ _ (h.1 id).2 fits⟩
  | upset id c s hc =>
    exact h.ofSlot id _ ⟨Memory.patchBytes_wf _ _ (h.1 id).1, Memory.patchBytes_lt _ _ _ (h.1 id).2 hc⟩
  | table seg v s => exact ⟨h.1, Sparse.write_wf _ _ _ h.2⟩

theorem Stores.dram {s t : State} (h : Stores s t) (hs : DramOk s) : DramOk t := h.keeps Change.dram hs

theorem Does.dram {s t : State} (h : Does s t) (hs : DramOk s) : DramOk t := h.stores.dram hs

/-! ### The sockets, the repair unit, the recall unit -/

/-- Every socket's ring and lists keep what they keep. -/
def SocketsOk (s : State) : Prop := ∀ k : Fin 8, SocketOk s.patches s.sockets[k]

theorem Work.socketsOk {s t : State} (w : Work s t) (h : SocketsOk s) : SocketsOk t := by
  cases w with
  | slot j f s _ => cases j <;> exact h
  | pacing => exact h
  | judge s =>
    unfold judgeHold
    repeat' split
    all_goals exact h
  | socket j s t run hf =>
    obtain ⟨a, _, _, only⟩ := run.spec
    intro k
    rw [a.patches]
    by_cases e : k = j
    · rw [e]
      exact hf (h j)
    · rw [only k e]
      exact h k

theorem passRepair_rv (b : Nat) (s : State) : (passRepair b s).rv = s.rv := rfl

theorem Elem.socketsOk {s t : State} (e : Elem s t) (h : SocketsOk s) : SocketsOk t := by
  cases e with
  | work _ _ w => exact w.socketsOk h
  | rise | marks | windowEnd | job | jobEnd | port | repair | rv | draw => exact h

theorem Does.socketsOk {s t : State} (h : Does s t) (hs : SocketsOk s) : SocketsOk t := h.keeps Elem.socketsOk hs

/-- The expectation lists have few enough entries in all: those of patched segments are few. -/
theorem ExpectOk.length {p : List PatchEntry} {l : List ExpectEntry} (h : ExpectOk p l) (hp : p.length ≤ 8) :
    l.length ≤ Config.expectSize := by
  have split := List.length_eq_length_filter_add (l := l) fun e => p.any fun q => q.seg.toNat == e.seg
  have few : (l.filter fun e => p.any fun q => q.seg.toNat == e.seg).length ≤ (p.map fun q => q.seg.toNat).dedup.length := by
    rw [← List.length_map (f := fun e : ExpectEntry => e.seg)]
    refine length_le_of_mem (h.1.sublist (List.filter_sublist.map _)) fun g hg => ?_
    obtain ⟨x, hx, rfl⟩ := List.mem_map.1 hg
    obtain ⟨q, hq, e⟩ := List.any_eq_true.1 (List.mem_filter.1 hx).2
    rw [List.mem_dedup]
    exact List.mem_map.2 ⟨q, hq, eq_of_beq e⟩
  have least : (p.map fun q => q.seg.toNat).dedup.length ≤ 8 :=
    Nat.le_trans (List.dedup_sublist _).length_le (by rw [List.length_map]; exact hp)
  have rest := h.2
  simp only [Config.expectSize] at rest ⊢
  omega

/-- The predicates of Sys2Proof/Safety.lean on rings, lists and patch table, by their parts. -/
theorem SocketsOk.lists {s : State} (h : SocketsOk s) (hp : s.patches.length ≤ 8) : listsOk s :=
  fun k => ⟨(h k).expect.length hp, (h k).expect.1, (h k).expect.2, (h k).size, (h k).order, (h k).recheck⟩

theorem SocketsOk.of {s : State} (hs : storageOk s) (hc : capacityOk s) (hl : listsOk s) : SocketsOk s :=
  fun k => ⟨⟨(hc.1 k).1, (hc.1 k).2.1, (hc.1 k).2.2, hs.2.2 k⟩, ⟨(hl k).2.1, (hl k).2.2.1⟩, (hl k).2.2.2.1,
    (hl k).2.2.2.2.1, (hl k).2.2.2.2.2⟩

/-! ### The former state -/

theorem Elem.former {s t : State} (e : Elem s t) (h : FormerRule s.job) : FormerRule t.job := by
  cases e with
  | work _ _ w => rw [w.apart.job]; exact h
  | job f s _ _ hf => exact hf h
  | jobEnd f s _ hw hf =>
    rw [updPacing_job, updJob_job]
    refine ⟨⟨fun e => ?_, fun e => ?_⟩, fun g e => ?_⟩
    · rw [e] at hw
      cases hw
    all_goals
      rw [hf] at e
      cases e
  | rise | marks | windowEnd | port | repair | rv | draw => exact h

theorem Stores.former {s t : State} (h : Stores s t) (hs : FormerRule s.job) : FormerRule t.job :=
  h.keeps (P := fun s => FormerRule s.job) (fun e p => by
    cases e with
    | elem _ _ e => exact e.former p
    | buffer id => cases id <;> exact p
    | upset id => cases id <;> exact p
    | table => exact p) hs

theorem Elem.recall {s t : State} (e : Elem s t) (h : RecallOk s.rv) : RecallOk t.rv := by
  cases e with
  | work _ _ w => rw [w.apart.rv]; exact h
  | rise b s _ => rw [passRepair_rv b _]; exact h
  | rv f s hf => exact hf h
  | marks | windowEnd | job | jobEnd | port | repair | draw => exact h

theorem Does.recall {s t : State} (h : Does s t) (hs : RecallOk s.rv) : RecallOk t.rv :=
  h.keeps (P := fun s => RecallOk s.rv) Elem.recall hs

/-- Passing a base keeps the repair unit good at the higher base. -/
theorem passRepair_ok (b a : Nat) (s : State) (hb : a ≤ b) (h : RepairOk a s.repair) :
    RepairOk b (passRepair b s).repair := by
  have e : (passRepair b s).repair =
      { needs := s.repair.needs.filter fun e => decide (b ≤ e.seg)
        exhausted := s.repair.exhausted.filter fun x => decide (b ≤ x)
        answers := s.repair.answers.filter fun e => decide (b ≤ e.seg) } := by
    rfl
  rw [e]
  have ok := repairFilter_ok (fun e => decide (b ≤ e.seg)) (fun x => decide (b ≤ x)) (fun e => decide (b ≤ e.seg)) h
  refine ⟨ok.1, ok.2.1, fun x hx => ?_, fun x hx => ?_, ok.2.2.2.2⟩
  · have hi := ok.2.2.1 x hx
    exact ⟨of_decide_eq_true (List.mem_filter.1 hx).2, by omega⟩
  · have hi := ok.2.2.2.1 x hx
    exact ⟨of_decide_eq_true (List.mem_filter.1 hx).2, by omega⟩

theorem Elem.repairOk {s t : State} (e : Elem s t) (h : RepairOk s.win.base s.repair) : RepairOk t.win.base t.repair := by
  cases e with
  | work _ _ w => rw [w.apart.repair, w.apart.base]; exact h
  | rise b s hb =>
    rw [(passRepair_win b _).1]
    exact passRepair_ok b s.win.base _ hb h
  | marks f s hf => rw [updWin_win, (hf _).2.2.1]; exact h
  | windowEnd s hr _ => rw [updWin_repair, hr]; exact repairEmpty_ok _
  | repair f s hf => exact hf h
  | job | jobEnd | port | rv | draw => exact h

theorem Does.repairOk {s t : State} (h : Does s t) (hs : RepairOk s.win.base s.repair) : RepairOk t.win.base t.repair :=
  h.keeps (P := fun s => RepairOk s.win.base s.repair) Elem.repairOk hs

/-! ### The pacing unit, and a station that has withdrawn -/

/-- What a judgement of HOLD leaves in the pacing unit. -/
theorem judgeHold_pacing (s : State) :
    (judgeHold s).pacing.loss = s.pacing.loss ∧
      ((s.pacing.holdTimer.isSome ↔ s.pacing.hold = .asserted) →
        ((judgeHold s).pacing.holdTimer.isSome ↔ (judgeHold s).pacing.hold = .asserted)) ∧
      (s.holdDemand = false → (judgeHold s).pacing.hold = .released) ∧
      (s.holdDemand = true → (judgeHold s).pacing.hold ≠ .released) := by
  unfold judgeHold
  split
  · rename_i hd
    split
    · simp [hd]
    · rename_i h
      simp [hd, h]
    · rename_i h
      simp [hd, h]
  · rename_i hd
    simp [hd]

/-- After a judgement of HOLD the output follows the demand (R132). -/
theorem judgeHold_holdOk (s : State) (h : s.pacing.holdTimer.isSome ↔ s.pacing.hold = .asserted) : holdOk (judgeHold s) := by
  have p := judgeHold_pacing s
  have d : (judgeHold s).holdDemand = s.holdDemand := by
    unfold judgeHold
    repeat' split
    all_goals rfl
  refine ⟨?_, p.2.1 h⟩
  rw [d]
  cases hd : s.holdDemand
  · simp [p.2.2.1 hd]
  · simp [p.2.2.2 hd]

/-- The loss monitor outside a job, and the expiry timer (R132, R134). -/
def PacingOk (s : State) : Prop :=
  (s.job.st.working = false → s.pacing.loss = Monitor.idle) ∧
    (s.pacing.holdTimer.isSome ↔ s.pacing.hold = .asserted)

theorem judgeHold_pacingOk (s : State) (h : PacingOk s) : PacingOk (judgeHold s) := by
  have p := judgeHold_pacing s
  refine ⟨fun hw => ?_, p.2.1 h.2⟩
  rw [p.1]
  have j : (judgeHold s).job = s.job := (Work.judge s).apart.job
  exact h.1 (by rw [← j]; exact hw)

theorem Work.pacingOk {s t : State} (w : Work s t) (h : PacingOk s) : PacingOk t := by
  cases w with
  | slot j f s _ => cases j <;> exact h
  | pacing f s hf => exact ⟨fun hw => hf.loss (h.1 hw), hf.timer h.2⟩
  | judge s => exact judgeHold_pacingOk s h
  | socket k s t run =>
    obtain ⟨a, _, p, _⟩ := run.spec
    rw [PacingOk, a.job, p]
    exact h

/-- Reporting the needs keeps the pacing unit good. -/
theorem reportNeeds_pacingOk (s : State) (h : PacingOk s) : PacingOk (reportNeeds s) :=
  (Work.pacing _ s (.monitor _ _ rfl)).pacingOk h

theorem Elem.pacingOk {s t : State} (e : Elem s t) (h : PacingOk s) : PacingOk t := by
  cases e with
  | work _ _ w => exact w.pacingOk h
  | rise b s _ => exact reportNeeds_pacingOk _ h
  | job f s hi hw _ => exact ⟨fun g => h.1 (by rw [← hw]; exact g), h.2⟩
  | jobEnd f s hi hw _ => exact ⟨fun _ => rfl, by simp [Pacing.reset]⟩
  | marks | windowEnd | port | repair | rv | draw => exact h

theorem Does.pacingOk {s t : State} (h : Does s t) (hs : PacingOk s) : PacingOk t := h.keeps Elem.pacingOk hs

/-- Outside ACTIVE nothing demands HOLD. -/
theorem holdDemand_off {s : State} (h : s.ident.mode ≠ .active) : s.holdDemand = false := by
  simp [State.holdDemand, h]

theorem Work.withdrawn {s t : State} (w : Work s t) (h : withdrawn s) : withdrawn t := by
  intro hm
  have a := w.apart
  rw [a.ident] at hm
  have hs := h hm
  rw [a.port, a.job]
  refine ⟨hs.1, ?_, hs.2.2⟩
  cases w with
  | slot j f s _ => cases j <;> exact hs.2.1
  | pacing f s hf => exact hf.hold hs.2.1
  | judge s =>
    rw [(judgeHold_pacing s).2.2.1 (holdDemand_off hm)]
    simp
  | socket k s t run => rw [run.spec.2.2.1]; exact hs.2.1

theorem Elem.withdrawn {s t : State} (e : Elem s t) (h : withdrawn s) : withdrawn t := by
  cases e with
  | work _ _ w => exact w.withdrawn h
  | rise b s _ =>
    have port (u : State) (f : Port → Port) (hf : (f u.port).tx = u.port.tx) (hu : Safety.withdrawn u) :
        Safety.withdrawn (updPort f u) := fun hm => ⟨hf.trans (hu hm).1, (hu hm).2⟩
    have repair (u : State) (f : Repair → Repair) (hu : Safety.withdrawn u) : Safety.withdrawn (updRepair f u) := hu
    unfold passRepair keepNeeds keepAnswers reportNeeds
    exact (Work.pacing _ _ (.monitor _ _ rfl)).withdrawn (port _ _ rfl
      (repair _ _ (port _ _ rfl (repair _ _ (repair _ _ h)))))
  | job f s hi hw _ => exact fun hm => ⟨(h hm).1, (h hm).2.1, hi (h hm).2.2⟩
  | jobEnd f s hi hw _ => exact fun hm => ⟨(h hm).1, by simp [Pacing.reset], hi (h hm).2.2⟩
  | port f s hb hg hr hl hh ht => exact fun hm => ⟨ht (h hm).1, (h hm).2⟩
  | marks | windowEnd | repair | rv | draw => exact h

theorem Does.withdrawn {s t : State} (h : Does s t) (hs : withdrawn s) : withdrawn t := h.keeps Elem.withdrawn hs

/-! ### Runs that store -/

/-- A change of a slot is a change of the window that leaves the base alone. -/
theorem updSlot_asWin (id : SlotId) (f : Slot → Slot) (s : State) :
    ∃ g : Window → Window, updSlot id f s = updWin g s ∧ (g s.win).base = s.win.base := by
  cases id with
  | win i => exact ⟨fun w => { w with slots := w.slots.set i (f w.slots[i]) }, rfl, rfl⟩
  | rslot r => exact ⟨fun w => { w with recalls := w.recalls.set r (f w.recalls[r]) }, rfl, rfl⟩

/-- What a store leaves alone: all but the window's buffers and check table. -/
theorem Change.kept {s t : State} (h : Change s t) {P : State → Prop} (he : ∀ {s t}, Elem s t → P s → P t)
    (hw : ∀ (f : Window → Window) s, (f s.win).base = s.win.base → P s → P (updWin f s)) (hs : P s) : P t := by
  cases h with
  | elem _ _ e => exact he e hs
  | buffer id f s a l _ _ =>
    obtain ⟨g, e, hb⟩ := updSlot_asWin id f s
    rw [e]
    exact hw g s hb hs
  | upset id c s _ =>
    obtain ⟨g, e, hb⟩ := updSlot_asWin id (fun sl => { sl with buf := sl.buf.patchBytes c }) s
    rw [e]
    exact hw g s hb hs
  | table seg v s => exact hw _ s rfl hs

/-- A predicate that no change of the window alone touches is kept by runs that store. -/
theorem Stores.kept {s t : State} (h : Stores s t) {P : State → Prop} (he : ∀ {s t}, Elem s t → P s → P t)
    (hw : ∀ (f : Window → Window) s, (f s.win).base = s.win.base → P s → P (updWin f s)) (hs : P s) : P t :=
  h.keeps (fun c p => c.kept he hw p) hs

theorem Stores.outer {s t : State} (h : Stores s t) : outer t = outer s :=
  h.kept (P := fun u => Safety.outer u = Safety.outer s) (fun e p => e.outer.trans p) (fun _ _ _ p => p) rfl

theorem Stores.patches {s t : State} (h : Stores s t) : t.patches = s.patches :=
  h.kept (P := fun u => u.patches = s.patches) (fun e p => (Does.one e).patches.trans p) (fun _ _ _ p => p) rfl

theorem Stores.socketsOk {s t : State} (h : Stores s t) (hs : SocketsOk s) : SocketsOk t :=
  h.kept Elem.socketsOk (fun _ _ _ p => p) hs

theorem Stores.recall {s t : State} (h : Stores s t) (hs : RecallOk s.rv) : RecallOk t.rv :=
  h.kept (P := fun s => RecallOk s.rv) Elem.recall (fun _ _ _ p => p) hs

theorem Stores.repairOk {s t : State} (h : Stores s t) (hs : RepairOk s.win.base s.repair) :
    RepairOk t.win.base t.repair :=
  h.kept (P := fun s => RepairOk s.win.base s.repair) Elem.repairOk
    (fun _ _ hb p => by rw [updWin_win, hb]; exact p) hs

theorem Stores.pacingOk {s t : State} (h : Stores s t) (hs : PacingOk s) : PacingOk t :=
  h.kept Elem.pacingOk (fun _ _ _ p => p) hs

theorem Stores.withdrawn {s t : State} (h : Stores s t) (hs : withdrawn s) : withdrawn t :=
  h.kept Elem.withdrawn (fun _ _ _ p => p) hs

theorem Stores.base_le {s t : State} (h : Stores s t) (hw : t.job.st.working = true) :
    s.job.st.working = true ∧ s.win.base ≤ t.win.base := by
  induction h with
  | refl => exact ⟨hw, Nat.le_refl _⟩
  | tail _ e ih =>
    rename_i u v _
    have step : u.job.st.working = true ∧ u.win.base ≤ v.win.base := by
      cases e with
      | elem _ _ e => exact (Does.one e).base_le hw
      | buffer id f s a l _ _ => cases id <;> exact ⟨hw, Nat.le_refl _⟩
      | upset id c s _ => cases id <;> exact ⟨hw, Nat.le_refl _⟩
      | table => exact ⟨hw, Nat.le_refl _⟩
    exact ⟨(ih step.1).1, Nat.le_trans (ih step.1).2 step.2⟩

end Sys2Proof.Machine
end

