-- ==== Sys2Proof/Certificates/Slice0/Obligations.lean ====
section
/-! DEFINITION. The statements for the provers. Each cites its rules of spec/. A command that ends with the judgements at
the end of its step (log entry 24) is stated as `settle s.settled u`, with the state `u` that its own effect makes, or,
where those judgements cannot touch what the statement names, by the next state itself. -/
open Sys2Proof Sys2Proof.Machine Sys2Proof.Safety

/-! ### The step -/

/-- A step runs the command at the front of the queue on the rest; an empty queue idles (the model's choice, log entry
2). -/
def Obligations.StepRunsTheFrontCommand : Prop :=
  (∀ (c : Instr) (rest : List Instr) (s : State), s.pending = c :: rest → step s = exec c { s with pending := rest }) ∧
    ∀ s : State, s.pending = [] → step s = .next s

/-- Every command, with any operands, in any state, goes on to a next state and leaves the queue alone; during the memory
test of a power-on reset only a power-on reset, the end of the test and the HOLD line act (R26, R27; what the other commands
do then is the model's choice, log entry 13). -/
def Obligations.EveryCommandCompletes : Prop :=
  (∀ (c : Instr) (s : State), ∃ t, exec c s = .next t ∧ t.pending = s.pending) ∧
  ∀ (c : Instr) (s : State), s.ident.memTest = true → c ≠ .powerOnReset → (∀ p n, c ≠ .memoryTestEnd p n) →
    (∀ a, c ≠ .holdLineChange a) → exec c s = .next s

/-- Memory frame: a command other than a good read, a parcel, an upset and power-on leaves every byte of every slot
buffer and every entry of the check table as it was; so does a read, good or in error, at a socket whose command is not a
master read. -/
def Obligations.OnlyFourCommandsStore : Prop :=
  let same (s t : State) : Prop := (∀ (id : SlotId) (a : Nat), (t.slot id).buf.read a = (s.slot id).buf.read a) ∧
    ∀ seg : Nat, t.win.checkTable.read seg = s.win.checkTable.read seg
  (∀ (c : Instr) (s t : State), mayStore c = false → exec c s = .next t → same s t) ∧
    ∀ (k : Fin 8) (data : Option (List Byte)) (s t : State),
      (∀ c seg dst, s.sockets[k].cmd = some c → c.purpose ≠ .master seg dst) →
      exec (.readSegmentComplete k data) s = .next t → same s t

/-- Frame of the state outside the work of a job: which commands may change the identity block, the roster, the two
counts, the HOLD level, the patch table and the queue. -/
def Obligations.OuterStateFrame : Prop :=
  ∀ (c : Instr) (s t : State), exec c s = .next t →
    (mayChangeIdent c = false → t.ident = s.ident) ∧ (mayChangeRoster c = false → t.roster = s.roster) ∧
      (mayCountBad c = false → t.port.badFrames = s.port.badFrames) ∧
      (mayGiveUp c = false → t.port.giveUps = s.port.giveUps) ∧
      (mayChangePatches c = false → t.patches = s.patches) ∧
      ((∀ a, c ≠ .holdLineChange a) → t.port.holdLevel = s.port.holdLevel) ∧ t.pending = s.pending

/-! ### Resets and modes -/

/-- The three reset commands. The end of the memory test ends the power-on reset: LISTENING after a pass, MUTE with the latch
set after a fail, every block at its reset values; outside a test it has no effect. A RESETn pulse reads the straps, takes
the reset values, keeps the latch and the DRAM and picks the mode by the latch; during the test it is not taken. A power-on
reset begins its test: nothing transmitted, HOLD not driven, no job held, every lamp off (R26, R27, R28, R158). The model's
choices among these: what the DRAM holds after the test (log entry 9), the values of the registers, the mode and the latch
during it (log entry 13), and MEMORY_TEST_END without a test (log entry 1). -/
def Obligations.ResetsTakeTheResetValues : Prop :=
  ((∀ (pass : Bool) (straps : BitVec 5) (s : State), s.ident.memTest = true → ∃ t,
    exec (.memoryTestEnd pass straps) s = .next t ∧ afterReset s t ∧ t.pending = s.pending ∧ t.draws = s.draws ∧
      t.ident = { station := straps, memFault := !pass, mode := if pass then .listening else .mute,
                  listenTimer := if pass then some (3 * Config.tb) else none, beaconTimer := none, debt := 0,
                  memTest := false, blink := true }) ∧
    ∀ (pass : Bool) (straps : BitVec 5) (s : State), s.ident.memTest = false → exec (.memoryTestEnd pass straps) s = .next s) ∧
  ((∀ (straps : BitVec 5) (s : State), s.ident.memTest = false → ∃ t,
    exec (.resetn straps) s = .next t ∧ afterReset s t ∧ t.pending = s.pending ∧ t.draws = s.draws ∧
      t.ident = { station := straps, memFault := s.ident.memFault,
                  mode := if s.ident.memFault then .mute else .listening,
                  listenTimer := if s.ident.memFault then none else some (3 * Config.tb), beaconTimer := none, debt := 0,
                  memTest := false, blink := true }) ∧
    ∀ (straps : BitVec 5) (s : State), s.ident.memTest = true → exec (.resetn straps) s = .next s) ∧
  ∀ s : State, ∃ t, exec .powerOnReset s = .next t ∧ t.ident.memTest = true ∧ t.ident.mode = s.ident.mode ∧
    t.ident.memFault = s.ident.memFault ∧ t.ident.debt = 0 ∧ t.ident.listenTimer = none ∧ t.ident.beaconTimer = none ∧
    t.port = Port.reset s.port.holdLevel ∧ t.job = Job.reset ∧
    t.pacing = Pacing.reset ∧ t.repair = Repair.empty ∧ t.rv = Recall.reset ∧ t.patches = [] ∧
    (∀ x : Fin 32, t.roster[x] = RosterEntry.empty) ∧ (∀ k : Fin 8, t.lamps k = (.off, .off)) ∧ t.pending = s.pending

/-- The listening timer ends LISTENING in ACTIVE, the beacon timer started and the debt 1; each expiry of the beacon timer in
ACTIVE raises the debt by one, up to 8, and the timer runs on with its period Tb; where the timer does not run there is no
effect (R29, R30, R34). A repeat time of the CANCEL in progress places a copy unless one still waits, and the one after the
last copy ends it; an expiry of the source's repeat timer leaves one JOB repeat in class 3; the settle timer stops (R46, R47,
R52; that the third repeat time is the end is read from R52, log entry 16). -/
def Obligations.ModeAndJobTimersExpire : Prop :=
  (∀ s : State, s.ident.memTest = false →
    exec .listeningTimerExpiry s = .next
      (if s.ident.mode = .listening ∧ s.ident.listenTimer.isSome then
        { s with ident := { s.ident with mode := .active, listenTimer := none, beaconTimer := some Config.tb, debt := 1 } }
      else s)) ∧
  (∀ s : State, s.ident.memTest = false →
    exec .beaconTimerExpiry s = .next
      (if s.ident.mode = .active ∧ s.ident.beaconTimer.isSome then
        { s with ident :=
          { s.ident with debt := if s.ident.debt < 8 then s.ident.debt + 1 else 8, beaconTimer := some Config.tb } }
      else s)) ∧
  ∀ s : State, s.ident.memTest = false →
    (s.job.cancel = none → exec .cancelRepeatExpiry s = .next s) ∧
    (∀ c, s.job.cancel = some c → c.left = 0 →
      exec .cancelRepeatExpiry s = .next { s with job := { s.job with cancel := none } }) ∧
    (∀ c, s.job.cancel = some c → c.left ≠ 0 →
      exec .cancelRepeatExpiry s = .next
        { s with
          job := { s.job with cancel := some { copy := c.copy, left := c.left - 1, timer := some Config.tb } }
          port := { s.port with
            cancels := if c.copy ∈ s.port.cancels then s.port.cancels else s.port.cancels ++ [c.copy] } }) ∧
    exec .jobRepeatTimerExpiry s = .next
      (if s.job.source = true ∧ s.job.repeatTimer.isSome then { s with port := { s.port with jobRepeat := true } } else s) ∧
    exec .settleTimerExpiry s = .next { s with job := { s.job with settleTimer := none } }

/-! ### The bus port -/

/-- A complete reception that is judged either is accepted and handed to the owners of its kind, in order, or raises the
bad-frame count, which stays at 65,535; one that overlaps the own attempt, or comes while the receiver waits for an idle
lane, does neither. A broken reception of more than 64 stored bytes and an overlong one each count where they are judged, an
overlong one makes the receiver wait for an idle lane, and an idle lane ends that wait (R11 to R15). The model's choices among
these: the hand-over as a list of hand-offs, one for each owner in order (log entry 7), and that a reception which ends while
the transmitter is SENDING or JAMMING counts as overlapping the own attempt (log entry 8). An accepted frame passed every test
of R12: it is no shorter than a header and a check, its check matches, its kind is 1 to 6, its length field is the
number of its body bytes, that number is allowed for the kind, and the kind's own test passes; its header fields are those
of the bytes. -/
def Obligations.ReceptionsAreJudged : Prop :=
  (∀ tx : Transmitter, tx.onLane = true ↔ ∃ h, tx = .holding h .sending ∨ tx = .holding h .jamming) ∧
  (∀ (bytes : List Byte) (overlapsOwn : Bool) (s : State), s.ident.memTest = false →
    exec (.receptionComplete bytes overlapsOwn) s = .next
      (if s.port.rxWait ∨ overlapsOwn ∨ s.port.tx.onLane then s
      else
        match acceptFrame bytes with
        | some f => { s with port := { s.port with handoffs := s.port.handoffs ++ f.body.owners.map fun o => (o, f) } }
        | none =>
          { s with port := { s.port with
              badFrames := if s.port.badFrames = 0xFFFF#16 then 0xFFFF#16 else s.port.badFrames + 1 } })) ∧
  (∀ (stored : Nat) (overlapsOwn : Bool) (s : State), s.ident.memTest = false →
    let judged : Bool := !s.port.rxWait && !overlapsOwn && !s.port.tx.onLane
    let counted : Word16 := if s.port.badFrames = 0xFFFF#16 then 0xFFFF#16 else s.port.badFrames + 1
    exec (.receptionBroken stored overlapsOwn) s = .next
        (if judged ∧ 64 < stored then { s with port := { s.port with badFrames := counted } } else s) ∧
      exec (.receptionOverlong overlapsOwn) s = .next
        { s with port := { s.port with
            badFrames := if judged then counted else s.port.badFrames, rxWait := true } } ∧
      exec .laneIdle s = .next { s with port := { s.port with rxWait := false } }) ∧
  ∀ (l : List Byte) (f : Frame), acceptFrame l = some f →
    let n := l.length - 10
    11 ≤ l.length ∧ check (l.take (l.length - 4)) = word32At (l.drop (l.length - 4)) 0 ∧ (word16At l 4).toNat = n ∧
      f.sender = byteAt l 1 ∧ f.job = word16At l 2 ∧ f.body.kind = byteAt l 0 ∧
      (match f.body with
      | .beacon _ => n = 26 ∧ f.sender.toNat ≤ 31
      | .job b => b.patches.length ≤ 8 ∧ n = 23 + 25 * b.patches.length
      | .cancel _ => n = 1
      | .parcel _ => n = 4110 ∧ (byteAt l 10).toNat ≤ 7
      | .need _ _ => n = 5
      | .recallList segs => 1 ≤ segs.length ∧ segs.length ≤ 8 ∧ n = 1 + 4 * segs.length)

/-- Frames survive the lane: what a station builds from a well-formed frame (R3 to R10) is accepted as that frame, every
field at every value. -/
def Obligations.FramesSurviveTheLane : Prop :=
  ∀ f : Frame, f.wf = true → acceptFrame f.bytes = some f

/-- The arbiter's choice (R23, R24): in ACTIVE, the oldest item of the first class that is not empty, classes 1 to 9 in
order; outside ACTIVE none. -/
def Obligations.ArbiterTakesTheFirstClass : Prop :=
  ∀ s : State,
    s.choice =
      if s.ident.mode ≠ .active then none
      else if s.ident.debt = 8 then some .beacon
      else match s.port.cancels with
        | c :: _ => some (.cancel c)
        | [] =>
          if s.port.jobRepeat then some .jobRepeat
          else match s.port.class4, s.port.class5, s.port.class6, s.port.class7 with
            | seg :: _, _, _, _ => some (.need seg)
            | [], seg :: _, _, _ => some (.answer seg)
            | [], [], (seg, p) :: _, _ => some (.newData seg p)
            | [], [], [], (r, p) :: _ => some (.recallParcel r p)
            | [], [], [], [] =>
              if s.rv.request = .queued then some .recallRequest
              else if 1 ≤ s.ident.debt ∧ s.ident.debt ≤ 7 then some .beacon
              else none

/-- TRANSMITTER_TAKE: a FREE transmitter takes what the arbiter offers and waits in DEFERRING with an attempt count of 0,
the frame's contents fixed from the state at that moment, the item gone from its class: the entry of an answer stays the
oldest of class 5 while it has parcels left to send, and leaves with the last (R4, R16, R23, R36, R47, R71, R91, R100, R101,
R175, R180); with nothing offered, or a frame held already, nothing changes. The parcel an answer yields is the first set bit
of its mask from the next parcel on, in wrap order (R100). A RECALL counts one attempt, up to 4, on the owed entry of each
listed segment in every socket in COPYING or REPAYING (R175). -/
def Obligations.TransmitterTakesTheChoice : Prop :=
  (∀ (m : Byte) (start : Fin 8),
    (nextSet m start = none ↔ m = 0) ∧
      ∀ q, nextSet m start = some q ↔
        hasParcel m q = true ∧ ∀ d : Fin 8, d < q - start → hasParcel m (start + d) = false) ∧
  (∀ (m : Byte) (p q : Fin 8), hasParcel m p = m.getLsbD p.val ∧ (hasParcel (parcelBit p) q = true ↔ q = p)) ∧
  (∀ (listed : List Nat) (sk : Socket),
    let asked (e : OwedEntry) : OwedEntry :=
      { e with record := { e.record with attempts := min 4 (e.record.attempts + 1) } }
    sk.countRecall listed =
      if sk.st = .copying ∨ sk.st = .repaying then
        { sk with owed := sk.owed.map fun e => if e.seg ∈ listed then asked e else e }
      else sk) ∧
  ∀ s : State, s.ident.memTest = false →
    let hold (tag : HeldTag) (job : Word16) (body : FrameBody) : Transmitter :=
      .holding { frame := { sender := s.ident.station.setWidth 8, job := job, body := body }, tag := tag, attempts := 0 }
        .deferring
    let number : Word16 := s.job.number.getD 0
    (s.port.tx ≠ .free → exec .transmitterTake s = .next s) ∧
      (s.port.tx = .free →
        match s.choice with
        | none => exec .transmitterTake s = .next s
        | some .beacon => exec .transmitterTake s = .next
            { s with port := { s.port with tx := hold .beacon s.shownJob (.beacon s.beaconBody) } }
        | some (.cancel c) => exec .transmitterTake s = .next
            { s with port := { s.port with tx := hold .cancel c.job (.cancel c.reason), cancels := s.port.cancels.drop 1 } }
        | some .jobRepeat => ∀ b, s.job.body = some b → exec .transmitterTake s = .next
            { s with port := { s.port with
                jobRepeat := false
                tx := hold .jobRepeat number (.job
                  { b with enrollClosed := if 0 < s.win.next ∨ b.enrollClosed = 1 then 1 else 0 }) } }
        | some (.need seg) => ∀ e, s.need seg = some e → ∃ t, exec .transmitterTake s = .next t ∧
            t.port = { s.port with
              class4 := s.port.class4.drop 1, tx := hold (.need seg) number (.need (BitVec.ofNat 32 seg) e.missing) } ∧
            t.need seg = some { e with st := .asked .held } ∧ (∀ g, g ≠ seg → t.need g = s.need g) ∧
            t.repair.answers = s.repair.answers ∧ t.repair.exhausted = s.repair.exhausted ∧ t.sockets = s.sockets ∧
            t.win = s.win ∧ t.job = s.job ∧ t.ident = s.ident
        | some (.answer seg) => ∀ e q, s.answer seg = some e → nextSet e.mask e.nextParcel = some q →
            ∃ t, exec .transmitterTake s = .next t ∧
            let left := e.mask &&& ~~~ parcelBit q
            t.port = { s.port with
              class5 := if left = 0 then s.port.class5.filter fun g => g != seg else s.port.class5
              tx := hold .answer number (.parcel
                { seg := BitVec.ofNat 32 seg, parcel := q, isRepair := true, isRecall := false, isFinal := false
                  base := BitVec.ofNat 32 s.win.base, check := (s.slot (.win (winOf seg))).check
                  payload := (s.slot (.win (winOf seg))).payload q }) } ∧
            t.answer seg = (if left = 0 then none else some { e with mask := left, nextParcel := q + 1 }) ∧
            (∀ g, g ≠ seg → t.answer g = s.answer g) ∧ t.repair.needs = s.repair.needs ∧
            t.repair.exhausted = s.repair.exhausted ∧ t.sockets = s.sockets ∧ t.win = s.win ∧ t.job = s.job ∧
            t.ident = s.ident
        | some (.newData seg p) => exec .transmitterTake s = .next
            { s with port := { s.port with
                class6 := s.port.class6.drop 1
                tx := hold (.newData seg) number (.parcel
                  { seg := BitVec.ofNat 32 seg, parcel := p, isRepair := false, isRecall := false
                    isFinal := decide (seg + 1 = s.imageSize), base := BitVec.ofNat 32 s.win.base
                    check := (s.slot (.win (winOf seg))).check, payload := (s.slot (.win (winOf seg))).payload p }) } }
        | some (.recallParcel r p) => ∀ seg, (s.slot (.rslot r)).seg = some seg → exec .transmitterTake s = .next
            { s with port := { s.port with
                class7 := s.port.class7.drop 1
                tx := hold (.recallParcel r) number (.parcel
                  { seg := BitVec.ofNat 32 seg, parcel := p, isRepair := false, isRecall := true, isFinal := false
                    base := BitVec.ofNat 32 s.win.base, check := (s.slot (.rslot r)).check
                    payload := (s.slot (.rslot r)).payload p }) } }
        | some .recallRequest => ∃ t, exec .transmitterTake s = .next t ∧
            t.port = { s.port with
              tx := hold .recallRequest number (.recallList ((s.candidates.take 8).map (BitVec.ofNat 32))) } ∧
            t.rv = { s.rv with request := .taken, listed := s.candidates.take 8 } ∧
            (∀ k : Fin 8, t.sockets[k] = s.sockets[k].countRecall (s.candidates.take 8)) ∧ t.win = s.win ∧
            t.job = s.job ∧ t.repair = s.repair ∧ t.ident = s.ident)

/-- The attempt of a held frame: the inter-frame gap starts the transmission; a collision turns it into a jam, and one at byte
position 65 or later counts a bad frame; the end of a backoff defers again; in any other transmitter state these events change
nothing (the model's choice, log entry 1). The end of the jam raises the attempt count: below 16 the frame backs off for a
number of contention slots below 2 to the smaller of the count and 6 (deferring at once for 0), and at 16 it is given up: the
give-up count rises, staying at 65,535, and the transmitter is FREE (R17, R19, R20, R21, R22). FRAME_SENT frees the transmitter
as well. Either outcome is reported to the block that offered the frame: a NEED's retry timer starts, a RECALL's wait starts, a
recall parcel counts as no longer to be sent; the beacon debt becomes 0 when the beacon is sent and stays when it is given up;
the rest of the port and every other block are left alone before the judgements at the end of the step (R18, R22, R34, R83,
R92, R175, R176, R180). -/
def Obligations.FramesAreSentOrGivenUp : Prop :=
  let raised (n : Word16) : Word16 := if n = 0xFFFF#16 then 0xFFFF#16 else n + 1
  (∀ (s : State) (position : Nat), s.ident.memTest = false →
    (∀ h, s.port.tx = .holding h .deferring →
      exec .interFrameGapComplete s = .next { s with port := { s.port with tx := .holding h .sending } }) ∧
    (∀ h, s.port.tx = .holding h .sending →
      exec (.collision position) s = .next
        { s with port := { s.port with
            tx := .holding h .jamming
            badFrames := if 65 ≤ position then raised s.port.badFrames else s.port.badFrames } }) ∧
    (∀ h n, s.port.tx = .holding h (.backingOff n) →
      exec .backoffEnd s = .next { s with port := { s.port with tx := .holding h .deferring } }) ∧
    ((∀ h, s.port.tx ≠ .holding h .deferring) → exec .interFrameGapComplete s = .next s) ∧
    ((∀ h, s.port.tx ≠ .holding h .sending) → exec (.collision position) s = .next s) ∧
    ((∀ h n, s.port.tx ≠ .holding h (.backingOff n)) → exec .backoffEnd s = .next s)) ∧
  (∀ (s : State) (h : HeldFrame) (draw : Nat), s.ident.memTest = false → s.port.tx = .holding h .jamming →
    (h.attempts + 1 < 16 → ∃ u slots, exec (.jamEnd draw) s = .next (settle s.settled u) ∧
      slots < 2 ^ min (h.attempts + 1) 6 ∧
      u = { s with port := { s.port with
              tx := .holding { h with attempts := h.attempts + 1 } (if slots = 0 then .deferring else .backingOff slots) } }) ∧
    (16 ≤ h.attempts + 1 → ∃ u t, exec (.jamEnd draw) s = .next t ∧ t = settle s.settled u ∧ t.port.tx = .free ∧
      t.port.giveUps = raised s.port.giveUps ∧
      t.port.badFrames = s.port.badFrames ∧ t.ident = s.ident ∧ t.roster = s.roster ∧
      u.port = { s.port with tx := .free, giveUps := raised s.port.giveUps } ∧ u.ident = s.ident ∧
      u.sockets = s.sockets ∧ u.job = s.job ∧ u.pacing = s.pacing ∧ u.roster = s.roster ∧ u.patches = s.patches ∧
      outcomeReported h.tag s u)) ∧
  ∀ (s : State) (h : HeldFrame), s.ident.memTest = false → s.port.tx = .holding h .sending →
    ∃ u, exec .frameSent s = .next (settle s.settled u) ∧ u.port = { s.port with tx := .free } ∧
      u.ident = (if h.tag = .beacon then { s.ident with debt := 0 } else s.ident) ∧
      u.sockets = s.sockets ∧ u.job = s.job ∧ u.pacing = s.pacing ∧ u.roster = s.roster ∧ u.patches = s.patches ∧
      outcomeReported h.tag s u

/-! ### The roster -/

/-- A BEACON from another station's number makes its entry PRESENT with the values it carries and a silence timer of 12 Tb,
whatever the entry was, in every mode; every other entry and the identity block are unchanged. A BEACON with the own number
changes no entry (R38). The hand-off of the frame is taken away (the model's choice, log entry 7). -/
def Obligations.BeaconFillsTheEntry : Prop :=
  ∀ (sender : Byte) (job : Word16) (b : BeaconBody) (windowFirst : Bool) (s : State) (x : Fin 32),
    s.ident.memTest = false → sender.toNat = x.val →
    (x = s.own → ∃ t, exec (.beaconArrival sender job b windowFirst) s = .next t ∧ t.roster = s.roster) ∧
    (x ≠ s.own → ∃ t, exec (.beaconArrival sender job b windowFirst) s = .next t ∧
      t.roster = s.roster.set x
        { st := .present, job := job, digest := b.digest, jobState := b.jobState, base := b.base
          lowMark := if b.lowMark = 0xFFFFFFFF#32 then none else some b.lowMark.toNat
          settled := b.settled, timer := some (12 * Config.tb) } ∧
      t.ident = s.ident ∧
      t.port.handoffs = s.port.handoffs.erase (.roster, { sender := sender, job := job, body := .beacon b }))

/-- A BEACON with the station's own number makes a LISTENING or ACTIVE station MUTE: timers stopped and debt 0, the job
record at its reset values, every class empty and the held frame cut off without a give-up, HOLD released; the roster is
not touched. In MUTE it changes neither (R24, R31, R32). -/
def Obligations.OwnNumberMutes : Prop :=
  ∀ (sender : Byte) (job : Word16) (b : BeaconBody) (windowFirst : Bool) (s : State),
    s.ident.memTest = false → sender.toNat = s.own.val →
    ∃ t, exec (.beaconArrival sender job b windowFirst) s = .next t ∧ t.roster = s.roster ∧
      t.port.giveUps = s.port.giveUps ∧ t.port.badFrames = s.port.badFrames ∧
      (s.ident.mode = .mute → t.ident = s.ident) ∧
      (s.ident.mode ≠ .mute →
        t.ident = { s.ident with mode := .mute, listenTimer := none, beaconTimer := none, debt := 0 } ∧
          t.job = Job.reset ∧ t.port.tx = .free ∧ t.port.cancels = [] ∧ t.port.jobRepeat = false ∧ t.port.class4 = [] ∧
          t.port.class5 = [] ∧ t.port.class6 = [] ∧ t.port.class7 = [] ∧ t.rv.request ≠ .queued ∧
          t.pacing.hold = .released ∧ t.pacing.holdTimer = none ∧ (s.job.st ≠ .idle → tornDown t))

/-- The two expiries of an entry's silence timer: PRESENT becomes SILENT with the fields kept and a timer of 100 Tb, SILENT
becomes ABSENT with the ABSENT values; other entries are unchanged, and the timer of the own entry or a stopped one does
nothing to the roster (R37, R39). Outside MUTE every change of an entry, by a BEACON or by an expiry, is reported in the same
step to the job controller and to the segment window, in either order: at a station without the SOURCE role in a job whose
source the entry is, the one judges the report (SourceReportTable) and the other takes the base of a same-job entry
(BaseFollowsTheLowMarks); a report on any other entry acts at such a station on nothing (R38, R40, R58, R66; the order is the
model's choice, log entry 6). -/
def Obligations.RosterChangesAreReported : Prop :=
  (∀ (x : Fin 32) (windowFirst : Bool) (s : State), s.ident.memTest = false →
    let silent : State :=
      { s with roster := s.roster.set x { s.roster[x] with st := .silent, timer := some (100 * Config.tb) } }
    let gone : RosterEntry :=
      { st := .absent, job := 0, digest := 0, jobState := 0, base := 0, lowMark := none, settled := false, timer := none }
    let absent : State := { s with roster := s.roster.set x gone }
    (∃ t, exec (.silenceTimerExpiry x windowFirst) s = .next t ∧ t.ident = s.ident ∧
      (x = s.own ∨ s.roster[x].timer = none → t.roster = s.roster) ∧
      (x ≠ s.own → s.roster[x].timer.isSome → s.roster[x].st = .present → t.roster = silent.roster) ∧
      (x ≠ s.own → s.roster[x].timer.isSome → s.roster[x].st = .silent → t.roster = absent.roster)) ∧
    (x = s.own ∨ s.roster[x].timer = none →
      exec (.silenceTimerExpiry x windowFirst) s = .next (settle s.settled s)) ∧
    (x ≠ s.own → s.roster[x].timer.isSome → s.roster[x].st = .present →
      exec (.silenceTimerExpiry x windowFirst) s = .next (settle s.settled (rosterReport windowFirst x silent))) ∧
    (x ≠ s.own → s.roster[x].timer.isSome → s.roster[x].st = .silent →
      exec (.silenceTimerExpiry x windowFirst) s = .next (settle s.settled (rosterReport windowFirst x absent)))) ∧
  (∀ (sender : Byte) (job : Word16) (b : BeaconBody) (windowFirst : Bool) (s : State) (x : Fin 32),
    s.ident.memTest = false → sender.toNat = x.val → x ≠ s.own →
    let heard : RosterEntry :=
      { st := .present, job := job, digest := b.digest, jobState := b.jobState, base := b.base
        lowMark := if b.lowMark = 0xFFFFFFFF#32 then none else some b.lowMark.toNat
        settled := b.settled, timer := some (12 * Config.tb) }
    exec (.beaconArrival sender job b windowFirst) s = .next (takeHandoff .roster sender job (.beacon b)
      (settle s.settled (rosterReport windowFirst x { s with roster := s.roster.set x heard })))) ∧
  ∀ (windowFirst : Bool) (x : Fin 32) (s : State),
    let watched : Prop := s.job.source = false ∧ s.job.st.working = true ∧
      ∃ b, s.job.body = some b ∧ b.srcStation.toNat = x.val
    (s.ident.mode = .mute → rosterReport windowFirst x s = s) ∧
      (s.ident.mode ≠ .mute → rosterReport windowFirst x s =
        if windowFirst then jobReport x (windowReport x s) else windowReport x (jobReport x s)) ∧
      (¬ watched → jobReport x s = s ∧ windowReport x s = s) ∧
      (watched → jobReport x s = sourceReport (s.entry x) s ∧
        windowReport x s = if s.sameJob (s.entry x) = true then adoptBase (s.entry x).base.toNat s else s)

/-- The contents of a beacon at the moment it is taken, field by field (R36), with the numbers of the job states and of the
refusal reasons (R8), the tie flag and the hold-contribution flag of each socket (R118, R135), the two highest bits of a socket
code 0 (R8), and the own roster entry, which gives the same values (R37). -/
def Obligations.BeaconReportsTheStation : Prop :=
  (∀ s : State,
    let b := s.beaconBody
    b.modeBits = 1 ∧ b.refusal = (match s.job.refusal with | some r => r.code | none => 0) ∧
      b.jobState = s.job.st.code ∧ b.source = s.job.source ∧
      (b.settled = true ↔ ∀ k : Fin 8, s.sockets[k].st.inJob = false) ∧
      (b.enrollClosed = true ↔ s.job.enrollment = .closed) ∧
      b.digest = (if s.job.st = .idle then 0 else s.job.digest.getD 0) ∧
      b.base = (if s.job.st = .idle then 0 else BitVec.ofNat 32 s.win.base) ∧
      b.lowMark = (match s.lowMark with | some m => BitVec.ofNat 32 m | none => 0xFFFFFFFF#32) ∧
      b.giveUps = s.port.giveUps ∧ b.badFrames = s.port.badFrames ∧ b.codes.length = 8 ∧
      (∀ k : Fin 8, ∃ c, b.codes[k.val]? = some c ∧
        c.extractLsb' 0 4 = socketCode s.sockets[k].st s.sockets[k].reason ∧
        (c.getLsbD 4 = true ↔ s.sockets[k].tie = .released) ∧
        (c.getLsbD 5 = true ↔ s.pacing.hold = .asserted ∧
          ((s.job.st = .enrolling ∧ s.sockets[k].st = .preparing) ∨ s.pacing.loss.cond = true)) ∧
        c.getLsbD 6 = false ∧ c.getLsbD 7 = false) ∧
      s.shownJob = (if s.job.st = .idle then 0 else s.job.number.getD 0) ∧
      s.ownEntry = { st := .present, job := s.shownJob, digest := b.digest, jobState := b.jobState, base := b.base
                     lowMark := s.lowMark, settled := b.settled, timer := none }) ∧
  (JobState.code .idle = 0 ∧ JobState.code .enrolling = 1 ∧ JobState.code .copying = 2 ∧ JobState.code .closing = 3 ∧
    JobState.code .finished = 4 ∧ JobState.code .cancelled = 5 ∧ JobState.code .orphaned = 6) ∧
  RefusalReason.code .imageSize = 1 ∧ RefusalReason.code .source = 2 ∧ RefusalReason.code .config = 3 ∧
    RefusalReason.code .patchKind = 4 ∧ RefusalReason.code .patchLength = 5 ∧ RefusalReason.code .patchPlace = 6 ∧
    RefusalReason.code .patchNumber = 7

/-! ### Jobs -/

/-- A JOB frame judged for adoption fails with the lowest code of the tests it fails; a refused one sets the refusal reason,
which beacons show, and leaves the rest of the job record, the port, the sockets, the slots and every list as they were,
its own hand-off apart (R44). A JOB frame outside ACTIVE, during a job, or bearing the last adopted number in FINISHED or
CANCELLED has no effect of its own (R43). That an arrival takes its hand-off away is the model's choice (log entry 7). -/
def Obligations.JobTestsAndRefusal : Prop :=
  ((∀ (job : Word16) (b : JobBody),
    judgeJob job b =
      if b.imageSize.toNat = 0 ∨ 2097152 < b.imageSize.toNat then some .imageSize
      else if 31 < b.srcStation.toNat ∨ 7 < b.srcSocket.toNat then some .source
      else if job = 0 ∨ 2 < b.policy.toNat ∨ b.lagThreshold.toNat = 0 ∨ 15 < b.lagThreshold.toNat ∨
          15 < b.lagDuration.toNat ∨ 1 < b.latch.toNat ∨ b.needThreshold.toNat = 0 ∨ 16 < b.needThreshold.toNat ∨
          15 < b.lossDuration.toNat ∨ 1 < b.verify.toNat ∨ 1 < b.enrollClosed.toNat ∨ b.digest ≠ jobDigest b then
        some .config
      else if ∃ p ∈ b.patches, p.kind.toNat = 0 ∨ 3 < p.kind.toNat then some .patchKind
      else if ∃ p ∈ b.patches, (p.kind.toNat = 1 ∧ (p.len.toNat = 0 ∨ 16 < p.len.toNat)) ∨
          (p.kind.toNat = 2 ∧ p.len.toNat ≠ 3) ∨ (p.kind.toNat = 3 ∧ p.len.toNat ≠ 8) then some .patchLength
      else if ∃ p ∈ b.patches, 32768 < p.offset.toNat + p.len.toNat ∨ b.imageSize.toNat ≤ p.seg.toNat then
        some .patchPlace
      else if (∃ p ∈ b.patches, 7 < p.number.toNat) ∨ ¬ (b.patches.map fun p => p.number).Nodup then some .patchNumber
      else none) ∧
  ∀ (sender : Byte) (job : Word16) (b : JobBody) (r : RefusalReason) (s : State),
    s.ident.memTest = false → s.ident.mode = .active →
    (s.job.st = .idle ∨ ((s.job.st = .finished ∨ s.job.st = .cancelled) ∧ s.job.lastAdopted ≠ some job)) →
    judgeJob job b = some r →
    ∃ t, exec (.jobArrival sender job b) s = .next t ∧ t.job = { s.job with refusal := some r } ∧
      t.beaconBody.refusal = r.code ∧ t.sockets = s.sockets ∧ t.win = s.win ∧ t.repair = s.repair ∧
      t.patches = s.patches ∧ t.roster = s.roster ∧ t.port = { s.port with
        handoffs := s.port.handoffs.erase (.jobController, { sender := sender, job := job, body := .job b }) } ∧
      t.rv.heard = s.rv.heard ∧ t.rv.queue = s.rv.queue ∧ t.rv.listed = s.rv.listed) ∧
  ∀ (sender : Byte) (job : Word16) (b : JobBody) (s : State), s.ident.memTest = false →
    (s.ident.mode ≠ .active ∨ s.job.st.working = true ∨
      ((s.job.st = .finished ∨ s.job.st = .cancelled) ∧ s.job.lastAdopted = some job)) →
    exec (.jobArrival sender job b) s = .next (takeHandoff .jobController sender job (.job b) (settle s.settled s))

/-- A valid JOB frame that names another station as source is adopted in one step: number, parameters, digest and last
adopted number are stored, the refusal reason none, the patch table the frame's in entry-number order, the window at 0 and
the check table kept, every slot FREE and without claims, the repair unit and the recall unit empty, classes 3 to 7 empty,
the marks of segments 0 to N - 1 cleared in every written map. Unless the source's entry already shows this same job
FINISHED, the enroll-closed byte chooses ENROLLING or COPYING and the orphan timer starts at 5 s; each socket that is neither
exit-bound nor still in a job has an empty ring and empty lists, the tie and the lag monitor of the policy, and a READY one
becomes PREPARING with its blanking write, REJECTED (TOO-SMALL), or WAITING where enrollment is closed, as does one bound for
READY; the loss monitor runs with the job's threshold and duration, and a RELEASED HOLD output becomes ASSERTED with its 2 s
expiry exactly where a socket prepares during ENROLLING (R45, R61, R85, R104, R106, R118, R123, R127, R130, R131, R132, R133,
R143, R151, R159, R165, R170, R173). -/
def Obligations.ValidJobIsAdoptedAtASink : Prop :=
  ∀ (sender : Byte) (job : Word16) (b : JobBody) (s : State) (x : Fin 32),
    s.ident.memTest = false → s.ident.mode = .active →
    (s.job.st = .idle ∨ ((s.job.st = .finished ∨ s.job.st = .cancelled) ∧ s.job.lastAdopted ≠ some job)) →
    judgeJob job b = none → b.srcStation.toNat = x.val → x ≠ s.own →
    let monitor (running latched : Bool) (threshold duration : Byte) : Monitor :=
      { running := running, level := 0, threshold := threshold.toNat, duration := duration.toNat, latched := latched
        run := 0, cond := false }
    let emptied (k : Fin 8) : Socket := { s.sockets[k] with
      ring := [], owed := [], recheck := [], passCount := 0, passList := [], cursor := none, expect := []
      written := s.sockets[k].written.filter fun i => decide (b.imageSize.toNat ≤ i)
      tie := if b.policy = 1 then .loose else .tied
      lag := monitor (b.policy == 2) (b.latch == 1) b.lagThreshold b.lagDuration }
    let fits (k : Fin 8) : Prop := b.imageSize.toNat * 64 ≤ s.sockets[k].capacity.getD 0
    ∃ t, exec (.jobArrival sender job b) s = .next t ∧ t.job.number = some job ∧ t.job.body = some b ∧
      t.job.digest = some b.digest ∧ t.job.lastAdopted = some job ∧ t.job.refusal = none ∧ t.job.source = false ∧
      t.patches.Perm b.patches ∧ t.patches.Pairwise (fun p q => p.number.toNat < q.number.toNat) ∧
      t.win.base = 0 ∧ t.win.next = 0 ∧ t.win.readMark = 0 ∧ t.win.highestNew = none ∧
      t.win.checkTable = s.win.checkTable ∧
      (∀ id : SlotId, (t.slot id).st = .free ∧ (t.slot id).seg = none ∧ (t.slot id).mask = 0 ∧
        (t.slot id).timer = none ∧ (t.slot id).pending = 0 ∧ (t.slot id).toSend = 0 ∧ (t.slot id).buf = (s.slot id).buf) ∧
      t.repair = Repair.empty ∧ t.rv = Recall.reset ∧ t.port.cancels = s.port.cancels ∧ t.port.jobRepeat = false ∧
      t.port.class4 = [] ∧ t.port.class5 = [] ∧ t.port.class6 = [] ∧ t.port.class7 = [] ∧
      (∀ k : Fin 8, t.sockets[k].written = s.sockets[k].written.filter fun i => decide (b.imageSize.toNat ≤ i)) ∧
      (¬ (s.roster[x].st = .present ∧ s.roster[x].job = job ∧ s.roster[x].digest = b.digest ∧ s.roster[x].jobState = 4) →
        t.job.st = (if b.enrollClosed = 0 then .enrolling else .copying) ∧
          t.job.enrollment = (if b.enrollClosed = 0 then .opened else .closed) ∧
          t.job.confirmed = false ∧ t.job.orphanTimer = some (5000 * Config.ms) ∧
          (∀ k : Fin 8, s.sockets[k].exit = none → s.sockets[k].st.inJob = false →
            (s.sockets[k].st ≠ .ready → t.sockets[k] = emptied k) ∧
            (s.sockets[k].st = .ready → b.enrollClosed = 0 → fits k →
              t.sockets[k] = { emptied k with
                st := .preparing, reason := .none, cmd := some (Command.first .blanking) }) ∧
            (s.sockets[k].st = .ready → b.enrollClosed = 0 → ¬ fits k →
              t.sockets[k] = { emptied k with st := .rejected, reason := .tooSmall }) ∧
            (s.sockets[k].st = .ready → b.enrollClosed ≠ 0 →
              t.sockets[k] = { emptied k with st := .waiting, reason := .none })) ∧
          (∀ k : Fin 8, s.sockets[k].exit = some .ready → t.sockets[k].exit = none ∧
            (b.enrollClosed = 0 → fits k →
              t.sockets[k].st = .preparing ∧ t.sockets[k].cmd = some (Command.first .blanking)) ∧
            (b.enrollClosed = 0 → ¬ fits k → t.sockets[k].st = .rejected ∧ t.sockets[k].reason = .tooSmall) ∧
            (b.enrollClosed ≠ 0 → t.sockets[k].st = .waiting)) ∧
          t.pacing.loss = monitor true false b.needThreshold b.lossDuration ∧
          (t.job.st = .enrolling → (∃ k : Fin 8, t.sockets[k].st = .preparing) → s.pacing.hold = .released →
            t.pacing.hold = .asserted ∧ t.pacing.holdTimer = some (2000 * Config.ms)) ∧
          (¬ (t.job.st = .enrolling ∧ ∃ k : Fin 8, t.sockets[k].st = .preparing) →
            t.pacing.hold = .released ∧ t.pacing.holdTimer = none))

/-- A valid JOB frame that names this station as source is adopted in one step, every block taking its adoption values as at a
sink: number, parameters, digest and last adopted number stored, the refusal reason none, the patch table the frame's in
entry-number order, the window at 0 with every slot FREE and without claims, the repair unit and the recall unit empty, classes
3 to 7 empty, the marks of segments 0 to N - 1 cleared. An exit-bound socket has abandoned its command and taken its target
first, so a named socket bound for READY is READY when it is looked at; a master read so abandoned leaves its slot's flag clear
(R45, R46, R151). With the named socket READY and large enough the station takes the SOURCE role: that socket is MASTER, the
settle and repeat timers run and the orphan timer does not, every other READY socket is placed, by the enroll-closed byte and
its capacity, every other socket keeps its state with an empty ring, empty lists, the tie and the lag monitor of the policy;
the loss monitor runs with the job's threshold and duration, and the HOLD output asserts exactly where a socket prepares during
ENROLLING. Otherwise the station is CANCELLED and torn down with the job it has stored, no socket is enrolled, one CANCEL frame
with reason SOURCE-NOT-READY waits in class 2, and two copies are still to follow (R46, R52). What enrollment it then shows is
the model's reading (log entry 27). -/
def Obligations.ValidJobIsAdoptedAtTheSource : Prop :=
  ∀ (sender : Byte) (job : Word16) (b : JobBody) (s : State) (k : Fin 8),
    s.ident.memTest = false → s.ident.mode = .active →
    (s.job.st = .idle ∨ ((s.job.st = .finished ∨ s.job.st = .cancelled) ∧ s.job.lastAdopted ≠ some job)) →
    judgeJob job b = none → b.srcStation.toNat = s.ident.station.toNat → b.srcSocket.toNat = k.val →
    let monitor (running latched : Bool) (threshold duration : Byte) : Monitor :=
      { running := running, level := 0, threshold := threshold.toNat, duration := duration.toNat, latched := latched
        run := 0, cond := false }
    let tie : Tie := if b.policy = 1 then .loose else .tied
    let lag : Monitor := monitor (b.policy == 2) (b.latch == 1) b.lagThreshold b.lagDuration
    let emptied (j : Fin 8) (tie : Tie) (lag : Monitor) : Socket := { s.sockets[j] with
      ring := [], owed := [], recheck := [], passCount := 0, passList := [], cursor := none, expect := []
      written := s.sockets[j].written.filter (fun i => decide (b.imageSize.toNat ≤ i)), tie := tie, lag := lag
      exit := none, cmd := if s.sockets[j].exit.isSome then none else s.sockets[j].cmd }
    let fits (j : Fin 8) : Prop := b.imageSize.toNat * 64 ≤ s.sockets[j].capacity.getD 0
    let ready (j : Fin 8) : Prop :=
      (s.sockets[j].exit = none ∧ s.sockets[j].st = .ready) ∨ s.sockets[j].exit = some .ready
    let still (j : Fin 8) : Prop := s.sockets[j].exit = none ∧ s.sockets[j].st.inJob = false ∧ s.sockets[j].st ≠ .ready
    ∃ t, exec (.jobArrival sender job b) s = .next t ∧
      (t.job.number = some job ∧ t.job.body = some b ∧ t.job.digest = some b.digest ∧ t.job.lastAdopted = some job ∧
        t.job.refusal = none ∧ t.job.former = none ∧ t.job.confirmed = false ∧ t.job.orphanTimer = none ∧
        t.job.enrollment = (if b.enrollClosed = 0 then .opened else .closed)) ∧
      (t.patches.Perm b.patches ∧ t.patches.Pairwise (fun p q => p.number.toNat < q.number.toNat)) ∧
      (t.win.base = 0 ∧ t.win.next = 0 ∧ t.win.readMark = 0 ∧ t.win.highestNew = none ∧
        t.win.checkTable = s.win.checkTable) ∧
      (∀ id : SlotId, (t.slot id).st = .free ∧ (t.slot id).seg = none ∧ (t.slot id).mask = 0 ∧
        (t.slot id).timer = none ∧ (t.slot id).pending = 0 ∧ (t.slot id).toSend = 0 ∧
        (t.slot id).buf = (s.slot id).buf) ∧
      (∀ (j : Fin 8) (c : Command) (seg : Nat) (dst : SlotId), s.sockets[j].exit.isSome → s.sockets[j].cmd = some c →
        c.purpose = .master seg dst → (t.slot dst).masterRead = false) ∧
      (t.repair = Repair.empty ∧ t.rv = Recall.reset ∧ t.port.jobRepeat = false ∧ t.port.class4 = [] ∧
        t.port.class5 = [] ∧ t.port.class6 = [] ∧ t.port.class7 = []) ∧
      (∀ j : Fin 8, t.sockets[j].written = s.sockets[j].written.filter fun i => decide (b.imageSize.toNat ≤ i)) ∧
      (ready k ∧ fits k →
        t.job.source = true ∧ t.job.st = (if b.enrollClosed = 0 then .enrolling else .copying) ∧
          t.job.settleTimer = some (3 * Config.tb) ∧ t.job.repeatTimer = some (16 * Config.tb) ∧
          t.job.cancel = s.job.cancel ∧ t.port.cancels = s.port.cancels ∧
          t.sockets[k] = { emptied k tie lag with st := .master, reason := .none } ∧
          (∀ j : Fin 8, j ≠ k →
            (still j → t.sockets[j] = emptied j tie lag) ∧
            (ready j → b.enrollClosed = 0 → fits j → t.sockets[j] =
              { emptied j tie lag with st := .preparing, reason := .none, cmd := some (Command.first .blanking) }) ∧
            (ready j → b.enrollClosed = 0 → ¬ fits j →
              t.sockets[j] = { emptied j tie lag with st := .rejected, reason := .tooSmall }) ∧
            (ready j → b.enrollClosed ≠ 0 → t.sockets[j] = { emptied j tie lag with st := .waiting, reason := .none }) ∧
            (s.sockets[j].exit = some .waiting →
              t.sockets[j] = { emptied j tie lag with st := .waiting, reason := .none }) ∧
            (s.sockets[j].exit = some .sourceLost → s.sockets[j].st ≠ .failed →
              t.sockets[j] = { emptied j tie lag with st := .failed, reason := .sourceLost })) ∧
          t.pacing.loss = monitor true false b.needThreshold b.lossDuration ∧
          (t.job.st = .enrolling → (∃ j : Fin 8, t.sockets[j].st = .preparing) → s.pacing.hold = .released →
            t.pacing.hold = .asserted ∧ t.pacing.holdTimer = some (2000 * Config.ms)) ∧
          (¬ (t.job.st = .enrolling ∧ ∃ j : Fin 8, t.sockets[j].st = .preparing) →
            t.pacing.hold = .released ∧ t.pacing.holdTimer = none)) ∧
      (¬ (ready k ∧ fits k) →
        t.job.st = .cancelled ∧ tornDown t ∧ t.port.cancels = s.port.cancels ++ [{ job := job, reason := 2 }] ∧
          t.job.cancel = some { copy := { job := job, reason := 2 }, left := 2, timer := some Config.tb } ∧
          ∀ j : Fin 8,
            let left : Socket := { emptied j .none Monitor.idle with cmd := t.sockets[j].cmd }
            (s.sockets[j].exit.isSome → t.sockets[j].cmd = none) ∧
            ((∀ c seg src x, s.sockets[j].cmd = some c → c.purpose ≠ .descriptor seg src x) →
              s.sockets[j].exit = none → s.sockets[j].st.inJob = false → s.sockets[j].st ≠ .master →
              t.sockets[j].cmd = s.sockets[j].cmd) ∧
            (s.sockets[j].exit = none → s.sockets[j].st.inJob = false → s.sockets[j].st ≠ .master →
              s.sockets[j].st ≠ .waiting → t.sockets[j] = left) ∧
            (s.sockets[j].exit = some .ready ∨ s.sockets[j].exit = some .waiting ∨
                (still j ∧ s.sockets[j].st = .waiting) →
              t.sockets[j] = { left with st := .ready, reason := .none }) ∧
            (s.sockets[j].exit = some .sourceLost → s.sockets[j].st ≠ .failed →
              t.sockets[j] = { left with st := .failed, reason := .sourceLost }))

/-- A CANCEL frame of the current job in ACTIVE during a job moves the station to CANCELLED and tears the job down, whoever
sent it and for whatever reason; number, digest, parameters and enrollment stay. In any other case it has no effect (R51,
R84, R103, R116, R134, R150, R188). A running orphan timer that expires makes an orphan final: FINISHED, with each socket
still in the job failed with SOURCE-LOST, at once or as an exit target; an unconfirmed station in a job is CANCELLED and sends
no CANCEL (R57, R59). -/
def Obligations.CancelAndOrphanTimerEndTheJob : Prop :=
  (∀ (sender : Byte) (job : Word16) (reason : Byte) (s : State), s.ident.memTest = false →
    (s.ident.mode = .active ∧ s.job.number = some job ∧ s.job.st.working = true →
      ∃ t, exec (.cancelArrival sender job reason) s = .next t ∧ tornDown t ∧
        t.job = { s.job with st := .cancelled, former := none, source := false, orphanTimer := none
                             settleTimer := none, repeatTimer := none } ∧
        t.port.cancels = s.port.cancels ∧ t.win.checkTable = s.win.checkTable ∧
        (∀ k : Fin 8, t.sockets[k].written = s.sockets[k].written)) ∧
    (¬ (s.ident.mode = .active ∧ s.job.number = some job ∧ s.job.st.working = true) →
      exec (.cancelArrival sender job reason) s =
        .next (takeHandoff .jobController sender job (.cancel reason) (settle s.settled s)))) ∧
  ∀ s : State, s.ident.memTest = false → s.job.orphanTimer.isSome →
    (s.job.st = .orphaned → ∃ t, exec .orphanTimerExpiry s = .next t ∧ t.job.st = .finished ∧ tornDown t ∧
      t.port.cancels = s.port.cancels ∧
      ∀ k : Fin 8, s.sockets[k].st.inJob = true →
        (t.sockets[k].st = .failed ∧ t.sockets[k].reason = .sourceLost) ∨ t.sockets[k].exit = some .sourceLost) ∧
    ((s.job.st = .enrolling ∨ s.job.st = .copying ∨ s.job.st = .closing) → s.job.confirmed = false →
      ∃ t, exec .orphanTimerExpiry s = .next t ∧ t.job.st = .cancelled ∧ tornDown t ∧ t.port.cancels = s.port.cancels)

/-- How a roster report on the source's entry is judged at a station in the job (R58, with R57, R59 and R60), row by row of
the table; an entry of the same job whose job state no row names has no effect (the model's choice, log entry 18). A same-job
entry is PRESENT with the station's job number and digest (R53). The station returns from ORPHANED to the former state that the
job record holds, ENROLLING, COPYING or CLOSING (R42, R58; StepKeepsTheModeRules: it holds one of these). -/
def Obligations.SourceReportTable : Prop :=
  (∀ (e : RosterEntry) (s : State),
    s.sameJob e = true ↔ e.st = .present ∧ s.job.number = some e.job ∧ s.job.digest = some e.digest) ∧
  (∀ (j : Job) (g : JobState), g = .enrolling ∨ g = .copying ∨ g = .closing → j.former = some g → j.formerState = g) ∧
  ∀ (e : RosterEntry) (s : State), s.job.st.working = true →
    let u := sourceReport e s
    (s.sameJob e = true →
      (e.jobState = 1 ∨ e.jobState = 2 ∨ e.jobState = 3 →
        (s.job.st ≠ .orphaned → u = { s with job := { s.job with confirmed := true, orphanTimer := none } }) ∧
        (s.job.st = .orphaned →
          u = { s with job := { s.job with st := s.job.formerState, former := none, orphanTimer := none } })) ∧
      (e.jobState = 5 → u.job.st = .cancelled ∧ tornDown u ∧ u.port.cancels = s.port.cancels) ∧
      (e.jobState = 4 →
        (s.settled = true → u.job.st = .finished ∧ u.job.confirmed = true ∧ tornDown u) ∧
        (s.settled = false → s.job.st = .orphaned → u = s) ∧
        (s.settled = false → s.job.st ≠ .orphaned →
          u = { s with job := { s.job with
            st := .orphaned, former := some s.job.st, confirmed := true, orphanTimer := some (5000 * Config.ms) } })) ∧
      (e.jobState = 0 ∨ e.jobState = 6 ∨ e.jobState = 7 → u = s)) ∧
    (e.st = .present → s.job.number = some e.job → s.job.digest ≠ some e.digest →
      u.job.st = .idle ∧ u.job.number = none ∧ u.job.digest = none ∧ u.job.lastAdopted = none ∧
        u.job.enrollment = .none ∧ u.job.refusal = s.job.refusal ∧ u.port.cancels = s.port.cancels ∧ tornDown u) ∧
    (e.st = .present → s.job.number ≠ some e.job →
      (s.job.st = .orphaned ∨ s.job.confirmed = true → u.job.st = .finished ∧ tornDown u) ∧
      (s.job.st ≠ .orphaned → s.job.confirmed = false → u = s)) ∧
    (e.st = .silent →
      (s.job.st ≠ .orphaned → s.job.confirmed = true →
        u = { s with job := { s.job with
          st := .orphaned, former := some s.job.st, orphanTimer := some (5000 * Config.ms) } }) ∧
      (s.job.st = .orphaned ∨ s.job.confirmed = false → u = s)) ∧
    (e.st = .absent → u = s)

/-- SETTLED means that no socket is in PREPARING, ENROLLED, COPYING, REPAYING or VERIFYING, and the beacon's flag shows it
(R53). The finishing checks: the source finishes exactly where it is CLOSING with an empty recall queue, no recall read in
flight, itself SETTLED and every same-job entry showing SETTLED (R55); a station without the SOURCE role, in a step that
makes it SETTLED, exactly where the source's entry shows the same job FINISHED (R54); FINISHED tears the job down and keeps
number and digest (R56). A same-job entry is PRESENT with the station's job number and digest, and the own entry is computed
(R37, R53). Every step that may complete a condition ends with the same judgements, in this order (the order is
the model's choice, log entry 24): the source's base (R65), each socket moving on (R146, R147), the source's own recall
requests (R178), a queued request withdrawn (R174), the finishing checks, the HOLD output (R132). -/
def Obligations.SettledStationsFinish : Prop :=
  (∀ (x : Fin 32) (s : State),
    (s.sameJob (s.entry x) = true ↔ (s.entry x).st = .present ∧ s.job.number = some (s.entry x).job ∧
      s.job.digest = some (s.entry x).digest) ∧
    s.entry x = if x = s.own then s.ownEntry else s.roster[x]) ∧
  (∀ s : State,
    (s.settled = true ↔ ∀ k : Fin 8, s.sockets[k].st ≠ .preparing ∧ s.sockets[k].st ≠ .enrolled ∧
      s.sockets[k].st ≠ .copying ∧ s.sockets[k].st ≠ .repaying ∧ s.sockets[k].st ≠ .verifying) ∧
    s.beaconBody.settled = s.settled) ∧
  (∀ (before : Bool) (s : State),
    let t := judgeFinish before s
    let sourceDone : Prop := s.job.source = true ∧ s.job.st = .closing ∧ s.rv.queue = [] ∧ s.settled = true ∧
      (¬ ∃ c seg r, s.sockets[s.masterSocket].cmd = some c ∧ c.purpose = .master seg (.rslot r)) ∧
      ∀ x : Fin 32, s.sameJob (s.entry x) = true → (s.entry x).settled = true
    let sinkDone : Prop := s.job.source = false ∧ s.job.st.working = true ∧ before = false ∧ s.settled = true ∧
      ∃ (b : JobBody) (x : Fin 32), s.job.body = some b ∧ b.srcStation.toNat = x.val ∧
        s.sameJob (s.entry x) = true ∧ (s.entry x).jobState = 4
    (sourceDone ∨ sinkDone → t.job.st = .finished ∧ tornDown t ∧ t.job.number = s.job.number ∧
      t.job.digest = s.job.digest) ∧
    (¬ (sourceDone ∨ sinkDone) → t = s)) ∧
  ∀ (before : Bool) (s : State), settle before s = judgeHold (judgeFinish before (withdrawRequest (ownRequests
    (moveOn 7 (moveOn 6 (moveOn 5 (moveOn 4 (moveOn 3 (moveOn 2 (moveOn 1 (moveOn 0 (settleBase s))))))))))))

/-! ### The segment window -/

/-- The candidate base of the source: never above the send mark, never above the low mark of a same-job entry that reports
one, and equal to one of them; the source takes it exactly when it is larger than the base (R65). A low mark that a rise has
itself changed, by failing a socket that bound it, is judged again in the same step: a rise is followed by the judgement of
the state it leaves, until no candidate is larger than the base (R65, R67, R120). A base reported by the source is adopted by
a sink in the job outside ORPHANED when it is larger than the present base and at most N; otherwise nothing changes (R66).
Either is taken with the whole step of R67 (BaseRisePassesSegments), the second after enrollment has closed (R49). -/
def Obligations.BaseFollowsTheLowMarks : Prop :=
  (∀ (b : Nat) (s : State),
    let open66 : Prop := s.job.st = .enrolling ∨ s.job.st = .copying ∨ s.job.st = .closing
    (s.job.st.sourced = true ↔ open66) ∧
      (s.job.source = true → open66 → s.win.base < s.candidateBase → judgeBase s = baseRise s.candidateBase s) ∧
      (¬ (s.job.source = true ∧ open66 ∧ s.win.base < s.candidateBase) → judgeBase s = s) ∧
      (open66 → s.win.base < b → b ≤ s.imageSize → adoptBase b s = baseRise b (closeEnrollment s)) ∧
      ∀ e : RosterEntry,
        s.sameJob e = true ↔ e.st = .present ∧ s.job.number = some e.job ∧ s.job.digest = some e.digest) ∧
  (∀ s : State,
    s.candidateBase ≤ s.sendMark ∧
      (∀ (x : Fin 32) (m : Nat), s.sameJob (s.entry x) = true → (s.entry x).lowMark = some m → s.candidateBase ≤ m) ∧
      (s.candidateBase = s.sendMark ∨
        ∃ x : Fin 32, s.sameJob (s.entry x) = true ∧ (s.entry x).lowMark = some s.candidateBase) ∧
      (s.job.source = true → s.job.st.sourced = true →
        (judgeBase s).win.base = max s.win.base s.candidateBase) ∧
      (s.candidateBase ≤ s.win.base → judgeBase s = s)) ∧
  (∀ s : State,
    let t := settleBase s
    t = settleBase (judgeBase s) ∧ (judgeBase s = s → t = s) ∧
      (t.job.source = true → t.job.st.sourced = true → t.candidateBase ≤ t.win.base) ∧
      t.sendMark = s.sendMark ∧ s.win.base ≤ t.win.base ∧ t.win.base ≤ max s.win.base s.sendMark) ∧
  ∀ (b : Nat) (s : State),
    (s.job.st.sourced = true → s.win.base < b → b ≤ s.imageSize → (adoptBase b s).win.base = b) ∧
      (s.job.st.sourced = false ∨ b ≤ s.win.base ∨ s.imageSize < b → adoptBase b s = s)

/-- What a base rise to `b` does (R67). A slot whose segment lies below `b`: WHOLE becomes RETIRED with claims and FREE
without, FILLING and DAMAGED become FREE; a slot at or above `b` is left alone. The pending needs, exhausted segments, answer
entries and items of classes 4 and 5 below `b` are dropped (R86, R94, R102). Every pending descriptor naming a DAMAGED slot
that is passed is revoked, its segment owed with origin REVOKED and the attempts already made; every passed segment that a
socket in ENROLLED or COPYING lacks is owed with origin WINDOW-MISSED and no attempt, or the socket fails on a full owed list;
nothing else is owed. A rise to N moves COPYING to CLOSING, also as an orphan's former state (R50), and each socket is judged
in the same step for moving on (R146, SocketsMoveOn). -/
def Obligations.BaseRisePassesSegments : Prop :=
  (∀ (b : Nat) (i : Fin 16) (s : State) (seg : Nat), (s.slot (.win i)).seg = some seg →
    let sl := s.slot (.win i)
    let after := (passSlot b i s).slot (.win i)
    (b ≤ seg → passSlot b i s = s) ∧
      (seg < b → sl.st = .whole → sl.pending = 0 → sl.inFlight = 0 → after.st = .free ∧ after.seg = none) ∧
      (seg < b → sl.st = .whole → ¬ (sl.pending = 0 ∧ sl.inFlight = 0) → after = { sl with st := .retired }) ∧
      (seg < b → sl.st = .filling → after = { sl with st := .free, seg := none, mask := 0, timer := none }) ∧
      (seg < b → sl.st = .damaged → after.st = .free ∧ after.seg = none ∧ after.mask = 0 ∧ after.timer = none) ∧
      (sl.st = .retired ∨ sl.st = .reading → passSlot b i s = s)) ∧
  ∀ (b : Nat) (s : State), s.win.base < b →
    let t := passBase b s
    let reached : State := { t with job :=
      if s.job.st = .copying then { s.job with st := .closing }
      else if s.job.st = .orphaned ∧ s.job.former = some .copying then { s.job with former := some .closing }
      else s.job }
    let passed (id : SlotId) : Prop := ∃ i seg, id = .win i ∧ (s.slot id).st = .damaged ∧ (s.slot id).seg = some seg ∧ seg < b
    (b ≠ s.imageSize → baseRise b s = t) ∧
      (b = s.imageSize → baseRise b s =
        moveOn 7 (moveOn 6 (moveOn 5 (moveOn 4 (moveOn 3 (moveOn 2 (moveOn 1 (moveOn 0 reached)))))))) ∧
      t.win.base = b ∧ t.win.next = s.win.next ∧ t.win.checkTable = s.win.checkTable ∧
      t.repair.needs = s.repair.needs.filter (fun e => decide (b ≤ e.seg)) ∧
      t.repair.exhausted = s.repair.exhausted.filter (fun g => decide (b ≤ g)) ∧
      t.repair.answers = s.repair.answers.filter (fun e => decide (b ≤ e.seg)) ∧
      t.port = { s.port with class4 := s.port.class4.filter (fun g => decide (b ≤ g))
                             class5 := s.port.class5.filter (fun g => decide (b ≤ g)) } ∧
      t.rv = s.rv ∧ t.roster = s.roster ∧ t.ident = s.ident ∧ t.job = s.job ∧
      (∀ (i : Fin 16) (seg : Nat), (s.slot (.win i)).seg = some seg →
        let before := s.slot (.win i)
        let after := t.slot (.win i)
        (b ≤ seg → before.st ≠ .retired → after.st = before.st ∧ after.seg = before.seg ∧ after.mask = before.mask) ∧
          (seg < b → before.st = .filling ∨ before.st = .damaged →
            after.st = .free ∧ after.seg = none ∧ after.mask = 0 ∧ after.timer = none) ∧
          (seg < b → before.st = .whole → before.pending = 0 → before.inFlight = 0 → after.st = .free ∧ after.seg = none) ∧
          (seg < b → before.st = .whole → (after.st = .free ∧ after.seg = none) ∨
            (after.st = .retired ∧ after.seg = some seg ∧ ¬ (after.pending = 0 ∧ after.inFlight = 0)))) ∧
      ∀ k : Fin 8,
        let sk := s.sockets[k]
        let missed (seg : Nat) : Prop := s.win.base ≤ seg ∧ seg < b ∧ sk.st.enrolledOrCopying = true ∧ sk.lacks seg = true
        (t.sockets[k].st = sk.st ∧ t.sockets[k].reason = sk.reason ∨
          t.sockets[k].st = .failed ∧ t.sockets[k].reason = .owedOverflow) ∧
        t.sockets[k].written = sk.written ∧
        (t.sockets[k].st ≠ .failed →
          t.sockets[k].cmd = sk.cmd ∧ t.sockets[k].exit = sk.exit ∧ t.sockets[k].expect = sk.expect ∧
          t.sockets[k].recheck = sk.recheck ∧ t.sockets[k].ring.Sublist sk.ring ∧
          (∀ d, d ∈ t.sockets[k].ring ↔ d ∈ sk.ring ∧ ¬ (d.inFlight = false ∧ passed d.src)) ∧
          (∀ seg, missed seg → ∃ e ∈ t.sockets[k].owed, e.seg = seg ∧
            e.record = { origin := .windowMissed, attempts := 0 }) ∧
          (∀ d ∈ sk.ring, d.inFlight = false → passed d.src → t.sockets[k].owes d.seg = true) ∧
          (∀ e ∈ sk.owed, e ∈ t.sockets[k].owed) ∧
          ∀ e ∈ t.sockets[k].owed, e ∈ sk.owed ∨
            (missed e.seg ∧ e.record = { origin := .windowMissed, attempts := 0 }) ∨
            ∃ d ∈ sk.ring, d.inFlight = false ∧ passed d.src ∧ d.seg = e.seg ∧
              e.record = { origin := .revoked, attempts := d.attempts })

/-- Opening: where every condition of R70 holds, segment `next` opens: `next` rises by one, its eight new-data parcels join
class 6 in parcel order, the slot is offered to the write queues of the source's own sockets (RingsGainDescriptors), a segment
time ends at every monitor (MonitorTables), and the opening of segment 0 closes enrollment (ParcelsAtASink); where a condition
fails, nothing opens (R49, R70, R71, R107, R122). The offer and the end of the segment time come in either order, and the close
of enrollment after both (the model's choice, log entries 6 and 36). -/
def Obligations.SegmentOpens : Prop :=
  ∀ (endFirst : Bool) (s : State), s.ident.memTest = false →
    let seg := s.win.next
    let open70 : Prop := s.job.source = true ∧ (s.job.st = .enrolling ∨ s.job.st = .copying) ∧
      s.job.settleTimer = none ∧ seg < s.imageSize ∧ seg < s.win.base + 16 ∧ s.holdSeen = false ∧
      (s.slot (.win (winOf seg))).st = .whole ∧ (s.slot (.win (winOf seg))).seg = some seg
    let placed : State := { s with
      win := { s.win with next := seg + 1 }
      port := { s.port with class6 := s.port.class6 ++
        [(seg, 0), (seg, 1), (seg, 2), (seg, 3), (seg, 4), (seg, 5), (seg, 6), (seg, 7)] } }
    let told : State := if endFirst then offer (.win (winOf seg)) seg (segmentTimeEnd placed)
      else segmentTimeEnd (offer (.win (winOf seg)) seg placed)
    let u : State := if seg = 0 then closeEnrollment told else told
    let t := settle s.settled u
    (open70 → exec (.segmentOpen endFirst) s = .next t ∧ t.win.next = seg + 1 ∧ t.port.class6 = placed.port.class6 ∧
      u.port = placed.port ∧ u.win.base = s.win.base ∧ u.win.readMark = s.win.readMark ∧
      u.win.checkTable = s.win.checkTable ∧ u.repair = s.repair ∧ u.rv = s.rv ∧
      t.job.source = true ∧ (seg = 0 → s.job.st = .enrolling → t.job.st = .copying ∧ t.job.enrollment = .closed) ∧
      (seg ≠ 0 → t.job.st = s.job.st ∧ u.job = s.job)) ∧
    (¬ open70 → exec (.segmentOpen endFirst) s = .next (settle s.settled s))

/-- READ_AHEAD_READ: where the conditions of R68 hold and the read mark's slot is usable, the read is issued: the read mark
rises, the slot is READING for the segment with its mask empty and its master read flag set, and the MASTER socket's command
is the master read; every other slot and socket, the job and the port stay. A RETIRED slot is first taken back
(RingsLoseDescriptors): its pending descriptors are revoked and it is FREE; the read is issued at once if that leaves it usable,
with no write in flight, and else the slot is left draining. Where the conditions do not hold, or the slot is neither usable nor
RETIRED, no read is issued. A slot is usable when it is FREE with no write in flight, a clear master read flag and no recall
parcel to send (R61, R80). A read-ahead read is possible, and comes before any recall read, when the slot is usable or is
RETIRED and usable once taken back (the last is the model's choice, log entry 33).
RECALL_READ_ISSUE: the lowest queued segment that no slot holds leaves the queue, the lowest-numbered usable recall slot is
FILLING for it with its master read flag set, and the MASTER socket reads it (R68, R83, R179). -/
def Obligations.MasterReadsAreIssued : Prop :=
  (∀ s : State, s.ident.memTest = false →
    let k := s.masterSocket
    let id := SlotId.win (winOf s.win.readMark)
    let command : Command :=
      { purpose := .master s.win.readMark id, attempt := 1, stall := some (3000 * Config.ms), portReset := false
        plan := [], reference := 0, verdict := none }
    let due : Prop := s.job.source = true ∧ s.job.st.sourced = true ∧ s.win.readMark < s.imageSize ∧
      s.win.readMark < s.win.base + 16 ∧ s.sockets[k].st = .master ∧ s.sockets[k].cmd = none
    (due → (s.slot id).usable = true → ∃ u, exec .readAheadRead s = .next (settle s.settled u) ∧
      u.win.readMark = s.win.readMark + 1 ∧
      u.slot id = { s.slot id with
        st := .reading, seg := some s.win.readMark, mask := 0, masterRead := true, timer := none } ∧
      (∀ j, j ≠ id → u.slot j = s.slot j) ∧ u.win.base = s.win.base ∧ u.win.next = s.win.next ∧
      u.sockets[k] = { s.sockets[k] with cmd := some command } ∧
      (∀ j : Fin 8, j ≠ k → u.sockets[j] = s.sockets[j]) ∧ u.job = s.job ∧ u.port = s.port ∧ u.repair = s.repair) ∧
    (due → (s.slot id).st = .retired →
      let back := takeBack id s
      ((back.slot id).usable = true ↔ (back.slot id).inFlight = 0 ∧ (s.slot id).masterRead = false ∧
        (s.slot id).toSend = 0) ∧
      ((back.slot id).usable = true → ∃ u, exec .readAheadRead s = .next (settle s.settled u) ∧
        u.win.readMark = s.win.readMark + 1 ∧
        u.slot id = { back.slot id with
          st := .reading, seg := some s.win.readMark, mask := 0, masterRead := true, timer := none } ∧
        (∀ j, j ≠ id → u.slot j = back.slot j) ∧ u.win.base = s.win.base ∧ u.win.next = s.win.next ∧
        u.sockets[k] = { back.sockets[k] with cmd := some command } ∧
        (∀ j : Fin 8, j ≠ k → u.sockets[j] = back.sockets[j]) ∧ u.job = s.job ∧ u.port = s.port ∧
        u.repair = s.repair) ∧
      ((back.slot id).usable = false → exec .readAheadRead s = .next (settle s.settled back))) ∧
    (¬ due ∨ ((s.slot id).usable = false ∧ (s.slot id).st ≠ .retired) →
      exec .readAheadRead s = .next (settle s.settled s)) ∧
    (s.readAheadPossible = true ↔
      due ∧ ((s.slot id).usable = true ∨ ((s.slot id).st = .retired ∧ (s.slot id).inFlight = 0))) ∧
    ∀ sl : Slot, sl.usable = true ↔ sl.st = .free ∧ sl.inFlight = 0 ∧ sl.masterRead = false ∧ sl.toSend = 0) ∧
  ∀ (s : State) (seg : Nat) (r : Fin 2) (before after : List Nat), s.ident.memTest = false → s.job.source = true →
    (s.job.st = .copying ∨ s.job.st = .closing) → s.sockets[s.masterSocket].st = .master →
    s.sockets[s.masterSocket].cmd = none → s.readAheadPossible = false → s.rv.queue = before ++ seg :: after →
    (∀ g ∈ before, s.held g = true) → s.held seg = false → (s.slot (.rslot r)).usable = true →
    (∀ q : Fin 2, q < r → (s.slot (.rslot q)).usable = false) →
    ∃ u, exec .recallReadIssue s = .next (settle s.settled u) ∧
      u.rv = { s.rv with queue := s.rv.queue.filter fun g => g != seg } ∧
      u.slot (.rslot r) = { s.slot (.rslot r) with
        st := .filling, seg := some seg, mask := 0, masterRead := true, timer := none } ∧
      (∀ j, j ≠ .rslot r → u.slot j = s.slot j) ∧
      u.sockets[s.masterSocket].cmd = some (Command.first (.master seg (.rslot r))) ∧
      (∀ j : Fin 8, j ≠ s.masterSocket → u.sockets[j] = s.sockets[j]) ∧ u.job = s.job ∧ u.port = s.port

/-- A good master read into a window slot that waits for it: the 32,768 bytes are stored, their check goes to the slot and to
the check table, and the slot is WHOLE with a full mask, its master read flag clear. A good recall read: its slot is filled in
the same way and has eight recall parcels to send, which join class 7 in parcel order; then it is offered, as every slot is
(RingsGainDescriptors), to the source's own sockets that owe the segment (R69, R78, R83, R107, R180). -/
def Obligations.MasterReadsFillTheirSlots : Prop :=
  (∀ (k : Fin 8) (data : List Byte) (s : State) (c : Command) (seg : Nat) (i : Fin 16),
    s.ident.memTest = false → data.length = 32768 → s.sockets[k].cmd = some c → c.portReset = false →
    c.purpose = .master seg (.win i) → s.sockets[k].exit = none → (s.slot (.win i)).masterRead = true →
    (s.slot (.win i)).st = .reading → (s.slot (.win i)).seg = some seg → storageOk s →
    ∃ u, exec (.readSegmentComplete k (some data)) s = .next (settle s.settled u) ∧
      (u.slot (.win i)).st = .whole ∧ (u.slot (.win i)).seg = some seg ∧ (u.slot (.win i)).mask = 0xFF ∧
      (u.slot (.win i)).check = check data ∧ (u.slot (.win i)).masterRead = false ∧
      (∀ a, (u.slot (.win i)).buf.read a = data.getD a 0) ∧
      (∀ j, j ≠ .win i → u.slot j = s.slot j) ∧
      (∀ g, u.win.checkTable.read g = if g = seg then check data else s.win.checkTable.read g) ∧
      u.sockets[k] = { s.sockets[k] with cmd := none } ∧ (∀ j : Fin 8, j ≠ k → u.sockets[j] = s.sockets[j]) ∧
      u.job = s.job ∧ u.port = s.port ∧ u.repair = s.repair) ∧
  ∀ (k : Fin 8) (data : List Byte) (s : State) (c : Command) (seg : Nat) (r : Fin 2),
    s.ident.memTest = false → data.length = 32768 → s.sockets[k].cmd = some c → c.portReset = false →
    c.purpose = .master seg (.rslot r) → s.sockets[k].exit = none → (s.slot (.rslot r)).masterRead = true →
    (s.slot (.rslot r)).st = .filling → (s.slot (.rslot r)).seg = some seg → storageOk s →
    ∃ u v, exec (.readSegmentComplete k (some data)) s = .next (settle s.settled u) ∧ u = offer (.rslot r) seg v ∧
      v.slot (.rslot r) = { s.slot (.rslot r) with
        st := .whole, mask := 0xFF, check := check data, timer := none, masterRead := false, toSend := 8
        buf := (v.slot (.rslot r)).buf } ∧
      (∀ a, (v.slot (.rslot r)).buf.read a = data.getD a 0) ∧ (∀ j, j ≠ .rslot r → v.slot j = s.slot j) ∧
      v.sockets[k] = { s.sockets[k] with cmd := none } ∧ (∀ j : Fin 8, j ≠ k → v.sockets[j] = s.sockets[j]) ∧
      v.win.checkTable = u.win.checkTable ∧ v.win.base = s.win.base ∧ v.win.next = s.win.next ∧
      v.win.readMark = s.win.readMark ∧ v.port = u.port ∧ v.job = s.job ∧ v.repair = s.repair ∧ v.rv = s.rv ∧
      v.patches = s.patches ∧ v.ident = s.ident ∧ v.roster = s.roster ∧ v.pacing = s.pacing ∧
      (u.slot (.rslot r)).st = .whole ∧ (u.slot (.rslot r)).seg = some seg ∧ (u.slot (.rslot r)).mask = 0xFF ∧
      (u.slot (.rslot r)).masterRead = false ∧ (∀ a, (u.slot (.rslot r)).buf.read a = data.getD a 0) ∧
      (u.slot (.rslot r)).toSend = 8 ∧ (u.slot (.rslot r)).check = check data ∧
      u.port.class7 = s.port.class7 ++ [(r, 0), (r, 1), (r, 2), (r, 3), (r, 4), (r, 5), (r, 6), (r, 7)] ∧
      (∀ g, u.win.checkTable.read g = if g = seg then check data else s.win.checkTable.read g) ∧
      u.job = s.job ∧ u.repair = s.repair

/-- A master read whose fourth attempt ends in error at the source of a job is a master failure: the station is CANCELLED,
the job torn down, and a CANCEL with reason MASTER-READ-ERROR waits in class 2; before the fourth attempt the read is issued
again (R48, R52, R69, R139). A verify read that ends in error: before the fourth attempt the read is issued again, nothing
else changing; a fourth fails the socket with WRITE-ERROR, its ring, lists and verify record emptied and its written map kept
(R139, R148, R149). A write that ends in error: before the fourth attempt the command is issued again, for the same
purpose and with nothing else changed; a fourth failed attempt fails the socket, PREPARE-ERROR for a blanking write and
WRITE-ERROR for a descriptor write, its ring and lists emptied; and a blanking write that ends good leaves the socket ENROLLED
(R111, R139, R143, R149). -/
def Obligations.ReadAndWriteErrorsRetryThenFail : Prop :=
  (∀ (k : Fin 8) (s : State) (c : Command) (seg : Nat) (dst : SlotId) (n : Word16),
    s.ident.memTest = false → s.sockets[k].cmd = some c → c.portReset = false → c.purpose = .master seg dst →
    s.sockets[k].exit = none → s.job.source = true → s.job.st.sourced = true → s.job.number = some n →
    (4 ≤ c.attempt → ∃ t, exec (.readSegmentComplete k none) s = .next t ∧ t.job.st = .cancelled ∧ tornDown t ∧
      t.port.cancels = s.port.cancels ++ [{ job := n, reason := 3 }]) ∧
    (c.attempt < 4 → ∃ u, exec (.readSegmentComplete k none) s = .next (settle s.settled u) ∧
      u.sockets[k] = { s.sockets[k] with cmd := some { Command.first c.purpose with attempt := c.attempt + 1 } } ∧
      (∀ j : Fin 8, j ≠ k → u.sockets[j] = s.sockets[j]) ∧ u.win = s.win ∧ u.job = s.job ∧ u.port = s.port)) ∧
  (∀ (k : Fin 8) (s : State) (c : Command) (seg : Nat),
    s.ident.memTest = false → s.sockets[k].cmd = some c → c.portReset = false → c.purpose = .verify seg →
    s.sockets[k].exit = none → s.sockets[k].st ≠ .failed →
    (c.attempt < 4 → ∃ u, exec (.readSegmentComplete k none) s = .next (settle s.settled u) ∧
      u.sockets[k] = { s.sockets[k] with cmd := some { Command.first (.verify seg) with attempt := c.attempt + 1 } } ∧
      (∀ j : Fin 8, j ≠ k → u.sockets[j] = s.sockets[j]) ∧ u.win = s.win ∧ u.job = s.job ∧ u.port = s.port ∧
      u.repair = s.repair ∧ u.rv = s.rv ∧ u.pacing = s.pacing) ∧
    (4 ≤ c.attempt → ∃ u, exec (.readSegmentComplete k none) s = .next (settle s.settled u) ∧
      u.sockets[k].st = .failed ∧ u.sockets[k].reason = .writeError ∧ u.sockets[k].cmd = none ∧
      u.sockets[k].ring = [] ∧ u.sockets[k].owed = [] ∧ u.sockets[k].recheck = [] ∧ u.sockets[k].expect = [] ∧
      u.sockets[k].passList = [] ∧ u.sockets[k].passCount = 0 ∧ u.sockets[k].cursor = none ∧
      u.sockets[k].written = s.sockets[k].written ∧ (∀ j : Fin 8, j ≠ k → u.sockets[j] = s.sockets[j]) ∧
      (s.sockets[k].ring = [] → u.win = s.win) ∧ u.job = s.job ∧ u.port = s.port ∧ u.repair = s.repair ∧
      u.rv = s.rv ∧ u.pacing = s.pacing)) ∧
  ∀ (k : Fin 8) (s : State) (c : Command), s.ident.memTest = false → s.sockets[k].cmd = some c → c.portReset = false →
    s.sockets[k].exit = none → s.sockets[k].st ≠ .failed →
    (c.purpose = .blanking ∨ ∃ seg src, c.purpose = .descriptor seg src false) →
    (c.attempt < 4 → ∃ u c', exec (.writeSegmentComplete k false) s = .next (settle s.settled u) ∧
      u.sockets[k] = { s.sockets[k] with cmd := some c' } ∧ c'.purpose = c.purpose ∧ c'.attempt = c.attempt + 1 ∧
      c'.portReset = false ∧ (∀ j : Fin 8, j ≠ k → u.sockets[j] = s.sockets[j]) ∧ u.win = s.win ∧ u.job = s.job ∧
      u.port = s.port) ∧
    (4 ≤ c.attempt → ∃ u, exec (.writeSegmentComplete k false) s = .next (settle s.settled u) ∧
      u.sockets[k].st = .failed ∧
      u.sockets[k].reason = (if c.purpose = .blanking then .prepareError else .writeError) ∧ u.sockets[k].ring = [] ∧
      u.sockets[k].owed = [] ∧ u.sockets[k].expect = [] ∧ u.sockets[k].written = s.sockets[k].written ∧
      (∀ j : Fin 8, j ≠ k → u.sockets[j] = s.sockets[j]) ∧ u.job = s.job ∧ u.port = s.port) ∧
    (c.purpose = .blanking → ∃ u, exec (.writeSegmentComplete k true) s = .next (settle s.settled u) ∧
      u.sockets[k] = { s.sockets[k] with st := .enrolled, reason := .none, cmd := none } ∧
      (∀ j : Fin 8, j ≠ k → u.sockets[j] = s.sockets[j]) ∧ u.win = s.win ∧ u.job = s.job ∧ u.port = s.port)

/-- Where a parcel for a segment inside the window goes, by the state of its slot (R75), row by row of the table; a segment
that a recall slot holds is refused (R62). -/
def Obligations.PlacingTable : Prop :=
  (∀ sl : Slot, sl.usable = true ↔ sl.st = .free ∧ sl.inFlight = 0 ∧ sl.masterRead = false ∧ sl.toSend = 0) ∧
  ∀ (seg : Nat) (b : ParcelBody) (s : State),
    let id := SlotId.win (winOf seg)
    let sl := s.slot id
    let out := (placeParcel seg b s).1
    let t := (placeParcel seg b s).2
    (∀ r, (s.slot (.rslot r)).seg = some seg → out = .ignored ∧ t = s) ∧
    (s.recallHolding seg = none →
      (sl.st = .free → sl.usable = true → out = .placed ∧ t = updSlot id (fun _ =>
        { sl with st := .filling, seg := some seg, mask := parcelBit b.parcel, check := b.check
                  timer := some (4 * Config.ms)
                  buf := sl.buf.store (b.parcel.val * 4096) (payloadData b.payload) }) s) ∧
      (sl.st = .free → sl.usable = false → out = .discarded ∧ t = s) ∧
      (sl.st = .retired →
        let back := (takeBack id s).slot id
        back.st = .free ∧ back.seg = none ∧ back.buf = sl.buf ∧
          (back.usable = false → out = .discarded ∧ t = takeBack id s) ∧
          (back.usable = true → out = .placed ∧ (t.slot id).st = .filling ∧ (t.slot id).seg = some seg ∧
            (t.slot id).mask = parcelBit b.parcel ∧ (t.slot id).check = b.check ∧
            (t.slot id).buf = sl.buf.store (b.parcel.val * 4096) (payloadData b.payload))) ∧
      ((sl.st = .filling ∨ (sl.st = .damaged ∧ sl.inFlight = 0)) → sl.seg = some seg →
        (hasParcel sl.mask b.parcel = false → out = .placed ∧ t = updSlot id (fun _ =>
          { sl with mask := sl.mask ||| parcelBit b.parcel, timer := some (4 * Config.ms)
                    buf := sl.buf.store (b.parcel.val * 4096) (payloadData b.payload) }) s) ∧
        (hasParcel sl.mask b.parcel = true → out = .ignored ∧ t = s)) ∧
      (sl.st = .damaged → sl.seg = some seg → 0 < sl.inFlight → out = .discarded ∧ t = s) ∧
      (sl.st = .whole → out = .ignored ∧ t = s))

/-- A parcel at a sink in COPYING or CLOSING, for a segment inside the window that no recall slot holds and whose slot is
FREE and usable, from a sender whose base it does not adopt: the slot is FILLING with it, the payload's bytes are stored at
the parcel's place and no other byte of any buffer changes. A parcel of another job, outside a job, of segment N or more or
of the source's while ORPHANED changes no slot; neither does, at the source, any parcel but one for a DAMAGED slot with no
write in flight (R62, R72 to R75). -/
def Obligations.ParcelsAtTheWindow : Prop :=
  (∀ (sender : Byte) (job : Word16) (b : ParcelBody) (endFirst : Bool) (s : State),
    s.ident.memTest = false → s.job.source = false → s.job.number = some job →
    (s.job.st = .copying ∨ s.job.st = .closing) → b.seg.toNat < s.imageSize → b.isRecall = false →
    s.win.base ≤ b.seg.toNat → b.seg.toNat < s.win.base + 16 →
    (s.isSource sender = false ∨ b.base.toNat ≤ s.win.base) →
    (s.slot (.win (winOf b.seg.toNat))).usable = true → s.recallHolding b.seg.toNat = none → b.payload.length = 4096 →
    let id := SlotId.win (winOf b.seg.toNat)
    ∃ u t, exec (.parcelArrivalWindow sender job b endFirst) s = .next t ∧
      t = takeHandoff .segmentWindow sender job (.parcel b) (settle s.settled u) ∧
      (u.slot id).st = .filling ∧ (u.slot id).seg = some b.seg.toNat ∧ (u.slot id).mask = parcelBit b.parcel ∧
      (u.slot id).check = b.check ∧ (u.slot id).timer = some (4 * Config.ms) ∧
      (∀ j, j ≠ id → u.slot j = s.slot j) ∧ u.win.base = s.win.base ∧ u.job = s.job ∧ u.roster = s.roster ∧
      (b.isRepair = true → u.win.highestNew = s.win.highestNew) ∧
      (∀ a, (t.slot id).buf.read a =
        if b.parcel.val * 4096 ≤ a ∧ a < b.parcel.val * 4096 + 4096 then b.payload.getD (a - b.parcel.val * 4096) 0
        else (s.slot id).buf.read a) ∧
      ∀ j a, j ≠ id → (t.slot j).buf.read a = (s.slot j).buf.read a) ∧
  ∀ (sender : Byte) (job : Word16) (b : ParcelBody) (endFirst : Bool) (s : State), s.ident.memTest = false →
    let ignored : Host.Outcome State Fault Refusal := .next (takeHandoff .segmentWindow sender job (.parcel b) (settle s.settled s))
    (s.job.source = false → (s.job.number ≠ some job ∨ s.job.st.working = false) →
      exec (.parcelArrivalWindow sender job b endFirst) s = ignored) ∧
    (s.job.source = false → s.job.st = .orphaned → s.job.former ≠ some .enrolling → s.isSource sender = true →
      exec (.parcelArrivalWindow sender job b endFirst) s = ignored) ∧
    (s.job.source = false → (s.job.st = .copying ∨ s.job.st = .closing) → s.imageSize ≤ b.seg.toNat →
      exec (.parcelArrivalWindow sender job b endFirst) s = ignored) ∧
    (s.job.source = true →
      ¬ ((s.slot (.win (winOf b.seg.toNat))).st = .damaged ∧ (s.slot (.win (winOf b.seg.toNat))).seg = some b.seg.toNat ∧
        (s.slot (.win (winOf b.seg.toNat))).inFlight = 0) →
      exec (.parcelArrivalWindow sender job b endFirst) s = ignored)

/-- A parcel of the current job at a sink in the job. The first closes enrollment: ENROLLING becomes COPYING, as an orphan's
former state too, and a socket still PREPARING goes to WAITING, at once or when its attempt ends (R49, R143, R150). An orphan
then ignores the source's parcels, and every station a segment of N or more (R62, R73). A new-data parcel of a segment above
the highest new index raises that index, and a segment time ends at every monitor, before or after the parcel is handled
(R73, R122; the order is the model's choice, log entries 6 and 36). The parcel is handled: the source's base is adopted first;
a RECALL-flagged one goes to the recall slots (RecallParcels), one outside the window changes nothing more, any other is placed
(PlacingTable), and a new-data one is followed by the gap reports of its own segment and of every earlier one in the window
(R66, R74, R75, R77, R81, R88, R94; the placed report before the completion is the model's choice, log entry 35). -/
def Obligations.ParcelsAtASink : Prop :=
  (∀ (sender : Byte) (job : Word16) (b : ParcelBody) (endFirst : Bool) (s : State), s.ident.memTest = false →
    s.job.source = false → s.job.number = some job → s.job.st.working = true →
    let seg := b.seg.toNat
    let c := closeEnrollment s
    let raised : State := { c with win := { c.win with highestNew := some seg } }
    let handled (u : State) : Prop := exec (.parcelArrivalWindow sender job b endFirst) s =
      .next (takeHandoff .segmentWindow sender job (.parcel b) (settle s.settled u))
    let shut : Prop := (s.job.st = .orphaned ∧ s.isSource sender = true) ∨ s.imageSize ≤ seg
    let raises : Prop := b.isRepair = false ∧ b.isRecall = false ∧ ∀ h, s.win.highestNew = some h → h < seg
    (shut → handled c) ∧
      (¬ shut → ¬ raises → handled (judgeParcel sender b c)) ∧
      (¬ shut → raises → endFirst = true → handled (judgeParcel sender b (segmentTimeEnd raised))) ∧
      (¬ shut → raises → endFirst = false → handled (segmentTimeEnd (judgeParcel sender b raised)))) ∧
  (∀ s : State,
    let c := closeEnrollment s
    let open49 : Prop := s.job.st = .enrolling ∨ (s.job.st = .orphaned ∧ s.job.former = some .enrolling)
    (¬ open49 → c = s) ∧
      (s.job.st = .enrolling → c.job = { s.job with st := .copying, enrollment := .closed }) ∧
      (s.job.st = .orphaned → s.job.former = some .enrolling →
        c.job = { s.job with former := some .copying, enrollment := .closed }) ∧
      c.port = s.port ∧ c.repair = s.repair ∧ c.rv = s.rv ∧ c.pacing = s.pacing ∧ c.win.base = s.win.base ∧
      c.win.highestNew = s.win.highestNew ∧
      ∀ k : Fin 8,
        let waits : Socket := { s.sockets[k] with st := .waiting, reason := .none, exit := none }
        (s.sockets[k].st ≠ .preparing → c.sockets[k] = s.sockets[k]) ∧
        (open49 → s.sockets[k].st = .preparing → s.sockets[k].cmd = none → c.sockets[k] = waits) ∧
        (open49 → s.sockets[k].st = .preparing → ∀ d, s.sockets[k].cmd = some d →
          c.sockets[k] = if d.portReset then { waits with cmd := none }
            else { s.sockets[k] with exit := some .waiting })) ∧
  (∀ (sender : Byte) (b : ParcelBody) (s : State),
    let seg := b.seg.toNat
    let t := if s.isSource sender = true then adoptBase b.base.toNat s else s
    let u := judgeParcel sender b s
    (b.isRecall = true → u = placeRecall seg b t) ∧
      (b.isRecall = false → seg < t.win.base ∨ t.win.base + 16 ≤ seg → u = t) ∧
      (b.isRecall = false → t.win.base ≤ seg → seg < t.win.base + 16 →
        u = if b.isRepair then (takeParcel seg b t).2
          else gapReports seg b.parcel (takeParcel seg b t).1 (takeParcel seg b t).2)) ∧
  ∀ (seg : Nat) (b : ParcelBody) (p : Fin 8) (out : Placing) (s : State),
    let placed := placeParcel seg b s
    let sl := s.slot (.win (winOf seg))
    (placed.1 = .placed → takeParcel seg b s = (.placed, completeSlot seg (parcelPlaced seg b.parcel placed.2))) ∧
      (placed.1 ≠ .placed → takeParcel seg b s = placed) ∧
      gapReports seg p out s = (List.range' s.win.base (seg - s.win.base)).foldl
        (fun u g => gapReport g (u.missingOf g) u) (gapReport seg (s.missingBefore seg p out) s) ∧
      (∀ q : Fin 8, hasParcel (s.missingBefore seg p out) q = true ↔
        if out = .discarded then q ≤ p
        else (sl.st = .filling ∨ sl.st = .damaged) ∧ sl.seg = some seg ∧ q < p ∧ hasParcel sl.mask q = false) ∧
      s.missingOf seg = (if sl.seg ≠ some seg then 0xFF
        else if sl.st = .filling ∨ sl.st = .damaged then ~~~ sl.mask else 0)

/-- A RECALL-flagged parcel at a sink, in the first case that applies (R81): a RETIRED window slot that holds its segment is
offered; a recall slot that holds it takes the parcel if the slot is FILLING or DAMAGED without it and no write from it is in
flight, its wait timer running on, and else nothing happens; a segment that no slot holds and some socket owes opens the
lowest-numbered usable recall slot, its wait timer at 200 ms; else nothing happens. A recall slot whose mask is full: with the
right check it is WHOLE, its timer stopped, the check table has it and it is offered; with a wrong one it is DAMAGED with its
mask cleared and a wait of 200 ms (R78, R82). At the source a RECALL-flagged parcel changes nothing (R72). -/
def Obligations.RecallParcels : Prop :=
  (∀ (seg : Nat) (b : ParcelBody) (s : State),
    let t := placeRecall seg b s
    let w := s.slot (.win (winOf seg))
    let retired : Prop := w.seg = some seg ∧ w.st = .retired
    (retired → t = offer (.win (winOf seg)) seg s) ∧
      (¬ retired → ∀ r, s.recallHolding seg = some r →
        let sl := s.slot (.rslot r)
        let takes : Prop := (sl.st = .filling ∨ sl.st = .damaged) ∧ hasParcel sl.mask b.parcel = false ∧ sl.inFlight = 0
        (takes → t = completeRecall r seg (updSlot (.rslot r) (fun _ =>
          { sl with mask := sl.mask ||| parcelBit b.parcel
                    buf := sl.buf.store (b.parcel.val * 4096) (payloadData b.payload) }) s)) ∧
        (¬ takes → t = s)) ∧
      (¬ retired → s.recallHolding seg = none →
        let wanted : Prop := (∀ id : SlotId, (s.slot id).seg ≠ some seg) ∧ ∃ k : Fin 8, s.sockets[k].owes seg = true
        (∀ r, wanted → s.usableRecall = some r → t = updSlot (.rslot r) (fun sl =>
          { sl with st := .filling, seg := some seg, mask := parcelBit b.parcel, check := b.check
                    timer := some (200 * Config.ms)
                    buf := sl.buf.store (b.parcel.val * 4096) (payloadData b.payload) }) s) ∧
        (¬ wanted ∨ s.usableRecall = none → t = s))) ∧
  (∀ (seg : Nat) (s : State),
    (∀ r, s.recallHolding seg = some r → (s.slot (.rslot r)).seg = some seg) ∧
      (s.recallHolding seg = none → ∀ r : Fin 2, (s.slot (.rslot r)).seg ≠ some seg) ∧
      (∀ r, s.usableRecall = some r → (s.slot (.rslot r)).usable = true ∧
        ∀ q : Fin 2, q < r → (s.slot (.rslot q)).usable = false) ∧
      (s.usableRecall = none → ∀ r : Fin 2, (s.slot (.rslot r)).usable = false)) ∧
  (∀ (r : Fin 2) (seg : Nat) (s : State),
    let id := SlotId.rslot r
    let sl := s.slot id
    let t := completeRecall r seg s
    (sl.mask ≠ 0xFF → t = s) ∧
      (sl.mask = 0xFF → check sl.bytes = sl.check → ∃ u, t = offer id seg u ∧
        u.slot id = { sl with st := .whole, timer := none } ∧ (∀ j, j ≠ id → u.slot j = s.slot j) ∧
        (Sparse.wf s.win.checkTable →
          ∀ g, u.win.checkTable.read g = if g = seg then sl.check else s.win.checkTable.read g) ∧
        u.sockets = s.sockets ∧ u.job = s.job ∧ u.port = s.port ∧ u.repair = s.repair ∧ u.win.base = s.win.base) ∧
      (sl.mask = 0xFF → check sl.bytes ≠ sl.check → t = updSlot id (fun _ =>
        { sl with st := .damaged, mask := 0, timer := some (200 * Config.ms) }) s)) ∧
  ∀ (sender : Byte) (job : Word16) (b : ParcelBody) (endFirst : Bool) (s : State), s.ident.memTest = false →
    s.job.source = true → b.isRecall = true →
    exec (.parcelArrivalWindow sender job b endFirst) s =
      .next (takeHandoff .segmentWindow sender job (.parcel b) (settle s.settled s))

/-- The mask of a slot is full: with the right check the slot is WHOLE and the check table has it, the pending need and the
exhausted mark of its segment are gone, and it is offered; with a wrong one it is DAMAGED with its mask cleared and its gap
timer started, and the repair unit hears of the damage (R77, R78, R86, R90, R94, R107). An expired gap timer stops and the
parcels clear in the slot's mask are reported missing, the HOLD output being judged at the end of the step; an expired recall
wait timer of a FILLING or DAMAGED recall slot frees it (R76, R82, R89, R131). -/
def Obligations.SlotsCompleteAndExpire : Prop :=
  (∀ (seg : Nat) (s : State),
    let id := SlotId.win (winOf seg)
    let sl := s.slot id
    let t := completeSlot seg s
    (sl.mask ≠ 0xFF → t = s) ∧
      (sl.mask = 0xFF → check sl.bytes = sl.check → Sparse.wf s.win.checkTable →
        (t.slot id).st = .whole ∧ (t.slot id).timer = none ∧ (t.slot id).buf = sl.buf ∧
          (∀ g, t.win.checkTable.read g = if g = seg then sl.check else s.win.checkTable.read g) ∧
          ∃ u, t = offer id seg u ∧ u.sockets = s.sockets ∧
            u.repair.needs = s.repair.needs.filter (fun e => e.seg != seg) ∧
            u.repair.exhausted = s.repair.exhausted.filter (fun g => g != seg) ∧
            u.repair.answers = s.repair.answers ∧
            u.port = { s.port with class4 := s.port.class4.filter fun g => g != seg } ∧ u.job = s.job) ∧
      (sl.mask = 0xFF → check sl.bytes ≠ sl.check →
        t.slot id = { sl with st := .damaged, mask := 0, timer := some (4 * Config.ms) } ∧
          t = damageReport seg
            (updSlot id (fun _ => { sl with st := .damaged, mask := 0, timer := some (4 * Config.ms) }) s))) ∧
  ∀ s : State, s.ident.memTest = false →
    (∀ (i : Fin 16) (seg : Nat), (s.slot (.win i)).timer.isSome → (s.slot (.win i)).seg = some seg →
      exec (.gapTimerExpiry i) s = .next (judgeHold (gapReport seg (~~~ (s.slot (.win i)).mask)
        (updSlot (.win i) (fun sl => { sl with timer := none }) s)))) ∧
    (∀ i : Fin 16, ((s.slot (.win i)).timer = none ∨ (s.slot (.win i)).seg = none) →
      exec (.gapTimerExpiry i) s = .next s) ∧
    (∀ r : Fin 2, exec (.recallSlotTimerExpiry r) s = .next
      (if (s.slot (.rslot r)).timer.isSome ∧ ((s.slot (.rslot r)).st = .filling ∨ (s.slot (.rslot r)).st = .damaged) then
        updSlot (.rslot r) (fun sl => { sl with st := .free, seg := none, mask := 0, timer := none }) s
      else s))

/-! ### The repair unit -/

/-- A gap report (R87), row by row of the table: when it is ignored, the entry it creates, and what it does to an entry in
WAITING-DELAY or ASKED and to one in SUPPRESSED; a delay drawn lies within 2 ms (R85; the value drawn is free, log entry
4). The report of a slot become DAMAGED names all eight parcels: it creates an entry as any gap report does, and of an entry
that exists it fills the mask and leaves state, count and timer (R90; that a SUPPRESSED entry is left so, against R87, is the
model's choice, log entry 34). A placed parcel's bit is cleared in the entry of its segment, which goes when its mask is empty,
its NEED leaving class 4 (R94). The number of entries is reported to the loss monitor whenever it changes (R85, R130). -/
def Obligations.GapReportTable : Prop :=
  (∀ (seg : Nat) (m : Byte) (s : State),
    let taken : Prop := s.job.st.working = true ∧ m ≠ 0 ∧ seg ∉ s.repair.exhausted ∧ s.win.base ≤ seg ∧
      seg < s.win.base + 16
    let t := gapReport seg m s
    (¬ taken → t = s) ∧
      (taken → s.need seg = none → (∃ d, d ≤ 2 * Config.ms ∧
        t.need seg = some { seg := seg, missing := m, count := 0, st := .waitingDelay, timer := some d }) ∧
        t.repair.needs.length = s.repair.needs.length + 1 ∧
        t.pacing = { s.pacing with loss := s.pacing.loss.report (s.repair.needs.length + 1) }) ∧
      (s.need seg ≠ none → t.pacing = s.pacing) ∧
      (taken → ∀ e, s.need seg = some e → (e.st = .waitingDelay ∨ ∃ p, e.st = .asked p) →
        t.need seg = some { e with missing := e.missing ||| m } ∧ t.draws = s.draws) ∧
      (taken → ∀ e, s.need seg = some e → e.st = .suppressed → e.missing ||| m = e.missing → t = s) ∧
      (taken → ∀ e, s.need seg = some e → e.st = .suppressed → e.missing ||| m ≠ e.missing → (∃ d, d ≤ 2 * Config.ms ∧
        t.need seg = some { e with missing := e.missing ||| m, st := .waitingDelay, timer := some d })) ∧
      (∀ g, g ≠ seg → t.need g = s.need g) ∧ t.repair.exhausted = s.repair.exhausted ∧
      t.repair.answers = s.repair.answers ∧ t.win = s.win ∧ t.job = s.job ∧ t.port = s.port ∧ t.sockets = s.sockets) ∧
  (∀ (seg : Nat) (s : State),
    let t := damageReport seg s
    (s.need seg = none → t = gapReport seg 0xFF s) ∧
      (s.need seg ≠ none → s.job.st.working = false ∨ seg ∈ s.repair.exhausted ∨ seg < s.win.base ∨
        s.win.base + 16 ≤ seg → t = s) ∧
      (s.job.st.working = true → seg ∉ s.repair.exhausted → s.win.base ≤ seg → seg < s.win.base + 16 →
        ∀ e, s.need seg = some e → t.need seg = some { e with missing := 0xFF } ∧ t.draws = s.draws ∧
          (∀ g, g ≠ seg → t.need g = s.need g) ∧ t.pacing = s.pacing ∧ t.port = s.port ∧ t.win = s.win)) ∧
  ∀ (seg : Nat) (p : Fin 8) (s : State),
    let t := parcelPlaced seg p s
    (s.need seg = none → t = s) ∧
      ∀ e, s.need seg = some e →
        let m := e.missing &&& ~~~ parcelBit p
        t.need seg = (if m = 0 then none else some { e with missing := m }) ∧ (∀ g, g ≠ seg → t.need g = s.need g) ∧
          t.port = { s.port with
            class4 := if m = 0 then s.port.class4.filter fun g => g != seg else s.port.class4 } ∧
          t.pacing = { s.pacing with
            loss := if m = 0 then s.pacing.loss.report t.repair.needs.length else s.pacing.loss } ∧
          t.repair.exhausted = s.repair.exhausted ∧ t.repair.answers = s.repair.answers ∧ t.win = s.win ∧
          t.sockets = s.sockets ∧ t.job = s.job

/-- The timers of a pending need. WAITING-DELAY: the entry asks, its NEED joining class 4 and its count rising, unless a
parcel would be discarded, when a new delay starts. SUPPRESSED: a new delay. ASKED after a NEED: a new delay at a count of 1
to 5, exhaustion at 6 (R91, R92, R93, R96). Exhaustion: the entry leaves, with a NEED of it that waits, the segment joins the
exhausted set, and the new count is reported to the loss monitor (R85, R93, R130); every socket in ENROLLED or COPYING that
lacks the segment owes it with origin NEED-EXHAUSTED and no attempt, or fails on a full owed list; where the segment's slot is
DAMAGED, every pending descriptor that names the slot is revoked, its segment owed with origin REVOKED and the attempts
already made, and the slot stays DAMAGED (R112, R113, R114); a socket that neither lacks the segment nor has such a
descriptor is unchanged. A parcel would be discarded by a slot that is FREE but not usable, or DAMAGED or RETIRED with a write
in flight (R61, R75). -/
def Obligations.NeedTimersExpire : Prop :=
  (∀ sl : Slot,
    (sl.discards = true ↔ (sl.st = .free ∧ sl.usable = false) ∨
      ((sl.st = .damaged ∨ sl.st = .retired) ∧ 0 < sl.inFlight)) ∧
    (sl.usable = true ↔ sl.st = .free ∧ sl.inFlight = 0 ∧ sl.masterRead = false ∧ sl.toSend = 0)) ∧
  ∀ (seg : Nat) (s : State) (e : NeedEntry), s.ident.memTest = false → s.need seg = some e →
    let delayed (t : State) : Prop := ∃ d, d ≤ 2 * Config.ms ∧
      t.need seg = some { e with st := .waitingDelay, timer := some d }
    let same (t : State) : Prop := (∀ g, g ≠ seg → t.need g = s.need g) ∧ t.win = s.win ∧ t.sockets = s.sockets ∧
      t.job = s.job ∧ t.pacing = s.pacing ∧ t.repair.answers = s.repair.answers ∧
      t.repair.exhausted = s.repair.exhausted
    let id := SlotId.win (winOf seg)
    let damaged : Bool := (s.slot id).holdsIn seg .damaged
    (e.st = .waitingDelay → (s.slot id).discards = false →
      ∃ t, exec (.needDelayExpiry seg) s = .next t ∧ same t ∧
        t.need seg = some { e with count := e.count + 1, st := .asked .inClass, timer := none } ∧
        t.port = { s.port with class4 := s.port.class4 ++ [seg] }) ∧
    (e.st = .waitingDelay → (s.slot id).discards = true →
      ∃ t, exec (.needDelayExpiry seg) s = .next t ∧ same t ∧ delayed t ∧ t.port = s.port) ∧
    (e.st = .suppressed → ∃ t, exec (.suppressionExpiry seg) s = .next t ∧ same t ∧ delayed t ∧ t.port = s.port) ∧
    (e.st = .asked .retry → e.count < 6 →
      ∃ u, exec (.needRetryExpiry seg) s = .next (settle s.settled u) ∧ same u ∧ delayed u ∧ u.port = s.port) ∧
    (e.st = .asked .retry → 6 ≤ e.count →
      ∃ u, exec (.needRetryExpiry seg) s = .next (settle s.settled u) ∧ u.need seg = none ∧
        u.repair.needs = (s.repair.needs.filter fun x => x.seg != seg) ∧
        (∀ g, g ∈ u.repair.exhausted ↔ g = seg ∨ g ∈ s.repair.exhausted) ∧ u.repair.answers = s.repair.answers ∧
        u.pacing = { s.pacing with loss := s.pacing.loss.report u.repair.needs.length } ∧
        u.port = { s.port with class4 := s.port.class4.filter (· != seg) } ∧ u.job = s.job ∧ u.rv = s.rv ∧
        u.win.base = s.win.base ∧ u.win.next = s.win.next ∧ u.win.checkTable = s.win.checkTable ∧
        (damaged = true → (u.slot id).st = .damaged ∧ (u.slot id).seg = some seg) ∧
        ∀ k : Fin 8,
          let sk := s.sockets[k]
          let sk' := u.sockets[k]
          let lacking : Prop := sk.st.enrolledOrCopying = true ∧ sk.lacks seg = true
          let revoked (d : Descriptor) : Bool := damaged && d.src == id && !d.inFlight
          let owing : OwedEntry := { seg := seg, record := { origin := .needExhausted, attempts := 0 } }
          (lacking → sk.owed.length < 32 → sk.ring.filter revoked = [] →
            sk' = { sk with owed := insertOwed owing sk.owed } ∧
              ∀ x, x ∈ sk'.owed ↔ x = owing ∨ x ∈ sk.owed) ∧
          (lacking → 32 ≤ sk.owed.length → sk'.st = .failed ∧ sk'.reason = .owedOverflow ∧ sk'.ring = [] ∧
            sk'.owed = [] ∧ sk'.written = sk.written) ∧
          (¬ lacking → sk.ring.filter revoked = [] → sk' = sk) ∧
          ((sk.st ≠ .failed ∧ sk'.st = .failed ∧ sk'.reason = .owedOverflow ∧ sk'.ring = [] ∧
              sk'.written = sk.written) ∨
            (sk' = { sk with ring := sk.ring.filter (fun d => !revoked d), owed := sk'.owed, lag := sk'.lag,
                             tie := sk'.tie } ∧
              (lacking → owing ∈ sk'.owed) ∧
              (sk.st ≠ .failed → ∀ d ∈ sk.ring, revoked d = true → sk'.owes d.seg = true) ∧
              (∀ x ∈ sk.owed, x ∈ sk'.owed) ∧
              ∀ x ∈ sk'.owed, x ∈ sk.owed ∨ (lacking ∧ x = owing) ∨ ∃ d ∈ sk.ring, revoked d = true ∧
                d.seg = x.seg ∧ x.record = { origin := .revoked, attempts := d.attempts }))) ∧
    (e.st ≠ .waitingDelay → exec (.needDelayExpiry seg) s = .next s) ∧
    (e.st ≠ .suppressed → exec (.suppressionExpiry seg) s = .next s)

/-- A NEED heard from another station, at the asking side (R95): one that covers the entry of its segment acts by the entry's
state, row by row; one that does not cover changes nothing. NEED_ARRIVAL: a NEED of the current job during a job, with a mask
that is not empty and a segment below N, is judged by the asking side and by the answering side; any other is ignored. The
hand-off of the frame is taken away (the model's choice, log entry 7). At the answering side a WHOLE slot's segment (at the
source one already opened) has the NEED's mask merged into its answer entry, or an entry created while the queue has room:
DELAYING for 1 to 4 ms, or SENDING in class 5 at once at the source, its next parcel the lowest set bit of the mask (R95, R97,
R98, R100). The next parcel of a DELAYING entry is the model's choice (log entry 31). -/
def Obligations.NeedsHeardAreJudged : Prop :=
  (∀ m : Byte, m ≠ 0 → hasParcel m (lowestParcel m) = true ∧ ∀ q : Fin 8, q < lowestParcel m → hasParcel m q = false) ∧
  (∀ (seg : Nat) (m : Byte) (s : State) (e : NeedEntry), s.need seg = some e →
    let t := coverNeed seg m s
    let span : Timer := some (8 * Config.ms)
    (e.missing &&& ~~~ m ≠ 0 → t = s) ∧
      (e.missing &&& ~~~ m = 0 →
        (e.st = .waitingDelay → t.need seg = some { e with st := .suppressed, timer := span } ∧ t.port = s.port) ∧
        (e.st = .asked .inClass →
          t.need seg = some { e with st := .suppressed, count := e.count - 1, timer := span } ∧
            t.port = { s.port with class4 := s.port.class4.filter fun g => g != seg }) ∧
        (e.st = .asked .held → t = s) ∧
        (e.st = .asked .retry → t.need seg = some { e with timer := span } ∧ t.port = s.port) ∧
        (e.st = .suppressed → t.need seg = some { e with timer := span } ∧ t.port = s.port)) ∧
      (∀ g, g ≠ seg → t.need g = s.need g) ∧ t.repair.answers = s.repair.answers ∧ t.win = s.win ∧ t.job = s.job ∧
      t.sockets = s.sockets) ∧
  ∀ (sender : Byte) (job : Word16) (seg : Word32) (m : Byte) (s : State), s.ident.memTest = false →
    let g := seg.toNat
    let c := coverNeed g m s
    let taken : Prop := s.job.st.working = true ∧ s.job.number = some job ∧ m ≠ 0 ∧ g < s.imageSize
    let answering : Prop := (s.slot (.win (winOf g))).st = .whole ∧ (s.slot (.win (winOf g))).seg = some g ∧
      (s.job.source = true → g < s.win.next)
    let rest (t : State) : Prop := t.repair.needs = c.repair.needs ∧ t.sockets = s.sockets ∧ t.win = s.win ∧ t.job = s.job
    ∃ t, exec (.needArrival sender job seg m) s = .next (takeHandoff .repairUnit sender job (.need seg m) t) ∧
      (¬ taken → t = s) ∧ (taken → ¬ answering → t = c) ∧
      (taken → answering → ∀ e, s.answer g = some e →
        t.answer g = some { e with mask := e.mask ||| m } ∧ t.port = c.port ∧ rest t) ∧
      (taken → answering → s.answer g = none → 8 ≤ s.repair.answers.length → t = c) ∧
      (taken → answering → s.answer g = none → s.repair.answers.length < 8 → s.job.source = false → rest t ∧
        t.port = c.port ∧ ∃ d, Config.ms ≤ d ∧ d ≤ 4 * Config.ms ∧
          t.repair.answers = s.repair.answers ++
            [{ seg := g, mask := m, sending := false, timer := some d, nextParcel := 0 }]) ∧
      (taken → answering → s.answer g = none → s.repair.answers.length < 8 → s.job.source = true → rest t ∧
        t.port = { c.port with class5 := c.port.class5 ++ [g] } ∧
        t.answer g = some { seg := g, mask := m, sending := true, timer := none, nextParcel := lowestParcel m })

/-- A REPAIR parcel of the current job clears its bit in a DELAYING answer entry, which goes when its mask is empty; in
SENDING, without REPAIR or of another job the entry stays as it is (that it does so at the source too, against an example of
R72, is the model's choice, log entry 37). An answer's delay that expires puts a DELAYING entry
into SENDING, at its lowest parcel, behind the others in class 5 (R99, R100). -/
def Obligations.AnswersWaitAndStart : Prop :=
  (∀ m : Byte, m ≠ 0 → hasParcel m (lowestParcel m) = true ∧ ∀ q : Fin 8, q < lowestParcel m → hasParcel m q = false) ∧
  ∀ (sender : Byte) (job : Word16) (b : ParcelBody) (s : State) (e : AnswerEntry), s.ident.memTest = false →
    s.answer b.seg.toNat = some e →
    let g := b.seg.toNat
    let m := e.mask &&& ~~~ parcelBit b.parcel
    ∃ t, exec (.parcelArrivalRepair sender job b) s = .next (takeHandoff .repairUnit sender job (.parcel b) t) ∧
      (b.isRepair = true ∧ s.job.number = some job ∧ e.sending = false →
        t.answer g = (if m = 0 then none else some { e with mask := m }) ∧ t.repair.needs = s.repair.needs ∧
          t.win = s.win ∧ t.sockets = s.sockets ∧ t.job = s.job ∧ (∀ x, x ≠ g → t.answer x = s.answer x)) ∧
      (¬ (b.isRepair = true ∧ s.job.number = some job ∧ e.sending = false) → t = s) ∧
    ∃ v, exec (.answerDelayExpiry g) s = .next v ∧
      (e.sending = true → v = s) ∧
      (e.sending = false →
        v.answer g = some { e with sending := true, timer := none, nextParcel := lowestParcel e.mask } ∧
          v.port = { s.port with class5 := s.port.class5 ++ [g] } ∧ v.repair.needs = s.repair.needs ∧ v.win = s.win ∧
          v.sockets = s.sockets ∧ v.job = s.job)

/-! ### Sockets and write rings -/

/-- DESCRIPTOR_TAKE: an idle engine in COPYING or REPAYING takes the oldest PENDING descriptor whose source is ready: the
descriptor is IN-FLIGHT in its place, its slot's pending count falls and its in-flight count rises, and the engine's command
is a first attempt with the plan of the segment and the socket and the check-table entry as its reference (R109, R138, R161,
R162); with none ready, or an engine that is not idle or not writing, nothing changes. -/
def Obligations.EngineTakesTheOldestReady : Prop :=
  ∀ (k : Fin 8) (s : State), s.ident.memTest = false →
    let sk := s.sockets[k]
    let idle : Prop := (sk.st = .copying ∨ sk.st = .repaying) ∧ sk.cmd = none ∧ sk.exit = none
    (∀ older d newer, idle → sk.ring = older ++ d :: newer →
      (∀ o ∈ older, o ≠ d ∧ (o.inFlight = true ∨ s.ready o = false)) → d.inFlight = false → s.ready d = true →
      ∃ t, exec (.descriptorTake k) s = .next t ∧
        t.sockets[k].ring = older ++ { d with inFlight := true } :: newer ∧
        t.sockets[k].cmd = some
          ({ purpose := .descriptor d.seg d.src false, attempt := 1, stall := some (3000 * Config.ms), portReset := false
             plan := patchPlan s.patches s.serialBase (8 * s.ident.station.toNat + k.val) d.seg
             reference := s.win.checkTable.read d.seg, verdict := none } : Command) ∧
        t.slot d.src = { s.slot d.src with
          pending := (s.slot d.src).pending - 1, inFlight := (s.slot d.src).inFlight + 1 } ∧
        (∀ j, j ≠ d.src → t.slot j = s.slot j) ∧ (∀ j : Fin 8, j ≠ k → t.sockets[j] = s.sockets[j]) ∧
        t.sockets[k].owed = sk.owed ∧ t.sockets[k].written = sk.written ∧ t.sockets[k].st = sk.st ∧ t.job = s.job ∧
        t.port = s.port ∧ t.repair = s.repair) ∧
    (¬ idle ∨ (∀ d ∈ sk.ring, d.inFlight = true ∨ s.ready d = false) → exec (.descriptorTake k) s = .next s)

/-- What a write ring gains (R107): a socket receives a descriptor at the offer of a window slot if it is in ENROLLED or
COPYING and lacks the segment, or in ENROLLED, COPYING or REPAYING and owes it; at the offer of a recall slot if it is in
COPYING or REPAYING and owes it (R106). The sockets receive it in order, 0 to 7, and a slot left without claims acts on it
(R63, R83). The descriptor enters at the end of the ring, PENDING, with the owed entry's record, which leaves the owed list;
the slot's pending count rises and the occupancy is reported (R105, R127). An ENROLLED socket moves to COPYING and takes it in
the same step (R144). A full ring makes room first (RingsLoseDescriptors); a FAILED socket, or one whose ring is still full,
receives nothing. -/
def Obligations.RingsGainDescriptors : Prop :=
  (∀ (sk : Socket) (seg : Nat),
    let open106 : Prop := seg ∉ sk.written ∧ (∀ d ∈ sk.ring, d.seg ≠ seg) ∧ ∀ e ∈ sk.owed, e.seg ≠ seg
    let owed : Prop := ∃ e ∈ sk.owed, e.seg = seg
    (∀ i : Fin 16, sk.wants (.win i) seg = true ↔
      ((sk.st = .enrolled ∨ sk.st = .copying) ∧ open106) ∨
        ((sk.st = .enrolled ∨ sk.st = .copying ∨ sk.st = .repaying) ∧ owed)) ∧
    (∀ r : Fin 2, sk.wants (.rslot r) seg = true ↔ (sk.st = .copying ∨ sk.st = .repaying) ∧ owed)) ∧
  (∀ (id : SlotId) (seg : Nat) (s : State),
    let give (k : Fin 8) (t : State) : State := if t.sockets[k].wants id seg then queueDescriptor k id seg t else t
    let sl := s.slot id
    offer id seg s = settleSlot id (give 7 (give 6 (give 5 (give 4 (give 3 (give 2 (give 1 (give 0 s)))))))) ∧
      (∀ j, j ≠ id → (settleSlot id s).slot j = s.slot j) ∧ (settleSlot id s).sockets = s.sockets ∧
      (settleSlot id s).slot id =
        if sl.pending = 0 ∧ sl.inFlight = 0 ∧
            (sl.st = .retired ∨ (sl.st = .whole ∧ (∃ r, id = .rslot r) ∧ sl.toSend = 0)) then
          { sl with st := .free, seg := none, mask := 0, timer := none }
        else sl) ∧
  ∀ (k : Fin 8) (id : SlotId) (seg : Nat) (s : State),
    let sk := s.sockets[k]
    let d : Descriptor :=
      { seg := seg, src := id, inFlight := false, owed := (sk.owed.find? fun e => e.seg == seg).map (·.record) }
    let gained : Socket :=
      ({ sk with ring := sk.ring ++ [d], owed := sk.owed.filter fun e => e.seg != seg } : Socket).lagBy
        (Monitor.report (sk.ring.length + 1))
    let t := queueDescriptor k id seg s
    let plain (u : State) : Prop := u.sockets[k] = gained ∧ (∀ j : Fin 8, j ≠ k → u.sockets[j] = s.sockets[j]) ∧
      u.slot id = { s.slot id with pending := (s.slot id).pending + 1 } ∧ (∀ j, j ≠ id → u.slot j = s.slot j) ∧
      u.win.base = s.win.base ∧ u.job = s.job ∧ u.port = s.port ∧ u.repair = s.repair ∧ u.pacing = s.pacing
    (sk.ring.length < 18 → sk.st ≠ .failed → sk.st ≠ .enrolled → plain t) ∧
      (sk.ring.length < 18 → sk.st = .enrolled → ∃ u, plain u ∧
        t = takeDescriptor k (updSocket k (fun x => { x with st := .copying, reason := .none }) u)) ∧
      (sk.ring.length < 18 → sk.st = .failed → t = s) ∧
      (18 ≤ sk.ring.length →
        let u := overrun k s
        (u.sockets[k].st = .failed ∨ 18 ≤ u.sockets[k].ring.length → t = u) ∧
        (u.sockets[k].st ≠ .failed → u.sockets[k].ring.length < 18 → t = queueDescriptor k id seg u)) ∧
      exec (.descriptorTake k) s = .next (if s.ident.memTest then s else takeDescriptor k s)

/-- What a write ring loses. A full ring loses its oldest PENDING descriptor as OVERRUN before the next is queued (R108). A
revoked descriptor leaves the ring, its slot's pending count falls, the occupancy is reported, and its segment is owed with
the attempts its owed record has (R112). An owed entry enters at its ascending place, one already there for the segment
staying as it is; a full list fails the socket with OWED-OVERFLOW, and a FAILED socket takes none (R114, R171). Taking a slot
back revokes every pending descriptor that names it and frees it (R67, R112). An emptied ring: its
pending descriptors end CANCELLED, each slot's pending count falling, a write in flight goes on detached, one between attempts
ends, the occupancy of 0 is reported (R115; the last but one is the model's choice, log entry 21). A socket that fails has an
empty ring and empty lists, takes no exit any more and keeps its written map (R149). -/
def Obligations.RingsLoseDescriptors : Prop :=
  (∀ (k : Fin 8) (s : State),
    (s.sockets[k].ring.length < 18 ∨ (∀ d ∈ s.sockets[k].ring, d.inFlight = true) → overrun k s = s) ∧
      ∀ older d newer, s.sockets[k].ring = older ++ d :: newer → (∀ o ∈ older, o.inFlight = true) → d.inFlight = false →
        18 ≤ s.sockets[k].ring.length → overrun k s = settleSlot d.src (revoke k d .overrun s)) ∧
  (∀ (k : Fin 8) (d : Descriptor) (origin : Origin) (older newer : List Descriptor) (s : State),
    let sk := s.sockets[k]
    let t := revoke k d origin s
    sk.ring = older ++ d :: newer → d ∉ older → sk.st ≠ .failed →
    (∀ j : Fin 8, j ≠ k → t.sockets[j] = s.sockets[j]) ∧ t.job = s.job ∧ t.port = s.port ∧ t.repair = s.repair ∧
      (sk.owed.length < 32 →
        t.slot d.src = { s.slot d.src with pending := (s.slot d.src).pending - 1 } ∧
          (∀ id, id ≠ d.src → t.slot id = s.slot id) ∧
          t.sockets[k] = ({ sk with
            ring := older ++ newer
            owed := insertOwed { seg := d.seg, record := { origin := origin, attempts := d.attempts } } sk.owed } :
              Socket).lagBy (Monitor.report (older ++ newer).length)) ∧
      (32 ≤ sk.owed.length → t.sockets[k].st = .failed ∧ t.sockets[k].reason = .owedOverflow ∧ t.sockets[k].ring = [] ∧
        t.sockets[k].owed = [])) ∧
  (∀ d : Descriptor, d.attempts = match d.owed with | some r => r.attempts | none => 0) ∧
  (∀ (k : Fin 8) (seg n : Nat) (origin : Origin) (s : State),
    let e : OwedEntry := { seg := seg, record := { origin := origin, attempts := n } }
    let l := s.sockets[k].owed
    let t := addOwed k seg origin n s
    (s.sockets[k].st = .failed → t = s) ∧
      (s.sockets[k].st ≠ .failed → 32 ≤ l.length → t = failSocket k .owedOverflow s) ∧
      (s.sockets[k].st ≠ .failed → l.length < 32 → t = updSocket k (fun sk => { sk with owed := insertOwed e l }) s) ∧
      (ascending (l.map (·.seg)) → ascending ((insertOwed e l).map (·.seg)) ∧
        ∀ x, x ∈ insertOwed e l ↔ x ∈ l ∨ (x = e ∧ s.sockets[k].owes seg = false))) ∧
  (∀ (id : SlotId) (s : State),
    let t := takeBack id s
    (t.slot id).st = .free ∧ (t.slot id).seg = none ∧ (t.slot id).mask = 0 ∧ (t.slot id).timer = none ∧
      (t.slot id).buf = (s.slot id).buf ∧ (t.slot id).masterRead = (s.slot id).masterRead ∧
      (t.slot id).toSend = (s.slot id).toSend ∧ t.job = s.job ∧ t.port = s.port ∧ t.repair = s.repair ∧
      ∀ k : Fin 8, (t.sockets[k].ring = (s.sockets[k].ring.filter fun d => !(d.src == id && !d.inFlight)) ∧
          (∀ e ∈ s.sockets[k].owed, e ∈ t.sockets[k].owed) ∧ (t.sockets[k].st = s.sockets[k].st) ∧
          (s.sockets[k].st ≠ .failed → ∀ d ∈ s.sockets[k].ring, d.src = id → d.inFlight = false →
            ∃ e ∈ t.sockets[k].owed, e.seg = d.seg) ∧
          ∀ e ∈ t.sockets[k].owed, e ∈ s.sockets[k].owed ∨ ∃ d ∈ s.sockets[k].ring, d.src = id ∧ d.inFlight = false ∧
            d.seg = e.seg ∧ e.record = { origin := .revoked, attempts := d.attempts }) ∨
        (t.sockets[k].st = .failed ∧ t.sockets[k].reason = .owedOverflow ∧ t.sockets[k].ring = [])) ∧
  ∀ (k : Fin 8) (s : State),
    let sk := s.sockets[k]
    let t := emptyRing k s
    let pend (id : SlotId) : Nat := (sk.ring.filter fun d => d.src == id && !d.inFlight).length
    t.sockets[k].ring = [] ∧ t.sockets[k].owed = sk.owed ∧ t.sockets[k].st = sk.st ∧
      t.sockets[k].written = sk.written ∧ t.sockets[k].exit = sk.exit ∧
      t.sockets[k].lag = sk.lag.report 0 ∧ t.sockets[k].tie = sk.tie.follow sk.lag.cond (sk.lag.report 0).cond ∧
      (∀ j : Fin 8, j ≠ k → t.sockets[j] = s.sockets[j]) ∧ t.job = s.job ∧ t.port = s.port ∧ t.repair = s.repair ∧
      (∀ id : SlotId, (t.slot id).pending = (s.slot id).pending - pend id ∧ (t.slot id).buf = (s.slot id).buf) ∧
      (∀ c seg src x, sk.cmd = some c → c.purpose = .descriptor seg src x → c.portReset = false →
        t.sockets[k].cmd = some { c with purpose := .descriptor seg src true } ∧
          ∀ id : SlotId, (t.slot id).inFlight = (s.slot id).inFlight) ∧
      (∀ c seg src x, sk.cmd = some c → c.purpose = .descriptor seg src x → c.portReset = true →
        t.sockets[k].cmd = none ∧
          ∀ id : SlotId, (t.slot id).inFlight = (s.slot id).inFlight - if id = src then 1 else 0) ∧
      ((∀ c seg src x, sk.cmd = some c → c.purpose ≠ .descriptor seg src x) → t.sockets[k].cmd = sk.cmd) ∧
      ∀ r : Reason, (sk.st = .failed → failSocket k r s = s) ∧
        (sk.st ≠ .failed →
          let f := failSocket k r s
          f.sockets[k].st = .failed ∧ f.sockets[k].reason = r ∧ f.sockets[k].exit = none ∧ f.sockets[k].ring = [] ∧
            f.sockets[k].owed = [] ∧ f.sockets[k].recheck = [] ∧ f.sockets[k].expect = [] ∧ f.sockets[k].passList = [] ∧
            f.sockets[k].passCount = 0 ∧ f.sockets[k].cursor = none ∧ f.sockets[k].written = sk.written ∧
            f.sockets[k].cmd = t.sockets[k].cmd ∧ f.sockets[k].lag = t.sockets[k].lag ∧ f.win = t.win ∧
            (∀ j : Fin 8, j ≠ k → f.sockets[j] = s.sockets[j]) ∧ f.job = s.job ∧ f.port = s.port)

/-- A descriptor write whose attempt ends good, at a socket that is neither exit-bound nor detached: the descriptor leaves
the ring with its command, its slot's in-flight count falls, and the engine takes its next descriptor at once. Clean: the
written mark is set and no other mark changes, the owed list is as it was, and the expectation list holds the patched check
for a patched segment and nothing for a plain one. Corrupt: the mark is set all the same; with verify off, or no room in the
expectation list, the segment is owed with origin POISONED and the attempts of the descriptor's owed record, or the socket
fails on a full owed list; with verify on and room a poisoned expectation entry stands. A segment written clean, or poisoned
with an expectation entry, joins the recheck list in REPAYING with verify on (R63, R110, R145, R165, R166, R167, R183). A
segment is patched when the patch table names it; the list has room for one that has an entry already, for a patched one, and
for a plain one while it holds fewer than 16 - P plain entries, P the number of patched segments (R165, R167). -/
def Obligations.GoodWritesEndWrittenOrPoisoned : Prop :=
  (∀ (k : Fin 8) (seg : Nat) (s : State),
    (s.isPatched seg = true ↔ ∃ p ∈ s.patches, p.seg.toNat = seg) ∧
      (∃ l : List Nat, l.Nodup ∧ (∀ g, g ∈ l ↔ s.isPatched g = true) ∧ s.patchedCount = l.length) ∧
      (s.expectRoom k seg = true ↔ (∃ e ∈ s.sockets[k].expect, e.seg = seg) ∨ s.isPatched seg = true ∨
        (s.sockets[k].expect.filter fun e => !s.isPatched e.seg).length < 16 - s.patchedCount) ∧
      (s.verifyOn = true ↔ ∃ b, s.job.body = some b ∧ b.verify = 1)) ∧
  ∀ (k : Fin 8) (s : State) (c : Command) (seg : Nat) (src : SlotId) (v : Verdict), s.ident.memTest = false →
    s.sockets[k].cmd = some c → c.portReset = false → c.purpose = .descriptor seg src false → c.verdict = some v →
    s.sockets[k].exit = none →
    let left : List Descriptor := s.sockets[k].ring.filter fun d => !(d.inFlight && d.seg == seg)
    let kept (l : List Descriptor) : List (Nat × SlotId × Option OwedRecord) := l.map fun d => (d.seg, d.src, d.owed)
    let handedBack (u : State) : Prop := kept u.sockets[k].ring = kept left ∧
      (u.sockets[k].cmd = none → (u.slot src).inFlight = (s.slot src).inFlight - 1) ∧
      ∀ c', u.sockets[k].cmd = some c' → ∃ g next, c'.purpose = .descriptor g next false ∧ c'.attempt = 1 ∧
        (u.slot src).inFlight = (s.slot src).inFlight - 1 + if next = src then 1 else 0
    let rechecked (u : State) : Prop := ∀ g, g ∈ u.sockets[k].recheck ↔
      g ∈ s.sockets[k].recheck ∨ (g = seg ∧ s.verifyOn = true ∧ s.sockets[k].st = .repaying)
    (v.clean = true → ∃ u, exec (.writeSegmentComplete k true) s = .next (settle s.settled u) ∧ handedBack u ∧
      rechecked u ∧ (∀ g, g ∈ u.sockets[k].written ↔ g = seg ∨ g ∈ s.sockets[k].written) ∧
      u.sockets[k].owed = s.sockets[k].owed ∧ u.sockets[k].st = s.sockets[k].st ∧
      u.sockets[k].ring.length ≤ s.sockets[k].ring.length ∧
      (s.isPatched seg = true → ∃ e ∈ u.sockets[k].expect, e.seg = seg ∧ e.check = v.patched ∧ e.poisoned = false) ∧
      (s.isPatched seg = false → ∀ e ∈ u.sockets[k].expect, e.seg ≠ seg) ∧
      (∀ j : Fin 8, j ≠ k → u.sockets[j] = s.sockets[j]) ∧ u.job = s.job ∧ u.port = s.port ∧ u.repair = s.repair ∧
      u.win.base = s.win.base ∧ u.win.checkTable = s.win.checkTable) ∧
    (v.clean = false → s.sockets[k].st = .copying ∨ s.sockets[k].st = .repaying → s.sockets[k].owes seg = false →
      ∃ u, exec (.writeSegmentComplete k true) s = .next (settle s.settled u) ∧
        (∀ g, g ∈ u.sockets[k].written ↔ g = seg ∨ g ∈ s.sockets[k].written) ∧
        (∀ j : Fin 8, j ≠ k → u.sockets[j] = s.sockets[j]) ∧ u.job = s.job ∧ u.port = s.port ∧ u.repair = s.repair ∧
        (s.verifyOn = true → s.expectRoom k seg = true → handedBack u ∧ rechecked u ∧
          u.sockets[k].owed = s.sockets[k].owed ∧ ∃ e ∈ u.sockets[k].expect, e.seg = seg ∧ e.poisoned = true) ∧
        (s.verifyOn = false ∨ s.expectRoom k seg = false → s.sockets[k].owed.length < 32 → handedBack u ∧
          u.sockets[k].recheck = s.sockets[k].recheck ∧
          ∃ e ∈ u.sockets[k].owed, e.seg = seg ∧ e.record.origin = .poisoned ∧
            e.record.attempts = s.sockets[k].flightAttempts seg) ∧
        (s.verifyOn = false ∨ s.expectRoom k seg = false → 32 ≤ s.sockets[k].owed.length →
          u.sockets[k].st = .failed ∧ u.sockets[k].reason = .owedOverflow))

/-- Stalls: an attempt that stalls before the fourth puts its command between attempts, and the end of the port reset issues
the next attempt; a fourth that stalls fails the socket, STALL for a descriptor write or a verify read and PREPARE-ERROR for a
blanking write; the fourth of a master read is a master failure: at the source of a job the station is CANCELLED, the job torn
down, and a CANCEL with reason MASTER-READ-ERROR waits in class 2, elsewhere the command ends and its slot with it (R48, R52,
R69, R138, R139, R149, R154). An attach command that stalls rejects the stick with NO-RESPONSE, its one attempt being over
(R140; log entry 22). A command that is not between attempts has no port reset to end, and PORT_RESET_END leaves it alone (the
model's choice, log entry 1). -/
def Obligations.StallsResetThePort : Prop :=
  (∀ (k : Fin 8) (s : State) (c : Command), s.ident.memTest = false → s.sockets[k].cmd = some c →
    s.sockets[k].exit = none → c.portReset = false → c.stall.isSome →
    (c.purpose = .blanking → 4 ≤ c.attempt → s.sockets[k].st ≠ .failed →
      ∃ u, exec (.stallTimerExpiry k) s = .next (settle s.settled u) ∧ u.sockets[k].st = .failed ∧
        u.sockets[k].reason = .prepareError ∧ u.sockets[k].cmd = none ∧ u.sockets[k].ring = [] ∧
        u.sockets[k].owed = [] ∧ u.sockets[k].written = s.sockets[k].written ∧
        (∀ j : Fin 8, j ≠ k → u.sockets[j] = s.sockets[j]) ∧ u.job = s.job ∧ u.port = s.port) ∧
    (∀ seg dst, c.purpose = .master seg dst → 4 ≤ c.attempt →
      let cleared : State := updSocket k (fun sk => { sk with cmd := none }) s
      (∀ n : Word16, s.job.source = true → s.job.st.sourced = true → s.job.number = some n →
        ∃ t, exec (.stallTimerExpiry k) s = .next t ∧ t.job.st = .cancelled ∧ tornDown t ∧
          t.port.cancels = s.port.cancels ++ [{ job := n, reason := 3 }]) ∧
      (s.job.source = false ∨ s.job.st.sourced = false →
        exec (.stallTimerExpiry k) s = .next (settle s.settled (endMasterRead dst cleared)))) ∧
    (c.purpose = .identify ∨ c.purpose = .capacity ∨ c.purpose = .protectStatus →
      exec (.stallTimerExpiry k) s = .next (settle s.settled (updSocket k (fun sk =>
        { sk with st := .rejected, reason := .noResponse, cmd := none, attachTimer := none }) s)))) ∧
  ∀ (k : Fin 8) (s : State) (c : Command), s.ident.memTest = false → s.sockets[k].cmd = some c →
    s.sockets[k].exit = none →
    (c.purpose = .blanking ∨ (∃ seg src, c.purpose = .descriptor seg src false) ∨ (∃ seg, c.purpose = .verify seg) ∨
      ∃ seg dst, c.purpose = .master seg dst) →
    (c.portReset = false → c.stall.isSome → c.attempt < 4 →
      ∃ u, exec (.stallTimerExpiry k) s = .next (settle s.settled u) ∧
        u = updSocket k (fun sk => { sk with cmd := some { c with stall := none, portReset := true } }) s) ∧
    (c.portReset = false → c.stall.isSome → 4 ≤ c.attempt → s.sockets[k].st ≠ .failed →
      (∃ seg, c.purpose = .verify seg ∨ ∃ src, c.purpose = .descriptor seg src false) →
      ∃ u, exec (.stallTimerExpiry k) s = .next (settle s.settled u) ∧ u.sockets[k].st = .failed ∧
        u.sockets[k].reason = .stall ∧ u.sockets[k].ring = [] ∧ u.sockets[k].owed = [] ∧
        (∀ j : Fin 8, j ≠ k → u.sockets[j] = s.sockets[j]) ∧ u.job = s.job) ∧
    (c.portReset = true → ∃ u c', exec (.portResetEnd k) s = .next (settle s.settled u) ∧
      u.sockets[k] = { s.sockets[k] with cmd := some c' } ∧ c'.purpose = c.purpose ∧ c'.attempt = c.attempt + 1 ∧
      c'.portReset = false ∧ c'.stall = some (3000 * Config.ms) ∧
      (∀ j : Fin 8, j ≠ k → u.sockets[j] = s.sockets[j]) ∧ u.win = s.win ∧ u.job = s.job) ∧
    (c.portReset = false → exec (.portResetEnd k) s = .next (settle s.settled s))

/-- Exit-bound sockets and detached writes. A target is taken at once with no command in flight, also between attempts, whose
command then ends; otherwise it waits for the end of the present attempt (R143, R150): WAITING; READY, placed by the job state
as an attached stick is; or FAILED (SOURCE-LOST). The next end of the attempt in flight of an exit-bound socket or of a detached
write, good or in error, by completion, stall or port reset, ends the command with its result discarded, and a target is taken;
the stream of a good descriptor write is judged all the same (R115, R139, R150, R151, R164; that a stream not judged by then is
judged at the completion is the model's reading, log entry 11). An ended command leaves the
engine; a descriptor write's slot has one write less in flight and acts if it is left without claims, a master read's slot
clears its flag and is FREE if it still waits (R63, R69, R83). -/
def Obligations.ExitTargetsAreTaken : Prop :=
  (∀ (k : Fin 8) (s : State),
    let sk := s.sockets[k]
    let turned (st : SocketState) (r : Reason) (cmd : Option Command) : State :=
      updSocket k (fun _ => { sk with st := st, reason := r, exit := none, cmd := cmd }) s
    takeTarget k .waiting s = turned .waiting .none sk.cmd ∧
      (s.job.st = .idle ∨ s.job.st = .finished ∨ s.job.st = .cancelled → takeTarget k .ready s = turned .ready .none sk.cmd) ∧
      (s.job.st = .copying ∨ s.job.st = .closing ∨ s.job.st = .orphaned →
        takeTarget k .ready s = turned .waiting .none sk.cmd) ∧
      (s.job.st = .enrolling → takeTarget k .ready s =
        if s.imageSize * 64 ≤ sk.capacity.getD 0 then turned .preparing .none (some (Command.first .blanking))
        else turned .rejected .tooSmall sk.cmd) ∧
      takeTarget k .sourceLost s = failSocket k .sourceLost (updSocket k (fun sk => { sk with exit := none }) s)) ∧
  (∀ (k : Fin 8) (x : ExitTarget) (s : State),
    (s.sockets[k].cmd = none → giveExit k x s = takeTarget k x s) ∧
      ∀ c, s.sockets[k].cmd = some c →
        giveExit k x s = if c.portReset then takeTarget k x (abandonCommand k s)
          else updSocket k (fun sk => { sk with exit := some x }) s) ∧
  (∀ (k : Fin 8) (s : State),
    let t := abandonCommand k s
    t.sockets[k] = { s.sockets[k] with cmd := none } ∧ (∀ j : Fin 8, j ≠ k → t.sockets[j] = s.sockets[j]) ∧
      t.job = s.job ∧ t.port = s.port ∧ t.repair = s.repair ∧ t.pacing = s.pacing ∧
      (∀ c seg src x, s.sockets[k].cmd = some c → c.purpose = .descriptor seg src x →
        t = settleSlot src (updSlot src (fun sl => { sl with inFlight := sl.inFlight - 1 })
          (updSocket k (fun sk => { sk with cmd := none }) s))) ∧
      (∀ c seg dst, s.sockets[k].cmd = some c → c.purpose = .master seg dst →
        let sl := s.slot dst
        t.slot dst = (if sl.masterRead = true ∧ (sl.st = .reading ∨ sl.st = .filling) then
          { sl with st := .free, seg := none, mask := 0, timer := none, masterRead := false }
        else { sl with masterRead := false }) ∧ ∀ j, j ≠ dst → t.slot j = s.slot j) ∧
      ((∀ c, s.sockets[k].cmd = some c → (∀ seg src x, c.purpose ≠ .descriptor seg src x) ∧
        ∀ seg dst, c.purpose ≠ .master seg dst) → t.win = s.win)) ∧
  ∀ (k : Fin 8) (s : State) (c : Command), s.ident.memTest = false → s.sockets[k].cmd = some c →
    s.sockets[k].exit.isSome ∨ (∃ seg src, c.purpose = .descriptor seg src true) →
    let ended (t : State) : State := match t.sockets[k].exit with
      | some x => takeTarget k x (abandonCommand k t)
      | none => abandonCommand k t
    let ends (command : Instr) (t : State) : Prop := exec command s = .next (settle s.settled (ended t))
    (c.portReset = true → ends (.portResetEnd k) s) ∧
      (c.portReset = false →
        (c.stall.isSome → ends (.stallTimerExpiry k) s) ∧
        (c.purpose = .blanking → ∀ good, ends (.writeSegmentComplete k good) s) ∧
        (∀ seg src x, c.purpose = .descriptor seg src x → ends (.writeSegmentComplete k false) s ∧
          ends (.writeSegmentComplete k true) (judgeStream k s)) ∧
        (∀ seg, c.purpose = .verify seg → ∀ data, ends (.readSegmentComplete k data) s) ∧
        (∀ seg dst, c.purpose = .master seg dst → ∀ data, ends (.readSegmentComplete k data) s))

/-- The last byte of a descriptor write's attempt, with the bytes of its buffer that have changed in the DRAM stored first
(the model's choice, log entry 10): the attempt is clean exactly when the check of the 32,768 bytes read equals its reference,
and the check of the bytes passed through the plan is kept; a corrupt one makes a WHOLE window slot DAMAGED with its mask
cleared, drops its answer entry and reports the damage, a RETIRED one and a WHOLE recall slot FREE, the recall parcels leaving
class 7, the write itself going on; a stream judged already is not judged again (R79, R90, R102, R163, R164). A parcel of that
slot and segment that the transmitter holds, taken with the bytes the buffer had, carries the changed bytes (R102, log entry
10). -/
def Obligations.LastByteIsJudged : Prop :=
  (∀ (k : Fin 8) (upsets : List (Nat × Byte)) (s : State) (c : Command) (seg : Nat) (src : SlotId) (detached : Bool),
    s.ident.memTest = false → s.sockets[k].cmd = some c → c.portReset = false →
    c.purpose = .descriptor seg src detached →
    let sl : Slot := { s.slot src with buf := (s.slot src).buf.patchBytes (upsets.filter fun u => decide (u.1 < 32768)) }
    let judged : Verdict :=
      { clean := check sl.bytes == c.reference, patched := check (applyPlan 0 c.plan sl.bytes) }
    let amended : Port := (upsetHeld src seg upsets s).port
    (c.verdict = none → ∃ u, exec (.lastByteStreamed k upsets) s = .next (settle s.settled u) ∧
      (∃ c', u.sockets[k].cmd = some c' ∧ c'.verdict = some judged ∧ c'.attempt = c.attempt) ∧ u.job = s.job ∧
      (∀ j, j ≠ src → (u.slot j).buf = (s.slot j).buf) ∧ (u.slot src).buf = sl.buf ∧
      (check sl.bytes = c.reference → u.sockets[k].cmd = some { c with verdict := some judged } ∧
        (∀ j : Fin 8, j ≠ k → u.sockets[j] = s.sockets[j]) ∧ u.slot src = sl ∧ (∀ j, j ≠ src → u.slot j = s.slot j) ∧
          u.repair = s.repair ∧ u.port = amended ∧ u.pacing = s.pacing) ∧
      (check sl.bytes ≠ c.reference → ∀ i, src = .win i → sl.st = .whole → sl.seg = some seg →
        u.slot src = { sl with st := .damaged, mask := 0, timer := some (4 * Config.ms) } ∧ u.answer seg = none ∧
          u.port = { amended with class5 := s.port.class5.filter fun g => g != seg } ∧
          ∃ v, u = damageReport seg v ∧ v.repair.needs = s.repair.needs ∧ v.repair.exhausted = s.repair.exhausted ∧
            v.job = s.job ∧ v.win.base = s.win.base) ∧
      (check sl.bytes ≠ c.reference → ∀ i, src = .win i → sl.st = .retired → sl.seg = some seg →
        (u.slot src).st = .free ∧ (u.slot src).seg = none) ∧
      (check sl.bytes ≠ c.reference → ∀ r, src = .rslot r → sl.st = .whole → sl.seg = some seg →
        (u.slot src).st = .free ∧ (u.slot src).seg = none ∧ (u.slot src).toSend = 0 ∧
          u.port.class7 = s.port.class7.filter fun x => x.1 != r)) ∧
    (c.verdict.isSome → exec (.lastByteStreamed k upsets) s = .next (settle s.settled s))) ∧
  ∀ (id : SlotId) (seg : Nat) (upsets : List (Nat × Byte)) (s : State),
    let p := (upsetHeld id seg upsets s).port
    (s.port.tx = .free → p = s.port) ∧
      ∀ h phase, s.port.tx = .holding h phase →
        (h.source = none → p = s.port) ∧
        (∀ src b, h.source = some (src, b) → ¬ (src = id ∧ b.seg.toNat = seg) → p = s.port) ∧
        (∀ b, h.source = some (id, b) → b.seg.toNat = seg → ∃ b', p = { s.port with
              tx := .holding { h with frame := { h.frame with body := .parcel b' } } phase } ∧
            b' = { b with payload := b'.payload } ∧
            (storageOk s → b.payload = (s.slot id).payload b.parcel →
              b'.payload = ((upsetSlot id upsets s).slot id).payload b.parcel))

/-- The attach of a stick (R140, R141), event by event: insertion, IDENTIFY, CAPACITY, PROTECT-STATUS, an error of each, a
protected stick, and the attach timer; a stick that attaches outside a job is READY, during ENROLLING PREPARING with its
blanking write if it is large enough and REJECTED (TOO-SMALL) if not, and later in a job WAITING. -/
def Obligations.AttachSequence : Prop :=
  ∀ (k : Fin 8) (s : State), s.ident.memTest = false →
    let sk := s.sockets[k]
    let others (t : State) : Prop := (∀ j : Fin 8, j ≠ k → t.sockets[j] = s.sockets[j]) ∧ t.win = s.win ∧ t.job = s.job ∧
      t.port = s.port ∧ t.repair = s.repair
    let issued (p : Purpose) : Option Command := some (Command.first p)
    let rejected (r : Reason) : Socket := { sk with st := .rejected, reason := r, cmd := none, attachTimer := none }
    (sk.st = .empty → ∃ t, exec (.insertion k) s = .next t ∧ others t ∧
      t.sockets[k] = { sk with
        st := .attaching, reason := .none, cmd := issued .identify, attachTimer := some (1000 * Config.ms) }) ∧
    (sk.st ≠ .empty → exec (.insertion k) s = .next s) ∧
    (sk.st = .attaching → sk.attachTimer.isSome → ∃ t, exec (.attachTimerExpiry k) s = .next t ∧ others t ∧
      t.sockets[k] = rejected .noResponse) ∧
    (∀ c, sk.st = .attaching → sk.cmd = some c → c.portReset = false →
      (c.purpose = .identify →
        (∃ t, exec (.identifyComplete k true) s = .next t ∧ others t ∧
          t.sockets[k] = { sk with cmd := issued .capacity }) ∧
        ∃ t, exec (.identifyComplete k false) s = .next t ∧ others t ∧ t.sockets[k] = rejected .noResponse) ∧
      (c.purpose = .capacity →
        (∀ n, ∃ t, exec (.capacityComplete k (some n)) s = .next t ∧ others t ∧
          t.sockets[k] = { sk with capacity := some n, cmd := issued .protectStatus }) ∧
        ∃ t, exec (.capacityComplete k none) s = .next t ∧ others t ∧ t.sockets[k] = rejected .noResponse) ∧
      (c.purpose = .protectStatus →
        let attached (st : SocketState) (r : Reason) (cmd : Option Command) : Prop :=
          ∃ u, exec (.protectStatusComplete k (some false)) s = .next (settle s.settled u) ∧ others u ∧
            u.sockets[k] = { sk with st := st, reason := r, cmd := cmd, attachTimer := none }
        (∃ u, exec (.protectStatusComplete k none) s = .next (settle s.settled u) ∧ others u ∧
          u.sockets[k] = rejected .noResponse) ∧
        (∃ u, exec (.protectStatusComplete k (some true)) s = .next (settle s.settled u) ∧ others u ∧
          u.sockets[k] = rejected .isProtected) ∧
        (s.job.st = .idle ∨ s.job.st = .finished ∨ s.job.st = .cancelled → attached .ready .none none) ∧
        (s.job.st = .copying ∨ s.job.st = .closing ∨ s.job.st = .orphaned → attached .waiting .none none) ∧
        (s.job.st = .enrolling → s.imageSize * 64 ≤ sk.capacity.getD 0 →
          attached .preparing .none (issued .blanking)) ∧
        (s.job.st = .enrolling → sk.capacity.getD 0 < s.imageSize * 64 → attached .rejected .tooSmall none)))

/-- Removal makes any socket but an EMPTY one EMPTY in one step: no reason, capacity, exit, command or timer, its ring and
lists empty and its marks kept, every other socket as it was; at the MASTER socket of a job's source the station is
CANCELLED with a CANCEL of reason MASTER-REMOVED (R48, R115, R152). -/
def Obligations.RemovalEmptiesTheSocket : Prop :=
  ∀ (k : Fin 8) (s : State), s.ident.memTest = false → s.sockets[k].st ≠ .empty →
    (s.sockets[k].st ≠ .master → ∃ u, exec (.removal k) s = .next (settle s.settled u) ∧ u.sockets[k].st = .empty ∧
      u.sockets[k].reason = .none ∧ u.sockets[k].capacity = none ∧ u.sockets[k].exit = none ∧ u.sockets[k].cmd = none ∧
      u.sockets[k].attachTimer = none ∧ u.sockets[k].ring = [] ∧ u.sockets[k].owed = [] ∧ u.sockets[k].recheck = [] ∧
      u.sockets[k].expect = [] ∧ u.sockets[k].passList = [] ∧ u.sockets[k].written = s.sockets[k].written ∧
      (∀ j : Fin 8, j ≠ k → u.sockets[j] = s.sockets[j]) ∧ u.job = s.job ∧ u.port = s.port ∧ u.repair = s.repair) ∧
    (∀ n, s.sockets[k].st = .master → s.job.source = true → s.job.st.sourced = true → s.job.number = some n →
      ∃ t, exec (.removal k) s = .next t ∧ t.sockets[k].st = .empty ∧ t.job.st = .cancelled ∧ tornDown t ∧
        t.port.cancels = s.port.cancels ++ [{ job := n, reason := 4 }])

/-- A socket's first unwritten index is the lowest segment below N that is neither marked nor owed, N if there is none; the
station's low mark is the smallest of the larger of that index and the base over its TIED sockets in ENROLLED or COPYING
(R119, R120). -/
def Obligations.LowMarkIsTheSmallest : Prop :=
  (∀ (sk : Socket) (n : Nat),
    sk.firstUnwritten n ≤ n ∧
      (∀ i, i < sk.firstUnwritten n → i ∈ sk.written ∨ sk.owes i = true) ∧
      (sk.firstUnwritten n < n → sk.firstUnwritten n ∉ sk.written ∧ sk.owes (sk.firstUnwritten n) = false)) ∧
    ∀ s : State,
      let tied (k : Fin 8) : Prop := s.sockets[k].tie = .tied ∧ (s.sockets[k].st = .enrolled ∨ s.sockets[k].st = .copying)
      let mark (k : Fin 8) : Nat := max (s.sockets[k].firstUnwritten s.imageSize) s.win.base
      (s.lowMark = none ↔ ∀ k, ¬ tied k) ∧
        ∀ m, s.lowMark = some m → s.win.base ≤ m ∧ (∃ k, tied k ∧ mark k = m) ∧ ∀ k, tied k → m ≤ mark k

/-- A verify read that ends good (R185, R186): a match records nothing, a mismatch owes the segment with origin
VERIFY-MISMATCH; the next segment of the pass is read at once; past the last one the socket is DONE with nothing owed,
REPAYING after pass 1 or 2 with something owed, and FAILED (VERIFY-LIMIT) after pass 3. -/
def Obligations.VerifyReadIsJudged : Prop :=
  ∀ (k : Fin 8) (data : List Byte) (s : State) (c : Command) (seg i : Nat), s.ident.memTest = false →
    data.length = 32768 → s.sockets[k].cmd = some c → c.portReset = false → c.purpose = .verify seg →
    s.sockets[k].exit = none → s.sockets[k].st = .verifying → s.sockets[k].cursor = some i →
    s.sockets[k].owed.length < 32 → s.sockets[k].owes seg = false → capacityOk s →
    let wrong : Prop := ¬ (match s.sockets[k].expected seg with
      | some e => e.poisoned = false ∧ check data = e.check
      | none => check data = s.win.checkTable.read seg)
    ∃ u, exec (.readSegmentComplete k (some data)) s = .next (settle s.settled u) ∧
      (∀ next, s.sockets[k].passList[i + 1]? = some next →
        u.sockets[k].st = .verifying ∧ u.sockets[k].cmd = some (Command.first (.verify next)) ∧
          u.sockets[k].cursor = some (i + 1) ∧ (¬ wrong → u.sockets[k].owed = s.sockets[k].owed) ∧
          (wrong → ∃ e ∈ u.sockets[k].owed, e.seg = seg ∧ e.record = { origin := .verifyMismatch, attempts := 0 }) ∧
          u.win = s.win ∧ u.job = s.job ∧ u.port = s.port) ∧
      (s.sockets[k].passList[i + 1]? = none → ¬ wrong → s.sockets[k].owed = [] →
        u.sockets[k].st = .done ∧ u.sockets[k].cmd = none) ∧
      (s.sockets[k].passList[i + 1]? = none → wrong ∨ s.sockets[k].owed ≠ [] → s.sockets[k].passCount < 3 →
        s.sockets[k].ring = [] → u.sockets[k].st = .repaying) ∧
      (s.sockets[k].passList[i + 1]? = none → wrong ∨ s.sockets[k].owed ≠ [] → 3 ≤ s.sockets[k].passCount →
        u.sockets[k].st = .failed ∧ u.sockets[k].reason = .verifyLimit ∧ u.sockets[k].owed = [])

/-- A socket moves on, in the job, with an empty ring, no command and no exit: in ENROLLED or COPYING once the base is N,
to REPAYING if it owes something (R147), and with nothing owed on to VERIFYING with verify on or DONE with it off; in REPAYING
once nothing is owed, in the same way (R146, R147). Entering REPAYING, each owed segment that a slot holds, a window slot in
WHOLE or RETIRED or a recall slot in WHOLE, is queued with its owed record in ascending order, the rest stays owed (R117).
Entering VERIFYING, the pass count rises, the pass list is 0 to N - 1 on the first pass and the recheck list after it, the
recheck list is emptied, the cursor is at 0 and the first segment is read; with an empty list the pass ends and the socket is
DONE (R184, R186). -/
def Obligations.SocketsMoveOn : Prop :=
  (∀ (k : Fin 8) (s : State),
    let sk := s.sockets[k]
    let t := moveOn k s
    let still : Prop := s.job.st.working = true ∧ sk.ring = [] ∧ sk.cmd = none ∧ sk.exit = none
    let written : Prop := (sk.st = .enrolled ∨ sk.st = .copying) ∧ s.win.base = s.imageSize
    (¬ still ∨ ¬ (written ∨ (sk.st = .repaying ∧ sk.owed = [])) → t = s) ∧
      (still → written → sk.owed ≠ [] → t = enterRepaying k s) ∧
      (still → sk.owed = [] → written ∨ sk.st = .repaying →
        let list : List Nat := if sk.passCount = 0 then List.range s.imageSize else sk.recheck
        (s.verifyOn = false → t = updSocket k (fun sk => { sk with st := .done, reason := .none }) s) ∧
        (s.verifyOn = true → ∀ first rest, list = first :: rest → t = updSocket k (fun sk =>
          { sk with st := .verifying, reason := .none, passCount := sk.passCount + 1, passList := list, recheck := []
                    cursor := some 0, cmd := some (Command.first (.verify first)) }) s) ∧
        (s.verifyOn = true → list = [] → t = updSocket k (fun sk =>
          { sk with st := .done, reason := .none, passCount := sk.passCount + 1, passList := [], recheck := []
                    cursor := none }) s))) ∧
  ∀ (k : Fin 8) (s : State), s.sockets[k].ring = [] → capacityOk s →
    let sk := s.sockets[k]
    let t := enterRepaying k s
    let holds (id : SlotId) (seg : Nat) : Prop := (s.slot id).seg = some seg ∧
      ((s.slot id).st = .whole ∨ ((∃ i, id = .win i) ∧ (s.slot id).st = .retired))
    (∀ seg, s.offering seg = none → ∀ id, ¬ holds id seg) ∧ (∀ seg id, s.offering seg = some id → holds id seg) ∧
      t.sockets[k].st = .repaying ∧ t.sockets[k].reason = .none ∧ t.sockets[k].cmd = sk.cmd ∧
      t.sockets[k].written = sk.written ∧ t.sockets[k].recheck = sk.recheck ∧ t.sockets[k].expect = sk.expect ∧
      t.sockets[k].passCount = sk.passCount ∧
      t.sockets[k].ring = (sk.owed.filterMap fun e => (s.offering e.seg).map fun id =>
        { seg := e.seg, src := id, inFlight := false, owed := some e.record }) ∧
      t.sockets[k].owed = sk.owed.filter (fun e => (s.offering e.seg).isNone) ∧
      (∀ j : Fin 8, j ≠ k → t.sockets[j] = s.sockets[j]) ∧ t.job = s.job ∧ t.port = s.port ∧ t.repair = s.repair ∧
      ∀ id : SlotId, t.slot id = { s.slot id with
        pending := (s.slot id).pending + (sk.owed.filter fun e => s.offering e.seg == some id).length }

/-! ### Recall -/

/-- The candidates of a RECALL: in ascending order, exactly the segments below the base that some socket in COPYING or
REPAYING owes, that no recall slot holds and that are not in the heard set; the request is placed exactly when it is IDLE at
a station in ACTIVE without the SOURCE role, in COPYING or CLOSING, with a usable recall slot and a candidate, and a QUEUED one
is withdrawn to IDLE at the end of the first step in which one of these conditions fails (R174). When its wait expires,
outside ORPHANED each socket in COPYING or REPAYING that still owes a listed segment at 4 attempts, with no recall slot
holding it, fails UNREACHABLE, and the request returns to IDLE with its listed set empty (R176). -/
def Obligations.RecallRequestsArePlacedAndExpire : Prop :=
  (∀ s : State,
    ascending s.candidates ∧
      (∀ seg, seg ∈ s.candidates ↔ seg < s.win.base ∧ (∀ r : Fin 2, (s.slot (.rslot r)).seg ≠ some seg) ∧
        seg ∉ s.rv.heard ∧ ∃ k : Fin 8, (s.sockets[k].st = .copying ∨ s.sockets[k].st = .repaying) ∧
          s.sockets[k].owes seg = true) ∧
      let open174 : Prop := s.job.source = false ∧ s.ident.mode = .active ∧
        (s.job.st = .copying ∨ s.job.st = .closing) ∧ (∃ r : Fin 2, (s.slot (.rslot r)).usable = true) ∧ s.candidates ≠ []
      (s.ident.memTest = false → s.rv.request = .idle → open174 →
        exec .recallRequestPlace s = .next { s with rv := { s.rv with request := .queued } }) ∧
      (s.ident.memTest = false → s.rv.request ≠ .idle ∨ ¬ open174 → exec .recallRequestPlace s = .next s) ∧
      (s.rv.request = .queued → ¬ open174 → withdrawRequest s = { s with rv := { s.rv with request := .idle } }) ∧
      (s.rv.request ≠ .queued ∨ open174 → withdrawRequest s = s)) ∧
  ∀ s : State, s.ident.memTest = false → s.rv.request = .waiting →
    ∃ u, exec .recallWaitExpiry s = .next (settle s.settled u) ∧
      u.rv = { s.rv with request := .idle, wait := none, listed := [] } ∧ u.job = s.job ∧ u.port = s.port ∧
      u.repair = s.repair ∧
      ∀ k : Fin 8,
        let lost : Prop := s.job.st ≠ .orphaned ∧ (s.sockets[k].st = .copying ∨ s.sockets[k].st = .repaying) ∧
          ∃ e ∈ s.sockets[k].owed, e.seg ∈ s.rv.listed ∧ e.record.attempts = 4 ∧
            ∀ r : Fin 2, (s.slot (.rslot r)).seg ≠ some e.seg
        (lost → u.sockets[k].st = .failed ∧ u.sockets[k].reason = .unreachable) ∧ (¬ lost → u.sockets[k] = s.sockets[k])

/-- A RECALL frame heard at a station without the SOURCE role, in ACTIVE, in COPYING, CLOSING or ORPHANED, for the current
job: each index below N joins the heard set, as far as the set has room for 32; a heard segment's expiry takes it out (R177).
A RECALL frame at the source, in COPYING or CLOSING, for the current job: each index below the base that no recall slot is
gathering or still sending joins the recall queue, as far as it has room for 32; otherwise the frame changes neither. At the
source in COPYING or CLOSING the segments owed by its own sockets in COPYING or REPAYING join it in the same way at the end of
each step (R178; when, and in ascending order, is the model's choice, log entries 23 and 24). -/
def Obligations.RecallFramesAreTaken : Prop :=
  (∀ (sender : Byte) (job : Word16) (segs : List Word32) (s : State), s.ident.memTest = false →
    let taken : Prop := s.job.source = false ∧ s.ident.mode = .active ∧
      (s.job.st = .copying ∨ s.job.st = .closing ∨ s.job.st = .orphaned) ∧ s.job.number = some job
    ∃ u, exec (.recallArrivalSink sender job segs) s =
        .next (takeHandoff .recallUnit sender job (.recallList segs) (settle s.settled u)) ∧
      (¬ taken → u = s) ∧
      (taken → (∀ g ∈ u.rv.heard, g ∈ s.rv.heard ∨ (g < s.imageSize ∧ ∃ w ∈ segs, w.toNat = g)) ∧
        (∀ g ∈ s.rv.heard, g ∈ u.rv.heard) ∧
        (s.rv.heard.length + segs.length ≤ 32 → ∀ w ∈ segs, w.toNat < s.imageSize → w.toNat ∈ u.rv.heard) ∧
        u.sockets = s.sockets ∧ u.win = s.win ∧ u.job = s.job ∧ u.port = s.port) ∧
      ∀ seg, exec (.heardSetExpiry seg) s =
        .next { s with rv := { s.rv with heard := s.rv.heard.filter fun g => g != seg } }) ∧
  (∀ (sender : Byte) (job : Word16) (segs : List Word32) (s : State), s.ident.memTest = false →
    let taken : Prop := s.job.source = true ∧ (s.job.st = .copying ∨ s.job.st = .closing) ∧ s.job.number = some job
    let excluded (g : Nat) : Prop := s.win.base ≤ g ∨ ∃ r : Fin 2, (s.slot (.rslot r)).seg = some g ∧
      ((s.slot (.rslot r)).st = .filling ∨ (s.slot (.rslot r)).toSend ≠ 0)
    ∃ u, exec (.recallArrivalSource sender job segs) s =
        .next (takeHandoff .recallUnit sender job (.recallList segs) (settle s.settled u)) ∧
      (¬ taken → u = s) ∧
      (taken → (∀ g ∈ u.rv.queue, g ∈ s.rv.queue ∨ (¬ excluded g ∧ ∃ w ∈ segs, w.toNat = g)) ∧
        (∀ g ∈ s.rv.queue, g ∈ u.rv.queue) ∧
        (s.rv.queue.length + segs.length ≤ 32 → ∀ w ∈ segs, ¬ excluded w.toNat → w.toNat ∈ u.rv.queue) ∧
        u.sockets = s.sockets ∧ u.win = s.win ∧ u.job = s.job ∧ u.port = s.port)) ∧
  ∀ s : State,
    let excluded (g : Nat) : Prop := s.win.base ≤ g ∨ ∃ r : Fin 2, (s.slot (.rslot r)).seg = some g ∧
      ((s.slot (.rslot r)).st = .filling ∨ (s.slot (.rslot r)).toSend ≠ 0)
    let u := ownRequests s
    let own : Prop := s.job.source = true ∧ (s.job.st = .copying ∨ s.job.st = .closing)
    ascending s.owedByWriters ∧
      (∀ g, g ∈ s.owedByWriters ↔ ∃ k : Fin 8, (s.sockets[k].st = .copying ∨ s.sockets[k].st = .repaying) ∧
        s.sockets[k].owes g = true) ∧
      (¬ own → u = s) ∧
      (own → u = { s with rv := { s.rv with queue := u.rv.queue } } ∧
        (∀ g ∈ u.rv.queue, g ∈ s.rv.queue ∨ (¬ excluded g ∧ g ∈ s.owedByWriters)) ∧
        (∀ g ∈ s.rv.queue, g ∈ u.rv.queue) ∧
        (s.rv.queue.length + s.owedByWriters.length ≤ 32 → ∀ g ∈ s.owedByWriters, ¬ excluded g → g ∈ u.rv.queue))

/-! ### Pacing -/

/-- A running monitor takes an input report, cell by cell of the table of R124, D its duration; it takes the end of a segment
time only while the condition is false, D is at least 1 and the level is high, and the condition becomes true when the count
equals D (R125); an idle monitor takes neither. A report of a ring's occupancy goes to its socket's lag monitor, the end of a
segment time to every lag monitor and the loss monitor (R121, R122); as a lag condition becomes true a TIED socket is RELEASED,
as it becomes false a RELEASED one is TIED, and nothing else changes a tie (R128, R129). -/
def Obligations.MonitorTables : Prop :=
  (∀ (m : Monitor) (level : Nat), m.running = true →
    let t := m.report level
    t.level = level ∧ t.threshold = m.threshold ∧ t.duration = m.duration ∧ t.latched = m.latched ∧ t.running = true ∧
      (level < m.threshold → m.cond = false → t.cond = false ∧ t.run = 0) ∧
      (level < m.threshold → m.cond = true → m.latched = false → t.cond = false ∧ t.run = 0) ∧
      (level < m.threshold → m.cond = true → m.latched = true → t.cond = true ∧ t.run = m.run) ∧
      (m.threshold ≤ level → m.cond = false → m.duration = 0 → t.cond = true) ∧
      (m.threshold ≤ level → m.cond = false → 1 ≤ m.duration → t.cond = false ∧ t.run = m.run) ∧
      (m.threshold ≤ level → m.cond = true → t.cond = true ∧ t.run = m.run)) ∧
  (∀ m : Monitor,
    (m.running = true → m.cond = false → 1 ≤ m.duration → m.threshold ≤ m.level →
      m.segmentEnd = { m with run := m.run + 1, cond := decide (m.run + 1 = m.duration) }) ∧
    (m.running = true → m.cond = true ∨ m.duration = 0 ∨ m.level < m.threshold → m.segmentEnd = m) ∧
    (m.running = false → m.segmentEnd = m ∧ ∀ level, m.report level = m)) ∧
  (Tie.follow false true .tied = .released ∧ Tie.follow true false .released = .tied ∧
    Tie.follow true false .tied = .tied ∧ Tie.follow false true .released = .released ∧
    (∀ (b : Bool) (t : Tie), Tie.follow b b t = t) ∧
    ∀ b a : Bool, Tie.follow b a .none = .none ∧ Tie.follow b a .loose = .loose) ∧
  ∀ s : State,
    (∀ k : Fin 8, reportOccupancy k s = updSocket k (fun sk =>
      { sk with lag := sk.lag.report sk.ring.length
                tie := sk.tie.follow sk.lag.cond (sk.lag.report sk.ring.length).cond }) s) ∧
    (segmentTimeEnd s).pacing = { s.pacing with loss := s.pacing.loss.segmentEnd } ∧
    (∀ k : Fin 8, (segmentTimeEnd s).sockets[k] = { s.sockets[k] with
      lag := s.sockets[k].lag.segmentEnd
      tie := s.sockets[k].tie.follow s.sockets[k].lag.cond s.sockets[k].lag.segmentEnd.cond }) ∧
    (segmentTimeEnd s).win = s.win ∧ (segmentTimeEnd s).job = s.job ∧ (segmentTimeEnd s).port = s.port ∧
    (segmentTimeEnd s).repair = s.repair

/-- The HOLD line is asserted, as the station sees it, while the tower's level is asserted or the station drives it; a change
of level changes the level and nothing else (R2). The demand is true while ENROLLING has a PREPARING socket or the loss
condition is true, in ACTIVE only; judged, at the end of a step, a true demand asserts a RELEASED output with an expiry in 2 s
and leaves ASSERTED and SPENT, so that one cause may follow the other within a step, and a false one releases; the expiry of
an ASSERTED output makes it SPENT (R131, R132, R133). -/
def Obligations.HoldOutputFollowsTheDemand : Prop :=
  (∀ (s : State) (asserted : Bool),
    exec (.holdLineChange asserted) s = .next { s with port := { s.port with holdLevel := asserted } } ∧
      (s.holdSeen = true ↔ s.port.holdLevel = true ∨ s.pacing.hold = .asserted)) ∧
  ∀ s : State,
    (s.holdDemand = true ↔ s.ident.mode = .active ∧
      ((s.job.st = .enrolling ∧ ∃ k : Fin 8, s.sockets[k].st = .preparing) ∨ s.pacing.loss.cond = true)) ∧
    (s.holdDemand = true → s.pacing.hold = .released →
      judgeHold s = { s with pacing := { s.pacing with hold := .asserted, holdTimer := some (2000 * Config.ms) } }) ∧
    (s.holdDemand = true → s.pacing.hold ≠ .released → judgeHold s = s) ∧
    (s.holdDemand = false → judgeHold s = { s with pacing := { s.pacing with hold := .released, holdTimer := none } }) ∧
    (s.ident.memTest = false → exec .holdExpiry s = .next
      (if s.pacing.hold = .asserted ∧ s.pacing.holdTimer.isSome then
        { s with pacing := { s.pacing with hold := .spent, holdTimer := none } }
      else s))

/-! ### Lamps, codes, personalization -/

/-- The lamps of a socket by state and reason (R157) and its state code (R137), row by row; code and lamps together tell every
reason of FAILED apart. During the memory test every lamp is off; in MUTE every green lamp is off and every amber one blinks
fast; else a socket shows the pattern of its state (R32, R158). -/
def Obligations.LampAndCodeTables : Prop :=
  (socketLamps .empty .none = (.off, .off) ∧ socketLamps .attaching .none = (.fast, .off) ∧
    socketLamps .ready .none = (.on, .slow) ∧ socketLamps .waiting .none = (.on, .slow) ∧
    socketLamps .master .none = (.on, .fast) ∧ socketLamps .preparing .none = (.fast, .off) ∧
    socketLamps .enrolled .none = (.slow, .off) ∧ socketLamps .copying .none = (.slow, .off) ∧
    socketLamps .repaying .none = (.slow, .fast) ∧ socketLamps .verifying .none = (.fast, .fast) ∧
    socketLamps .done .none = (.on, .off) ∧ socketLamps .rejected .tooSmall = (.off, .slow) ∧
    socketLamps .rejected .isProtected = (.slow, .slow) ∧ socketLamps .rejected .noResponse = (.fast, .slow) ∧
    socketLamps .failed .writeError = (.off, .on) ∧ socketLamps .failed .stall = (.slow, .on) ∧
    socketLamps .failed .prepareError = (.fast, .on) ∧ socketLamps .failed .owedOverflow = (.off, .on) ∧
    socketLamps .failed .unreachable = (.slow, .on) ∧ socketLamps .failed .verifyLimit = (.fast, .on) ∧
    socketLamps .failed .sourceLost = (.on, .on)) ∧
  (∀ r, socketCode .empty r = 0 ∧ socketCode .attaching r = 1 ∧ socketCode .ready r = 2 ∧ socketCode .master r = 3 ∧
    socketCode .preparing r = 4 ∧ socketCode .enrolled r = 5 ∧ socketCode .copying r = 6 ∧ socketCode .repaying r = 7 ∧
    socketCode .verifying r = 8 ∧ socketCode .done r = 9 ∧ socketCode .waiting r = 10 ∧ socketCode .rejected r = 11) ∧
  (socketCode .failed .writeError = 12 ∧ socketCode .failed .stall = 12 ∧ socketCode .failed .prepareError = 12 ∧
    socketCode .failed .owedOverflow = 13 ∧ socketCode .failed .unreachable = 13 ∧ socketCode .failed .verifyLimit = 14 ∧
    socketCode .failed .sourceLost = 15) ∧
  (∀ (s : State) (k : Fin 8),
    (s.ident.memTest = true → s.lamps k = (.off, .off)) ∧
      (s.ident.memTest = false → s.ident.mode = .mute → s.lamps k = (.off, .fast)) ∧
      (s.ident.memTest = false → s.ident.mode ≠ .mute → s.lamps k = socketLamps s.sockets[k].st s.sockets[k].reason)) ∧
  ∀ p q : Reason, p ∈ [Reason.writeError, .stall, .prepareError, .owedOverflow, .unreachable, .verifyLimit, .sourceLost] →
    q ∈ [Reason.writeError, .stall, .prepareError, .owedOverflow, .unreachable, .verifyLimit, .sourceLost] →
    socketCode .failed p = socketCode .failed q → socketLamps .failed p = socketLamps .failed q → p = q

/-- The byte strings of patch entries: BYTES the first length bytes of the value, SOCKET the global socket number in three
decimal digits, SERIAL the serial base plus that number, reduced, in eight hexadecimal digits; no two sockets of a tower get
the same SOCKET or SERIAL string (R160). The patch plan of a segment, over a table in entry-number order: positions rising; a
position holds byte position - offset of the string of the covering entry with the lowest number, and a position that no
entry covers is not in it (R161). A stream keeps every byte outside the plan and takes the plan's byte inside (R162). -/
def Obligations.PatchStringsAndPlans : Prop :=
  (∀ (p : PatchEntry) (base : Word32) (g : Nat), g < 256 →
    (p.kind = 1 → patchString base g p = p.value.take p.len.toNat) ∧
    (p.kind = 2 → (patchString base g p).map BitVec.toNat = [48 + g / 100, 48 + g / 10 % 10, 48 + g % 10]) ∧
    (p.kind = 3 → (patchString base g p).length = 8 ∧
      ∀ i, i < 8 → ((patchString base g p).getD i 0).toNat =
        let d := (base.toNat + g) % 4294967296 / 16 ^ (7 - i) % 16
        if d < 10 then 48 + d else 55 + d) ∧
    (p.kind = 2 ∨ p.kind = 3 → ∀ h, h < 256 → patchString base g p = patchString base h p → g = h)) ∧
  (∀ (patches : List PatchEntry) (base : Word32) (g seg : Nat),
    let plan := patchPlan patches base g seg
    let covers (p : PatchEntry) (pos : Nat) : Prop :=
      p.seg.toNat = seg ∧ p.offset.toNat ≤ pos ∧ pos < p.offset.toNat + (patchString base g p).length
    plan.Pairwise (fun a b => a.1 < b.1) ∧
      (patches.Pairwise (fun p q => p.number.toNat < q.number.toNat) → ∀ p ∈ patches, ∀ pos, covers p pos →
        (∀ q ∈ patches, covers q pos → p.number.toNat ≤ q.number.toNat) →
        (pos, (patchString base g p).getD (pos - p.offset.toNat) 0) ∈ plan) ∧
      ∀ c ∈ plan, ∃ p ∈ patches, covers p c.1) ∧
  ∀ (plan : List (Nat × Byte)) (bytes : List Byte), plan.Pairwise (fun a b => a.1 < b.1) →
    (applyPlan 0 plan bytes).length = bytes.length ∧
      (∀ pos b, (pos, b) ∈ plan → pos < bytes.length → (applyPlan 0 plan bytes)[pos]? = some b) ∧
      ∀ pos, (∀ c ∈ plan, c.1 ≠ pos) → (applyPlan 0 plan bytes)[pos]? = bytes[pos]?

/-! ### What every step keeps -/

/-- State.reset, block by block and field by field: LISTENING with its timer at 3 Tb, every roster entry ABSENT, every record,
list, class and table of the spec at its reset value (R11, R13, R16, R28, R37, R42, R61, R64, R80, R85, R97, R104, R118, R123,
R132, R136, R158, R159, R165, R170, R173, R178, R182); and every invariant below holds of it. The model's choices among these:
that a run begins after a passed memory test, at station 0, with the HOLD line released (log entry 12); what the DRAM holds,
the buffers, the check table and the written maps (log entry 9); the check of a slot, and threshold, duration and latch of a
monitor (log entry 31); the list of hand-offs and the queue of commands (log entry 32). -/
def Obligations.ResetValues : Prop :=
  let r : State := State.reset
  let idle : Monitor :=
    { running := false, level := 0, threshold := 0, duration := 0, latched := false, run := 0, cond := false }
  (r.ident = { station := 0, memFault := false, mode := .listening, listenTimer := some (3 * Config.tb), beaconTimer := none,
               debt := 0, memTest := false, blink := true } ∧
    (∀ x : Fin 32, r.roster[x] = { st := .absent, job := 0, digest := 0, jobState := 0, base := 0, lowMark := none,
                                   settled := false, timer := none }) ∧
    r.port = { tx := .free, badFrames := 0, giveUps := 0, rxWait := true, holdLevel := false, cancels := [],
               jobRepeat := false, class4 := [], class5 := [], class6 := [], class7 := [], handoffs := [] } ∧
    r.job = { number := none, body := none, digest := none, st := .idle, former := none, source := false,
              enrollment := .none, confirmed := false, orphanTimer := none, settleTimer := none, repeatTimer := none,
              refusal := none, lastAdopted := none, cancel := none } ∧
    (r.win.base = 0 ∧ r.win.next = 0 ∧ r.win.readMark = 0 ∧ r.win.highestNew = none ∧ r.win.checkTable = []) ∧
    (∀ id : SlotId, r.slot id = { st := .free, seg := none, mask := 0, check := 0, pending := 0, inFlight := 0,
                                  masterRead := false, timer := none, toSend := 0, buf := [] }) ∧
    r.repair = { needs := [], exhausted := [], answers := [] } ∧
    (∀ k : Fin 8, r.sockets[k] = { st := .empty, reason := .none, capacity := none, cmd := none, attachTimer := none,
                                   exit := none, ring := [], written := [], tie := .none, lag := idle, owed := [],
                                   recheck := [], passCount := 0, passList := [], cursor := none, expect := [] }) ∧
    r.pacing = { loss := idle, hold := .released, holdTimer := none } ∧
    r.rv = { request := .idle, wait := none, listed := [], heard := [], queue := [] } ∧ r.patches = [] ∧ r.pending = [] ∧
    afterReset r r) ∧
  beaconOk r ∧ withdrawn r ∧ formerOk r ∧ storageOk r ∧ capacityOk r ∧ listsOk r ∧ needsOk r ∧ monitorOk r ∧ holdOk r

/-- The beacon debt stays between 0 and 8, and is 0 with the beacon timer stopped outside ACTIVE; a station outside ACTIVE
holds no frame, drives no HOLD and is IDLE; a former state is held exactly while ORPHANED, and is ENROLLING, COPYING or CLOSING
(R24, R28, R29, R30, R32, R34, R42, R58, R133). -/
def Obligations.StepKeepsTheModeRules : Prop :=
  (∀ s t : State, beaconOk s → step s = .next t → beaconOk t) ∧
  (∀ s t : State, formerOk s → step s = .next t → formerOk t) ∧
  ∀ s t : State, withdrawn s → step s = .next t → withdrawn t

/-- The slot buffers and the check table keep their canonical form, each buffer within the segment's size, and the written
maps stay in ascending order (R61, R78, R80, R106); every ring, owed list, heard set, recall queue and patch table stays within
its capacity, all but the rings in ascending order (R104, R159, R170, R173, R178); every expectation list stays within 16
entries, every recheck list within 32, both in strict segment order (R165, R182). The invariant says as well where a recheck
list is empty, and that the segments which concern a REPAYING socket stay among at most 32 (R183, R186): the bound of the
recheck list rests on it. -/
def Obligations.StepKeepsStorageInOrder : Prop :=
  ∀ s t : State, storageOk s ∧ capacityOk s ∧ listsOk s → step s = .next t → storageOk t ∧ capacityOk t ∧ listsOk t

/-- The pending needs and the exhausted segments stay distinct and inside the window, so there are at most 16 of each; the
answer queue holds at most 8 (R85, R86, R97). -/
def Obligations.StepKeepsNeedsInTheWindow : Prop :=
  (∀ s t : State, needsOk s → step s = .next t → needsOk t) ∧
    ∀ s : State, needsOk s → s.repair.needs.length ≤ 16 ∧ s.repair.exhausted.length ≤ 16

/-- After every step the HOLD output follows the demand, its expiry timer runs exactly while it is ASSERTED, and outside a
job the loss monitor is idle (R131, R132, R133, R134). -/
def Obligations.StepKeepsHoldWithTheDemand : Prop :=
  ∀ s t : State, monitorOk s ∧ holdOk s → step s = .next t → monitorOk t ∧ holdOk t

/-- Within a job the base never decreases: no step that begins and ends inside a job lowers it (R64). -/
def Obligations.BaseNeverDecreasesInAJob : Prop :=
  ∀ s t : State, step s = .next t → s.job.st.working = true → t.job.st.working = true → s.win.base ≤ t.win.base
end

