-- ==== Sys2Proof/Laws/Commands.lean ====
section
/-! SUPPORT. Every command as a run: `<meaning>_does` or `<meaning>_stores` for the commands that are one; for the others,
the change around which they are one. -/
namespace Sys2Proof.Machine
open Sys2Proof.Safety

/-! ### Outside the memory test -/

theorem whenUp_up {f : State → State} {s : State} (h : s.ident.memTest = false) : whenUp f s = f s := by
  unfold whenUp
  rw [h]
  rfl

/-- During the memory test nothing happens (R26, log entry 13). -/
theorem whenUp_test {f : State → State} {s : State} (h : s.ident.memTest = true) : whenUp f s = s := by
  unfold whenUp
  rw [h]
  rfl

theorem act_up {f : State → State} {s : State} (h : s.ident.memTest = false) : act f s = settle s.settled (f s) :=
  whenUp_up h

theorem arrival_up {o : Owner} {x : Byte} {j : Word16} {b : FrameBody} {f : State → State} {s : State}
    (h : s.ident.memTest = false) : arrival o x j b f s = takeHandoff o x j b (f s) :=
  whenUp_up h

theorem actOnArrival_up {o : Owner} {x : Byte} {j : Word16} {b : FrameBody} {f : State → State} {s : State}
    (h : s.ident.memTest = false) : actOnArrival o x j b f s = takeHandoff o x j b (settle s.settled (f s)) :=
  whenUp_up h

/-- A saturated count stays at 65,535. -/
theorem satInc_eq (w : Word16) : satInc w = if w = 0xFFFF#16 then 0xFFFF#16 else w + 1 := by
  unfold satInc
  split
  · rename_i h
    rw [h]
  · rfl

/-! ### Runs -/

theorem whenUp_does (f : State → State) (s : State) (h : Does s (f s)) : Does s (whenUp f s) := by
  unfold whenUp
  split
  · exact .none s
  · exact h

/-- A command goes on by a run that stores nothing. -/
def RunsTo (a : Answer) (s : State) : Prop := ∃ t, a = .next t ∧ Does s t

theorem RunsTo.up {f : State → State} {s : State} (h : Does s (f s)) : RunsTo (.next (whenUp f s)) s :=
  ⟨_, rfl, whenUp_does f s h⟩

theorem RunsTo.acts {f : State → State} {s : State} (h : Does s (f s)) : RunsTo (.next (act f s)) s :=
  ⟨_, rfl, act_does f s h⟩

/-- An arrival goes on by a run that stores nothing, and takes its hand-off unless the memory test is on. -/
theorem arrival_does (o : Owner) (x : Byte) (j : Word16) (b : FrameBody) (f : State → State) (s : State)
    (h : Does s (f s)) : ∃ t, Does s t ∧ (arrival o x j b f s = t ∨ arrival o x j b f s = takeHandoff o x j b t) := by
  unfold arrival whenUp
  split
  · exact ⟨s, .none s, .inl rfl⟩
  · exact ⟨f s, h, .inr rfl⟩

theorem actOnArrival_stores (o : Owner) (x : Byte) (j : Word16) (b : FrameBody) (f : State → State) (s : State)
    (h : Stores s (f s)) :
    ∃ t, Stores s t ∧ (actOnArrival o x j b f s = t ∨ actOnArrival o x j b f s = takeHandoff o x j b t) := by
  unfold actOnArrival whenUp
  split
  · exact ⟨s, .none s, .inl rfl⟩
  · exact ⟨_, .after (settle_does _ _).stores h, .inr rfl⟩

theorem actOnArrival_does (o : Owner) (x : Byte) (j : Word16) (b : FrameBody) (f : State → State) (s : State)
    (h : Does s (f s)) :
    ∃ t, Does s t ∧ (actOnArrival o x j b f s = t ∨ actOnArrival o x j b f s = takeHandoff o x j b t) := by
  unfold actOnArrival whenUp
  split
  · exact ⟨s, .none s, .inl rfl⟩
  · exact ⟨_, .after (settle_does _ _) h, .inr rfl⟩

/-! ### The lane and the job controller -/

theorem execInterFrameGapComplete_does (s : State) : RunsTo (execInterFrameGapComplete s) s := by
  refine .up ?_
  split
  · rename_i h
    exact .one (.port _ s rfl rfl rfl rfl rfl fun e => by rw [h] at e; cases e)
  all_goals exact .none s

theorem execBackoffEnd_does (s : State) : RunsTo (execBackoffEnd s) s := by
  refine .up ?_
  split
  · rename_i h
    exact .one (.port _ s rfl rfl rfl rfl rfl fun e => by rw [h] at e; cases e)
  all_goals exact .none s

theorem execHoldExpiry_does (s : State) : RunsTo (execHoldExpiry s) s := .up (holdExpired_works s).does

theorem execCancelRepeatExpiry_does (s : State) : RunsTo (execCancelRepeatExpiry s) s := .up (cancelRepeat_does s)

theorem execJobRepeatTimerExpiry_does (s : State) : RunsTo (execJobRepeatTimerExpiry s) s :=
  .up (.when _ _ s (port_does _ s rfl rfl rfl rfl rfl rfl))

theorem execSettleTimerExpiry_does (s : State) : RunsTo (execSettleTimerExpiry s) s :=
  .up (record_does _ s rfl rfl)

theorem orphanExpired_does (s : State) : Does s (orphanExpired s) := by
  have h : Does s (updJob (fun j => { j with orphanTimer := none }) s) := record_does _ s rfl rfl
  unfold orphanExpired
  extract_lets t
  split
  · rename_i ho
    exact .after (enterFinished_does t (by simp only [t, updJob_job, ho]; simp)) h
  · split
    · rename_i hw
      exact .after (enterCancelled_does t (not_idle hw.1)) h
    · exact h

theorem execOrphanTimerExpiry_does (s : State) : RunsTo (execOrphanTimerExpiry s) s :=
  .acts (.when _ _ s (orphanExpired_does s))

theorem cancelArrival_does (x : Byte) (j : Word16) (r : Byte) (s : State) :
    ∃ t, Does s t ∧ (execCancelArrival x j r s = .next t ∨
      execCancelArrival x j r s = .next (takeHandoff .jobController x j (.cancel r) t)) := by
  have h : Does s (doIf (s.ident.mode == .active && s.isCurrent j && s.job.st.working) enterCancelled s) := by
    cases hc : (s.ident.mode == .active && s.isCurrent j && s.job.st.working)
    · exact .none s
    · simp only [Bool.and_eq_true] at hc
      exact enterCancelled_does s (not_idle hc.2)
  obtain ⟨t, ht, e⟩ := actOnArrival_does .jobController x j (.cancel r)
    (fun s => doIf (s.ident.mode == .active && s.isCurrent j && s.job.st.working) enterCancelled s) s h
  exact ⟨t, ht, e.imp (congrArg _) (congrArg _)⟩

/-! ### The window -/

theorem openSegment_does (b : Bool) (s : State) : Does s (openSegment b s) := by
  unfold openSegment
  extract_lets seg t u v
  have hu : Does s u := .after (.one (.marks _ t fun w => ⟨rfl, rfl, rfl, rfl⟩)) (port_does _ s rfl rfl rfl rfl rfl rfl)
  have hv : Does u v := by
    simp only [v]
    split
    · exact .after (offer_does _ _ _) (segmentTimeEnd_works u).does
    · exact .after (segmentTimeEnd_works _).does (offer_does _ _ u)
  exact .after (.when _ _ v (closeEnrollment_does v)) (hu.andThen hv)

theorem execSegmentOpen_does (b : Bool) (s : State) : RunsTo (execSegmentOpen b s) s :=
  .acts (.when _ _ s (openSegment_does b s))

theorem execReadAheadRead_does (s : State) : RunsTo (execReadAheadRead s) s := .acts (readAhead_does s)

theorem execGapTimerExpiry_does (i : Fin 16) (s : State) : RunsTo (execGapTimerExpiry i s) s := by
  refine .up ?_
  extract_lets sl
  split
  · exact .after (judge_does _) (.after (gapReport_does _ _ _) (slot_does _ _ s rfl))
  all_goals exact .none s

theorem execRecallSlotTimerExpiry_does (r : Fin 2) (s : State) : RunsTo (execRecallSlotTimerExpiry r s) s :=
  .up (.when _ _ s (slot_does _ _ s rfl))

theorem sourceParcel_stores (j : Word16) (b : ParcelBody) (s : State) : Stores s (sourceParcel j b s) := by
  unfold sourceParcel
  extract_lets seg sl
  split
  · exact takeParcel_stores _ b s
  · exact .none s

theorem judgeParcel_stores (x : Byte) (b : ParcelBody) (s : State) : Stores s (judgeParcel x b s) := by
  unfold judgeParcel
  extract_lets seg t
  have ht : Stores s t := by
    simp only [t]
    split
    · exact (adoptBase_does _ s).stores
    · exact .none s
  split
  · exact .after (placeRecall_stores seg b t) ht
  · split
    · exact ht
    · have h := takeParcel_stores seg b t
      split
      rename_i out u e
      rw [e] at h
      split
      · exact ht.andThen h
      · exact .after (gapReports_does _ _ _ u).stores (ht.andThen h)

theorem sinkParcel_stores (x : Byte) (j : Word16) (b : ParcelBody) (e : Bool) (s : State) :
    Stores s (sinkParcel x j b e s) := by
  unfold sinkParcel
  split
  · extract_lets t
    have ht : Stores s t := (closeEnrollment_does s).stores
    split
    · exact ht
    · split
      · rename_i u _ _
        have hu : Stores s u := .after (Does.stores (.one (.marks _ t fun w => ⟨rfl, rfl, rfl, rfl⟩))) ht
        split
        · exact .after (judgeParcel_stores x b _) (.after (segmentTimeEnd_works u).does.stores hu)
        · exact .after (segmentTimeEnd_works _).does.stores (.after (judgeParcel_stores x b u) hu)
      · exact .after (judgeParcel_stores x b t) ht
  · exact .none s

theorem parcelArrival_stores (x : Byte) (j : Word16) (b : ParcelBody) (e : Bool) (s : State) :
    ∃ t, Stores s t ∧ (execParcelArrivalWindow x j b e s = .next t ∨
      execParcelArrivalWindow x j b e s = .next (takeHandoff .segmentWindow x j (.parcel b) t)) := by
  have h : Stores s (if s.job.source then sourceParcel j b s else sinkParcel x j b e s) := by
    split
    · exact sourceParcel_stores j b s
    · exact sinkParcel_stores x j b e s
  obtain ⟨t, ht, e⟩ := actOnArrival_stores .segmentWindow x j (.parcel b)
    (fun s => if s.job.source then sourceParcel j b s else sinkParcel x j b e s) s h
  exact ⟨t, ht, e.imp (congrArg _) (congrArg _)⟩

/-! ### The repair unit -/

theorem repairHeard_does (seg : Nat) (p : Fin 8) (s : State) : Does s (repairHeard seg p s) := by
  unfold repairHeard
  repeat' split
  · exact .none s
  · exact dropAnswer_does seg s
  · exact updAnswer_does seg _ s
  · exact .none s

theorem parcelRepair_does (x : Byte) (j : Word16) (b : ParcelBody) (s : State) :
    ∃ t, Does s t ∧ (execParcelArrivalRepair x j b s = .next t ∨
      execParcelArrivalRepair x j b s = .next (takeHandoff .repairUnit x j (.parcel b) t)) := by
  obtain ⟨t, ht, e⟩ := arrival_does .repairUnit x j (.parcel b)
    (fun s => doIf (b.isRepair && s.isCurrent j) (repairHeard b.seg.toNat b.parcel) s) s
    (.when _ _ s (repairHeard_does _ _ s))
  exact ⟨t, ht, e.imp (congrArg _) (congrArg _)⟩

theorem needArrival_does (x : Byte) (j : Word16) (g : Word32) (m : Byte) (s : State) :
    ∃ t, Does s t ∧ (execNeedArrival x j g m s = .next t ∨
      execNeedArrival x j g m s = .next (takeHandoff .repairUnit x j (.need g m) t)) := by
  obtain ⟨t, ht, e⟩ := arrival_does .repairUnit x j (.need g m)
    (fun s => doIf (s.job.st.working && s.isCurrent j && m != 0 && decide (g.toNat < s.imageSize))
      (fun s => answerNeed g.toNat m (coverNeed g.toNat m s)) s) s
    (.when _ _ s (.after (answerNeed_does _ _ _) (coverNeed_does _ _ s)))
  exact ⟨t, ht, e.imp (congrArg _) (congrArg _)⟩

theorem execNeedDelayExpiry_does (g : Nat) (s : State) : RunsTo (execNeedDelayExpiry g s) s := by
  refine .up ?_
  repeat' split
  · exact rewait_does _ _ s
  · exact .after (port_does _ _ rfl rfl rfl rfl rfl rfl) (updNeed_does g _ s fun _ => rfl)
  all_goals exact .none s

theorem execNeedRetryExpiry_does (g : Nat) (s : State) : RunsTo (execNeedRetryExpiry g s) s := by
  refine .acts ?_
  repeat' split
  · exact rewait_does _ _ s
  · rename_i h _ _
    exact exhaustNeed_does g s (by rw [h]; rfl)
  all_goals exact .none s

theorem execSuppressionExpiry_does (g : Nat) (s : State) : RunsTo (execSuppressionExpiry g s) s := by
  refine .up ?_
  repeat' split
  · exact rewait_does _ _ s
  all_goals exact .none s

theorem execAnswerDelayExpiry_does (g : Nat) (s : State) : RunsTo (execAnswerDelayExpiry g s) s := by
  refine .up ?_
  repeat' split
  · exact .none s
  · exact startSending_does g s
  · exact .none s

/-! ### The sockets -/

theorem execDescriptorTake_does (k : Fin 8) (s : State) : RunsTo (execDescriptorTake k s) s :=
  .up (takeDescriptor_works k s).does

theorem writeEnds_does (k : Fin 8) (g : Bool) (c : Command) (s : State) (hc : s.sockets[k].cmd = some c) :
    Does s (writeEnds k g c s) := by
  have alive (hd : ¬ s.sockets[k].discards c = true) : s.sockets[k].exit = none := by
    simp only [Socket.discards, Bool.or_eq_true, not_or, Option.isSome_iff_ne_none, not_not] at hd
    exact hd.1
  unfold writeEnds
  split
  · rename_i hp
    split
    · exact (endDiscarded_works k s).does
    · split
      · exact Works.does (touches_works (k := k) (.tail (.single (.socket _ s)) (.socket _ (clearCommand k s)))
          (updSocket_same _ _ _) fun ok => by
            rw [show (clearCommand k s).sockets[k] = _ from updSocket_same _ _ _]
            exact ok.enrolled c hc hp _)
      · exact attemptError_does k c s
  · split
    · exact .after (endDiscarded_works k _).does (.when _ _ s (judgeStream_does k s))
    · rename_i hd
      split
      · exact writeGood_does _ s (alive hd)
      · exact attemptError_does k c s
  all_goals exact .none s

theorem execWriteSegmentComplete_does (k : Fin 8) (g : Bool) (s : State) : RunsTo (execWriteSegmentComplete k g s) s := by
  refine .acts ?_
  split
  · rename_i hc
    exact writeEnds_does k g _ s (attempt_cmd hc)
  · exact .none s

theorem readEnds_stores (k : Fin 8) (d : Option (List Byte)) (c : Command) (s : State) (hc : s.sockets[k].cmd = some c) :
    Stores s (readEnds k d c s) := by
  unfold readEnds
  split
  · rename_i hp
    split
    · exact (endDiscarded_works k s).does.stores
    · split
      · exact (verifyGood_does _ _ _ s ⟨c, hc, hp⟩).stores
      · exact (attemptError_does k c s).stores
  · repeat' split
    · exact (endDiscarded_works k s).does.stores
    · exact .after (masterReadGood_stores _ _ _ _) (clearCommand_does k s).stores
    · exact (attemptError_does k c s).stores
  all_goals exact .none s

theorem execReadSegmentComplete_stores (k : Fin 8) (d : Option (List Byte)) (s : State) :
    ∃ t, execReadSegmentComplete k d s = .next t ∧ Stores s t := by
  refine ⟨_, rfl, act_stores _ s ?_⟩
  split
  · rename_i hc
    exact readEnds_stores k d _ s (attempt_cmd hc)
  · exact .none s

/-- A read in error stores nothing. -/
theorem readError_does (k : Fin 8) (s : State) : RunsTo (execReadSegmentComplete k none s) s := by
  refine .acts ?_
  split
  · rename_i c _
    unfold readEnds
    cases c.purpose
    case verify | master =>
      dsimp only
      split
      · exact (endDiscarded_works k s).does
      · exact attemptError_does k c s
    all_goals exact .none s
  · exact .none s

theorem lastByteStreamed_stores (k : Fin 8) (u : List (Nat × Byte)) (s : State) : Stores s (lastByteStreamed k u s) := by
  unfold lastByteStreamed
  repeat' split
  · exact .none s
  · exact .after (Does.after (judgeStream_does k _) (upsetHeld_does _ _ u _)).stores (upsetSlot_stores _ u s)
  all_goals exact .none s

theorem execLastByteStreamed_stores (k : Fin 8) (u : List (Nat × Byte)) (s : State) :
    ∃ t, execLastByteStreamed k u s = .next t ∧ Stores s t :=
  ⟨_, rfl, act_stores _ s (lastByteStreamed_stores k u s)⟩

/-- A last byte with no byte of the buffer changed stores nothing. -/
theorem lastByteUnchanged_does (k : Fin 8) (s : State) : RunsTo (execLastByteStreamed k [] s) s := by
  refine .acts ?_
  unfold lastByteStreamed
  repeat' split
  · exact .none s
  · exact .after (judgeStream_does k _) (.after (upsetHeld_does _ _ _ _) (upsetSlot_nil _ s))
  all_goals exact .none s

theorem execInsertion_does (k : Fin 8) (s : State) : RunsTo (execInsertion k s) s := by
  refine .up (.whenever _ _ s fun h => ?_)
  have st : (updSocket k (fun sk => { sk with attachTimer := some Config.attachSpan }) s).sockets[k].st = .empty := by
    rw [updSocket_same]
    exact eq_of_beq h
  generalize ht : updSocket k (fun sk => { sk with attachTimer := some Config.attachSpan }) s = t at st
  have run : Does s t := ht ▸ socket_does k _ s fun ok => ok.quiet rfl rfl rfl rfl rfl rfl rfl rfl
  have issued : (issue k .identify t).sockets[k].st = .empty := by
    rw [show (issue k .identify t).sockets[k] = _ from updSocket_same _ _ _]
    exact st
  exact .after (setState_works k _ _ _ (calm_in issued (by decide)) (by simp) (by simp)).does
    (.after (issue_works k _ t (by simp) (by rw [st]; simp)).does run)

/-- The attempt of an attach command is at an ATTACHING socket. -/
theorem attachAt_state {s : State} {k : Fin 8} {p : Purpose} (h : s.attachAt k p = true) : s.sockets[k].st = .attaching := by
  unfold State.attachAt at h
  split at h
  · exact eq_of_beq (Bool.and_eq_true_iff.1 h).1
  · cases h

theorem execAttachTimerExpiry_does (k : Fin 8) (s : State) : RunsTo (execAttachTimerExpiry k s) s :=
  .up (.when _ _ s (rejectAttach_does _ _ s))

theorem execIdentifyComplete_does (k : Fin 8) (g : Bool) (s : State) : RunsTo (execIdentifyComplete k g s) s := by
  refine .up (.whenever _ _ s fun h => ?_)
  split
  · exact (issue_works _ _ s (by simp) (by rw [attachAt_state h]; simp)).does
  · exact rejectAttach_does _ _ s

theorem execCapacityComplete_does (k : Fin 8) (n : Option Nat) (s : State) : RunsTo (execCapacityComplete k n s) s := by
  refine .up (.whenever _ _ s fun h => ?_)
  split
  · refine .after (issue_works _ _ _ (by simp) ?_).does
      (socket_does k _ s fun ok => ok.quiet rfl rfl rfl rfl rfl rfl rfl rfl)
    rw [updSocket_same]
    dsimp only
    rw [attachAt_state h]
    simp
  · exact rejectAttach_does _ _ s

theorem execProtectStatusComplete_does (k : Fin 8) (p : Option Bool) (s : State) :
    RunsTo (execProtectStatusComplete k p s) s := by
  refine .acts (.whenever _ _ s fun h => ?_)
  split
  · exact rejectAttach_does _ _ s
  · refine .after (placeReady_works k _ (calm_in (st := .attaching) ?_ (by decide))).does
      (socket_does k _ s fun ok => ok.idle.quiet rfl rfl rfl rfl rfl rfl rfl rfl)
    rw [updSocket_same]
    exact attachAt_state h
  · exact rejectAttach_does _ _ s

theorem attemptStalled_does (k : Fin 8) (c : Command) (s : State) (hc : s.sockets[k].cmd = some c) :
    Does s (attemptStalled k c s) := by
  unfold attemptStalled
  split
  · exact (endDiscarded_works k s).does
  · split
    any_goals exact rejectAttach_does _ _ s
    all_goals
      split
      · exact socket_does k _ s fun ok => ok.goesOn c _ hc id fun _ => id
      · exact commandFailed_does _ _ _ s

theorem execStallTimerExpiry_does (k : Fin 8) (s : State) : RunsTo (execStallTimerExpiry k s) s := by
  refine .acts ?_
  split
  · rename_i hc
    exact .when _ _ s (attemptStalled_does k _ s (attempt_cmd hc))
  · exact .none s

theorem execPortResetEnd_does (k : Fin 8) (s : State) : RunsTo (execPortResetEnd k s) s := by
  refine .acts ?_
  repeat' split
  · exact (endDiscarded_works k s).does
  · exact (retry_works k s).does
  all_goals exact .none s

theorem execRemoval_does (k : Fin 8) (s : State) : RunsTo (execRemoval k s) s := .acts (.when _ _ s (removeStick_does k s))

/-! ### Recall -/

theorem execRecallRequestPlace_does (s : State) : RunsTo (execRecallRequestPlace s) s := .up (placeRequest_does s)

theorem execRecallWaitExpiry_does (s : State) : RunsTo (execRecallWaitExpiry s) s := .acts (waitExpired_does s)

theorem execRecallReadIssue_does (s : State) : RunsTo (execRecallReadIssue s) s := .acts (recallRead_does s)

theorem execHeardSetExpiry_does (g : Nat) (s : State) : RunsTo (execHeardSetExpiry g s) s :=
  .up (.one (.rv _ s fun ok => ⟨Nat.le_trans (List.length_filter_le _ _) ok.1, ascending_filter _ ok.2.1, ok.2.2⟩))

theorem recallSink_does (x : Byte) (j : Word16) (l : List Word32) (s : State) :
    ∃ t, Does s t ∧ (execRecallArrivalSink x j l s = .next t ∨
      execRecallArrivalSink x j l s = .next (takeHandoff .recallUnit x j (.recallList l) t)) := by
  obtain ⟨t, ht, e⟩ := actOnArrival_does .recallUnit x j (.recallList l) (hearRecall j l) s
    (.when _ _ s (.each _ _ (fun (w : Word32) u => hearSegment_does w.toNat u) s))
  exact ⟨t, ht, e.imp (congrArg _) (congrArg _)⟩

theorem recallSource_does (x : Byte) (j : Word16) (l : List Word32) (s : State) :
    ∃ t, Does s t ∧ (execRecallArrivalSource x j l s = .next t ∨
      execRecallArrivalSource x j l s = .next (takeHandoff .recallUnit x j (.recallList l) t)) := by
  obtain ⟨t, ht, e⟩ := actOnArrival_does .recallUnit x j (.recallList l) (queueRecall j l) s
    (.when _ _ s (.each _ _ (fun (w : Word32) u => joinQueue_does w.toNat u) s))
  exact ⟨t, ht, e.imp (congrArg _) (congrArg _)⟩

/-! ### Commands around one change -/

/-- An outcome other than a beacon's is a run. -/
theorem reportOutcome_does (t : HeldTag) (b : Bool) (s : State) (h : t ≠ .beacon) : Does s (reportOutcome t b s) := by
  unfold reportOutcome
  split
  · exact absurd rfl h
  · exact updNeed_does _ _ s fun e => by split <;> rfl
  · exact .after (settleSlot_works _ _).does (slot_does _ _ s rfl)
  · split
    · exact rv_does _ s rfl rfl
    · exact .none s
  all_goals exact .none s

/-- FRAME_SENT: a run, for a beacon with the debt at 0 on the way. -/
theorem execFrameSent_eq (s : State) : ∃ u t, execFrameSent s = .next t ∧ Does u t ∧
    (u = s ∨ (u.ident = { s.ident with debt := 0 } ∧ u = updIdent (fun i => { i with debt := 0 }) (freeTx s)) ∨
      Does s u) := by
  unfold execFrameSent act whenUp
  split
  · exact ⟨s, s, rfl, .none s, .inl rfl⟩
  · dsimp only
    split
    · rename_i h _
      by_cases hb : h.tag = .beacon
      · rw [hb]
        exact ⟨_, _, rfl, settle_does _ _, .inr (.inl ⟨rfl, rfl⟩)⟩
      · refine ⟨_, _, rfl, settle_does _ _, .inr (.inr ?_)⟩
        exact .after (reportOutcome_does _ _ _ hb) (.one (.port _ s rfl rfl rfl rfl rfl fun _ => rfl))
    all_goals exact ⟨s, _, rfl, settle_does _ _, .inl rfl⟩

/-- The transmitter's take: a run, then the held frame. -/
theorem takeChoice_eq (c : Choice) (s : State) : ∃ u, Does s u ∧
    (takeChoice c s = u ∨ ∃ tx, takeChoice c s = updPort (fun p => { p with tx := tx }) u) := by
  have drop (f : Port → Port) (hb : (f s.port).badFrames = s.port.badFrames) (hg : (f s.port).giveUps = s.port.giveUps)
      (hr : (f s.port).rxWait = s.port.rxWait) (hl : (f s.port).holdLevel = s.port.holdLevel)
      (hh : (f s.port).handoffs = s.port.handoffs) (ht : (f s.port).tx = s.port.tx) : Does s (updPort f s) :=
    port_does f s hb hg hr hl hh ht
  have held (tag : HeldTag) (j : Word16) (b : FrameBody) (u : State) :
      ∃ tx, hold tag j b u = updPort (fun p => { p with tx := tx }) u := ⟨_, rfl⟩
  cases c with
  | beacon => exact ⟨s, .none s, .inr (held _ _ _ _)⟩
  | cancel c =>
    have h := drop (fun p => { p with cancels := p.cancels.drop 1 }) rfl rfl rfl rfl rfl rfl
    exact ⟨_, h, .inr (held _ _ _ _)⟩
  | jobRepeat =>
    have h := drop (fun p => { p with jobRepeat := false }) rfl rfl rfl rfl rfl rfl
    simp only [takeChoice, takeRepeat]
    split
    · exact ⟨_, h, .inr (held _ _ _ _)⟩
    · exact ⟨_, h, .inl rfl⟩
  | need seg =>
    have h := drop (fun p => { p with class4 := p.class4.drop 1 }) rfl rfl rfl rfl rfl rfl
    have g := updNeed_does seg (fun e => { e with st := .asked .held })
      (updPort (fun p => { p with class4 := p.class4.drop 1 }) s) fun _ => rfl
    exact ⟨_, .after g h, .inr (held _ _ _ _)⟩
  | answer seg =>
    simp only [takeChoice, takeAnswer]
    split
    · split
      · refine ⟨_, ?_, .inr (held _ _ _ _)⟩
        split
        · exact dropAnswer_does seg s
        · exact updAnswer_does seg _ s
      · exact ⟨_, dropAnswer_does seg s, .inl rfl⟩
    · exact ⟨_, dropAnswer_does seg s, .inl rfl⟩
  | newData seg p =>
    have h := drop (fun q => { q with class6 := q.class6.drop 1 }) rfl rfl rfl rfl rfl rfl
    exact ⟨_, h, .inr (held _ _ _ _)⟩
  | recallParcel r p =>
    have h := drop (fun q => { q with class7 := q.class7.drop 1 }) rfl rfl rfl rfl rfl rfl
    exact ⟨_, h, .inr (held _ _ _ _)⟩
  | recallRequest =>
    have h := rv_does (fun r => { r with request := .taken, listed := s.candidates.take Config.maxListed }) s rfl rfl
    exact ⟨_, .after (.sockets _ (fun k t => countRecall_does k _ t) _) h, .inr (held _ _ _ _)⟩

/-- The arbiter offers nothing outside ACTIVE (R24). -/
theorem choice_active {s : State} {c : Choice} (h : s.choice = some c) : s.ident.mode = .active := by
  unfold State.choice at h
  split at h
  · assumption
  · cases h

/-- JAM_END: a run, with the give-up count raised on the way where the frame is given up. -/
theorem execJamEnd_eq (d : Nat) (s : State) : ∃ u t, execJamEnd d s = .next t ∧ Does u t ∧
    (u = s ∨ u = updPort (fun p => { p with giveUps := satInc p.giveUps }) s) := by
  unfold execJamEnd act whenUp
  split
  · exact ⟨s, s, rfl, .none s, .inl rfl⟩
  · dsimp only
    split
    · rename_i h hx
      unfold jamEnded
      extract_lets n slots
      split
      · refine ⟨_, _, rfl, .after (settle_does _ _) ?_, .inr rfl⟩
        refine .after ?_ (.one (.port (fun p => { p with tx := .free }) _ rfl rfl rfl rfl rfl fun _ => rfl))
        by_cases hb : h.tag = .beacon
        · rw [hb]
          exact .none _
        · exact reportOutcome_does _ _ _ hb
      · exact ⟨s, _, rfl, .after (settle_does _ _) (.one (.port _ s rfl rfl rfl rfl rfl fun e => by rw [hx] at e; cases e)),
          .inl rfl⟩
    all_goals exact ⟨s, _, rfl, settle_does _ _, .inl rfl⟩

/-- JOB_ARRIVAL: no adoption and a run, or an adoption with a run after it; the hand-off is taken unless the memory test is
on. -/
theorem execJobArrival_eq (x : Byte) (j : Word16) (b : JobBody) (s : State) : ∃ u t,
    (execJobArrival x j b s = .next t ∨ execJobArrival x j b s = .next (takeHandoff .jobController x j (.job b) t)) ∧
      Does u t ∧ (Does s u ∨
        (s.ident.mode = .active ∧ s.job.st.working = false ∧ judgeJob j b = none ∧ u = adopt j b s)) := by
  have judge (h : s.ident.mode = .active) (hw : s.job.st.working = false) :
      Does s (judgeAdoption j b s) ∨
        (s.ident.mode = .active ∧ s.job.st.working = false ∧ judgeJob j b = none ∧ judgeAdoption j b s = adopt j b s) := by
    unfold judgeAdoption
    split
    · exact .inl (record_does _ s rfl rfl)
    · rename_i hj
      exact .inr ⟨h, hw, hj, rfl⟩
  unfold execJobArrival actOnArrival whenUp
  split
  · exact ⟨s, s, .inl rfl, .none s, .inl (.none s)⟩
  · dsimp only
    refine ⟨_, _, .inr rfl, settle_does _ _, ?_⟩
    cases hm : (s.ident.mode == .active)
    · exact .inl (.none s)
    · have hm : s.ident.mode = .active := by simpa using hm
      simp only [doIf, if_true]
      unfold takeJob
      split
      · rename_i hs
        exact judge hm (by rw [hs]; rfl)
      any_goals
        first
          | exact .inl (.none s)
          | skip
      all_goals
        rename_i hs
        split
        · exact .inl (.none s)
        · exact judge hm (by rw [hs]; rfl)

/-- SILENCE_TIMER_EXPIRY: the entry, then a run. -/
theorem execSilenceTimerExpiry_eq (x : Fin 32) (w : Bool) (s : State) : ∃ u t,
    execSilenceTimerExpiry x w s = .next t ∧ Does u t ∧ (u = s ∨ u = updEntry x RosterEntry.silenced s) := by
  unfold execSilenceTimerExpiry act whenUp
  split
  · exact ⟨s, s, rfl, .none s, .inl rfl⟩
  · dsimp only
    split
    · exact ⟨_, _, rfl, .after (settle_does _ _) (rosterReport_does w x _), .inr rfl⟩
    · exact ⟨s, _, rfl, settle_does _ _, .inl rfl⟩

/-- BEACON_ARRIVAL: the entry and a run, or MUTE and a run, or a run; the hand-off is taken unless the memory test is on. -/
theorem execBeaconArrival_eq (x : Byte) (j : Word16) (b : BeaconBody) (w : Bool) (s : State) : ∃ u t,
    (execBeaconArrival x j b w s = .next t ∨ execBeaconArrival x j b w s = .next (takeHandoff .roster x j (.beacon b) t)) ∧
      Does u t ∧ (u = s ∨ (∃ y, y ≠ s.own ∧ u = updEntry y (fun _ => heardEntry j b) s) ∨
        (s.ident.mode ≠ .mute ∧ u = enterMute s)) := by
  unfold execBeaconArrival actOnArrival whenUp
  split
  · exact ⟨s, s, .inl rfl, .none s, .inl rfl⟩
  · dsimp only
    split
    · rename_i y _
      split
      · unfold ownNumberHeard
        cases hm : (s.ident.mode != .mute)
        · exact ⟨s, _, .inr rfl, settle_does _ _, .inl rfl⟩
        · exact ⟨_, _, .inr rfl, settle_does _ _, .inr (.inr ⟨by simpa using hm, rfl⟩)⟩
      · rename_i hy
        exact ⟨_, _, .inr rfl, .after (settle_does _ _) (rosterReport_does w y _), .inr (.inl ⟨y, hy, rfl⟩)⟩
    · exact ⟨s, _, .inr rfl, settle_does _ _, .inl rfl⟩

end Sys2Proof.Machine
end

