-- ==== Sys2Proof/Laws/Frames.lean ====
section
/-! SUPPORT. The frame formats: fields of two and four bytes read back as written, and each body's bytes read back as the
body (R4 to R10). -/
namespace Sys2Proof.Machine

/-! ### Fields -/

theorem split16 (w : Word16) : w.extractLsb' 8 8 ++ w.extractLsb' 0 8 = w := by
  ext i hi
  simp only [BitVec.getElem_append, BitVec.getElem_extractLsb']
  split
  · simp [BitVec.getLsbD_eq_getElem hi]
  · rw [show 8 + (i - 8) = i by omega, BitVec.getLsbD_eq_getElem hi]

theorem split32 (w : Word32) :
    (w.extractLsb' 24 8 ++ w.extractLsb' 16 8) ++ (w.extractLsb' 8 8 ++ w.extractLsb' 0 8) = w := by
  ext i hi
  simp only [BitVec.getElem_append, BitVec.getElem_extractLsb']
  rw [← BitVec.getLsbD_eq_getElem hi]
  repeat' split
  all_goals congr 1; omega

theorem bytes16_length (w : Word16) : (bytes16 w).length = 2 := rfl
theorem bytes32_length (w : Word32) : (bytes32 w).length = 4 := rfl

theorem byteAt_right (l m : List Byte) (i : Nat) (h : l.length ≤ i) : byteAt (l ++ m) i = byteAt m (i - l.length) := by
  simp only [byteAt, List.getD_eq_getElem?_getD, List.getElem?_append_right h]

theorem byteAt_left (l m : List Byte) (i : Nat) (h : i < l.length) : byteAt (l ++ m) i = byteAt l i := by
  simp only [byteAt, List.getD_eq_getElem?_getD, List.getElem?_append_left h]

theorem drop_prefix (l m : List Byte) (n : Nat) (h : n = l.length) : (l ++ m).drop n = m := by
  subst h
  simp

/-- A two-byte field behind `l` reads back as written. -/
theorem word16At_field (l m : List Byte) (w : Word16) (i : Nat) (h : i = l.length) :
    word16At (l ++ (bytes16 w ++ m)) i = w := by
  subst h
  unfold word16At
  rw [byteAt_right _ _ _ (Nat.le_refl _), byteAt_right _ _ _ (Nat.le_add_right _ _)]
  simp only [Nat.sub_self, Nat.add_sub_cancel_left]
  exact split16 w

/-- A four-byte field behind `l` reads back as written. -/
theorem word32At_field (l m : List Byte) (w : Word32) (i : Nat) (h : i = l.length) :
    word32At (l ++ (bytes32 w ++ m)) i = w := by
  subst h
  unfold word32At
  rw [byteAt_right _ _ _ (Nat.le_refl _), byteAt_right _ _ _ (Nat.le_add_right _ _),
    byteAt_right _ _ _ (Nat.le_add_right _ _), byteAt_right _ _ _ (Nat.le_add_right _ _)]
  simp only [Nat.sub_self, Nat.add_sub_cancel_left]
  exact split32 w

/-- Bytes read behind a prefix. -/
theorem word32At_right (l m : List Byte) (i : Nat) (h : l.length ≤ i) :
    word32At (l ++ m) i = word32At m (i - l.length) := by
  unfold word32At
  rw [byteAt_right _ _ _ h, byteAt_right _ _ _ (by omega), byteAt_right _ _ _ (by omega), byteAt_right _ _ _ (by omega)]
  rw [show i + 1 - l.length = i - l.length + 1 by omega, show i + 2 - l.length = i - l.length + 2 by omega,
    show i + 3 - l.length = i - l.length + 3 by omega]

/-! ### Bodies -/

/-- The three fields of a BEACON's first byte. -/
theorem beacon_first (m : BitVec 2) (r : BitVec 3) (j : BitVec 3) :
    ((m ++ r ++ j : Byte).extractLsb' 6 2 = m) ∧ ((m ++ r ++ j : Byte).extractLsb' 3 3 = r) ∧
      ((m ++ r ++ j : Byte).extractLsb' 0 3 = j) := by
  revert m r j
  decide

/-- The three flags of a flag byte. -/
theorem flags_read (a b c : Bool) :
    let f := flagBit a 0 ||| flagBit b 1 ||| flagBit c 2
    f.getLsbD 0 = a ∧ f.getLsbD 1 = b ∧ f.getLsbD 2 = c := by
  cases a <;> cases b <;> cases c <;> decide

theorem beaconBytes_length (b : BeaconBody) (h : b.codes.length = 8) : (beaconBytes b).length = 26 := by
  simp [beaconBytes, bytes32, bytes16, h]

theorem beaconOf_bytes (b : BeaconBody) (h : b.codes.length = 8) : beaconOf (beaconBytes b) = b := by
  have f := beacon_first b.modeBits b.refusal b.jobState
  have g := flags_read b.source b.settled b.enrollClosed
  have hc : b.codes.take 8 = b.codes := List.take_of_length_le (Nat.le_of_eq h)
  simp only [beaconOf, beaconBytes, bytes32, bytes16, byteAt, word32At, word16At, List.cons_append, List.nil_append,
    List.getD_cons_zero, List.getD_cons_succ, List.drop_succ_cons, List.drop_zero, split32, split16, hc, f, g]

theorem patchBytes_length (p : PatchEntry) (h : p.value.length = 16) : (patchBytes p).length = 25 := by
  simp [patchBytes, bytes32, bytes16, h]

theorem patchOf_bytes (p : PatchEntry) (h : p.value.length = 16) : patchOf (patchBytes p) = p := by
  have hc : p.value.take 16 = p.value := List.take_of_length_le (Nat.le_of_eq h)
  simp only [patchOf, patchBytes, bytes32, bytes16, byteAt, word32At, word16At, List.cons_append, List.nil_append,
    List.getD_cons_zero, List.getD_cons_succ, List.drop_succ_cons, List.drop_zero, split32, split16, hc]

theorem flatMap_patches_length (l : List PatchEntry) (h : ∀ p ∈ l, p.value.length = 16) :
    (l.flatMap patchBytes).length = 25 * l.length := by
  induction l with
  | nil => rfl
  | cons p l ih =>
    rw [List.flatMap_cons, List.length_append, patchBytes_length p (h p List.mem_cons_self),
      ih fun q hq => h q (List.mem_cons_of_mem _ hq), List.length_cons]
    omega

theorem patchesOf_bytes (l : List PatchEntry) (m : List Byte) (h : ∀ p ∈ l, p.value.length = 16) :
    patchesOf l.length (l.flatMap patchBytes ++ m) = l := by
  induction l with
  | nil => rfl
  | cons p l ih =>
    have hp := patchBytes_length p (h p List.mem_cons_self)
    rw [List.length_cons, patchesOf, List.flatMap_cons, List.append_assoc, List.take_append_of_le_length (Nat.le_of_eq hp.symm),
      List.take_of_length_le (Nat.le_of_eq hp), patchOf_bytes p (h p List.mem_cons_self), drop_prefix _ _ 25 hp.symm,
      ih fun q hq => h q (List.mem_cons_of_mem _ hq)]

theorem jobBytes_length (b : JobBody) (h : ∀ p ∈ b.patches, p.value.length = 16) :
    (jobBytes b).length = 23 + 25 * b.patches.length := by
  simp only [jobBytes, jobHead, jobTail, List.length_append, bytes32_length, flatMap_patches_length b.patches h,
    List.length_cons, List.length_nil]
  omega

theorem jobOf_bytes (b : JobBody) (hn : b.patches.length ≤ 8) (h : ∀ p ∈ b.patches, p.value.length = 16) :
    byteAt (jobBytes b) 18 = BitVec.ofNat 8 b.patches.length ∧ jobOf (jobBytes b) = b := by
  have k : (BitVec.ofNat 8 b.patches.length).toNat = b.patches.length := by
    rw [BitVec.toNat_ofNat]
    exact Nat.mod_eq_of_lt (by omega)
  have e : jobBytes b = ([b.imageSize.extractLsb' 24 8, b.imageSize.extractLsb' 16 8, b.imageSize.extractLsb' 8 8,
      b.imageSize.extractLsb' 0 8, b.srcStation, b.srcSocket, b.policy, b.lagThreshold, b.lagDuration, b.latch,
      b.needThreshold, b.lossDuration, b.verify, b.enrollClosed, b.serialBase.extractLsb' 24 8,
      b.serialBase.extractLsb' 16 8, b.serialBase.extractLsb' 8 8, b.serialBase.extractLsb' 0 8,
      BitVec.ofNat 8 b.patches.length] : List Byte) ++ (b.patches.flatMap patchBytes ++ (bytes32 b.digest ++ [])) := by
    simp [jobBytes, jobHead, jobTail, bytes32]
  have hd : word32At (jobBytes b) (19 + 25 * b.patches.length) = b.digest := by
    rw [e, ← List.append_assoc]
    exact word32At_field _ _ _ _ (by
      rw [List.length_append, flatMap_patches_length b.patches h]
      rfl)
  have h18 : byteAt (jobBytes b) 18 = BitVec.ofNat 8 b.patches.length := by rw [e]; rfl
  refine ⟨h18, ?_⟩
  have hp : patchesOf b.patches.length ((jobBytes b).drop 19) = b.patches := by
    rw [e, drop_prefix _ _ 19 rfl]
    exact patchesOf_bytes _ _ h
  unfold jobOf
  rw [h18, k]
  dsimp only
  rw [hd, hp, e]
  simp only [byteAt, word32At, List.cons_append, List.nil_append, List.getD_cons_zero, List.getD_cons_succ, split32]

theorem parcelBodyBytes_length (b : ParcelBody) (h : b.payload.length = 4096) : (parcelBodyBytes b).length = 4110 := by
  simp [parcelBodyBytes, bytes32, h]

theorem parcelOf_bytes (b : ParcelBody) : parcelOf (parcelBodyBytes b) = some b := by
  have g := flags_read b.isRepair b.isRecall b.isFinal
  have k : (BitVec.ofNat 8 b.parcel.val).toNat = b.parcel.val := by
    rw [BitVec.toNat_ofNat]
    exact Nat.mod_eq_of_lt (by omega)
  have h4 : byteAt (parcelBodyBytes b) 4 = BitVec.ofNat 8 b.parcel.val := by
    simp [parcelBodyBytes, bytes32, byteAt]
  have hlt : (byteAt (parcelBodyBytes b) 4).toNat < 8 := by rw [h4, k]; exact b.parcel.isLt
  have hp : (⟨(byteAt (parcelBodyBytes b) 4).toNat, hlt⟩ : Fin 8) = b.parcel := Fin.ext (by simp only [h4, k])
  unfold parcelOf
  rw [dif_pos hlt, hp]
  simp only [parcelBodyBytes, bytes32, byteAt, word32At, List.cons_append, List.nil_append, List.getD_cons_zero,
    List.getD_cons_succ, List.drop_succ_cons, List.drop_zero, split32, g]

theorem recallBytes_length (l : List Word32) : (recallBytes l).length = 1 + 4 * l.length := by
  have : (l.flatMap bytes32).length = 4 * l.length := by
    induction l with
    | nil => rfl
    | cons w l ih =>
      rw [List.flatMap_cons, List.length_append, ih, bytes32_length, List.length_cons]
      omega
  rw [recallBytes, List.length_append, this]
  rfl

theorem segsOf_bytes (l : List Word32) : segsOf l.length (l.flatMap bytes32) = l := by
  induction l with
  | nil => rfl
  | cons w l ih =>
    rw [List.length_cons, segsOf, List.flatMap_cons, drop_prefix _ _ 4 rfl, ih]
    exact congrArg (· :: l) (word32At_field [] _ w 0 rfl)

/-- The body bytes of a well-formed frame are no longer than a JOB or a PARCEL body. -/
theorem body_lt (f : Frame) (h : f.wf = true) : 1 ≤ f.body.bytes.length ∧ f.body.bytes.length ≤ 4110 := by
  unfold Frame.wf at h
  unfold FrameBody.bytes
  split
  all_goals rename_i e; rw [e] at h; simp only [Bool.and_eq_true, decide_eq_true_eq, beq_iff_eq, List.all_eq_true] at h
  · rw [beaconBytes_length _ h.2]
    omega
  · rw [jobBytes_length _ h.2]
    omega
  · simp
  · rw [parcelBodyBytes_length _ h]
    omega
  · simp [bytes32]
  · rw [recallBytes_length]
    omega

end Sys2Proof.Machine
end

