-- ==== Sys2Proof/Laws/Teardown.lean ====
section
/-! SUPPORT. The end of a job: what every teardown leaves (`endJob_torn`), and that nothing happens at the end of a step
afterwards (`settle_torn`). -/
namespace Sys2Proof.Machine
open Sys2Proof.Safety

/-- A slot after a teardown (R84). -/
def SlotTorn (sl : Slot) : Prop :=
  sl.st = .free ∧ sl.seg = none ∧ sl.mask = 0 ∧ sl.timer = none ∧ sl.pending = 0 ∧ sl.toSend = 0

/-- A socket's ring, lists, tie and monitor after a teardown (R116, R134, R188). -/
def SocketTorn (sk : Socket) : Prop :=
  sk.ring = [] ∧ sk.owed = [] ∧ sk.recheck = [] ∧ sk.expect = [] ∧ sk.passList = [] ∧ sk.passCount = 0 ∧
    sk.cursor = none ∧ sk.tie = .none ∧ sk.lag = Monitor.idle

/-- The slots, the sockets and the pacing unit after a teardown, outside a job. -/
structure Torn (s : State) : Prop where
  slots : ∀ id, SlotTorn (s.slot id)
  sockets : ∀ k : Fin 8, SocketTorn s.sockets[k]
  pacing : s.pacing = Pacing.reset
  outside : s.job.st.working = false

theorem Torn.slot {s : State} (h : Torn s) (id : SlotId) (f : Slot → Slot) (hf : SlotTorn (f (s.slot id))) :
    Torn (updSlot id f s) := by
  refine ⟨fun j => ?_, by rw [updSlot_sockets]; exact h.sockets, by rw [updSlot_pacing]; exact h.pacing,
    by rw [updSlot_job]; exact h.outside⟩
  by_cases e : j = id
  · rw [e, updSlot_same]
    exact hf
  · rw [updSlot_other e]
    exact h.slots j

theorem Torn.socket {s : State} (h : Torn s) (k : Fin 8) (f : Socket → Socket) (hf : SocketTorn (f s.sockets[k])) :
    Torn (updSocket k f s) := by
  refine ⟨h.slots, fun j => ?_, h.pacing, h.outside⟩
  by_cases e : j = k
  · rw [e, updSocket_same]
    exact hf
  · rw [updSocket_other e]
    exact h.sockets j

/-- With nothing to hold the line for, HOLD stays released. -/
theorem judgeHold_torn {s : State} (h : Torn s) : judgeHold s = s := by
  have d : s.holdDemand = false := by
    have : s.job.st ≠ .enrolling := fun e => by have := h.outside; rw [e] at this; cases this
    simp [State.holdDemand, State.enrollCause, this, h.pacing, Pacing.reset, Monitor.idle]
  unfold judgeHold
  rw [d]
  have e : (updPacing (fun p => { p with hold := .released, holdTimer := none }) s).pacing = s.pacing := by
    rw [updPacing_pacing, h.pacing]
    rfl
  simp only [updPacing] at e ⊢
  rw [e]
  rfl

theorem Torn.state {s : State} (h : Torn s) (k : Fin 8) (st : SocketState) (r : Reason) : Torn (setState k st r s) :=
  h.socket k _ (h.sockets k)

theorem settleClaims_torn {b : Bool} {sl : Slot} (h : SlotTorn sl) : SlotTorn (sl.settleClaims b) := by
  unfold Slot.settleClaims
  split
  · rw [h.1]
    exact h
  · exact h

theorem Torn.settleSlot {s : State} (h : Torn s) (id : SlotId) : Torn (settleSlot id s) :=
  h.slot id _ (settleClaims_torn (h.slots id))

theorem Torn.abandon {s : State} (h : Torn s) (k : Fin 8) : Torn (abandonCommand k s) := by
  have t : Torn (updSocket k (fun sk => { sk with cmd := none }) s) := h.socket k _ (h.sockets k)
  unfold abandonCommand
  split
  · refine Torn.settleSlot (t.slot _ _ ?_) _
    exact t.slots _
  · refine t.slot _ _ ?_
    have g := t.slots
    split
    · exact ⟨rfl, rfl, rfl, rfl, (g _).2.2.2.2.1, (g _).2.2.2.2.2⟩
    · exact g _
  · exact t
  · exact t

theorem Torn.report {s : State} (h : Torn s) (k : Fin 8) : Torn (reportOccupancy k s) := by
  refine h.socket k _ ?_
  obtain ⟨h1, h2, h3, h4, h5, h6, h7, h8, h9⟩ := h.sockets k
  refine ⟨h1, h2, h3, h4, h5, h6, h7, ?_, ?_⟩
  · simp only [Socket.lagBy, h8, Tie.follow]
  · simp only [Socket.lagBy, h9]
    rfl

theorem Torn.detach {s : State} (h : Torn s) (k : Fin 8) : Torn (detachWrite k s) := by
  unfold detachWrite
  repeat' split
  · exact h.abandon k
  · exact h.socket k _ (h.sockets k)
  all_goals exact h

theorem Torn.empty {s : State} (h : Torn s) (k : Fin 8) : Torn (emptyRing k s) := by
  have e : s.sockets[k].ring = [] := (h.sockets k).1
  unfold emptyRing
  rw [e]
  exact Torn.report (Torn.detach (h.socket k (fun sk => { sk with ring := [] }) ⟨rfl, (h.sockets k).2⟩) k) k

theorem Torn.fail {s : State} (h : Torn s) (k : Fin 8) (r : Reason) : Torn (failSocket k r s) := by
  unfold failSocket
  split
  · exact h
  · refine Torn.state (Torn.empty (h.socket k _ ?_) k) k _ _
    obtain ⟨h1, h2, h3, h4, h5, h6, h7, h8, h9⟩ := h.sockets k
    exact ⟨h1, rfl, rfl, rfl, rfl, rfl, rfl, h8, h9⟩

/-- Outside a job a socket that reaches READY stays READY (R141). -/
theorem placeReady_outside {s : State} (h : s.job.st.working = false) (k : Fin 8) :
    placeReady k s = setState k .ready .none s := by
  unfold placeReady
  split <;> first | rfl | (rename_i e; rw [e] at h; cases h)

theorem Torn.target {s : State} (h : Torn s) (k : Fin 8) (x : ExitTarget) : Torn (takeTarget k x s) := by
  have t : Torn (updSocket k (fun sk => { sk with exit := none }) s) := h.socket k _ (h.sockets k)
  unfold takeTarget
  cases x
  · exact t.state k _ _
  · dsimp only
    rw [placeReady_outside t.outside]
    exact t.state k _ _
  · exact t.fail k _

theorem Torn.exit {s : State} (h : Torn s) (k : Fin 8) (x : ExitTarget) : Torn (giveExit k x s) := by
  unfold giveExit
  repeat' split
  · exact h.target k x
  · exact (h.abandon k).target k x
  · exact h.socket k _ (h.sockets k)

/-- What an exit target makes of a socket. -/
def ExitTarget.makes : ExitTarget → SocketState × Reason
  | .waiting => (.waiting, .none)
  | .ready => (.ready, .none)
  | .sourceLost => (.failed, .sourceLost)

/-- Outside a job an exit target taken gives its state and reason; a FAILED socket keeps its reason (R149, R150). -/
theorem takeTarget_torn {s : State} (h : Torn s) (k : Fin 8) (x : ExitTarget) (hf : s.sockets[k].st ≠ .failed) :
    (takeTarget k x s).sockets[k].st = x.makes.1 ∧ (takeTarget k x s).sockets[k].reason = x.makes.2 := by
  have t : Torn (updSocket k (fun sk => { sk with exit := none }) s) := h.socket k _ (h.sockets k)
  unfold takeTarget
  cases x
  · dsimp only
    rw [setState_socket]
    exact ⟨rfl, rfl⟩
  · dsimp only
    rw [placeReady_outside t.outside, setState_socket]
    exact ⟨rfl, rfl⟩
  · dsimp only
    unfold failSocket
    rw [if_neg (by rw [updSocket_same]; exact hf)]
    rw [setState_socket]
    exact ⟨rfl, rfl⟩

/-- A socket given an exit target has its state and reason, or is bound for it. -/
theorem giveExit_torn {s : State} (h : Torn s) (k : Fin 8) (x : ExitTarget) (hf : s.sockets[k].st ≠ .failed) :
    ((giveExit k x s).sockets[k].st = x.makes.1 ∧ (giveExit k x s).sockets[k].reason = x.makes.2) ∨
      ((giveExit k x s).sockets[k].exit = some x ∧ (giveExit k x s).sockets[k].st = s.sockets[k].st) := by
  unfold giveExit
  repeat' split
  · exact .inl (takeTarget_torn h k x hf)
  · refine .inl (takeTarget_torn (h.abandon k) k x ?_)
    rw [abandonCommand_socket]
    exact hf
  · right
    rw [updSocket_same]
    exact ⟨rfl, rfl⟩

/-! ### Teardown and exits -/

theorem detachWrite_keeps (k : Fin 8) (s : State) :
    (∃ c, (detachWrite k s).sockets[k] = { s.sockets[k] with cmd := c }) ∧ (detachWrite k s).pacing = s.pacing := by
  unfold detachWrite
  repeat' split
  · exact ⟨⟨none, abandonCommand_socket k s⟩, (abandonCommand_sockets k s).2⟩
  · exact ⟨⟨_, updSocket_same k _ s⟩, rfl⟩
  all_goals exact ⟨⟨s.sockets[k].cmd, rfl⟩, rfl⟩

theorem unclaimSlots_keeps (l : List Descriptor) (s : State) :
    (forEach l (fun d => unclaimSlot d.src) s).sockets = s.sockets ∧
      (forEach l (fun d => unclaimSlot d.src) s).pacing = s.pacing :=
  forEach_keeps (R := fun a b => b.sockets = a.sockets ∧ b.pacing = a.pacing) (fun _ => ⟨rfl, rfl⟩)
    (fun p q => ⟨q.1.trans p.1, q.2.trans p.2⟩) l _
    (fun d u => ⟨unclaimSlot_sockets d.src u, by simp [unclaimSlot, Machine.settleSlot]⟩) s

/-- Emptying a ring (R115): of the socket, the ring, the command in flight and, by the occupancy of 0, monitor and tie. -/
theorem emptyRing_socket (k : Fin 8) (s : State) :
    (∃ c, (emptyRing k s).sockets[k] =
      Socket.lagBy (Monitor.report 0) { s.sockets[k] with ring := [], cmd := c }) ∧
      (emptyRing k s).pacing = s.pacing := by
  unfold emptyRing
  extract_lets pend t u
  obtain ⟨⟨c, d⟩, p⟩ := detachWrite_keeps k u
  have cl := unclaimSlots_keeps pend t
  refine ⟨⟨c, ?_⟩, p.trans cl.2⟩
  have e : u.sockets[k] = { s.sockets[k] with ring := [] } := by simp only [u, cl.1, t, updSocket_same]
  rw [e] at d
  unfold reportOccupancy
  rw [updSocket_same, d]
  rfl

theorem emptyRing_ring (k : Fin 8) (s : State) :
    (emptyRing k s).sockets[k].ring = [] ∧ (emptyRing k s).pacing = s.pacing := by
  obtain ⟨⟨c, e⟩, p⟩ := emptyRing_socket k s
  exact ⟨by rw [e]; rfl, p⟩

/-- Every teardown leaves the station torn down, but for the exits of its sockets. -/
theorem teardown_torn (f : Job → Job) (s : State) (hw : (f s.job).st.working = false) :
    Torn (teardown f s) ∧ (teardown f s).repair = Repair.empty ∧ (teardown f s).rv = Recall.reset ∧
      (teardown f s).job = f s.job ∧ (teardown f s).win.base = 0 ∧ (teardown f s).win.next = 0 ∧
      (teardown f s).win.readMark = 0 ∧ (teardown f s).win.highestNew = none ∧
      (teardown f s).win.checkTable = s.win.checkTable ∧ (teardown f s).port = s.port.jobEnded := by
  have a := forSockets_each (I := fun t => t.pacing = Pacing.reset) (Q := fun _ sk => sk.ring = []) emptyRing
    (updPacing (fun _ => Pacing.reset) (updJob f s)) emptyRing_only
    (fun k t h => (emptyRing_ring k t).2.trans h) (fun k t _ _ => (emptyRing_ring k t).1) rfl
  have torn (v : State) (hv : v.pacing = Pacing.reset) (hk : ∀ k : Fin 8, v.sockets[k].ring = []) :
      (forSockets (fun k => updSocket k Socket.jobEnded) v).pacing = Pacing.reset ∧
        ∀ k : Fin 8, SocketTorn (forSockets (fun k => updSocket k Socket.jobEnded) v).sockets[k] :=
    forSockets_each (I := fun t => t.pacing = Pacing.reset) (Q := fun _ sk => SocketTorn sk)
      (fun k => updSocket k Socket.jobEnded) v (fun k t => .socket k _ t) (fun k t h => h)
      (fun k t _ e => by
        rw [updSocket_same, e]
        exact ⟨hk k, rfl, rfl, rfl, rfl, rfl, rfl, rfl, rfl⟩) hv
  have b := torn _ a.1 a.2
  have d : teardown f s = updPort Port.jobEnded (updRv (fun _ => Recall.reset) (updWin Window.jobEnded
      (updRepair (fun _ => Repair.empty) (forSockets (fun k => updSocket k Socket.jobEnded)
        (forSockets emptyRing (updPacing (fun _ => Pacing.reset) (updJob f s))))))) := rfl
  have w : Works (updPacing (fun _ => Pacing.reset) (updJob f s)) (forSockets (fun k => updSocket k Socket.jobEnded)
        (forSockets emptyRing (updPacing (fun _ => Pacing.reset) (updJob f s)))) :=
    .after (.sockets _ jobEnded_works _)
      (.sockets _ (fun k t => emptyRing_works k t) _)
  have j := teardown_job f s
  generalize forSockets (fun k => updSocket k Socket.jobEnded)
    (forSockets emptyRing (updPacing (fun _ => Pacing.reset) (updJob f s))) = v at b d w
  refine ⟨⟨fun id => ?_, ?_, ?_, ?_⟩, ?_, ?_, j, ?_, ?_, ?_, ?_, ?_, ?_⟩
  · rw [d]
    cases id <;> simp [State.slot, Window.jobEnded, Slot.jobEnded, Slot.freed, SlotTorn]
  · rw [d]
    exact b.2
  · rw [d]
    exact b.1
  · rw [j]
    exact hw
  · rw [d]
    rfl
  · rw [d]
    rfl
  · rw [d]
    rfl
  · rw [d]
    rfl
  · rw [d]
    rfl
  · rw [d]
    rfl
  · rw [d]
    exact w.apart.checkTable
  · rw [d]
    simp only [updPort_port, updRv_port, updWin_port, updRepair_port]
    rw [w.apart.port]
    rfl

/-- A teardown leaves the states, the reasons and the exits of the sockets to `exitSockets`. -/
theorem teardown_states (f : Job → Job) (s : State) (k : Fin 8) :
    (teardown f s).sockets[k].st = s.sockets[k].st ∧ (teardown f s).sockets[k].reason = s.sockets[k].reason ∧
      (teardown f s).sockets[k].exit = s.sockets[k].exit := by
  have a := forSockets_each (I := fun _ => True)
    (Q := fun k sk => sk.st = s.sockets[k].st ∧ sk.reason = s.sockets[k].reason ∧ sk.exit = s.sockets[k].exit) emptyRing
    (updPacing (fun _ => Pacing.reset) (updJob f s)) emptyRing_only (fun _ _ _ => trivial)
    (fun k t _ h => by
      obtain ⟨⟨c, e⟩, _⟩ := emptyRing_socket k t
      rw [e, h]
      exact ⟨rfl, rfl, rfl⟩) trivial
  have end_ (v : State) (hv : ∀ k : Fin 8, v.sockets[k].st = s.sockets[k].st ∧ v.sockets[k].reason = s.sockets[k].reason ∧
      v.sockets[k].exit = s.sockets[k].exit) :
      ∀ k : Fin 8, (forSockets (fun k => updSocket k Socket.jobEnded) v).sockets[k].st = s.sockets[k].st ∧
        (forSockets (fun k => updSocket k Socket.jobEnded) v).sockets[k].reason = s.sockets[k].reason ∧
        (forSockets (fun k => updSocket k Socket.jobEnded) v).sockets[k].exit = s.sockets[k].exit :=
    (forSockets_each (I := fun _ => True)
      (Q := fun k sk => sk.st = s.sockets[k].st ∧ sk.reason = s.sockets[k].reason ∧ sk.exit = s.sockets[k].exit)
      (fun k => updSocket k Socket.jobEnded) v (fun k t => .socket k _ t) (fun _ _ _ => trivial)
      (fun k t _ e => by
        rw [updSocket_same, e]
        exact hv k) trivial).2
  have b := end_ _ a.2
  have d : teardown f s = updPort Port.jobEnded (updRv (fun _ => Recall.reset) (updWin Window.jobEnded
      (updRepair (fun _ => Repair.empty) (forSockets (fun k => updSocket k Socket.jobEnded)
        (forSockets emptyRing (updPacing (fun _ => Pacing.reset) (updJob f s))))))) := rfl
  generalize forSockets (fun k => updSocket k Socket.jobEnded)
    (forSockets emptyRing (updPacing (fun _ => Pacing.reset) (updJob f s))) = v at b d
  rw [d]
  exact b k

/-- After the exits of a torn-down station, every socket is out of the job or bound for an exit. -/
theorem exitSockets_torn (x : ExitTarget) (s : State) (h : Torn s) (hx : x.makes.1.inJob = false) (hn : x ≠ .waiting) :
    Torn (exitSockets x s) ∧ ∀ k : Fin 8,
      ((exitSockets x s).sockets[k].st.inJob = true ∨ (exitSockets x s).sockets[k].st = .master →
        (exitSockets x s).sockets[k].exit.isSome) ∧
      (exitSockets x s).sockets[k].st ≠ .waiting ∧
      (s.sockets[k].st.inJob = true →
        ((exitSockets x s).sockets[k].st = x.makes.1 ∧ (exitSockets x s).sockets[k].reason = x.makes.2) ∨
          (exitSockets x s).sockets[k].exit = some x) ∧
      (s.sockets[k].st.inJob = false → s.sockets[k].st ≠ .master → s.sockets[k].st ≠ .waiting →
        (exitSockets x s).sockets[k] = s.sockets[k]) := by
  have made : x.makes.1 ≠ .master ∧ x.makes.1 ≠ .waiting := by
    cases x
    · exact absurd rfl hn
    · exact ⟨by decide, by decide⟩
    · exact ⟨by decide, by decide⟩
  refine forSockets_each (I := Torn) (Q := fun k sk => (sk.st.inJob = true ∨ sk.st = .master → sk.exit.isSome) ∧
      sk.st ≠ .waiting ∧
      (s.sockets[k].st.inJob = true → (sk.st = x.makes.1 ∧ sk.reason = x.makes.2) ∨ sk.exit = some x) ∧
      (s.sockets[k].st.inJob = false → s.sockets[k].st ≠ .master → s.sockets[k].st ≠ .waiting → sk = s.sockets[k]))
    _ s (fun k t => ?_) (fun k t ht => ?_) (fun k t ht e => ?_) h
  · repeat' split
    · exact giveExit_only k _ t
    · exact giveExit_only k _ t
    · exact setState_only k _ _ t
    · exact .none k t
  · repeat' split
    · exact ht.exit k _
    · exact ht.exit k _
    · exact ht.state k _ _
    · exact ht
  · rw [← e]
    by_cases hj : t.sockets[k].st.inJob = true
    · have hf : t.sockets[k].st ≠ .failed := fun e => by rw [e] at hj; cases hj
      have hw : t.sockets[k].st ≠ .waiting := fun e => by rw [e] at hj; cases hj
      rw [if_pos hj]
      refine ⟨fun o => ?_, ?_, fun _ => ?_, fun o => by rw [hj] at o; cases o⟩
      · rcases giveExit_torn ht k x hf with g | g
        · rw [g.1] at o
          exact o.elim (fun o => by rw [hx] at o; cases o) fun o => absurd o made.1
        · rw [g.1]
          rfl
      · rcases giveExit_torn ht k x hf with g | g
        · rw [g.1]
          exact made.2
        · rw [g.2]
          exact hw
      · exact (giveExit_torn ht k x hf).imp_right And.left
    · rw [if_neg hj]
      by_cases hm : t.sockets[k].st = .master
      · have hf : t.sockets[k].st ≠ .failed := fun e => by rw [e] at hm; cases hm
        rw [if_pos hm]
        refine ⟨fun o => ?_, ?_, fun o => absurd o hj, fun _ o => absurd hm o⟩
        · rcases giveExit_torn ht k .ready hf with g | g
          · rw [g.1] at o
            exact o.elim (fun o => by cases o) fun o => by cases o
          · rw [g.1]
            rfl
        · rcases giveExit_torn ht k .ready hf with g | g
          · rw [g.1]
            decide
          · rw [g.2, hm]
            decide
      · rw [if_neg hm]
        by_cases hw : t.sockets[k].st = .waiting
        · rw [if_pos hw, setState_socket]
          refine ⟨fun o => ?_, by simp, fun o => absurd o hj, fun _ _ o => absurd hw o⟩
          exact o.elim (fun o => by cases o) fun o => by cases o
        · rw [if_neg hw]
          exact ⟨fun o => o.elim (fun o => absurd o hj) fun o => absurd o hm, hw, fun o => absurd o hj, fun _ _ _ => rfl⟩

/-- The end of a job tears the station down (R51, R56, R84, R103, R116, R134, R150, R188). -/
theorem endJob_torn (f : Job → Job) (x : ExitTarget) (s : State) (hw : (f s.job).st.working = false)
    (hr : (f s.job).source = false ∧ (f s.job).former = none ∧ (f s.job).orphanTimer = none ∧
      (f s.job).settleTimer = none ∧ (f s.job).repeatTimer = none)
    (hx : x.makes.1.inJob = false) (hn : x ≠ .waiting) :
    tornDown (exitSockets x (teardown f s)) ∧ Torn (exitSockets x (teardown f s)) ∧
      (exitSockets x (teardown f s)).job = f s.job ∧ (exitSockets x (teardown f s)).port = s.port.jobEnded ∧
      (exitSockets x (teardown f s)).win.checkTable = s.win.checkTable := by
  have t := teardown_torn f s hw
  have e := exitSockets_torn x _ t.1 hx hn
  have a := (exitSockets_works x _ (teardown_recheck f s)).apart
  obtain ⟨tt, hrep, hrv, hj, hb, hne, hre, hh, hc, hp⟩ := t
  have j := a.job.trans hj
  have p := a.port.trans hp
  refine ⟨⟨?_, ?_, ?_, ?_, ?_, a.repair.trans hrep, a.rv.trans hrv, e.1.pacing, a.base.trans hb, a.next.trans hne,
    a.readMark.trans hre, a.highestNew.trans hh, ?_, e.1.slots, fun k => ?_⟩, e.1, j, p, a.checkTable.trans hc⟩
  · rw [j]
    exact hr.1
  · rw [j]
    exact hr.2.1
  · rw [j]
    exact hr.2.2.1
  · rw [j]
    exact hr.2.2.2.1
  · rw [j]
    exact hr.2.2.2.2
  · rw [p]
    exact ⟨rfl, rfl, rfl, rfl, rfl⟩
  · obtain ⟨h1, h2, h3, h4, h5, h6, h7, h8, h9⟩ := e.1.sockets k
    exact ⟨h1, h2, h3, h4, h5, h6, h7, h8, h9, (e.2 k).1, (e.2 k).2.1⟩

theorem enterCancelled_torn (s : State) :
    tornDown (enterCancelled s) ∧ Torn (enterCancelled s) ∧ (enterCancelled s).job = s.job.ended .cancelled ∧
      (enterCancelled s).port = s.port.jobEnded ∧ (enterCancelled s).win.checkTable = s.win.checkTable := by
  unfold enterCancelled
  exact endJob_torn (Job.ended .cancelled) .ready s rfl ⟨rfl, rfl, rfl, rfl, rfl⟩ rfl (by decide)

theorem enterFinished_torn (s : State) :
    tornDown (enterFinished s) ∧ Torn (enterFinished s) ∧ (enterFinished s).job = s.job.ended .finished ∧
      (enterFinished s).port = s.port.jobEnded ∧ (enterFinished s).win.checkTable = s.win.checkTable := by
  unfold enterFinished
  exact endJob_torn (Job.ended .finished) .sourceLost s rfl ⟨rfl, rfl, rfl, rfl, rfl⟩ rfl (by decide)

theorem dropJob_torn (s : State) :
    tornDown (dropJob s) ∧ Torn (dropJob s) ∧
      (dropJob s).job = s.job.dropped ∧
      (dropJob s).port = s.port.jobEnded ∧ (dropJob s).win.checkTable = s.win.checkTable := by
  unfold dropJob
  exact endJob_torn Job.dropped .ready s rfl ⟨rfl, rfl, rfl, rfl, rfl⟩ rfl (by decide)

/-- A socket in the job takes the exit target of the job's end, or is bound for it (R59, R150). -/
theorem endJob_socket (f : Job → Job) (x : ExitTarget) (s : State) (hw : (f s.job).st.working = false)
    (hx : x.makes.1.inJob = false) (hn : x ≠ .waiting) (k : Fin 8) (hk : s.sockets[k].st.inJob = true) :
    ((exitSockets x (teardown f s)).sockets[k].st = x.makes.1 ∧
        (exitSockets x (teardown f s)).sockets[k].reason = x.makes.2) ∨
      (exitSockets x (teardown f s)).sockets[k].exit = some x :=
  ((exitSockets_torn x _ (teardown_torn f s hw).1 hx hn).2 k).2.2.1 (by rw [(teardown_states f s k).1]; exact hk)

/-! ### The marks -/

/-- No written map changes. -/
def SameMarks (s t : State) : Prop := ∀ k : Fin 8, t.sockets[k].written = s.sockets[k].written

namespace SameMarks

theorem none (s : State) : SameMarks s s := fun _ => rfl
theorem after {s t u : State} (g : SameMarks t u) (h : SameMarks s t) : SameMarks s u := fun k => (g k).trans (h k)
theorem same {s t : State} (h : t.sockets = s.sockets) : SameMarks s t := fun k => by rw [h]

theorem socket (k : Fin 8) (f : Socket → Socket) (s : State) (h : (f s.sockets[k]).written = s.sockets[k].written) :
    SameMarks s (updSocket k f s) := by
  intro j
  by_cases e : j = k
  · rw [e, updSocket_same, h]
  · rw [updSocket_other e]

theorem each {α : Type} (l : List α) (f : α → State → State) (h : ∀ a s, SameMarks s (f a s)) (s : State) :
    SameMarks s (forEach l f s) :=
  forEach_keeps none (fun p q => q.after p) l f h s

end SameMarks

theorem setState_marks (k : Fin 8) (st : SocketState) (r : Reason) (s : State) : SameMarks s (setState k st r s) :=
  .socket k _ s rfl

theorem abandonCommand_marks (k : Fin 8) (s : State) : SameMarks s (abandonCommand k s) := by
  have h : SameMarks s (updSocket k (fun sk => { sk with cmd := none }) s) := .socket k _ s rfl
  exact .after (.same (abandonCommand_sockets k s).1) h

theorem emptyRing_marks (k : Fin 8) (s : State) : SameMarks s (emptyRing k s) := by
  have detach (t : State) : SameMarks t (detachWrite k t) := by
    unfold detachWrite
    repeat' split
    · exact abandonCommand_marks k t
    · exact .socket k _ t rfl
    all_goals exact .none t
  exact .after (.socket k _ _ rfl) (.after (detach _)
    (.after (.each _ _ (fun (d : Descriptor) t => .same (unclaimSlot_sockets d.src t)) _) (.socket k _ s rfl)))

theorem failSocket_marks (k : Fin 8) (r : Reason) (s : State) : SameMarks s (failSocket k r s) := by
  unfold failSocket
  split
  · exact .none s
  · exact .after (setState_marks k _ _ _) (.after (emptyRing_marks k _) (.socket k _ s rfl))

theorem takeTarget_marks (k : Fin 8) (x : ExitTarget) (s : State) : SameMarks s (takeTarget k x s) := by
  have h : SameMarks s (updSocket k (fun sk => { sk with exit := none }) s) := .socket k _ s rfl
  have place (t : State) : SameMarks t (placeReady k t) := by
    unfold placeReady
    repeat' split
    case' isTrue => exact .after (setState_marks k _ _ _) (.socket k _ t rfl)
    all_goals exact setState_marks k _ _ t
  unfold takeTarget
  cases x
  · exact .after (setState_marks k _ _ _) h
  · exact .after (place _) h
  · exact .after (failSocket_marks k _ _) h

theorem giveExit_marks (k : Fin 8) (x : ExitTarget) (s : State) : SameMarks s (giveExit k x s) := by
  unfold giveExit
  repeat' split
  · exact takeTarget_marks k x s
  · exact .after (takeTarget_marks k x _) (abandonCommand_marks k s)
  · exact .socket k _ s rfl

/-- The marks survive the end of a job (R106). -/
theorem endJob_marks (f : Job → Job) (x : ExitTarget) (s : State) : SameMarks s (exitSockets x (teardown f s)) := by
  have d : teardown f s = updPort Port.jobEnded (updRv (fun _ => Recall.reset) (updWin Window.jobEnded
      (updRepair (fun _ => Repair.empty) (forSockets (fun k => updSocket k Socket.jobEnded)
        (forSockets emptyRing (updPacing (fun _ => Pacing.reset) (updJob f s))))))) := rfl
  have w : SameMarks (updPacing (fun _ => Pacing.reset) (updJob f s)) (forSockets (fun k => updSocket k Socket.jobEnded)
        (forSockets emptyRing (updPacing (fun _ => Pacing.reset) (updJob f s)))) :=
    .after (.each _ _ (fun k t => .socket k _ t rfl) _) (.each _ _ emptyRing_marks _)
  generalize forSockets (fun k => updSocket k Socket.jobEnded)
    (forSockets emptyRing (updPacing (fun _ => Pacing.reset) (updJob f s))) = v at d w
  have a : SameMarks s (teardown f s) := by
    rw [d]
    exact w
  refine .after (.each _ _ (fun k t => ?_) _) a
  repeat' split
  · exact giveExit_marks k _ t
  · exact giveExit_marks k _ t
  · exact setState_marks k _ _ t
  · exact .none t

/-! ### The end of the step -/

/-- Nothing happens at the end of a step outside a job but for the withdrawal of a queued request and HOLD. -/
theorem settle_outside (b : Bool) (s : State) (h : s.job.st.working = false) :
    settle b s = judgeHold (withdrawRequest s) := by
  have hs : s.job.st.sourced = false := by
    cases e : s.job.st.sourced
    · rfl
    · rw [sourced_working e] at h
      cases h
  have hr : s.job.st.recalling = false := by
    cases e : s.job.st <;> rw [e] at h <;> first | rfl | cases h
  have hc : s.job.st ≠ .closing := fun e => by rw [e] at h; cases h
  have h1 : settleBase s = s := settleBase_same (by simp [hs])
  have h2 : forSockets moveOn s = s := by
    have : ∀ k t, t = s → moveOn k t = s := by
      rintro k t rfl
      simp [moveOn, h]
    exact forSockets_inv (P := fun t => t = s) moveOn this s rfl
  have h3 : ownRequests s = s := by simp [ownRequests, hr]
  have hj : (withdrawRequest s).job = s.job := by
    unfold withdrawRequest
    split <;> rfl
  have h4 : judgeFinish b (withdrawRequest s) = withdrawRequest s := by
    unfold judgeFinish State.sourceDone State.sinkDone
    rw [hj, h]
    simp [hc]
  unfold settle
  rw [h1, h2, h3, h4]

/-- Nothing happens at the end of a step that has torn the job down. -/
theorem settle_torn {s : State} (h : Torn s) (hr : s.rv.request ≠ .queued) (b : Bool) : settle b s = s := by
  rw [settle_outside b s h.outside]
  unfold withdrawRequest
  rw [if_neg fun g => hr g.1]
  exact judgeHold_torn h

/-- Nothing happens at the end of a step that has torn the job down. -/
theorem settle_tornDown {s : State} (h : tornDown s) (g : Torn s) (b : Bool) : settle b s = s :=
  settle_torn g (by rw [h.2.2.2.2.2.2.1]; simp [Recall.reset]) b

end Sys2Proof.Machine
end

