-- ==== Sys2Proof/Laws/Lists.lean ====
section
/-! SUPPORT. The lists that operations keep in order: the patch table of a valid JOB body, owed lists, segment lists. -/
namespace Sys2Proof.Machine

/-! ### The patch table (R159) -/

/-- A valid JOB body has distinct entry numbers, none above 7. -/
theorem judgeJob_numbers {job : Word16} {b : JobBody} (h : judgeJob job b = none) :
    (∀ p ∈ b.patches, p.number.toNat ≤ 7) ∧ (b.patches.map (·.number)).Nodup := by
  unfold judgeJob at h
  simp only [Option.map_eq_none_iff, List.find?_eq_none] at h
  have hn := h (.patchNumber, (b.patches.all fun p => decide (p.number.toNat ≤ 7)) && decide (b.patches.map (·.number)).Nodup)
    (by simp [jobTests])
  simpa using hn

/-- So it has at most eight entries. -/
theorem judgeJob_length {job : Word16} {b : JobBody} (h : judgeJob job b = none) : b.patches.length ≤ 8 := by
  obtain ⟨le, nodup⟩ := judgeJob_numbers h
  have sub : (b.patches.map (·.number)).toFinset ⊆ (Finset.range 8).image (BitVec.ofNat 8) := by
    intro x hx
    simp only [List.mem_toFinset, List.mem_map] at hx
    obtain ⟨p, hp, rfl⟩ := hx
    have := le p hp
    exact Finset.mem_image.2 ⟨p.number.toNat, Finset.mem_range.2 (by omega), by simp⟩
  have c := Finset.card_le_card sub
  rw [List.toFinset_card_of_nodup nodup, List.length_map] at c
  exact c.trans (Finset.card_image_le.trans (by simp))

theorem insertPatch_perm (p : PatchEntry) (l : List PatchEntry) : (insertPatch p l).Perm (p :: l) := by
  induction l with
  | nil => exact .refl _
  | cons q qs ih =>
    unfold insertPatch
    split
    · exact .refl _
    · exact (ih.cons q).trans (.swap _ _ _)

/-- The patch table holds the entries of the body. -/
theorem patchTable_perm (b : JobBody) : (patchTable b).Perm b.patches := by
  unfold patchTable
  induction b.patches with
  | nil => exact .refl _
  | cons p l ih => exact (insertPatch_perm p _).trans (ih.cons p)

theorem insertPatch_sorted (p : PatchEntry) (l : List PatchEntry)
    (h : l.Pairwise fun p q => p.number.toNat ≤ q.number.toNat) :
    (insertPatch p l).Pairwise fun p q => p.number.toNat ≤ q.number.toNat := by
  induction l with
  | nil => simp [insertPatch]
  | cons q qs ih =>
    have hq := List.pairwise_cons.1 h
    unfold insertPatch
    split
    · rename_i c
      refine List.pairwise_cons.2 ⟨fun x hx => ?_, h⟩
      rcases List.mem_cons.1 hx with rfl | hx
      · exact c
      · exact Nat.le_trans c (hq.1 x hx)
    · rename_i c
      refine List.pairwise_cons.2 ⟨fun x hx => ?_, ih hq.2⟩
      rcases List.mem_cons.1 ((insertPatch_perm p qs).mem_iff.1 hx) with rfl | hx
      · omega
      · exact hq.1 x hx

/-- In strict entry-number order, where the body is valid. -/
theorem patchTable_strict {job : Word16} {b : JobBody} (h : judgeJob job b = none) :
    (patchTable b).Pairwise fun p q => p.number.toNat < q.number.toNat := by
  have sorted : (patchTable b).Pairwise fun p q => p.number.toNat ≤ q.number.toNat := by
    unfold patchTable
    induction b.patches with
    | nil => exact .nil
    | cons p l ih => exact insertPatch_sorted p _ ih
  have n := List.pairwise_map.1 (((patchTable_perm b).map _).nodup_iff.2 (judgeJob_numbers h).2)
  exact (sorted.and n).imp fun {p q} d => Nat.lt_of_le_of_ne d.1 fun e => d.2 (BitVec.eq_of_toNat_eq e)

/-! ### Owed lists (R171) -/

/-- Into an ascending list the entry goes exactly where its segment was not owed. -/
theorem insertOwed_iff (e : OwedEntry) (l : List OwedEntry) (hl : ascending (l.map (·.seg))) (x : OwedEntry) :
    x ∈ insertOwed e l ↔ x ∈ l ∨ (x = e ∧ (l.any fun y => y.seg == e.seg) = false) := by
  induction l with
  | nil => simp [insertOwed]
  | cons y ys ih =>
    have hp := List.pairwise_cons.1 (show List.Pairwise (· < ·) (y.seg :: ys.map (·.seg)) from hl)
    unfold insertOwed
    split
    · rename_i h
      have : ((y :: ys).any fun z => z.seg == e.seg) = false := by
        rw [List.any_eq_false]
        intro z hz
        rcases List.mem_cons.1 hz with rfl | hz
        · simp only [beq_iff_eq]
          omega
        · have := hp.1 z.seg (List.mem_map_of_mem hz)
          simp only [beq_iff_eq]
          omega
      rw [this]
      simp only [List.mem_cons]
      tauto
    · split
      · rename_i h
        have : ((y :: ys).any fun z => z.seg == e.seg) = true := by simp [h]
        rw [this]
        simp
      · rename_i h
        have : ((y :: ys).any fun z => z.seg == e.seg) = (ys.any fun z => z.seg == e.seg) := by
          rw [List.any_cons, beq_eq_false_iff_ne.2 (Ne.symm h), Bool.false_or]
        rw [List.mem_cons, ih hp.2, this, List.mem_cons]
        tauto

/-! ### Segment lists (R86, R173, R178) -/

theorem insertSeg_iff (g : Nat) (l : List Nat) (x : Nat) : x ∈ insertSeg g l ↔ x = g ∨ x ∈ l :=
  ⟨insertSeg_mem, fun h => h.elim (fun e => e ▸ (insertSeg_has g l).2) ((insertSeg_has g l).1 x)⟩

/-- Segments put together are in ascending order, and just those. -/
theorem insertSegs_iff (l : List Nat) : ascending (l.foldr insertSeg []) ∧ ∀ x, x ∈ l.foldr insertSeg [] ↔ x ∈ l := by
  induction l with
  | nil => exact ⟨.nil, fun x => Iff.rfl⟩
  | cons a l ih =>
    exact ⟨insertSeg_ascending a _ ih.1, fun x => by rw [List.foldr_cons, insertSeg_iff, ih.2, List.mem_cons]⟩

/-- The segments owed by sockets in COPYING or REPAYING, ascending (R174, R178). -/
theorem owedByWriters_iff (s : State) : ascending s.owedByWriters ∧
    ∀ g, g ∈ s.owedByWriters ↔ ∃ k : Fin 8, s.sockets[k].st.copyingOrRepaying = true ∧ s.sockets[k].owes g = true := by
  refine ⟨(insertSegs_iff _).1, fun g => ?_⟩
  unfold State.owedByWriters
  rw [(insertSegs_iff _).2, List.mem_flatMap]
  constructor
  · rintro ⟨k, _, h⟩
    split at h
    · rename_i c
      obtain ⟨e, he, rfl⟩ := List.mem_map.1 h
      exact ⟨k, c, List.any_eq_true.2 ⟨e, he, by simp⟩⟩
    · cases h
  · rintro ⟨k, c, h⟩
    refine ⟨k, (by decide : ∀ k : Fin 8, k ∈ allSockets) k, ?_⟩
    rw [if_pos c]
    obtain ⟨e, he, hg⟩ := List.any_eq_true.1 h
    exact List.mem_map.2 ⟨e, he, by simpa using hg⟩

end Sys2Proof.Machine
end

