-- ==== Sys2Proof/Laws/Rings.lean ====
section
/-! SUPPORT. What the operations on a write ring do, once for all: an emptied ring, a failed socket, an owed addition, a
revocation, the revocation of a slot (R63, R112, R114, R115, R149, R171). -/
namespace Sys2Proof.Machine

theorem updSocket_slot (k : Fin 8) (f : Socket → Socket) (s : State) (id : SlotId) :
    (updSocket k f s).slot id = s.slot id := by
  cases id <;> rfl

theorem slot_of_win {s t : State} (h : s.win = t.win) (id : SlotId) : s.slot id = t.slot id := by
  cases id <;> simp only [State.slot, h]

/-- What the settling of claims and every loss of a descriptor leave of one slot: it is DAMAGED, for a segment, after as
before. -/
structure SlotKept (sl sl' : Slot) : Prop where
  buf : sl'.buf = sl.buf
  masterRead : sl'.masterRead = sl.masterRead
  toSend : sl'.toSend = sl.toSend
  damaged : ∀ g, sl'.holdsIn g .damaged = sl.holdsIn g .damaged

/-- What they leave of the slots. -/
def SlotsKept (s t : State) : Prop := ∀ id, SlotKept (s.slot id) (t.slot id)

theorem SlotKept.refl (sl : Slot) : SlotKept sl sl := ⟨rfl, rfl, rfl, fun _ => rfl⟩
theorem SlotsKept.refl (s : State) : SlotsKept s s := fun id => .refl (s.slot id)
theorem SlotsKept.trans {s t u : State} (h : SlotsKept s t) (g : SlotsKept t u) : SlotsKept s u :=
  fun id => ⟨(g id).buf.trans (h id).buf, (g id).masterRead.trans (h id).masterRead, (g id).toSend.trans (h id).toSend,
    fun e => ((g id).damaged e).trans ((h id).damaged e)⟩
theorem SlotsKept.when (c : Bool) (f : State → State) (s : State) (h : SlotsKept s (f s)) : SlotsKept s (doIf c f s) := by
  cases c
  · exact .refl s
  · exact h

/-! ### Claims (R63) -/

/-- Settling a slot's claims changes no count. -/
theorem settleSlot_counts (id j : SlotId) (s : State) :
    ((settleSlot id s).slot j).pending = (s.slot j).pending ∧
      ((settleSlot id s).slot j).inFlight = (s.slot j).inFlight := by
  by_cases h : j = id
  · subst h
    unfold settleSlot
    rw [updSlot_same]
    unfold Slot.settleClaims
    repeat' split
    all_goals exact ⟨rfl, rfl⟩
  · unfold settleSlot
    rw [updSlot_other h]
    exact ⟨rfl, rfl⟩

theorem settleSlot_kept (id : SlotId) (s : State) : SlotsKept s (settleSlot id s) := by
  intro j
  by_cases h : j = id
  · subst h
    unfold settleSlot
    rw [updSlot_same]
    unfold Slot.settleClaims
    repeat' split
    all_goals first
      | exact .refl _
      | exact ⟨rfl, rfl, rfl, fun g => by simp_all [Slot.holdsIn, Slot.freed]⟩
  · unfold settleSlot
    rw [updSlot_other h]
    exact .refl _

/-- A change of one slot that leaves what a loss of a descriptor leaves. -/
theorem updSlot_kept (id : SlotId) (f : Slot → Slot) (s : State) (h : SlotKept (s.slot id) (f (s.slot id))) :
    SlotsKept s (updSlot id f s) := by
  intro j
  by_cases e : j = id
  · subst e
    rw [updSlot_same]
    exact h
  · rw [updSlot_other e]
    exact .refl _

theorem unclaimSlot_kept (id : SlotId) (s : State) : SlotsKept s (unclaimSlot id s) :=
  (updSlot_kept id _ s ⟨rfl, rfl, rfl, fun _ => rfl⟩).trans (settleSlot_kept id _)

/-- The claims of a list of descriptors are given up: each slot loses as many as name it. -/
theorem unclaimSlots_counts (l : List Descriptor) (s : State) (id : SlotId) :
    ((forEach l (fun d => unclaimSlot d.src) s).slot id).pending =
        (s.slot id).pending - (l.filter fun d => d.src == id).length ∧
      ((forEach l (fun d => unclaimSlot d.src) s).slot id).inFlight = (s.slot id).inFlight := by
  induction l generalizing s with
  | nil => exact ⟨rfl, rfl⟩
  | cons d l ih =>
    have c := settleSlot_counts d.src id (updSlot d.src (fun sl => { sl with pending := sl.pending - 1 }) s)
    have i := ih (unclaimSlot d.src s)
    refine ⟨i.1.trans ?_, i.2.trans (c.2.trans ?_)⟩
    · rw [show (unclaimSlot d.src s).slot id =
        (settleSlot d.src (updSlot d.src (fun sl => { sl with pending := sl.pending - 1 }) s)).slot id from rfl, c.1]
      by_cases h : id = d.src
      · subst h
        rw [updSlot_same, List.filter_cons_of_pos (p := fun e : Descriptor => e.src == d.src) (beq_self_eq_true d.src),
          List.length_cons]
        dsimp only
        omega
      · rw [updSlot_other h, List.filter_cons_of_neg (by simpa using fun e => h e.symm)]
    · by_cases h : id = d.src
      · subst h
        rw [updSlot_same]
      · rw [updSlot_other h]

theorem unclaimSlots_kept (l : List Descriptor) (s : State) : SlotsKept s (forEach l (fun d => unclaimSlot d.src) s) :=
  forEach_keeps SlotsKept.refl SlotsKept.trans l _ (fun d t => unclaimSlot_kept d.src t) s

/-! ### Detaching a write -/

/-- Detaching in one line: only a descriptor write is touched. -/
theorem detachWrite_eq (k : Fin 8) (s : State) : detachWrite k s = match s.sockets[k].cmd with
    | some c =>
      match c.purpose with
      | .descriptor seg src _ =>
        if c.portReset then abandonCommand k s
        else updSocket k (fun sk => { sk with cmd := some { c with purpose := .descriptor seg src true } }) s
      | _ => s
    | none => s := by
  unfold detachWrite
  rcases s.sockets[k].cmd with _ | ⟨p, a, st, pr, pl, rf, v⟩
  · rfl
  · cases p <;> rfl

/-- A descriptor write is dropped: its slot has one write less in flight. -/
theorem abandonWrite_eq (k : Fin 8) (s : State) {c : Command} {seg : Nat} {src : SlotId} {x : Bool}
    (hc : s.sockets[k].cmd = some c) (hp : c.purpose = .descriptor seg src x) :
    abandonCommand k s = endWrite src (updSocket k (fun sk => { sk with cmd := none }) s) := by
  obtain ⟨p, a, st, pr, pl, rf, v⟩ := c
  cases hp
  unfold abandonCommand
  rw [hc]

theorem abandonWrite_counts (k : Fin 8) (s : State) {c : Command} {seg : Nat} {src : SlotId} {x : Bool}
    (hc : s.sockets[k].cmd = some c) (hp : c.purpose = .descriptor seg src x) (id : SlotId) :
    ((abandonCommand k s).slot id).pending = (s.slot id).pending ∧
      ((abandonCommand k s).slot id).inFlight = (s.slot id).inFlight - if id = src then 1 else 0 := by
  rw [abandonWrite_eq k s hc hp]
  have n := settleSlot_counts src id (updSlot src (fun sl => { sl with inFlight := sl.inFlight - 1 })
    (updSocket k (fun sk => { sk with cmd := none }) s))
  refine ⟨n.1.trans ?_, n.2.trans ?_⟩ <;> by_cases h : id = src
  · subst h
    rw [updSlot_same, updSocket_slot]
  · rw [updSlot_other h, updSocket_slot]
  · subst h
    rw [updSlot_same, updSocket_slot, if_pos rfl]
  · rw [updSlot_other h, updSocket_slot, if_neg h]
    rfl

theorem abandonWrite_kept (k : Fin 8) (s : State) {c : Command} {seg : Nat} {src : SlotId} {x : Bool}
    (hc : s.sockets[k].cmd = some c) (hp : c.purpose = .descriptor seg src x) : SlotsKept s (abandonCommand k s) := by
  rw [abandonWrite_eq k s hc hp]
  refine SlotsKept.trans (fun id => ?_) ((updSlot_kept src (fun sl => { sl with inFlight := sl.inFlight - 1 })
    (updSocket k (fun sk => { sk with cmd := none }) s) ⟨rfl, rfl, rfl, fun _ => rfl⟩).trans (settleSlot_kept src _))
  rw [updSocket_slot]
  exact .refl _

/-- What detaching does to the slots and to the command, by the command in flight. -/
theorem detachWrite_spec (k : Fin 8) (s : State) :
    SlotsKept s (detachWrite k s) ∧ (∀ id, ((detachWrite k s).slot id).pending = (s.slot id).pending) ∧
      (∀ c seg src x, s.sockets[k].cmd = some c → c.purpose = .descriptor seg src x → c.portReset = false →
        detachWrite k s =
          updSocket k (fun sk => { sk with cmd := some { c with purpose := .descriptor seg src true } }) s) ∧
      (∀ c seg src x, s.sockets[k].cmd = some c → c.purpose = .descriptor seg src x → c.portReset = true →
        detachWrite k s = abandonCommand k s) ∧
      ((∀ c seg src x, s.sockets[k].cmd = some c → c.purpose ≠ .descriptor seg src x) → detachWrite k s = s) := by
  rw [detachWrite_eq]
  rcases hc : s.sockets[k].cmd with _ | c
  · exact ⟨.refl s, fun _ => rfl, (fun _ _ _ _ h => nomatch h), (fun _ _ _ _ h => nomatch h), fun _ => rfl⟩
  · dsimp only
    have some_eq : ∀ d, some c = some d → d = c := fun d h => (Option.some.inj h).symm
    rcases hp : c.purpose with _ | _ | _ | _ | ⟨seg, src, x⟩ | _ | _
    case descriptor =>
      dsimp only
      cases hr : c.portReset
      · refine ⟨fun id => ?_, fun id => ?_, fun d g j y hd he _ => ?_, fun d g j y hd _ h => ?_, fun h => ?_⟩
        · rw [if_neg Bool.false_ne_true, updSocket_slot]
          exact .refl _
        · rw [if_neg Bool.false_ne_true, updSocket_slot]
        · cases some_eq d hd
          rw [hp] at he
          cases he
          rw [if_neg Bool.false_ne_true, hr]
        · cases some_eq d hd
          rw [hr] at h
          cases h
        · exact absurd hp (h c seg src x rfl)
      · refine ⟨abandonWrite_kept k s hc hp, fun id => (abandonWrite_counts k s hc hp id).1,
          fun d g j y hd _ h => ?_, fun _ _ _ _ _ _ _ => if_pos rfl, fun h => absurd hp (h c seg src x rfl)⟩
        cases some_eq d hd
        rw [hr] at h
        cases h
    all_goals
      refine ⟨.refl s, fun _ => rfl, fun d g j y hd he => ?_, fun d g j y hd he => ?_, fun _ => rfl⟩
      all_goals
        cases some_eq d hd
        rw [hp] at he
        cases he

/-! ### An emptied ring (R115) -/

/-- Emptying a ring, as far as it reaches beyond `emptyRing_socket`: the claims of its pending descriptors, and the command
in flight. -/
theorem emptyRing_spec (k : Fin 8) (s : State) :
    SlotsKept s (emptyRing k s) ∧
      (∀ id, ((emptyRing k s).slot id).pending = (s.slot id).pending -
        (s.sockets[k].ring.filter fun d => d.src == id && !d.inFlight).length) ∧
      (∀ c seg src x, s.sockets[k].cmd = some c → c.purpose = .descriptor seg src x → c.portReset = false →
        (emptyRing k s).sockets[k].cmd = some { c with purpose := .descriptor seg src true } ∧
          ∀ id, ((emptyRing k s).slot id).inFlight = (s.slot id).inFlight) ∧
      (∀ c seg src x, s.sockets[k].cmd = some c → c.purpose = .descriptor seg src x → c.portReset = true →
        (emptyRing k s).sockets[k].cmd = none ∧
          ∀ id, ((emptyRing k s).slot id).inFlight = (s.slot id).inFlight - if id = src then 1 else 0) ∧
      ((∀ c seg src x, s.sockets[k].cmd = some c → c.purpose ≠ .descriptor seg src x) →
        (emptyRing k s).sockets[k].cmd = s.sockets[k].cmd) := by
  have er : emptyRing k s = reportOccupancy k (detachWrite k
    (forEach (s.sockets[k].ring.filter fun d => !d.inFlight) (fun d => unclaimSlot d.src)
      (updSocket k (fun sk => { sk with ring := [] }) s))) := rfl
  generalize hu : forEach (s.sockets[k].ring.filter fun d => !d.inFlight) (fun d => unclaimSlot d.src)
      (updSocket k (fun sk => { sk with ring := [] }) s) = u at er
  have cmd : u.sockets[k].cmd = s.sockets[k].cmd := by
    rw [← hu, (unclaimSlots_keeps _ _).1, updSocket_same]
  have kept : SlotsKept s u := by
    rw [← hu]
    refine SlotsKept.trans (fun id => ?_) (unclaimSlots_kept _ _)
    rw [updSocket_slot]
    exact .refl _
  have counts : ∀ id, (u.slot id).pending = (s.slot id).pending -
      (s.sockets[k].ring.filter fun d => d.src == id && !d.inFlight).length ∧
      (u.slot id).inFlight = (s.slot id).inFlight := fun id => by
    have c := unclaimSlots_counts (s.sockets[k].ring.filter fun d => !d.inFlight)
      (updSocket k (fun sk => { sk with ring := [] }) s) id
    rw [hu, updSocket_slot, List.filter_filter] at c
    exact c
  have slots : ∀ id, (emptyRing k s).slot id = (detachWrite k u).slot id := fun id => by
    rw [er]
    exact updSocket_slot _ _ _ _
  have command : (emptyRing k s).sockets[k].cmd = (detachWrite k u).sockets[k].cmd := by
    rw [er]
    unfold reportOccupancy
    rw [updSocket_same]
    rfl
  obtain ⟨d1, d2, d3, d4, d5⟩ := detachWrite_spec k u
  refine ⟨fun id => ?_, fun id => ?_, fun c seg src x hc hp hr => ?_, fun c seg src x hc hp hr => ?_, fun h => ?_⟩
  · rw [slots]
    exact (kept.trans d1) id
  · rw [slots, d2, (counts id).1]
  · have e := d3 c seg src x (cmd.trans hc) hp hr
    refine ⟨by rw [command, e, updSocket_same], fun id => ?_⟩
    rw [slots, e, updSocket_slot, (counts id).2]
  · have e := d4 c seg src x (cmd.trans hc) hp hr
    refine ⟨by rw [command, e, abandonCommand_socket], fun id => ?_⟩
    rw [slots, e, (abandonWrite_counts k u (cmd.trans hc) hp id).2, (counts id).2]
  · rw [command, d5 fun c seg src x hc => h c seg src x (cmd ▸ hc), cmd]

/-! ### A failed socket (R149) -/

/-- A socket that fails: its ring and lists are empty, its marks stay; a FAILED one stays as it is. -/
theorem failSocket_spec (k : Fin 8) (r : Reason) (s : State) :
    (s.sockets[k].st = .failed → failSocket k r s = s) ∧
      (s.sockets[k].st ≠ .failed → SlotsKept s (failSocket k r s) ∧
        ∃ c, (failSocket k r s).sockets[k] =
          { Socket.lagBy (Monitor.report 0) { s.sockets[k].clearLists with exit := none, ring := [], cmd := c } with
            st := .failed, reason := r }) := by
  refine ⟨fun h => by unfold failSocket; rw [if_pos h], fun h => ?_⟩
  have e : failSocket k r s =
      setState k .failed r (emptyRing k (updSocket k (fun sk => { sk.clearLists with exit := none }) s)) := by
    unfold failSocket
    rw [if_neg h]
  obtain ⟨⟨c, q⟩, _⟩ := emptyRing_socket k (updSocket k (fun sk => { sk.clearLists with exit := none }) s)
  rw [updSocket_same] at q
  refine ⟨?_, c, by rw [e, setState_socket, q]⟩
  rw [e]
  intro id
  have z := (emptyRing_spec k (updSocket k (fun sk => { sk.clearLists with exit := none }) s)).1 id
  rw [updSocket_slot] at z
  rw [show (setState k .failed r (emptyRing k (updSocket k (fun sk => { sk.clearLists with exit := none }) s))).slot id =
    (emptyRing k (updSocket k (fun sk => { sk.clearLists with exit := none }) s)).slot id from updSocket_slot _ _ _ _]
  exact z

/-! ### Owed additions and revocations (R112, R114, R171) -/

/-- An owed addition: the entry in its place, or the failure of the socket. -/
theorem addOwed_spec (k : Fin 8) (seg n : Nat) (o : Origin) (s : State) :
    (s.sockets[k].st = .failed → addOwed k seg o n s = s) ∧
      (s.sockets[k].st ≠ .failed → Config.owedSize ≤ s.sockets[k].owed.length →
        addOwed k seg o n s = failSocket k .owedOverflow s) ∧
      (s.sockets[k].st ≠ .failed → s.sockets[k].owed.length < Config.owedSize →
        addOwed k seg o n s = updSocket k (fun sk =>
          { sk with owed := insertOwed { seg := seg, record := { origin := o, attempts := n } } sk.owed }) s) := by
  refine ⟨fun h => ?_, fun h l => ?_, fun h l => ?_⟩
  · unfold addOwed
    rw [if_pos h]
  · unfold addOwed
    rw [if_neg h, if_pos l]
  · unfold addOwed
    rw [if_neg h, if_neg (Nat.not_le.2 l)]

/-- What a socket has lost: the descriptors that satisfy `P`, their segments owed, or else it has failed on a full owed
list; `M` holds of the new owed entries. -/
def LostBy (P : Descriptor → Bool) (M : OwedEntry → Prop) (sk sk' : Socket) : Prop :=
  (sk.st ≠ .failed ∧ sk'.st = .failed ∧ sk'.reason = .owedOverflow ∧ sk'.ring = [] ∧ sk'.written = sk.written) ∨
    (sk' = { sk with ring := sk.ring.filter (fun d => !P d), owed := sk'.owed, lag := sk'.lag, tie := sk'.tie } ∧
      (∀ e ∈ sk.owed, e ∈ sk'.owed) ∧
      (sk.st ≠ .failed → ∀ d ∈ sk.ring, P d = true → ∃ e ∈ sk'.owed, e.seg = d.seg) ∧
      ∀ e ∈ sk'.owed, e ∈ sk.owed ∨ M e)

/-- A revocation: the descriptor leaves the ring with its segment owed, or the socket fails on a full owed list. -/
theorem revoke_spec (k : Fin 8) (d : Descriptor) (o : Origin) (s : State) :
    SlotsKept s (revoke k d o s) ∧
      ((s.sockets[k].st ≠ .failed ∧ (revoke k d o s).sockets[k].st = .failed ∧
          (revoke k d o s).sockets[k].reason = .owedOverflow ∧ (revoke k d o s).sockets[k].ring = [] ∧
          (revoke k d o s).sockets[k].written = s.sockets[k].written) ∨
        ∃ l, (revoke k d o s).sockets[k] =
            Socket.lagBy (Monitor.report (s.sockets[k].ring.erase d).length)
              { s.sockets[k] with ring := s.sockets[k].ring.erase d, owed := l } ∧
          (l = s.sockets[k].owed ∧ s.sockets[k].st = .failed ∨
            l = insertOwed { seg := d.seg, record := { origin := o, attempts := d.attempts } } s.sockets[k].owed ∧
              s.sockets[k].st ≠ .failed)) := by
  have er : revoke k d o s = reportOccupancy k (addOwed k d.seg o d.attempts
    (updSlot d.src (fun sl => { sl with pending := sl.pending - 1 })
      (updSocket k (fun sk => { sk with ring := sk.ring.erase d }) s))) := rfl
  generalize hv : updSlot d.src (fun sl => { sl with pending := sl.pending - 1 })
      (updSocket k (fun sk => { sk with ring := sk.ring.erase d }) s) = v at er
  have vk : v.sockets[k] = { s.sockets[k] with ring := s.sockets[k].ring.erase d } := by
    rw [← hv, updSlot_sockets, updSocket_same]
  have kept : SlotsKept s v := by
    rw [← hv]
    refine SlotsKept.trans (fun id => ?_) (updSlot_kept d.src _ _ ⟨rfl, rfl, rfl, fun _ => rfl⟩)
    rw [updSocket_slot]
    exact .refl _
  have vst : v.sockets[k].st = s.sockets[k].st := by rw [vk]
  have vow : v.sockets[k].owed = s.sockets[k].owed := by rw [vk]
  obtain ⟨a1, a2, a3⟩ := addOwed_spec k d.seg d.attempts o v
  have report : ∀ u : State, (reportOccupancy k u).sockets[k] = u.sockets[k].lagBy (Monitor.report u.sockets[k].ring.length) :=
    fun u => by
      unfold reportOccupancy
      rw [updSocket_same]
  have slots : ∀ u : State, SlotsKept u (reportOccupancy k u) := fun u id => by
    unfold reportOccupancy
    rw [updSocket_slot]
    exact .refl _
  by_cases hf : s.sockets[k].st = .failed
  · rw [er, a1 (vst.trans hf)]
    exact ⟨kept.trans (slots v), .inr ⟨s.sockets[k].owed, by rw [report, vk], .inl ⟨rfl, hf⟩⟩⟩
  · by_cases hl : s.sockets[k].owed.length < Config.owedSize
    · rw [er, a3 (vst ▸ hf) (vow ▸ hl)]
      refine ⟨kept.trans (SlotsKept.trans (fun id => ?_) (slots _)), .inr ⟨_, ?_, .inr ⟨rfl, hf⟩⟩⟩
      · rw [updSocket_slot]
        exact .refl _
      · rw [report, updSocket_same, vk]
    · rw [er, a2 (vst ▸ hf) (vow ▸ Nat.le_of_not_lt hl)]
      obtain ⟨f1, c, f2⟩ := (failSocket_spec k .owedOverflow v).2 (vst ▸ hf)
      refine ⟨kept.trans (f1.trans (slots _)), .inl ⟨hf, ?_, ?_, ?_, ?_⟩⟩
      all_goals rw [report, f2]
      · rfl
      · rfl
      · rfl
      · show v.sockets[k].written = _
        rw [vk]

theorem filter_none {P : Descriptor → Bool} {l : List Descriptor} (h : l.filter P = []) :
    l.filter (fun d => !P d) = l :=
  List.filter_eq_self.2 fun d hd => by simpa using List.filter_eq_nil_iff.1 h d hd

theorem erase_filter_not {P : Descriptor → Bool} {l : List Descriptor} {d : Descriptor} (h : P d = true) :
    (l.erase d).filter (fun d => !P d) = l.filter (fun d => !P d) := by
  rw [← List.erase_filter]
  exact List.erase_of_not_mem (by simp [h])

/-- The owed entries that revocations make. -/
def RevokedFrom (P : Descriptor → Bool) (sk : Socket) (e : OwedEntry) : Prop :=
  ∃ d ∈ sk.ring, P d = true ∧ d.seg = e.seg ∧ e.record = { origin := .revoked, attempts := d.attempts }

/-- Revoking, one after another, the descriptors of a ring that satisfy `P`. -/
theorem revokeList_spec (k : Fin 8) (P : Descriptor → Bool) (l : List Descriptor) (s : State)
    (hf : l = s.sockets[k].ring.filter P) :
    let t := forEach l (fun d t => doIf (t.sockets[k].ring.contains d) (revoke k d .revoked) t) s
    LostBy P (RevokedFrom P s.sockets[k]) s.sockets[k] t.sockets[k] ∧ SlotsKept s t := by
  induction l generalizing s with
  | nil =>
    refine ⟨.inr ⟨?_, fun e h => h, fun _ d hd hP => ?_, fun e h => .inl h⟩, .refl s⟩
    · show s.sockets[k] = _
      rw [filter_none hf.symm]
      rfl
    · have := List.mem_filter.2 ⟨hd, hP⟩
      rw [← hf] at this
      cases this
  | cons d l ih =>
    intro t
    have hd : d ∈ s.sockets[k].ring ∧ P d = true := List.mem_filter.1 (hf ▸ List.mem_cons_self)
    have ht : t = forEach l (fun d t => doIf (t.sockets[k].ring.contains d) (revoke k d .revoked) t)
        (revoke k d .revoked s) := by
      show forEach l _ (doIf (s.sockets[k].ring.contains d) (revoke k d .revoked) s) = _
      rw [List.contains_iff_mem.2 hd.1]
      rfl
    obtain ⟨kept, r⟩ := revoke_spec k d .revoked s
    generalize revoke k d .revoked s = u at ht kept r
    rw [ht]
    rcases r with ⟨f, st, re, ring, wr⟩ | ⟨owed, r, o⟩
    · have stuck : ∀ l : List Descriptor,
          forEach l (fun d t => doIf (t.sockets[k].ring.contains d) (revoke k d .revoked) t) u = u := by
        intro l
        induction l with
        | nil => rfl
        | cons a l ih =>
          show forEach l _ (doIf (u.sockets[k].ring.contains a) (revoke k a .revoked) u) = u
          rw [ring]
          exact ih
      rw [stuck]
      exact ⟨.inl ⟨f, st, re, ring, wr⟩, kept⟩
    · have ring : u.sockets[k].ring = s.sockets[k].ring.erase d := by rw [r]; rfl
      have st : u.sockets[k].st = s.sockets[k].st := by rw [r]; rfl
      have ow : u.sockets[k].owed = owed := by rw [r]; rfl
      have old : ∀ e ∈ s.sockets[k].owed, e ∈ owed := by
        rcases o with ⟨rfl, _⟩ | ⟨rfl, _⟩
        · exact fun e h => h
        · exact (insertOwed_has _ _).1
      have mine : s.sockets[k].st ≠ .failed → ∃ e ∈ owed, e.seg = d.seg := fun h => by
        rcases o with ⟨_, f⟩ | ⟨rfl, _⟩
        · exact absurd f h
        · exact (insertOwed_has _ _).2
      have new : ∀ e ∈ owed, e ∈ s.sockets[k].owed ∨ RevokedFrom P s.sockets[k] e := fun e h => by
        rcases o with ⟨rfl, _⟩ | ⟨rfl, _⟩
        · exact .inl h
        · exact (insertOwed_mem h).symm.imp_right fun q => ⟨d, hd.1, hd.2, by rw [q], by rw [q]⟩
      have i := ih u (by rw [ring, ← List.erase_filter, ← hf, List.erase_cons_head])
      generalize forEach l (fun d t => doIf (t.sockets[k].ring.contains d) (revoke k d .revoked) t) u = z at i
      refine ⟨?_, kept.trans i.2⟩
      rcases i.1 with ⟨b0, b1, b2, b3, b4⟩ | ⟨b1, b2, b3, b4⟩
      · exact .inl ⟨st ▸ b0, b1, b2, b3, b4.trans (by rw [r]; rfl)⟩
      · refine .inr ⟨?_, fun e h => b2 e (ow ▸ old e h), fun hs x hx hP => ?_, fun e h => ?_⟩
        · generalize z.sockets[k] = w at b1
          rw [b1, ring, erase_filter_not hd.2, r]
          rfl
        · by_cases hxd : x = d
          · obtain ⟨e, he, q⟩ := mine hs
            exact ⟨e, b2 e (ow ▸ he), by rw [q, hxd]⟩
          · exact b3 (st ▸ hs) x (ring ▸ (List.mem_erase_of_ne hxd).2 hx) hP
        · rcases b4 e h with h | ⟨x, hx, q⟩
          · exact new e (ow ▸ h)
          · exact .inr ⟨x, List.mem_of_mem_erase (ring ▸ hx), q⟩

/-- Revoking a slot (R112): every socket loses its pending descriptors that name it. -/
theorem revokeSlot_spec (id : SlotId) (s : State) :
    let P (d : Descriptor) : Bool := d.src == id && !d.inFlight
    SlotsKept s (revokeSlot id s) ∧
      ∀ k : Fin 8, LostBy P (RevokedFrom P s.sockets[k]) s.sockets[k] (revokeSlot id s).sockets[k] := by
  intro P
  refine forSockets_each (I := SlotsKept s) (Q := fun k sk => LostBy P (RevokedFrom P s.sockets[k]) s.sockets[k] sk) _ s
    (fun k t => .each _ _ (fun d u => .when _ _ _ (revoke_only k d _ u)) t)
    (fun k t h => h.trans (revokeList_spec k P _ t rfl).2) (fun k t _ e => ?_) (.refl s)
  have := (revokeList_spec k P _ t rfl).1
  rw [e] at this ⊢
  exact this

/-- An owed addition, or the failure it ends in, keeps the slots as every loss of a descriptor does. -/
theorem addOwed_kept (k : Fin 8) (seg n : Nat) (o : Origin) (s : State) : SlotsKept s (addOwed k seg o n s) := by
  obtain ⟨a1, a2, a3⟩ := addOwed_spec k seg n o s
  by_cases hf : s.sockets[k].st = .failed
  · rw [a1 hf]
    exact .refl s
  · rcases Nat.lt_or_ge s.sockets[k].owed.length Config.owedSize with l | l
    · rw [a3 hf l]
      intro id
      rw [updSocket_slot]
      exact .refl _
    · rw [a2 hf l]
      exact ((failSocket_spec k .owedOverflow s).2 hf).1

theorem oweLacking_kept (seg : Nat) (o : Origin) (s : State) : SlotsKept s (oweLacking seg o s) := by
  unfold oweLacking forSockets
  refine forEach_keeps SlotsKept.refl SlotsKept.trans allSockets _ (fun k t => ?_) s
  have h := addOwed_kept k seg 0 o t
  generalize addOwed k seg o 0 = f at h ⊢
  exact .when _ f t h

/-- A segment comes to be owed by the sockets in ENROLLED or COPYING that lack it (R67, R93). -/
theorem oweLacking_spec (seg : Nat) (o : Origin) (s : State) (k : Fin 8) :
    let sk := s.sockets[k]
    let sk' := (oweLacking seg o s).sockets[k]
    ((sk.st.enrolledOrCopying && sk.lacks seg) = false → sk' = sk) ∧
      ((sk.st.enrolledOrCopying && sk.lacks seg) = true →
        (sk.owed.length < Config.owedSize →
          sk' = { sk with owed := insertOwed { seg := seg, record := { origin := o, attempts := 0 } } sk.owed }) ∧
        (Config.owedSize ≤ sk.owed.length →
          sk'.st = .failed ∧ sk'.reason = .owedOverflow ∧ sk'.ring = [] ∧ sk'.owed = [] ∧ sk'.written = sk.written)) := by
  refine (forSockets_each (I := fun _ => True) (Q := fun k sk' => let sk := s.sockets[k]
    ((sk.st.enrolledOrCopying && sk.lacks seg) = false → sk' = sk) ∧
      ((sk.st.enrolledOrCopying && sk.lacks seg) = true →
        (sk.owed.length < Config.owedSize →
          sk' = { sk with owed := insertOwed { seg := seg, record := { origin := o, attempts := 0 } } sk.owed }) ∧
        (Config.owedSize ≤ sk.owed.length →
          sk'.st = .failed ∧ sk'.reason = .owedOverflow ∧ sk'.ring = [] ∧ sk'.owed = [] ∧ sk'.written = sk.written)))
    _ s (fun k t => .when _ _ _ (addOwed_only k _ _ _ t)) (fun _ _ h => h) (fun k t _ e => ?_) trivial).2 k
  dsimp only
  rw [← e]
  refine ⟨fun h => by rw [h]; rfl, fun h => ?_⟩
  rw [h]
  have hf : t.sockets[k].st ≠ .failed := fun f => by
    rw [f] at h
    simp [SocketState.enrolledOrCopying] at h
  obtain ⟨_, a2, a3⟩ := addOwed_spec k seg 0 o t
  rw [doIf_true]
  refine ⟨fun l => ?_, fun l => ?_⟩
  · rw [a3 hf l, updSocket_same]
  · obtain ⟨_, c, f⟩ := (failSocket_spec k .owedOverflow t).2 hf
    rw [a2 hf l, f]
    exact ⟨rfl, rfl, rfl, rfl, rfl⟩

end Sys2Proof.Machine
end

