-- ==== Sys2Proof/Laws/Steps.lean ====
section
/-! SUPPORT. What one command can do, said once: a run of turns (`exec_turns`). A predicate that each turn keeps is kept by
every command, and so by every step (`exec_keeps`, `step_keeps`). -/
namespace Sys2Proof.Machine
open Sys2Proof.Safety

/-- The beacon rule on an identity block (R28, R30, R34). -/
def BeaconRule (i : Ident) : Prop := i.debt ≤ 8 ∧ (i.mode ≠ .active → i.debt = 0 ∧ i.beaconTimer = none)

/-- One change in a step of a command: an elementary change, a store, or one of the changes that a few commands make. -/
inductive Turn (c : Instr) : State → State → Prop
  | elem (s t : State) (h : Elem s t) : Turn c s t
  | store (s t : State) (hc : mayStore c = true) (h : Change s t) : Turn c s t
  /-- The port changes; a FREE transmitter stays FREE. -/
  | port (f : Port → Port) (s : State) (hb : mayCountBad c = false → (f s.port).badFrames = s.port.badFrames)
      (hg : mayGiveUp c = false → (f s.port).giveUps = s.port.giveUps)
      (hl : (∀ a, c ≠ .holdLineChange a) → (f s.port).holdLevel = s.port.holdLevel)
      (h : s.port.tx = .free → (f s.port).tx = .free) : Turn c s (updPort f s)
  /-- The transmitter takes a frame, in ACTIVE (R24). -/
  | take (tx : Transmitter) (s : State) (h : s.ident.mode = .active) : Turn c s (updPort (fun p => { p with tx := tx }) s)
  | entry (x : Fin 32) (f : RosterEntry → RosterEntry) (s : State) (hc : mayChangeRoster c = true) :
      Turn c s (updEntry x f s)
  /-- The beacon's debt and timer change, the mode not. -/
  | beacon (f : Ident → Ident) (s : State) (hc : mayChangeIdent c = true) (hm : (f s.ident).mode = s.ident.mode)
      (h : BeaconRule s.ident → BeaconRule (f s.ident)) : Turn c s (updIdent f s)
  | active (s : State) (hc : mayChangeIdent c = true) (h : s.ident.mode = .listening) : Turn c s (enterActive s)
  /-- MUTE, with nothing left in hand. -/
  | mute (s : State) (hc : mayChangeIdent c = true) (hj : s.job.st = .idle) (ht : s.port.tx = .free)
      (hh : s.pacing.hold = .released) (he : s.pacing.holdTimer = none) :
      Turn c s (updIdent (fun i => { i with mode := .mute, listenTimer := none, beaconTimer := none, debt := 0 }) s)
  /-- A job is adopted, outside a job, with the expectation lists empty. -/
  | adopted (job : Word16) (b : JobBody) (s : State) (hc : mayChangePatches c = true) (hm : s.ident.mode = .active)
      (hw : s.job.st.working = false) (hj : judgeJob job b = none) (he : ∀ k : Fin 8, s.sockets[k].expect = []) :
      Turn c s (adoptRecord job b s)
  | reset (i : Ident) (s : State) (hc : isReset c = true) (h : BeaconRule i) : Turn c s (resetBlocks i s)
  /-- Power is applied: the DRAM contents are lost (log entry 9). -/
  | powerOn (i : Ident) (s : State) (hc : c = .powerOnReset) (h : BeaconRule i) :
      Turn c s (resetBlocks i { s with win := Window.reset, sockets := Vector.replicate 8 (Socket.reset []) })

/-- A run of turns. -/
abbrev Turns (c : Instr) : State → State → Prop := Relation.ReflTransGen (Turn c)

namespace Turns

variable {c : Instr}

theorem none (s : State) : Turns c s s := .refl
theorem one {s t : State} (h : Turn c s t) : Turns c s t := .single h
theorem andThen {s t u : State} (h : Turns c s t) (g : Turns c t u) : Turns c s u := h.trans g
theorem after {s t u : State} (g : Turns c t u) (h : Turns c s t) : Turns c s u := h.trans g

/-- A predicate that each turn keeps is kept. -/
theorem keeps {P : State → Prop} (h : ∀ {s t}, Turn c s t → P s → P t) {s t : State} (d : Turns c s t) (hs : P s) :
    P t := by
  induction d with
  | refl => exact hs
  | tail _ e ih => exact h e ih

theorem when (b : Bool) (f : State → State) (s : State) (h : Turns c s (f s)) : Turns c s (doIf b f s) := by
  cases b
  · exact none s
  · exact h

theorem up (f : State → State) (s : State) (h : Turns c s (f s)) : Turns c s (whenUp f s) := by
  unfold whenUp
  split
  · exact none s
  · exact h

end Turns

theorem Does.turns {c : Instr} {s t : State} (h : Does s t) : Turns c s t := by
  induction h with
  | refl => exact .refl
  | tail _ e ih => exact ih.tail (.elem _ _ e)

theorem Stores.turns {c : Instr} {s t : State} (hc : mayStore c = true) (h : Stores s t) : Turns c s t := by
  induction h with
  | refl => exact .refl
  | tail _ e ih => exact ih.tail (.store _ _ hc e)

theorem countBad_turns {c : Instr} (hc : mayCountBad c = true) (s : State) : Turns c s (countBad s) :=
  .one (.port _ s (fun h => by rw [hc] at h; cases h) (fun _ => rfl) (fun _ => rfl) id)

theorem takeHandoff_turns {c : Instr} (o : Owner) (x : Byte) (j : Word16) (b : FrameBody) (s : State) :
    Turns c s (takeHandoff o x j b s) :=
  .one (.port _ s (fun _ => rfl) (fun _ => rfl) (fun _ => rfl) id)

theorem adopt_turns {c : Instr} (hc : mayChangePatches c = true) (job : Word16) (b : JobBody) (s : State)
    (hm : s.ident.mode = .active) (hw : s.job.st.working = false) (hj : judgeJob job b = none) :
    Turns c s (adopt job b s) := by
  obtain ⟨m, hd, e, he, ha⟩ := adopt_runs job b s hw
  have hi : m.ident = s.ident := congrArg Outer.ident hd.outer
  exact .after ha.turns (.after (.one (.adopted job b m hc (by rw [hi, hm]) (by rw [e, hw]) hj he)) hd.turns)

theorem enterMute_turns {c : Instr} (hc : mayChangeIdent c = true) (s : State) : Turns c s (enterMute s) := by
  obtain ⟨m, hd, hj, ht, hh, he, e⟩ := enterMute_runs s
  rw [e]
  exact .after (.one (.mute m hc hj ht hh he)) hd.turns

/-- A command's answer is a next state, by a run of turns. -/
def Turned (c : Instr) (a : Answer) (s : State) : Prop := ∃ t, a = .next t ∧ Turns c s t

theorem RunsTo.turned {c : Instr} {a : Answer} {s : State} (h : RunsTo a s) : Turned c a s := by
  obtain ⟨t, e, d⟩ := h
  exact ⟨t, e, d.turns⟩

theorem Turned.up {c : Instr} {f : State → State} {s : State} (h : Turns c s (f s)) : Turned c (.next (whenUp f s)) s :=
  ⟨_, rfl, .up f s h⟩

theorem turned_arrival {c : Instr} {a : Answer} {s : State} {o : Owner} {x : Byte} {j : Word16} {b : FrameBody}
    (h : ∃ t, Turns c s t ∧ (a = .next t ∨ a = .next (takeHandoff o x j b t))) : Turned c a s := by
  obtain ⟨t, d, e | e⟩ := h
  · exact ⟨t, e, d⟩
  · exact ⟨_, e, .after (takeHandoff_turns _ _ _ _ _) d⟩

theorem turned_run {c : Instr} {a : Answer} {s : State} {o : Owner} {x : Byte} {j : Word16} {b : FrameBody}
    (h : ∃ t, Does s t ∧ (a = .next t ∨ a = .next (takeHandoff o x j b t))) : Turned c a s := by
  obtain ⟨t, d, e⟩ := h
  exact turned_arrival ⟨t, d.turns, e⟩

theorem debt_rule (i : Ident) : BeaconRule i → BeaconRule { i with debt := 0 } :=
  fun h => ⟨Nat.zero_le _, fun hm => ⟨rfl, (h.2 hm).2⟩⟩

theorem identAfter_rule (fault : Bool) (straps : BitVec 5) : BeaconRule (identAfter fault straps) := by
  cases fault <;> exact ⟨Nat.zero_le _, fun _ => ⟨rfl, rfl⟩⟩

/-- Every command is a run of turns. -/
theorem exec_turns (c : Instr) (s : State) : Turned c (exec c s) s := by
  cases c
  case powerOnReset =>
    exact ⟨_, rfl, .one (.powerOn _ s rfl ⟨Nat.zero_le _, fun _ => ⟨rfl, rfl⟩⟩)⟩
  case memoryTestEnd p x => exact ⟨_, rfl, .when _ _ s (.one (.reset _ s rfl (identAfter_rule _ _)))⟩
  case resetn x => exact .up (.one (.reset _ s rfl (identAfter_rule _ _)))
  case listeningTimerExpiry =>
    refine .up ?_
    cases h : (s.ident.mode == .listening && s.ident.listenTimer.isSome)
    · exact .none s
    · simp only [Bool.and_eq_true, beq_iff_eq] at h
      exact .one (.active s rfl h.1)
  case beaconTimerExpiry =>
    refine .up ?_
    cases h : (s.ident.mode == .active && s.ident.beaconTimer.isSome)
    · exact .none s
    · simp only [Bool.and_eq_true, beq_iff_eq] at h
      rw [doIf_true]
      exact .one (.beacon _ s rfl rfl fun _ => ⟨Nat.min_le_left _ _, fun hm => absurd h.1 hm⟩)
  case receptionComplete l o =>
    refine .up (.when _ _ s ?_)
    unfold receive
    split
    · exact .one (.port _ s (fun _ => rfl) (fun _ => rfl) (fun _ => rfl) id)
    · exact countBad_turns rfl s
  case receptionBroken n o => exact .up (.when _ _ s (countBad_turns rfl s))
  case receptionOverlong o => exact .up (.after (.one (.port _ _ (fun _ => rfl) (fun _ => rfl) (fun _ => rfl) id)) (.when _ _ s (countBad_turns rfl s)))
  case beaconArrival x j b w =>
    obtain ⟨u, t, e, d, hu⟩ := execBeaconArrival_eq x j b w s
    have hs : Turns (.beaconArrival x j b w) s u := by
      rcases hu with rfl | ⟨y, _, rfl⟩ | ⟨_, rfl⟩
      · exact .none _
      · exact .one (.entry _ _ s rfl)
      · exact enterMute_turns rfl s
    rcases e with e | e
    · exact ⟨_, e, .after d.turns hs⟩
    · exact ⟨_, e, .after (takeHandoff_turns _ _ _ _ _) (.after d.turns hs)⟩
  case silenceTimerExpiry x w =>
    obtain ⟨u, t, e, d, hu⟩ := execSilenceTimerExpiry_eq x w s
    refine ⟨t, e, .after d.turns ?_⟩
    rcases hu with rfl | rfl
    · exact .none _
    · exact .one (.entry _ _ s rfl)
  case jobArrival x j b =>
    obtain ⟨u, t, e, d, hu⟩ := execJobArrival_eq x j b s
    have hs : Turns (.jobArrival x j b) s u := by
      rcases hu with h | ⟨hm, hw, hj, rfl⟩
      · exact h.turns
      · exact adopt_turns rfl j b s hm hw hj
    rcases e with e | e
    · exact ⟨_, e, .after d.turns hs⟩
    · exact ⟨_, e, .after (takeHandoff_turns _ _ _ _ _) (.after d.turns hs)⟩
  case cancelArrival x j r => exact turned_run (cancelArrival_does x j r s)
  case cancelRepeatExpiry => exact (execCancelRepeatExpiry_does s).turned
  case jobRepeatTimerExpiry => exact (execJobRepeatTimerExpiry_does s).turned
  case settleTimerExpiry => exact (execSettleTimerExpiry_does s).turned
  case orphanTimerExpiry => exact (execOrphanTimerExpiry_does s).turned
  case transmitterTake =>
    refine .up ?_
    split
    · split
      · rename_i c hc
        obtain ⟨u, d, e⟩ := takeChoice_eq c s
        have hi : u.ident = s.ident := congrArg Outer.ident d.outer
        rcases e with e | ⟨tx, e⟩
        · rw [e]
          exact d.turns
        · rw [e]
          exact .after (.one (.take tx u (by rw [hi]; exact choice_active hc))) d.turns
      · exact .none s
    · exact .none s
  case interFrameGapComplete => exact (execInterFrameGapComplete_does s).turned
  case frameSent =>
    obtain ⟨u, t, e, d, hu⟩ := execFrameSent_eq s
    refine ⟨t, e, .after d.turns ?_⟩
    rcases hu with rfl | ⟨_, rfl⟩ | h
    · exact .none _
    · exact .after (.one (.beacon _ _ rfl rfl (debt_rule _)))
        (.one (.port _ s (fun _ => rfl) (fun _ => rfl) (fun _ => rfl) fun _ => rfl))
    · exact h.turns
  case collision n =>
    refine .up ?_
    split
    · rename_i h hx
      refine .after (.one (.port _ _ (fun _ => rfl) (fun _ => rfl) (fun _ => rfl) fun e => ?_)) (.when _ _ s (countBad_turns rfl s))
      have : (doIf (decide (65 ≤ n)) countBad s).port.tx = s.port.tx := by cases decide (65 ≤ n) <;> rfl
      rw [this, hx] at e
      cases e
    all_goals exact .none s
  case jamEnd n =>
    obtain ⟨u, t, e, d, hu⟩ := execJamEnd_eq n s
    refine ⟨t, e, .after d.turns ?_⟩
    rcases hu with rfl | rfl
    · exact .none _
    · exact .one (.port _ s (fun _ => rfl) (fun h => by cases h) (fun _ => rfl) id)
  case backoffEnd => exact (execBackoffEnd_does s).turned
  case holdLineChange a => exact ⟨_, rfl, .one (.port _ s (fun _ => rfl) (fun _ => rfl) (fun h => absurd rfl (h a)) id)⟩
  case segmentOpen b => exact (execSegmentOpen_does b s).turned
  case readAheadRead => exact (execReadAheadRead_does s).turned
  case readSegmentComplete k d =>
    cases d with
    | none => exact (readError_does k s).turned
    | some l =>
      obtain ⟨t, e, h⟩ := execReadSegmentComplete_stores k (some l) s
      exact ⟨t, e, h.turns rfl⟩
  case parcelArrivalWindow x j b e =>
    obtain ⟨t, d, h⟩ := parcelArrival_stores x j b e s
    exact turned_arrival ⟨t, d.turns rfl, h⟩
  case gapTimerExpiry i => exact (execGapTimerExpiry_does i s).turned
  case recallSlotTimerExpiry i => exact (execRecallSlotTimerExpiry_does i s).turned
  case parcelArrivalRepair x j b => exact turned_run (parcelRepair_does x j b s)
  case needArrival x j g m => exact turned_run (needArrival_does x j g m s)
  case needDelayExpiry g => exact (execNeedDelayExpiry_does g s).turned
  case needRetryExpiry g => exact (execNeedRetryExpiry_does g s).turned
  case suppressionExpiry g => exact (execSuppressionExpiry_does g s).turned
  case answerDelayExpiry g => exact (execAnswerDelayExpiry_does g s).turned
  case descriptorTake k => exact (execDescriptorTake_does k s).turned
  case writeSegmentComplete k g => exact (execWriteSegmentComplete_does k g s).turned
  case lastByteStreamed k u =>
    cases u with
    | nil => exact (lastByteUnchanged_does k s).turned
    | cons c u =>
      obtain ⟨t, e, h⟩ := execLastByteStreamed_stores k (c :: u) s
      exact ⟨t, e, h.turns rfl⟩
  case holdExpiry => exact (execHoldExpiry_does s).turned
  case insertion k => exact (execInsertion_does k s).turned
  case attachTimerExpiry k => exact (execAttachTimerExpiry_does k s).turned
  case identifyComplete k g => exact (execIdentifyComplete_does k g s).turned
  case capacityComplete k g => exact (execCapacityComplete_does k g s).turned
  case protectStatusComplete k g => exact (execProtectStatusComplete_does k g s).turned
  case stallTimerExpiry k => exact (execStallTimerExpiry_does k s).turned
  case portResetEnd k => exact (execPortResetEnd_does k s).turned
  case removal k => exact (execRemoval_does k s).turned
  case recallRequestPlace => exact (execRecallRequestPlace_does s).turned
  case recallWaitExpiry => exact (execRecallWaitExpiry_does s).turned
  case recallArrivalSink x j l => exact turned_run (recallSink_does x j l s)
  case heardSetExpiry g => exact (execHeardSetExpiry_does g s).turned
  case recallArrivalSource x j l => exact turned_run (recallSource_does x j l s)
  case recallReadIssue => exact (execRecallReadIssue_does s).turned
  case laneIdle => exact .up (.one (.port _ s (fun _ => rfl) (fun _ => rfl) (fun _ => rfl) id))

/-- A predicate that each turn keeps, the command keeps. -/
theorem exec_keeps {P : State → Prop} (c : Instr) (h : ∀ {s t}, Turn c s t → P s → P t) {s t : State}
    (e : exec c s = .next t) (hs : P s) : P t := by
  obtain ⟨u, eu, d⟩ := exec_turns c s
  rw [eu] at e
  injection e with e
  exact e ▸ d.keeps h hs

/-- A predicate that each turn keeps and that does not look at the queue, every step keeps. -/
theorem step_keeps {P : State → Prop} (hq : ∀ s q, P s → P { s with pending := q })
    (h : ∀ {c s t}, Turn c s t → P s → P t) {s t : State} (e : step s = .next t) (hs : P s) : P t := by
  unfold step at e
  split at e
  · injection e with e
    exact e ▸ hs
  · exact exec_keeps _ h e (hq s _ hs)

end Sys2Proof.Machine
end

