-- ==== Sys2Proof/WellFormed.lean ====
section
/-! DEFINITION. The commands whose operands have the sizes and ranges the spec gives them. A command outside it is one
no bus port, stick or lane can send; exec gives it a meaning all the same (log entry 29). -/
namespace Sys2Proof

/-- A BEACON body has eight socket codes (R8). -/
def BeaconBody.wf (b : BeaconBody) : Bool := b.codes.length == 8

/-- A patch entry carries 16 value bytes (R9). -/
def PatchEntry.wf (p : PatchEntry) : Bool := p.value.length == 16

/-- A JOB body has at most 8 patch entries (R12). -/
def JobBody.wf (b : JobBody) : Bool := decide (b.patches.length ≤ 8) && b.patches.all PatchEntry.wf

/-- A PARCEL body carries 4,096 payload bytes (R5). -/
def ParcelBody.wf (b : ParcelBody) : Bool := b.payload.length == Config.parcelBytes

/-- The list of a RECALL holds 1 to 8 indices (R12). -/
def recallListWf (segs : List Word32) : Bool := decide (1 ≤ segs.length) && decide (segs.length ≤ 8)

/-- The operands are within the ranges the spec gives them. -/
def Instr.wf : Instr → Bool
  | .receptionComplete bytes _ => decide (bytes.length ≤ 4120)
  | .receptionBroken stored _ => decide (stored ≤ 4120)
  | .beaconArrival sender _ b _ => decide (sender.toNat < 32) && b.wf
  | .jobArrival _ _ b => b.wf
  | .collision position => decide (position ≤ 4121)
  | .readSegmentComplete _ (some data) => data.length == Config.segmentBytes
  | .parcelArrivalWindow _ _ b _ => b.wf
  | .parcelArrivalRepair _ _ b => b.wf
  | .lastByteStreamed _ upsets => upsets.all fun u => decide (u.1 < Config.segmentBytes)
  | .recallArrivalSink _ _ segs => recallListWf segs
  | .recallArrivalSource _ _ segs => recallListWf segs
  | .powerOnReset | .memoryTestEnd _ _ | .resetn _ | .listeningTimerExpiry | .beaconTimerExpiry
  | .receptionOverlong _ | .silenceTimerExpiry _ _ | .cancelArrival _ _ _ | .cancelRepeatExpiry
  | .jobRepeatTimerExpiry | .settleTimerExpiry | .orphanTimerExpiry | .transmitterTake | .interFrameGapComplete
  | .frameSent | .jamEnd _ | .backoffEnd | .holdLineChange _ | .segmentOpen _ | .readAheadRead
  | .readSegmentComplete _ none | .gapTimerExpiry _ | .recallSlotTimerExpiry _ | .needArrival _ _ _ _
  | .needDelayExpiry _ | .needRetryExpiry _ | .suppressionExpiry _ | .answerDelayExpiry _ | .descriptorTake _
  | .writeSegmentComplete _ _ | .holdExpiry | .insertion _ | .attachTimerExpiry _ | .identifyComplete _ _
  | .capacityComplete _ _ | .protectStatusComplete _ _ | .stallTimerExpiry _ | .portResetEnd _ | .removal _
  | .recallRequestPlace | .recallWaitExpiry | .heardSetExpiry _ | .recallReadIssue | .laneIdle => true

end Sys2Proof
end

