-- ==== Sys2Proof/Tests/Slice0.lean ====
section
/-! SUPPORT. The writer's own tests: the ill-formed terms that WellFormed refuses, checks of single operations and steps on
small states, and, for every statement with hypotheses, a state and operands that meet them. -/
namespace Sys2Proof.Tests
open Sys2Proof.Machine Sys2Proof.Safety
set_option maxRecDepth 20000

/-! ### Small states -/

/-- Station 3 in ACTIVE, without a job. -/
def up : State :=
  updIdent (fun i => { i with station := 3, mode := .active, listenTimer := none, beaconTimer := some Config.tb, debt := 1 })
    State.reset

/-- During the memory test. -/
def testing : State := updIdent Ident.testing State.reset

/-- Muted. -/
def muted : State := updIdent (fun i => { i with mode := .mute, listenTimer := none }) State.reset

/-- A JOB body from station `src`, socket 2, of 20 segments with verify on, under its right digest. -/
def body (src : Byte) (closed : Byte) : JobBody :=
  let b : JobBody :=
    { imageSize := 20, srcStation := src, srcSocket := 2, policy := 0, lagThreshold := 8, lagDuration := 2, latch := 0
      needThreshold := 4, lossDuration := 1, verify := 1, enrollClosed := closed, serialBase := 100, patches := []
      digest := 0 }
  { b with digest := jobDigest b }

/-- A JOB body with a patch entry of the right digest. -/
def patched (p : PatchEntry) : JobBody :=
  let b := { body 5 0 with patches := [p] }
  { b with digest := jobDigest b }

/-- A patch entry. -/
def entry1 : PatchEntry :=
  { number := 0, kind := 3, seg := 4, offset := 100, len := 8, value := List.replicate 16 0 }

/-- In job 7 of a source station, in job state `st`. -/
def inJob (src : Byte) (st : JobState) (s : State) : State :=
  updJob (fun j =>
    { j with number := some 7, body := some (body src 0), digest := some 9, st := st, enrollment := .closed
             lastAdopted := some 7 }) s

/-- A sink of station 5's job. -/
def sink (st : JobState) : State := inJob 5 st up

/-- The source of its own job, its master stick at socket 2. -/
def source (st : JobState) : State :=
  updSocket 2 (fun sk => { sk with st := .master, capacity := some 5000 })
    (updJob (fun j => { j with source := true, repeatTimer := some (16 * Config.tb) }) (inJob 3 st up))

/-- With the transmitter holding a frame. -/
def holding (tag : HeldTag) (attempts : Nat) (phase : TxPhase) (s : State) : State :=
  let h : HeldFrame := { frame := { sender := 3, job := 7, body := .cancel 1 }, tag := tag, attempts := attempts }
  updPort (fun p => { p with tx := .holding h phase }) s

/-- With a pending need for segment 4. -/
def needing (st : NeedState) (count : Nat) (s : State) : State :=
  updRepair (fun r => { r with needs := [{ seg := 4, missing := 3, count := count, st := st, timer := some 1 }] }) s

/-- With an answer entry for segment 4. -/
def answering (sending : Bool) (s : State) : State :=
  updRepair (fun r => { r with answers := [{ seg := 4, mask := 6, sending := sending, timer := none, nextParcel := 2 }] }) s

/-- With a slot changed to hold a segment. -/
def slotIn (id : SlotId) (st : SlotState) (seg : Nat) (s : State) : State :=
  updSlot id (fun sl => { sl with st := st, seg := some seg }) s

/-- With a command in flight at socket 1. -/
def commanded (st : SocketState) (p : Purpose) (attempt : Nat) (portReset : Bool) (s : State) : State :=
  updSocket 1 (fun sk =>
    { sk with st := st, cmd := some { Command.first p with attempt := attempt, portReset := portReset } }) s

/-- With an owed entry at socket 1. -/
def owing (st : SocketState) (seg attempts : Nat) (s : State) : State :=
  updSocket 1 (fun sk =>
    { sk with st := st, owed := [{ seg := seg, record := { origin := .revoked, attempts := attempts } }] }) s

/-- With an entry of the roster. -/
def hearing (st : EntryState) (jobState : BitVec 3) (s : State) : State :=
  updEntry 5 (fun e =>
    { e with st := st, job := 7, digest := 9, jobState := jobState, lowMark := some 3, timer := some 1 }) s

/-- A beacon body. -/
def bb : BeaconBody :=
  { modeBits := 1, refusal := 0, jobState := 2, source := true, settled := false, enrollClosed := true, digest := 9
    base := 3, lowMark := 0xFFFFFFFF#32, giveUps := 0, badFrames := 0, codes := List.replicate 8 3 }

/-- A parcel body for segment 4. -/
def pb (isRepair isRecall : Bool) (base : Word32) : ParcelBody :=
  { seg := 4, parcel := 1, isRepair := isRepair, isRecall := isRecall, isFinal := false, base := base, check := 5
    payload := List.replicate 4096 0 }

/-- The state a command leads to. -/
def after (c : Instr) (s : State) : State :=
  match exec c s with
  | .next t => t
  | .fault _ => s
  | .refused _ => s

/-! ### What WellFormed refuses -/

theorem test_wf_reception_too_long : Instr.wf (.receptionComplete (List.replicate 4121 0) false) = false := by
  simp [Instr.wf]
theorem test_wf_broken_too_long : Instr.wf (.receptionBroken 4121 false) = false := by decide
theorem test_wf_beacon_sender : Instr.wf (.beaconArrival 32 0 bb false) = false := by decide
theorem test_wf_beacon_codes : Instr.wf (.beaconArrival 5 0 { bb with codes := [] } false) = false := by decide
theorem test_wf_job_patches :
    Instr.wf (.jobArrival 5 7 { body 5 0 with patches := List.replicate 9 entry1 }) = false := by decide
theorem test_wf_patch_value :
    Instr.wf (.jobArrival 5 7 { body 5 0 with patches := [{ entry1 with value := [] }] }) = false := by decide
theorem test_wf_collision_position : Instr.wf (.collision 4122) = false := by decide
theorem test_wf_read_short : Instr.wf (.readSegmentComplete 0 (some [])) = false := by decide
theorem test_wf_parcel_window_payload :
    Instr.wf (.parcelArrivalWindow 5 7 { pb false false 0 with payload := [] } false) = false := by decide
theorem test_wf_parcel_repair_payload :
    Instr.wf (.parcelArrivalRepair 5 7 { pb false false 0 with payload := [] }) = false := by decide
theorem test_wf_upset_beyond : Instr.wf (.lastByteStreamed 0 [(32768, 1)]) = false := by decide
theorem test_wf_recall_sink_empty : Instr.wf (.recallArrivalSink 5 7 []) = false := by decide
theorem test_wf_recall_source_long : Instr.wf (.recallArrivalSource 5 7 (List.replicate 9 0)) = false := by decide
theorem test_wf_accepts :
    Instr.wf (.receptionBroken 4120 false) = true ∧ Instr.wf (.beaconArrival 31 0 bb false) = true ∧
      Instr.wf (.jobArrival 5 7 (patched entry1)) = true ∧ Instr.wf (.recallArrivalSink 5 7 [1]) = true ∧
      Instr.wf (.lastByteStreamed 0 [(32767, 1)]) = true := by decide

/-! ### Single operations -/

/-- The check of the bytes 31h to 39h, worked out by hand from R3, and of no bytes. -/
theorem test_check :
    check [0x31, 0x32, 0x33, 0x34, 0x35, 0x36, 0x37, 0x38, 0x39] = 0xFABBF0EA#32 ∧ check [] = 0xFFFFFFFF#32 := by decide
theorem test_decode_none : decodeTableWord 8 0 = none := by decide
theorem test_patch_socket_string : patchString 0 29 { entry1 with kind := 2, len := 3 } = [0x30, 0x32, 0x39] := by decide
theorem test_patch_serial_string :
    patchString 0xFFFFFFFF#32 26 entry1 = [0x30, 0x30, 0x30, 0x30, 0x30, 0x30, 0x31, 0x39] := by decide
theorem test_plan_first_entry_wins :
    patchPlan [{ entry1 with kind := 1, len := 1, value := [7] }, { entry1 with kind := 1, len := 2, value := [8, 9] }] 0 0 4 =
      [(100, 7), (101, 9)] := by decide
theorem test_next_parcel_wraps : nextSet 0x03 7 = some 0 ∧ nextSet 0x83 7 = some 7 := by decide
theorem test_sparse_zero_removes : Sparse.write [(3, 5#8)] 3 0 = [] ∧ Sparse.write [] 3 (0 : BitVec 8) = [] := by decide

/-! ### Single steps -/

theorem test_reset_latch : (after (.resetn 9) muted).ident.station = 9 ∧ (after (.resetn 9) muted).ident.mode = .listening := by
  decide
theorem test_listening_ends : (after .listeningTimerExpiry State.reset).ident.mode = .active := by decide
theorem test_first_beacon_taken : (after .transmitterTake up).port.tx ≠ .free := by decide
theorem test_beacon_sent_clears_debt : (after .frameSent (holding .beacon 0 .sending up)).ident.debt = 0 := by decide
theorem test_insertion : (after (.insertion 4) up).sockets[4].st = .attaching := by decide
theorem test_cancel_heard : (after (.cancelArrival 9 7 1) (sink .copying)).job.st = .cancelled := by decide
theorem test_cancel_other_job : (after (.cancelArrival 9 8 1) (sink .copying)).job.st = .copying := by decide
theorem test_need_answered :
    ((after (.needArrival 5 7 4 6) (slotIn (.win 4) .whole 4 (sink .copying))).repair.answers.map (·.mask)) = [6] := by decide
theorem test_read_ahead : (after .readAheadRead (source .copying)).win.readMark = 1 := by decide
theorem test_hold_asserted :
    (after (.protectStatusComplete 1 (some false))
      (updSocket 1 (fun sk => { sk with capacity := some 1280 })
        (commanded .attaching .protectStatus 1 false (sink .enrolling)))).pacing.hold = .asserted := by decide

/-- A failed memory test leaves a MUTE station MUTE all through (R26, R33). -/
theorem test_failed_test_stays_mute :
    (after .powerOnReset muted).ident.mode = .mute ∧
      (after (.memoryTestEnd false 9) (after .powerOnReset muted)).ident.mode = .mute := by decide

/-- A same-job FINISHED report on a settled station confirms its source (R57). -/
theorem test_finished_report_confirms :
    let s := hearing .present 2 (sink .closing)
    (after (.beaconArrival 5 7 { bb with jobState := 4 } false) s).job.confirmed = true ∧ s.job.confirmed = false := by decide

/-- The report of a DAMAGED slot leaves state, count and timer of a SUPPRESSED entry (R90). -/
theorem test_damage_keeps_suppressed :
    (damageReport 4 (needing .suppressed 2 (sink .copying))).repair.needs =
      [{ seg := 4, missing := 0xFF, count := 2, st := .suppressed, timer := some 1 }] := by decide

/-- The first parcel ends the enrollment cause as the loss cause begins: the ASSERTED output and its timer stay (R132). -/
theorem test_cause_follows_cause :
    let loss : Monitor := { running := true, level := 0, threshold := 1, duration := 0, latched := false, run := 0, cond := false }
    let s := updPacing (fun p => { p with loss := loss, hold := .asserted, holdTimer := some 1 })
      (owing .preparing 1 0 (updJob (fun j => { j with enrollment := .opened }) (sink .enrolling)))
    let t := after (.parcelArrivalWindow 5 7 (pb false false 0) false) s
    t.job.st = .copying ∧ t.pacing.loss.cond = true ∧ t.pacing.hold = .asserted ∧ t.pacing.holdTimer = some 1 := by decide

/-- A recall parcel that brings base N and fills its slot finds the sockets REPAYING before the offer: both take the
descriptor (R67, R81, R146). -/
theorem test_recall_parcel_moves_sockets_on :
    let writing (st : SocketState) := updSocket 2 (fun sk =>
      { sk with st := st, owed := [{ seg := 4, record := { origin := .revoked, attempts := 0 } }] })
    let s (st : SocketState) := updSlot (.rslot 0) (fun sl => { sl with mask := 0xFD, check := check sl.bytes })
      (slotIn (.rslot 0) .filling 4 (updWin (fun w => { w with base := 19 }) (writing st (sink .copying))))
    let u (st : SocketState) := baseRise 20 (s st)
    (u .copying).sockets[2].st = .repaying ∧ (u .enrolled).sockets[2].st = .repaying ∧
      (u .enrolled).sockets[2].owes 4 = true ∧ (u .enrolled).job.st = .closing ∧
      (u .enrolled).sockets[2].wants (.rslot 0) 4 = true ∧ (s .enrolled).sockets[2].wants (.rslot 0) 4 = false ∧
      (offer (.rslot 0) 4 (slotIn (.rslot 0) .whole 4 (u .enrolled))).sockets[2].ring.length = 1 ∧
      (offer (.rslot 0) 4 (slotIn (.rslot 0) .whole 4 (u .copying))).sockets[2].st = .repaying := by decide

/-! ### States and operands that meet the hypotheses of the statements -/

theorem test_hyps_StepRunsTheFrontCommand :
    ({ up with pending := [.laneIdle] } : State).pending = .laneIdle :: [] ∧ up.pending = [] := by decide

theorem test_hyps_EveryCommandCompletes :
    testing.ident.memTest = true ∧ Instr.laneIdle ≠ .powerOnReset ∧ (∀ p n, Instr.laneIdle ≠ .memoryTestEnd p n) ∧
      ∀ a, Instr.laneIdle ≠ .holdLineChange a := ⟨by decide, by decide, by simp, by simp⟩

theorem test_hyps_OnlyFourCommandsStore : mayStore .laneIdle = false ∧ ∃ t, exec .laneIdle up = .next t := ⟨rfl, _, rfl⟩

theorem test_hyps_OnlyFourCommandsStore_verify :
    let s := commanded .verifying (.verify 4) 1 false (sink .closing)
    (∀ c seg dst, s.sockets[1].cmd = some c → c.purpose ≠ .master seg dst) ∧
      mayStore (.readSegmentComplete 1 none) = false ∧ ∃ t, exec (.readSegmentComplete 1 none) s = .next t :=
  ⟨fun c seg dst h => by cases h; simp [Command.first], rfl, _, rfl⟩

theorem test_hyps_OuterStateFrame :
    (∃ t, exec .laneIdle up = .next t) ∧ mayChangeIdent .laneIdle = false ∧ mayChangeRoster .laneIdle = false ∧
      mayCountBad .laneIdle = false ∧ mayGiveUp .laneIdle = false ∧ mayChangePatches .laneIdle = false :=
  ⟨⟨_, rfl⟩, by decide⟩

theorem test_hyps_ResetsTakeTheResetValues : testing.ident.memTest = true ∧ up.ident.memTest = false := by decide

theorem test_hyps_ModeAndJobTimersExpire_modes :
    up.ident.memTest = false ∧ State.reset.ident.mode = .listening ∧ State.reset.ident.listenTimer.isSome ∧
      up.ident.mode = .active ∧ up.ident.beaconTimer.isSome := by decide

theorem test_hyps_ReceptionsAreJudged_up : up.ident.memTest = false := by decide

/-- One accepted frame of each kind but PARCEL, whose 4,120 bytes are left to the proof of FramesSurviveTheLane. -/
theorem test_hyps_ReceptionsAreJudged_accepted :
    (acceptFrame (Frame.bytes { sender := 31, job := 7, body := .beacon bb })).isSome ∧
      (acceptFrame (Frame.bytes { sender := 5, job := 7, body := .job (patched entry1) })).isSome ∧
      (acceptFrame (Frame.bytes { sender := 255, job := 7, body := .cancel 4 })).isSome ∧
      (acceptFrame (Frame.bytes { sender := 5, job := 7, body := .need 4 0x81 })).isSome ∧
      (acceptFrame (Frame.bytes { sender := 5, job := 7, body := .recallList [1, 2] })).isSome := by decide

theorem test_hyps_FramesSurviveTheLane :
    Frame.wf { sender := 31, job := 7, body := .beacon bb } = true ∧
      Frame.wf { sender := 5, job := 7, body := .job (patched entry1) } = true ∧
      Frame.wf { sender := 255, job := 7, body := .cancel 4 } = true ∧
      Frame.wf { sender := 5, job := 7, body := .need 4 0x81 } = true ∧
      Frame.wf { sender := 5, job := 7, body := .recallList [1, 2] } = true ∧
      Frame.wf { sender := 5, job := 7, body := .parcel (pb false false 0) } = true :=
  ⟨by decide, by decide, by decide, by decide, by decide, by simp [Frame.wf, pb]⟩

theorem test_hyps_TransmitterTakesTheChoice_busy_or_empty :
    up.ident.memTest = false ∧ (holding .beacon 0 .sending up).port.tx ≠ .free ∧
      (updIdent (fun i => { i with debt := 0 }) up).choice = none := by decide

theorem test_hyps_TransmitterTakesTheChoice_choices :
    up.port.tx = .free ∧ up.choice = some .beacon ∧ (updIdent (fun i => { i with debt := 8 }) up).choice = some .beacon ∧
      (updPort (fun p => { p with cancels := [{ job := 7, reason := 3 }] }) up).choice =
        some (.cancel { job := 7, reason := 3 }) ∧
      (updPort (fun p => { p with jobRepeat := true }) (source .copying)).choice = some .jobRepeat ∧
      (source .copying).job.body = some (body 3 0) := by decide

theorem test_hyps_TransmitterTakesTheChoice_need :
    let s := updPort (fun p => { p with class4 := [4] }) (needing (.asked .inClass) 1 (sink .copying))
    s.choice = some (.need 4) ∧ (s.need 4).isSome := by decide

theorem test_hyps_TransmitterTakesTheChoice_answer :
    let s := updPort (fun p => { p with class5 := [4] }) (answering true (sink .copying))
    s.choice = some (.answer 4) ∧ (s.answer 4).isSome ∧ nextSet 6 2 = some 2 := by decide

theorem test_hyps_TransmitterTakesTheChoice_counts :
    nextSet 0 3 = none ∧ nextSet 0x06 3 = some 1 ∧ hasParcel 0x06 1 = true ∧
      ((owing .copying 4 3 up).sockets[1].countRecall [4]).owed.map (·.record.attempts) = [4] ∧
      ((owing .repaying 4 4 up).sockets[1].countRecall [4]).owed.map (·.record.attempts) = [4] ∧
      ((owing .enrolled 4 3 up).sockets[1].countRecall [4]).owed.map (·.record.attempts) = [3] := by decide

theorem test_hyps_TransmitterTakesTheChoice_parcels :
    (updPort (fun p => { p with class6 := [(4, 0)] }) (source .copying)).choice = some (.newData 4 0) ∧
      (let s := updPort (fun p => { p with class7 := [(1, 0)] }) (slotIn (.rslot 1) .whole 4 (source .copying))
      s.choice = some (.recallParcel 1 0) ∧ (s.slot (.rslot 1)).seg = some 4) ∧
      (updRv (fun r => { r with request := .queued }) (sink .copying)).choice = some .recallRequest := by decide

theorem test_hyps_FramesAreSentOrGivenUp_attempts :
    (∃ h, (holding .beacon 0 .deferring up).port.tx = .holding h .deferring) ∧
      (∃ h, (holding .beacon 0 .sending up).port.tx = .holding h .sending) ∧
      (∃ h n, (holding .beacon 1 (.backingOff 1) up).port.tx = .holding h (.backingOff n)) ∧
      (∀ h p, up.port.tx ≠ .holding h p) ∧
      (∃ h, (holding .beacon 14 .jamming up).port.tx = .holding h .jamming ∧ h.attempts + 1 < 16) ∧
      ∃ h, (holding .beacon 15 .jamming up).port.tx = .holding h .jamming ∧ 16 ≤ h.attempts + 1 :=
  ⟨⟨_, rfl⟩, ⟨_, rfl⟩, ⟨_, _, rfl⟩, (fun h p e => by cases e), ⟨_, rfl, by decide⟩, ⟨_, rfl, by decide⟩⟩

theorem test_hyps_FramesAreSentOrGivenUp_sent :
    (∃ h, (holding (.need 4) 0 .sending (needing (.asked .held) 1 (sink .copying))).port.tx = .holding h .sending ∧
      h.tag = .need 4) ∧
      ((needing (.asked .held) 1 (sink .copying)).need 4).map (·.st) = some (.asked .held) ∧
      (updRv (fun r => { r with request := .taken }) (sink .copying)).rv.request = .taken := ⟨⟨_, rfl, rfl⟩, by decide⟩

theorem test_hyps_BeaconFillsTheEntry :
    (0 : Byte).toNat = (0 : Fin 32).val ∧ (0 : Fin 32) ≠ up.own ∧ (31 : Byte).toNat = (31 : Fin 32).val ∧
      (31 : Fin 32) ≠ up.own ∧ up.ident.memTest = false := by decide

theorem test_hyps_OwnNumberMutes :
    (3 : Byte).toNat = up.own.val ∧ up.ident.mode ≠ .mute ∧ (sink .copying).job.st ≠ .idle ∧
      (0 : Byte).toNat = muted.own.val ∧ muted.ident.mode = .mute := by decide

theorem test_hyps_RosterChangesAreReported_expiries :
    (3 : Fin 32) = up.own ∧ (5 : Fin 32) ≠ up.own ∧ up.roster[5].timer = none ∧
      (hearing .present 2 up).roster[5].timer.isSome ∧ (hearing .present 2 up).roster[5].st = .present ∧
      (hearing .silent 2 up).roster[5].timer.isSome ∧ (hearing .silent 2 up).roster[5].st = .silent := by decide

theorem test_hyps_RosterChangesAreReported_watched :
    let s := hearing .present 2 (sink .copying)
    up.ident.mode ≠ .mute ∧ muted.ident.mode = .mute ∧ (5 : Byte).toNat = (5 : Fin 32).val ∧ (5 : Fin 32) ≠ s.own ∧
      s.job.source = false ∧ s.job.st.working = true ∧ s.job.body = some (body 5 0) ∧
      (body 5 0).srcStation.toNat = (5 : Fin 32).val ∧ (body 5 0).srcStation.toNat ≠ (6 : Fin 32).val ∧
      s.sameJob (s.entry 5) = true := by decide

theorem test_hyps_BeaconReportsTheStation :
    up.job.st = .idle ∧ (sink .copying).job.st ≠ .idle ∧ (sink .copying).job.enrollment = .closed := by decide

theorem test_hyps_JobTestsAndRefusal_reasons :
    judgeJob 7 { body 5 0 with imageSize := 2097153 } = some .imageSize ∧
      judgeJob 7 { body 5 0 with srcSocket := 8 } = some .source ∧ judgeJob 0 (body 5 0) = some .config ∧
      judgeJob 7 (patched { entry1 with kind := 4 }) = some .patchKind ∧
      judgeJob 7 (patched { entry1 with len := 7 }) = some .patchLength ∧
      judgeJob 7 (patched { entry1 with offset := 32761 }) = some .patchPlace ∧
      judgeJob 7 (patched { entry1 with number := 8 }) = some .patchNumber ∧
      judgeJob 7 (patched { entry1 with offset := 32760 }) = none := by decide

theorem test_hyps_JobTestsAndRefusal_states :
    up.ident.memTest = false ∧ up.ident.mode = .active ∧ up.job.st = .idle ∧ (sink .finished).job.st = .finished ∧
      (sink .finished).job.lastAdopted ≠ some 8 ∧ (sink .cancelled).job.lastAdopted = some 7 ∧
      muted.ident.mode ≠ .active ∧ (sink .orphaned).job.st.working = true := by decide

theorem test_hyps_ValidJobIsAdoptedAtASink :
    judgeJob 8 (body 5 0) = none ∧ (body 5 0).srcStation.toNat = (5 : Fin 32).val ∧ (5 : Fin 32) ≠ up.own ∧
      up.roster[5].jobState ≠ 4 ∧ judgeJob 8 (body 5 1) = none := by decide

/-- The source's entry may still show FINISHED for the job before. -/
theorem test_hyps_ValidJobIsAdoptedAtASink_sockets :
    let old := hearing .present 4 (sink .finished)
    let s := updSocket 1 (fun sk => { sk with st := .ready, capacity := some 1280 })
      (updSocket 2 (fun sk => { sk with st := .ready, capacity := some 1279 })
        (updSocket 4 (fun sk => { sk with exit := some .ready, capacity := some 1280 })
          (commanded .copying (.descriptor 4 (.win 4) true) 1 false old)))
    old.roster[5].jobState = 4 ∧ old.roster[5].job ≠ 8 ∧ s.job.st = .finished ∧ s.job.lastAdopted ≠ some 8 ∧
      s.pacing.hold = .released ∧ (body 5 0).enrollClosed = 0 ∧ (body 5 1).enrollClosed ≠ 0 ∧
      s.sockets[0].exit = none ∧ s.sockets[0].st.inJob = false ∧ s.sockets[0].st ≠ .ready ∧
      s.sockets[1].exit = none ∧ s.sockets[1].st = .ready ∧
      (body 5 0).imageSize.toNat * 64 ≤ s.sockets[1].capacity.getD 0 ∧
      ¬ (body 5 0).imageSize.toNat * 64 ≤ s.sockets[2].capacity.getD 0 ∧ s.sockets[4].exit = some .ready := by decide

/-- A socket prepares after an adoption that opens enrollment, and none after one that finds it closed. -/
theorem test_hyps_ValidJobIsAdoptedAtASink_hold :
    let s := updSocket 1 (fun sk => { sk with st := .ready, capacity := some 1280 }) up
    let t := after (.jobArrival 5 8 (body 5 0)) s
    let u := after (.jobArrival 5 8 (body 5 1)) s
    t.job.st = .enrolling ∧ t.sockets[1].st = .preparing ∧ t.pacing.hold = .asserted ∧ u.job.st = .copying := by decide

theorem test_hyps_ValidJobIsAdoptedAtTheSource :
    let s := updSocket 2 (fun sk => { sk with st := .ready, capacity := some 1280 }) up
    judgeJob 7 (body 3 0) = none ∧ (body 3 0).srcStation.toNat = up.ident.station.toNat ∧
      (body 3 0).srcSocket.toNat = (2 : Fin 8).val ∧ s.sockets[2].exit = none ∧ s.sockets[2].st = .ready ∧
      (body 3 0).imageSize.toNat * 64 ≤ s.sockets[2].capacity.getD 0 ∧ up.sockets[2].exit = none ∧
      up.sockets[2].st ≠ .ready := by decide

/-- The named socket bound for READY, a master read abandoned at another, and sockets with every other exit. -/
theorem test_hyps_ValidJobIsAdoptedAtTheSource_sockets :
    let bound (k : Fin 8) (x : ExitTarget) := updSocket k fun sk => { sk with exit := some x, capacity := some 1280 }
    let s := bound 2 .ready (bound 4 .waiting (bound 5 .sourceLost (bound 6 .ready
      (updSocket 1 (fun sk => { sk with exit := some .ready })
        (commanded .master (.master 4 (.win 4)) 1 false
          (updSocket 3 (fun sk => { sk with st := .done }) (updSocket 7 (fun sk => { sk with st := .waiting }) up)))))))
    s.job.st = .idle ∧ judgeJob 7 (body 3 0) = none ∧ judgeJob 7 (body 3 1) = none ∧
      (body 3 0).srcSocket.toNat = (2 : Fin 8).val ∧ s.sockets[2].exit = some .ready ∧
      (body 3 0).imageSize.toNat * 64 ≤ s.sockets[2].capacity.getD 0 ∧ s.sockets[4].exit = some .waiting ∧
      s.sockets[5].exit = some .sourceLost ∧ s.sockets[5].st ≠ .failed ∧ s.sockets[6].exit = some .ready ∧
      ¬ (body 3 0).imageSize.toNat * 64 ≤ s.sockets[1].capacity.getD 0 ∧
      (s.sockets[1].cmd.map (·.purpose)) = some (.master 4 (.win 4)) ∧ s.sockets[3].exit = none ∧
      s.sockets[3].st.inJob = false ∧ s.sockets[3].st ≠ .ready ∧ s.sockets[3].st ≠ .waiting ∧ s.sockets[7].st = .waiting ∧
      s.pacing.hold = .released := by decide

/-- What they become: READY and MASTER, READY and REJECTED or PREPARING, WAITING, FAILED. -/
theorem test_source_adoption_takes_exits :
    let bound (k : Fin 8) (x : ExitTarget) := updSocket k fun sk => { sk with exit := some x, capacity := some 1280 }
    let s := bound 2 .ready (bound 4 .waiting (bound 5 .sourceLost (bound 6 .ready
      (updSocket 1 (fun sk => { sk with exit := some .ready }) up))))
    let t := adopt 7 (body 3 0) s
    let n := adopt 7 (body 3 0) (bound 4 .waiting up)
    t.job.source = true ∧ t.sockets[2].st = .master ∧ t.sockets[1].st = .rejected ∧ t.sockets[4].st = .waiting ∧
      t.sockets[5].st = .failed ∧ t.sockets[6].st = .preparing ∧ n.job.st = .cancelled ∧ n.sockets[4].st = .ready := by
  decide

theorem test_hyps_CancelAndOrphanTimerEndTheJob_cancel :
    (sink .copying).ident.mode = .active ∧ (sink .copying).job.number = some 7 ∧ (sink .copying).job.st.working = true ∧
      up.job.number ≠ some 7 := by decide

theorem test_hyps_CancelAndOrphanTimerEndTheJob_orphan :
    let timed := updJob fun j => { j with orphanTimer := some 1 }
    (timed (sink .orphaned)).job.orphanTimer.isSome ∧ (timed (sink .orphaned)).job.st = .orphaned ∧
      (owing .copying 1 0 (timed (sink .orphaned))).sockets[1].st.inJob = true ∧
      (timed (sink .enrolling)).job.st = .enrolling ∧ (timed (sink .enrolling)).job.confirmed = false := by decide

theorem test_hyps_ModeAndJobTimersExpire_jobs :
    let cancelling (n : Nat) := updJob fun j =>
      { j with cancel := some { copy := { job := 7, reason := 3 }, left := n, timer := some 1 } }
    up.job.cancel = none ∧ ((cancelling 0 up).job.cancel.map (·.left)) = some 0 ∧
      ((cancelling 2 up).job.cancel.map (·.left)) = some 2 := by decide

theorem test_hyps_SourceReportTable :
    let e := (hearing .present 2 up).roster[5]
    (sink .copying).job.st.working = true ∧ (sink .copying).sameJob e = true ∧ (sink .orphaned).sameJob e = true ∧
      (sink .copying).settled = true ∧ (owing .copying 1 0 (sink .copying)).settled = false ∧
      (sink .copying).job.digest ≠ some 8 ∧ (sink .copying).job.number ≠ some 8 ∧ e.st = .present ∧
      (sink .copying).job.confirmed = false ∧ (hearing .silent 2 up).roster[5].st = .silent ∧
      (updJob (fun j => { j with confirmed := true }) (sink .copying)).job.confirmed = true ∧
      RosterEntry.empty.st = .absent := by decide

theorem test_hyps_SourceReportTable_codes :
    let e (c : BitVec 3) := (hearing .present c up).roster[5]
    (e 1).jobState = 1 ∧ (e 5).jobState = 5 ∧ (e 4).jobState = 4 ∧ (e 7).jobState = 7 ∧
      (owing .copying 1 0 (sink .orphaned)).settled = false := by decide

theorem test_hyps_SourceReportTable_former :
    let orphan (g : JobState) := updJob (fun j => { j with former := some g }) (sink .orphaned)
    (orphan .enrolling).job.former = some .enrolling ∧ (orphan .copying).job.former = some .copying ∧
      (orphan .closing).job.former = some .closing ∧ (returnFromOrphan (orphan .closing)).job.st = .closing ∧
      formerOk (orphan .closing) := ⟨rfl, rfl, rfl, by decide, by unfold formerOk; decide⟩

theorem test_hyps_SettledStationsFinish :
    let s := source .closing
    s.job.source = true ∧ s.job.st = .closing ∧ s.rv.queue = [] ∧ s.settled = true ∧ s.recallReading = false ∧
      ∀ x : Fin 32, s.sameJob (s.entry x) = true → (s.entry x).settled = true := by decide

theorem test_hyps_SettledStationsFinish_sink :
    let s := hearing .present 4 (sink .closing)
    s.job.source = false ∧ s.job.st.working = true ∧ s.settled = true ∧ s.job.body = some (body 5 0) ∧
      (body 5 0).srcStation.toNat = (5 : Fin 32).val ∧ s.sameJob (s.entry 5) = true ∧ (s.entry 5).jobState = 4 := by decide

theorem test_hyps_BaseFollowsTheLowMarks :
    (source .copying).job.source = true ∧ (source .copying).job.st.sourced = true ∧
      (source .copying).candidateBase ≤ (source .copying).win.base ∧ (sink .copying).imageSize = 20 ∧
      (sink .copying).win.base < 20 ∧ (sink .orphaned).job.st.sourced = false ∧
      (hearing .present 2 (source .copying)).sameJob ((hearing .present 2 (source .copying)).entry 5) = true := by decide

/-- The source's candidate is larger than its base; a base reported at a sink is larger, too large, or not larger. -/
theorem test_hyps_BaseFollowsTheLowMarks_larger :
    let s := updWin (fun w => { w with next := 5 }) (source .copying)
    s.win.base < s.candidateBase ∧ (judgeBase s).win.base = 5 ∧ (sink .enrolling).win.base < 20 ∧
      20 ≤ (sink .enrolling).imageSize ∧ (sink .enrolling).imageSize < 21 ∧ 0 ≤ (sink .enrolling).win.base := by decide

/-- A rise that fails the tied socket which bound it is followed, in the same step, by a rise to the send mark (R65, R120). -/
theorem test_base_rises_again :
    let d : Descriptor := { seg := 1, src := .win 1, inFlight := false, owed := none }
    let full := List.replicate 32 ({ seg := 0, record := { origin := .poisoned, attempts := 0 } } : OwedEntry)
    let s := updSocket 1 (fun sk => { sk with st := .copying, tie := .tied, ring := [d], written := [0, 1], owed := full })
      (slotIn (.win 1) .damaged 1 (updWin (fun w => { w with next := 5 }) (source .copying)))
    s.lowMark = some 2 ∧ s.sendMark = 5 ∧ s.candidateBase = 2 ∧ (judgeBase s).win.base = 2 ∧
      (judgeBase s).sockets[1].st = .failed ∧ (judgeBase s).lowMark = none ∧ (settleBase s).win.base = 5 := by decide

theorem test_hyps_BaseRisePassesSegments_slots :
    let held (st : SlotState) := slotIn (.win 4) st 4 (sink .copying)
    ((held .whole).slot (.win 4)).seg = some 4 ∧ ((held .whole).slot (.win 4)).pending = 0 ∧
      ((updSlot (.win 4) (fun sl => { sl with pending := 1 }) (held .whole)).slot (.win 4)).pending = 1 ∧
      ((held .filling).slot (.win 4)).st = .filling ∧ ((held .damaged).slot (.win 4)).st = .damaged ∧
      ((held .retired).slot (.win 4)).st = .retired ∧ ((held .reading).slot (.win 4)).st = .reading := by decide

theorem test_hyps_BaseRisePassesSegments_rise :
    let d : Descriptor := { seg := 4, src := .win 4, inFlight := false, owed := none }
    let s := updSocket 1 (fun sk => { sk with st := .copying, ring := [d], written := [0] })
      (slotIn (.win 4) .damaged 4 (sink .copying))
    let orphan := updJob (fun j => { j with former := some .copying }) (sink .orphaned)
    s.win.base < 5 ∧ (s.slot (.win 4)).st = .damaged ∧ (s.slot (.win 4)).seg = some 4 ∧ d ∈ s.sockets[1].ring ∧
      s.sockets[1].st.enrolledOrCopying = true ∧ s.sockets[1].lacks 1 = true ∧ s.sockets[1].lacks 4 = false ∧
      (baseRise 5 s).sockets[1].st ≠ .failed ∧ ((baseRise 5 s).sockets[1].owed.map (·.seg)) = [1, 2, 3, 4] ∧
      20 = s.imageSize ∧ s.job.st = .copying ∧ orphan.job.st = .orphaned ∧ orphan.job.former = some .copying ∧
      (5 ≤ 6 ∧ ((slotIn (.win 6) .whole 6 s).slot (.win 6)).st ≠ .retired) := by decide

theorem test_hyps_SegmentOpens :
    (slotIn (.win 0) .whole 0 (source .enrolling)).mayOpen = true ∧
      (slotIn (.win 0) .whole 0 (source .enrolling)).job.st = .enrolling ∧
      (slotIn (.win 4) .whole 4 (updWin (fun w => { w with next := 4 }) (source .copying))).mayOpen = true ∧
      (source .copying).mayOpen = false := by decide

theorem test_hyps_MasterReadsAreIssued :
    let s := source .copying
    s.job.source = true ∧ s.job.st.sourced = true ∧ s.win.readMark < s.imageSize ∧ s.win.readMark < s.win.base + 16 ∧
      s.sockets[s.masterSocket].st = .master ∧ s.sockets[s.masterSocket].cmd = none ∧
      (s.slot (.win (winOf s.win.readMark))).usable = true := by decide

/-- A RETIRED target slot, with and without a write in flight, and one that is neither usable nor RETIRED. -/
theorem test_hyps_MasterReadsAreIssued_retired :
    let writing := updSlot (.win 0) fun sl => { sl with inFlight := 1 }
    let s := slotIn (.win 0) .retired 4 (source .copying)
    let w := slotIn (.win 0) .whole 4 (source .copying)
    s.readAheadDue = true ∧ winOf s.win.readMark = 0 ∧ (s.slot (.win 0)).st = .retired ∧
      ((takeBack (.win 0) s).slot (.win 0)).usable = true ∧ (readAhead s).win.readMark = 1 ∧
      ((takeBack (.win 0) (writing s)).slot (.win 0)).usable = false ∧ (readAhead (writing s)).win.readMark = 0 ∧
      w.readAheadDue = true ∧ (w.slot (.win 0)).usable = false ∧ (w.slot (.win 0)).st ≠ .retired := by decide

theorem test_hyps_MasterReadsAreIssued_recall :
    let s := updRv (fun r => { r with queue := [2, 4] })
      (slotIn (.rslot 0) .filling 2 (updWin (fun w => { w with base := 20, readMark := 20 }) (source .closing)))
    s.sockets[s.masterSocket].st = .master ∧ s.sockets[s.masterSocket].cmd = none ∧ s.readAheadPossible = false ∧
      s.rv.queue = [2] ++ 4 :: [] ∧ (∀ g ∈ [2], s.held g = true) ∧ s.held 4 = false ∧
      (s.slot (.rslot 1)).usable = true ∧ ∀ q : Fin 2, q < 1 → (s.slot (.rslot q)).usable = false := by decide

/-- The buffers of a state whose slots list nothing are in order. -/
theorem storage_of_empty (s : State) (w : ∀ i : Fin 16, s.win.slots[i].buf = []) (r : ∀ i : Fin 2, s.win.recalls[i].buf = [])
    (c : s.win.checkTable = []) (m : ∀ k : Fin 8, s.sockets[k].written = []) : storageOk s := by
  refine ⟨?_, by simp [Sparse.wf, c], fun k => ?_⟩
  case refine_2 =>
    show ascending s.sockets[k].written
    rw [m k]
    exact .nil
  intro id
  have h : (s.slot id).buf = [] := by cases id with
    | win i => exact w i
    | rslot i => exact r i
  simp [h, Memory.wf, Sparse.wf]

theorem test_hyps_MasterReadsFillTheirSlots :
    let flag (id : SlotId) := updSlot id fun sl => { sl with masterRead := true }
    let s := flag (.win 4) (slotIn (.win 4) .reading 4 (commanded .master (.master 4 (.win 4)) 1 false (source .copying)))
    let q := flag (.rslot 1) (slotIn (.rslot 1) .filling 4 (commanded .master (.master 4 (.rslot 1)) 1 false (source .copying)))
    (List.replicate 32768 (0 : Byte)).length = 32768 ∧ storageOk s ∧ storageOk q ∧
      (s.sockets[1].cmd.map (·.purpose)) = some (.master 4 (.win 4)) ∧ s.sockets[1].exit = none ∧
      (s.slot (.win 4)).masterRead = true ∧ (s.slot (.win 4)).st = .reading ∧ (s.slot (.win 4)).seg = some 4 ∧
      (q.sockets[1].cmd.map (·.purpose)) = some (.master 4 (.rslot 1)) ∧ (q.slot (.rslot 1)).masterRead = true ∧
      (q.slot (.rslot 1)).st = .filling ∧ (q.slot (.rslot 1)).seg = some 4 :=
  ⟨List.length_replicate, storage_of_empty _ (by decide) (by decide) (by decide) (by decide),
    storage_of_empty _ (by decide) (by decide) (by decide) (by decide), by decide⟩

theorem test_hyps_ReadAndWriteErrorsRetryThenFail_reads :
    let s (n : Nat) := commanded .master (.master 4 (.win 4)) n false (source .copying)
    ((s 4).sockets[1].cmd.map fun c => (c.purpose, c.attempt, c.portReset)) = some (.master 4 (.win 4), 4, false) ∧
      ((s 3).sockets[1].cmd.map (·.attempt)) = some 3 ∧ (s 4).sockets[1].exit = none ∧ (s 4).job.source = true ∧
      (s 4).job.st.sourced = true ∧ (s 4).job.number = some 7 := by decide

theorem test_hyps_ReadAndWriteErrorsRetryThenFail_verify :
    let s (n : Nat) := commanded .verifying (.verify 4) n false (sink .closing)
    (s 4).ident.memTest = false ∧ (s 4).sockets[1].exit = none ∧ (s 4).sockets[1].st ≠ .failed ∧
      ((s 3).sockets[1].cmd.map fun c => (c.purpose, c.attempt, c.portReset)) = some (.verify 4, 3, false) ∧
      ((s 4).sockets[1].cmd.map (·.attempt)) = some 4 ∧ (s 4).sockets[1].ring = [] := by decide

theorem test_hyps_PlacingTable :
    let held (st : SlotState) := slotIn (.win 4) st 4 (sink .copying)
    let writing := updSlot (.win 4) fun sl => { sl with inFlight := 1 }
    ((sink .copying).slot (.win 4)).usable = true ∧ ((writing (sink .copying)).slot (.win 4)).usable = false ∧
      ((held .retired).slot (.win 4)).st = .retired ∧ ((takeBack (.win 4) (held .retired)).slot (.win 4)).usable = true ∧
      ((takeBack (.win 4) (writing (held .retired))).slot (.win 4)).usable = false ∧
      ((held .filling).slot (.win 4)).seg = some 4 ∧ hasParcel ((held .filling).slot (.win 4)).mask 1 = false ∧
      hasParcel 0x02 1 = true ∧ ((held .damaged).slot (.win 4)).inFlight = 0 ∧
      0 < ((writing (held .damaged)).slot (.win 4)).inFlight ∧ ((held .whole).slot (.win 4)).st = .whole ∧
      (sink .copying).recallHolding 4 = none ∧ (writing (held .damaged)).recallHolding 4 = none ∧
      ((slotIn (.rslot 1) .filling 4 (sink .copying)).slot (.rslot 1)).seg = some 4 := by decide

theorem test_hyps_ParcelsAtTheWindow :
    let s := sink .copying
    s.job.source = false ∧ s.job.number = some 7 ∧ s.job.st = .copying ∧ 4 < s.imageSize ∧ s.win.base ≤ 4 ∧
      s.isSource 9 = false ∧ s.isSource 5 = true ∧ (0 : Word32).toNat ≤ s.win.base ∧
      (s.slot (.win (winOf 4))).usable = true ∧ s.recallHolding 4 = none ∧ s.job.number ≠ some 8 ∧
      (sink .orphaned).job.former ≠ some .enrolling ∧
      s.imageSize ≤ 20 ∧ (source .copying).job.source = true ∧
      ((source .copying).slot (.win (winOf 4))).st ≠ .damaged := by decide

theorem test_hyps_ParcelsAtTheWindow_payload : (pb false false 0).payload.length = 4096 := List.length_replicate

theorem test_hyps_ParcelsAtASink :
    let orphan := updJob (fun j => { j with former := some .enrolling }) (sink .orphaned)
    let b := pb false false 0
    let preparing (r : Bool) := commanded .preparing .blanking 1 r (sink .enrolling)
    (sink .enrolling).job.source = false ∧ (sink .enrolling).job.number = some 7 ∧
      (sink .enrolling).job.st.working = true ∧ orphan.job.st = .orphaned ∧ orphan.job.former = some .enrolling ∧
      orphan.isSource 5 = true ∧ (sink .copying).isSource 9 = false ∧ b.seg.toNat < (sink .copying).imageSize ∧
      (sink .copying).imageSize ≤ 20 ∧ b.isRepair = false ∧ b.isRecall = false ∧
      (sink .copying).win.highestNew = none ∧
      (updWin (fun w => { w with highestNew := some 4 }) (sink .copying)).win.highestNew = some 4 ∧
      ((preparing true).sockets[1].cmd.map (·.portReset)) = some true ∧
      ((preparing false).sockets[1].cmd.map (·.portReset)) = some false ∧
      (owing .preparing 1 0 (sink .enrolling)).sockets[1].cmd = none ∧ (sink .enrolling).sockets[1].st ≠ .preparing ∧
      (pb true false 0).isRepair = true ∧ (sink .copying).win.base ≤ 4 ∧ 4 < (sink .copying).win.base + 16 ∧
      4 < (updWin (fun w => { w with base := 5 }) (sink .copying)).win.base := by decide

theorem test_hyps_RecallParcels :
    let s := updWin (fun w => { w with base := 5 }) (sink .copying)
    let held (st : SlotState) := slotIn (.rslot 1) st 4 s
    ((slotIn (.win 4) .retired 4 s).slot (.win (winOf 4))).st = .retired ∧
      (held .filling).recallHolding 4 = some 1 ∧ ((held .filling).slot (.rslot 1)).st = .filling ∧
      ((held .filling).slot (.rslot 1)).inFlight = 0 ∧
      hasParcel ((held .filling).slot (.rslot 1)).mask (pb false true 0).parcel = false ∧
      ((held .whole).slot (.rslot 1)).st = .whole ∧ s.recallHolding 4 = none ∧ s.usableRecall = some 0 ∧
      (∀ id ∈ allSlots, (s.slot id).seg ≠ some 4) ∧ (owing .copying 4 0 s).sockets[1].owes 4 = true ∧
      (slotIn (.rslot 0) .filling 6 (slotIn (.rslot 1) .filling 7 s)).usableRecall = none ∧
      (source .copying).job.source = true ∧ (pb false true 0).isRecall = true ∧
      Sparse.wf s.win.checkTable := by decide

theorem test_hyps_SlotsCompleteAndExpire :
    let timed (id : SlotId) := updSlot id fun sl => { sl with timer := some 1 }
    let s := timed (.win 4) (slotIn (.win 4) .filling 4 (sink .copying))
    (s.slot (.win (winOf 4))).mask ≠ 0xFF ∧ (s.slot (.win 4)).timer.isSome ∧ (s.slot (.win 4)).seg = some 4 ∧
      ((sink .copying).slot (.win 4)).timer = none ∧ Sparse.wf s.win.checkTable := by decide

/-- No check is its own complement. -/
theorem check_ne_not (w : Word32) : w ≠ ~~~ w := fun e => by
  have h := congrArg BitVec.msb e
  simp at h

theorem test_hyps_SlotsComplete_checks (s : State) (id : SlotId) :
    let full := updSlot id (fun sl => { sl with mask := 0xFF, check := check sl.bytes }) s
    let wrong := updSlot id (fun sl => { sl with mask := 0xFF, check := ~~~ check sl.bytes }) s
    (full.slot id).mask = 0xFF ∧ check (full.slot id).bytes = (full.slot id).check ∧
      (wrong.slot id).mask = 0xFF ∧ check (wrong.slot id).bytes ≠ (wrong.slot id).check := by
  simp only [updSlot_same]
  exact ⟨trivial, rfl, trivial, check_ne_not (check (s.slot id).bytes)⟩

theorem test_hyps_GapReportTable :
    let s := sink .copying
    s.job.st.working = true ∧ (1 : Byte) ≠ 0 ∧ 4 ∉ s.repair.exhausted ∧ s.win.base ≤ 4 ∧ 4 < s.win.base + 16 ∧
      s.need 4 = none ∧ ((needing .waitingDelay 0 s).need 4).map (·.st) = some .waitingDelay ∧
      ((needing (.asked .retry) 1 s).need 4).map (·.st) = some (.asked .retry) ∧
      ((needing .suppressed 1 s).need 4).map (·.missing) = some 3 ∧ (3 : Byte) ||| 1 = 3 ∧ (3 : Byte) ||| 4 ≠ 3 ∧
      up.job.st.working = false := by decide

theorem test_hyps_GapReportTable_damage :
    let s := sink .copying
    s.need 4 = none ∧ ((needing .suppressed 1 s).need 4).map (·.st) = some .suppressed ∧
      s.job.st.working = true ∧ (needing .suppressed 1 up).need 4 ≠ none ∧ up.job.st.working = false ∧
      (3 : Byte) &&& ~~~ parcelBit 1 = 1 ∧ (1 : Byte) &&& ~~~ parcelBit 0 = 0 := by decide

theorem test_hyps_NeedTimersExpire :
    let s := sink .copying
    ((needing .waitingDelay 0 s).need 4).map (·.st) = some .waitingDelay ∧
      ((needing .waitingDelay 0 s).slot (.win (winOf 4))).discards = false ∧
      ((updSlot (.win 4) (fun sl => { sl with inFlight := 1 }) (needing .waitingDelay 0 s)).slot
        (.win (winOf 4))).discards = true ∧
      ((needing .suppressed 0 s).need 4).map (·.st) = some .suppressed ∧
      ((needing (.asked .retry) 5 s).need 4).map (·.count) = some 5 ∧
      ((needing (.asked .retry) 6 s).need 4).map (·.count) = some 6 ∧
      (owing .copying 1 0 (needing (.asked .retry) 6 s)).sockets[1].lacks 4 = true ∧
      (owing .copying 1 0 (needing (.asked .retry) 6 s)).sockets[1].st.enrolledOrCopying = true := by decide

theorem test_hyps_NeedTimersExpire_exhaustion :
    let d : Descriptor := { seg := 4, src := .win 4, inFlight := false, owed := none }
    let s := slotIn (.win 4) .damaged 4 (needing (.asked .retry) 6 (sink .copying))
    let lacking (n : Nat) := updSocket 1 (fun sk =>
      { sk with st := .copying
                owed := List.replicate n { seg := 1, record := { origin := .revoked, attempts := 0 } } }) s
    let queued := updSocket 1 (fun sk => { sk with st := .copying, ring := [d] }) s
    (s.slot (.win (winOf 4))).holdsIn 4 .damaged = true ∧ d.src = .win (winOf 4) ∧
      (lacking 31).sockets[1].lacks 4 = true ∧ (lacking 31).sockets[1].owed.length < 32 ∧
      (lacking 31).sockets[1].ring = [] ∧ (lacking 32).sockets[1].lacks 4 = true ∧
      32 ≤ (lacking 32).sockets[1].owed.length ∧ queued.sockets[1].lacks 4 = false ∧ d ∈ queued.sockets[1].ring ∧
      (exhaustNeed 4 queued).sockets[1].owed =
        [{ seg := 4, record := { origin := .revoked, attempts := 0 } }] := by decide

theorem test_hyps_NeedsHeardAreJudged_covering :
    let s := sink .copying
    (3 : Byte) &&& ~~~ 1 ≠ 0 ∧ (3 : Byte) &&& ~~~ 7 = 0 ∧
      ((needing .waitingDelay 0 s).need 4).map (·.st) = some .waitingDelay ∧
      ((needing (.asked .inClass) 1 s).need 4).map (·.st) = some (.asked .inClass) ∧
      ((needing (.asked .held) 1 s).need 4).map (·.st) = some (.asked .held) ∧
      ((needing (.asked .retry) 1 s).need 4).map (·.st) = some (.asked .retry) ∧
      ((needing .suppressed 1 s).need 4).map (·.st) = some .suppressed := by decide

theorem test_hyps_NeedsHeardAreJudged_answering :
    let s := slotIn (.win 4) .whole 4 (sink .copying)
    let q := slotIn (.win 4) .whole 4 (updWin (fun w => { w with next := 5 }) (source .copying))
    s.job.st.working = true ∧ s.job.number = some 7 ∧ (6 : Byte) ≠ 0 ∧ 4 < s.imageSize ∧
      (s.slot (.win (winOf 4))).st = .whole ∧ (s.slot (.win (winOf 4))).seg = some 4 ∧ s.answer 4 = none ∧
      s.repair.answers.length < 8 ∧ s.job.source = false ∧ q.job.source = true ∧ 4 < q.win.next ∧
      (q.slot (.win (winOf 4))).st = .whole ∧ q.answer 4 = none ∧ ((answering false s).answer 4).isSome ∧
      ((sink .copying).slot (.win (winOf 4))).st ≠ .whole ∧
      (let e : AnswerEntry := { seg := 5, mask := 1, sending := false, timer := none, nextParcel := 0 }
      8 ≤ (updRepair (fun r => { r with answers := List.replicate 8 e }) s).repair.answers.length) := by decide

theorem test_hyps_AnswersWaitAndStart :
    let s := sink .copying
    ((answering false s).answer (pb true false 0).seg.toNat).map (·.sending) = some false ∧
      ((answering true s).answer (pb true false 0).seg.toNat).map (·.sending) = some true ∧
      (pb true false 0).isRepair = true ∧ s.job.number = some 7 := by decide

theorem test_hyps_EngineTakesTheOldestReady :
    let d (g : Nat) (f : Bool) : Descriptor := { seg := g, src := .win 4, inFlight := f, owed := none }
    let s := slotIn (.win 4) .whole 4
      (updSocket 1 (fun sk => { sk with st := .copying, ring := [d 3 true, d 5 false, d 4 false, d 4 false] }) (sink .copying))
    s.sockets[1].st = .copying ∧ s.sockets[1].cmd = none ∧ s.sockets[1].exit = none ∧
      s.sockets[1].ring = [d 3 true, d 5 false] ++ d 4 false :: [d 4 false] ∧
      (∀ o ∈ [d 3 true, d 5 false], o ≠ d 4 false ∧ (o.inFlight = true ∨ s.ready o = false)) ∧
      (d 4 false).inFlight = false ∧ s.ready (d 4 false) = true ∧
      (∀ e ∈ (sink .copying).sockets[1].ring, e.inFlight = true ∨ (sink .copying).ready e = false) := by decide

theorem test_hyps_RingsGainDescriptors :
    let d (g : Nat) (f : Bool) : Descriptor := { seg := g, src := .win 4, inFlight := f, owed := none }
    let ring (st : SocketState) (l : List Descriptor) := updSocket 1 (fun sk => { sk with st := st, ring := l }) (sink .copying)
    (ring .copying []).sockets[1].wants (.win 4) 4 = true ∧ (ring .repaying []).sockets[1].wants (.win 4) 4 = false ∧
      (owing .repaying 4 0 (sink .copying)).sockets[1].wants (.rslot 0) 4 = true ∧
      (ring .copying [d 3 false]).sockets[1].ring.length < 18 ∧ (ring .enrolled []).sockets[1].st = .enrolled ∧
      (ring .failed []).sockets[1].st = .failed ∧
      18 ≤ (ring .copying (List.replicate 18 (d 3 false))).sockets[1].ring.length ∧
      18 ≤ (overrun 1 (ring .copying (List.replicate 18 (d 3 true)))).sockets[1].ring.length ∧
      (overrun 1 (ring .copying (List.replicate 18 (d 3 false)))).sockets[1].ring.length < 18 := by decide

theorem test_hyps_RingsLoseDescriptors :
    let d (g : Nat) (f : Bool) : Descriptor := { seg := g, src := .win 4, inFlight := f, owed := none }
    let ring (st : SocketState) (l : List Descriptor) := updSocket 1 (fun sk => { sk with st := st, ring := l }) (sink .copying)
    let full := updSocket 1 (fun sk =>
      { sk with owed := List.replicate 32 { seg := 1, record := { origin := .revoked, attempts := 0 } } })
        (ring .copying [d 3 true, d 4 false])
    (ring .copying []).sockets[1].ring.length < 18 ∧
      (ring .copying (d 3 true :: List.replicate 17 (d 4 false))).sockets[1].ring =
        [d 3 true] ++ d 4 false :: List.replicate 16 (d 4 false) ∧
      (∀ o ∈ [d 3 true], o.inFlight = true) ∧ d 4 false ∉ [d 3 true] ∧ (ring .copying []).sockets[1].st ≠ .failed ∧
      (ring .copying []).sockets[1].owed.length < 32 ∧ 32 ≤ full.sockets[1].owed.length ∧
      full.sockets[1].ring = [d 3 true] ++ d 4 false :: [] ∧ (ring .failed []).sockets[1].st = .failed ∧
      ascending ((owing .copying 4 0 (sink .copying)).sockets[1].owed.map (·.seg)) ∧
      ((commanded .copying (.descriptor 4 (.win 4) false) 1 true (sink .copying)).sockets[1].cmd.map fun c =>
        (c.purpose, c.portReset)) = some (.descriptor 4 (.win 4) false, true) ∧
      ((commanded .copying (.descriptor 4 (.win 4) false) 1 false (sink .copying)).sockets[1].cmd.map (·.portReset)) =
        some false := by decide

theorem test_hyps_GoodWritesEndWrittenOrPoisoned :
    let s (v : Verdict) := updSocket 1 (fun sk =>
      { sk with st := .copying
                cmd := some { Command.first (.descriptor 4 (.win 4) false) with verdict := some v } }) (sink .copying)
    let good : Verdict := { clean := true, patched := 1 }
    let bad : Verdict := { clean := false, patched := 1 }
    ((s good).sockets[1].cmd.map fun c => (c.purpose, c.portReset)) = some (.descriptor 4 (.win 4) false, false) ∧
      ((s bad).sockets[1].cmd.bind (·.verdict)) = some bad ∧ (s good).sockets[1].exit = none ∧
      (s bad).sockets[1].st = .copying ∧ (s bad).sockets[1].owes 4 = false ∧ (s bad).isPatched 4 = false ∧
      (setPatches [entry1] (s bad)).isPatched 4 = true ∧ (s bad).verifyOn = true ∧ (s bad).expectRoom 1 4 = true ∧
      (updJob (fun j => { j with body := none }) (s bad)).verifyOn = false ∧ (s bad).sockets[1].owed.length < 32 ∧
      32 ≤ (updSocket 1 (fun sk =>
        { sk with owed := List.replicate 32 { seg := 1, record := { origin := .revoked, attempts := 0 } } })
          (s bad)).sockets[1].owed.length := by decide

theorem test_hyps_ReadAndWriteErrorsRetryThenFail_writes :
    let s (n : Nat) := commanded .preparing .blanking n false (sink .enrolling)
    let q (n : Nat) := commanded .copying (.descriptor 4 (.win 4) false) n false (sink .copying)
    ((s 3).sockets[1].cmd.map fun c => (c.purpose, c.attempt, c.portReset)) = some (.blanking, 3, false) ∧
      ((s 4).sockets[1].cmd.map (·.attempt)) = some 4 ∧ (s 4).sockets[1].exit = none ∧ (s 4).sockets[1].st ≠ .failed ∧
      ((q 4).sockets[1].cmd.map (·.purpose)) = some (.descriptor 4 (.win 4) false) ∧ (q 4).sockets[1].st ≠ .failed := by
  decide

theorem test_hyps_StallsResetThePort :
    let s (p : Purpose) (n : Nat) (r : Bool) := commanded .copying p n r (sink .copying)
    ((s (.verify 4) 3 false).sockets[1].cmd.map fun c => (c.purpose, c.attempt, c.stall.isSome)) =
        some (.verify 4, 3, true) ∧
      ((s (.verify 4) 4 false).sockets[1].cmd.map (·.attempt)) = some 4 ∧
      ((s (.descriptor 4 (.win 4) false) 1 true).sockets[1].cmd.map (·.portReset)) = some true ∧
      (s (.verify 4) 4 false).sockets[1].exit = none ∧ (s (.verify 4) 4 false).sockets[1].st ≠ .failed := by decide

theorem test_hyps_StallsResetThePort_fourth :
    let s (st : SocketState) (p : Purpose) (n : Nat) (x : State) := commanded st p n false x
    let blank := s .preparing .blanking 4 (sink .enrolling)
    let read := s .master (.master 4 (.win 4)) 4 (source .copying)
    let plain := s .ready (.master 4 (.win 4)) 4 up
    let attach (p : Purpose) := s .attaching p 1 up
    (blank.sockets[1].cmd.map fun c => (c.purpose, c.attempt, c.portReset, c.stall.isSome)) =
        some (.blanking, 4, false, true) ∧ blank.sockets[1].exit = none ∧ blank.sockets[1].st ≠ .failed ∧
      (read.sockets[1].cmd.map (·.purpose)) = some (.master 4 (.win 4)) ∧ read.job.source = true ∧
      read.job.st.sourced = true ∧ read.job.number = some 7 ∧ plain.job.source = false ∧
      (∀ p ∈ [Purpose.identify, .capacity, .protectStatus],
        ((attach p).sockets[1].cmd.map fun c => (c.purpose, c.stall.isSome)) = some (p, true)) ∧
      (attach .identify).sockets[1].exit = none := by decide

theorem test_hyps_ExitTargetsAreTaken :
    let exiting (p : Purpose) (r : Bool) := updSocket 1 (fun sk => { sk with exit := some .ready }) (commanded .copying p 1 r up)
    let detached := commanded .empty (.descriptor 4 (.win 4) true) 1 false up
    up.job.st = .idle ∧ (sink .closing).job.st = .closing ∧ (sink .enrolling).job.st = .enrolling ∧
      (exiting .blanking true).sockets[1].exit.isSome ∧
      ((exiting .blanking true).sockets[1].cmd.map fun c => (c.purpose, c.portReset)) = some (.blanking, true) ∧
      ((exiting (.verify 4) false).sockets[1].cmd.map fun c => (c.purpose, c.portReset, c.stall.isSome)) =
        some (.verify 4, false, true) ∧
      ((exiting (.master 4 (.win 4)) false).sockets[1].cmd.map (·.purpose)) = some (.master 4 (.win 4)) ∧
      (detached.sockets[1].cmd.map (·.purpose)) = some (.descriptor 4 (.win 4) true) ∧ detached.sockets[1].exit = none ∧
      up.sockets[1].cmd = none := by decide

theorem test_hyps_LastByteIsJudged :
    let cmd (r : Word32) : Command := { Command.first (.descriptor 4 (.win 4) false) with reference := r }
    let s (r : Word32) := updSocket 1 (fun sk => { sk with st := .copying, cmd := some (cmd r) })
      (slotIn (.win 4) .whole 4 (sink .copying))
    (∀ r, (s r).sockets[1].cmd = some (cmd r) ∧ (cmd r).verdict = none ∧ (cmd r).portReset = false ∧
      ((s r).slot (.win 4)).st = .whole ∧ ((s r).slot (.win 4)).seg = some 4) ∧
      ∀ w : Word32, w = (cmd w).reference ∧ w ≠ (cmd (~~~ w)).reference :=
  ⟨fun _ => ⟨rfl, rfl, rfl, rfl, rfl⟩, fun w => ⟨rfl, check_ne_not w⟩⟩

theorem test_hyps_LastByteIsJudged_states :
    let written (sl : SlotId) (st : SlotState) := slotIn sl st 4 (sink .copying)
    ((written (.win 4) .retired).slot (.win 4)).st = .retired ∧ ((written (.rslot 1) .whole).slot (.rslot 1)).st = .whole ∧
      (some { clean := true, patched := 0 } : Option Verdict).isSome := by decide

/-- The transmitter holds a parcel of the answer for segment 4, with the bytes of its slot. -/
theorem test_hyps_LastByteIsJudged_held :
    let s := after .transmitterTake
      (updPort (fun p => { p with class5 := [4] }) (slotIn (.win 4) .whole 4 (answering true (sink .copying))))
    storageOk s ∧ ∃ h phase b, s.port.tx = .holding h phase ∧ h.source = some (.win 4, b) ∧ b.seg.toNat = 4 ∧
      b.payload = (s.slot (.win 4)).payload b.parcel ∧ ¬ (SlotId.win 4 = .win 5 ∧ b.seg.toNat = 4) :=
  ⟨storage_of_empty _ (by decide) (by decide) (by decide) (by decide), _, _, _, rfl, rfl, by decide, rfl, by decide⟩

theorem test_hyps_AttachSequence :
    let s (p : Purpose) (t : State) := commanded .attaching p 1 false t
    let timed := updSocket 1 fun sk => { sk with attachTimer := some 1, capacity := some 1280 }
    up.sockets[1].st = .empty ∧ (s .identify up).sockets[1].st ≠ .empty ∧
      (timed (s .identify up)).sockets[1].attachTimer.isSome ∧
      ((s .capacity up).sockets[1].cmd.map fun c => (c.purpose, c.portReset)) = some (.capacity, false) ∧
      ((s .protectStatus up).sockets[1].cmd.map (·.purpose)) = some .protectStatus ∧ up.job.st = .idle ∧
      (s .protectStatus (sink .copying)).job.st = .copying ∧
      (timed (s .protectStatus (sink .enrolling))).imageSize * 64 ≤
        (timed (s .protectStatus (sink .enrolling))).sockets[1].capacity.getD 0 ∧
      (s .protectStatus (sink .enrolling)).sockets[1].capacity.getD 0 <
        (s .protectStatus (sink .enrolling)).imageSize * 64 := by decide

theorem test_hyps_RemovalEmptiesTheSocket :
    (owing .copying 4 0 (sink .copying)).sockets[1].st ≠ .empty ∧ (owing .copying 4 0 (sink .copying)).sockets[1].st ≠ .master ∧
      (source .copying).sockets[2].st = .master ∧ (source .copying).job.source = true ∧
      (source .copying).job.st.sourced = true ∧ (source .copying).job.number = some 7 := by decide

theorem test_hyps_LowMarkIsTheSmallest :
    let s := updSocket 1 (fun sk => { sk with tie := .tied, written := [0] }) (owing .copying 1 0 (sink .copying))
    s.lowMark = some 2 ∧ up.lowMark = none ∧ s.sockets[1].firstUnwritten 20 = 2 ∧ s.sockets[1].firstUnwritten 2 = 2 := by
  decide

theorem test_hyps_VerifyReadIsJudged :
    let s (n i : Nat) (l : List Nat) (poisoned : Bool) (t : State) := updSocket 1 (fun sk =>
      { sk with passList := l, cursor := some i, passCount := n
                expect := [{ seg := 4, check := 0, poisoned := poisoned }] }) t
    let c := commanded .verifying (.verify 4) 1 false (sink .closing)
    let o := commanded .verifying (.verify 4) 1 false (owing .verifying 1 0 (sink .closing))
    ((s 1 0 [4, 5] true c).sockets[1].cmd.map fun x => (x.purpose, x.portReset)) = some (.verify 4, false) ∧
      (s 1 0 [4, 5] true c).sockets[1].exit = none ∧ (s 1 0 [4, 5] true c).sockets[1].st = .verifying ∧
      (s 1 0 [4, 5] true c).sockets[1].cursor = some 0 ∧ (s 1 0 [4, 5] true c).sockets[1].owed = [] ∧
      ((s 1 0 [4, 5] true c).sockets[1].expected 4).map (·.poisoned) = some true ∧
      (s 1 0 [4, 5] true c).sockets[1].passList[0 + 1]? = some 5 ∧
      (s 1 1 [4, 5] true c).sockets[1].passList[1 + 1]? = none ∧ (s 2 1 [4, 5] true o).sockets[1].owed ≠ [] ∧
      (s 2 1 [4, 5] true o).sockets[1].owed.length < 32 ∧ (s 2 1 [4, 5] true o).sockets[1].owes 4 = false ∧
      (s 2 1 [4, 5] true o).sockets[1].ring = [] ∧ (s 2 1 [4, 5] true o).sockets[1].passCount < 3 ∧
      3 ≤ (s 3 1 [4, 5] true o).sockets[1].passCount := by decide

theorem test_hyps_VerifyReadIsJudged_match :
    (List.replicate 32768 (0 : Byte)).length = 32768 ∧
      ∀ data : List Byte, ∃ e : ExpectEntry, e.seg = 4 ∧ e.poisoned = false ∧ check data = e.check :=
  ⟨List.length_replicate, fun data => ⟨{ seg := 4, check := check data, poisoned := false }, rfl, rfl, rfl⟩⟩

theorem test_hyps_VerifyReadIsJudged_capacity :
    capacityOk (commanded .verifying (.verify 4) 1 false (owing .verifying 1 0 (sink .closing))) := by
  unfold capacityOk; decide

theorem test_hyps_SocketsMoveOn :
    let s (st : SocketState) (n : Nat) (l : List Nat) := updSocket 1 (fun sk =>
      { sk with st := st, passCount := n, recheck := l }) (updWin (fun w => { w with base := 20 }) (sink .closing))
    let plain := updJob fun j => { j with body := some { body 5 0 with verify := 0 } }
    let o := owing .copying 4 0 (s .copying 0 [])
    (s .copying 0 []).job.st.working = true ∧ (s .copying 0 []).win.base = (s .copying 0 []).imageSize ∧
      (s .copying 0 []).sockets[1].ring = [] ∧ (s .copying 0 []).sockets[1].cmd = none ∧
      (s .copying 0 []).sockets[1].exit = none ∧ (s .copying 0 []).sockets[1].owed = [] ∧ o.sockets[1].owed ≠ [] ∧
      (s .copying 0 []).verifyOn = true ∧ (plain (s .copying 0 [])).verifyOn = false ∧
      (List.range (s .copying 0 []).imageSize).head? = some 0 ∧ (s .repaying 1 []).sockets[1].passCount ≠ 0 ∧
      (s .repaying 1 []).sockets[1].recheck = [] ∧ (sink .copying).sockets[1].st = .empty ∧
      (slotIn (.win 4) .retired 4 o).offering 4 = some (.win 4) ∧ o.offering 4 = none := by decide

theorem test_hyps_SocketsMoveOn_capacity :
    capacityOk (owing .copying 4 0 (updWin (fun w => { w with base := 20 }) (sink .closing))) := by
  unfold capacityOk; decide

theorem test_hyps_RecallRequestsArePlacedAndExpire :
    let s := updWin (fun w => { w with base := 5 }) (owing .copying 4 4 (sink .copying))
    let w := updRv (fun r => { r with request := .waiting, listed := [4] }) s
    s.rv.request = .idle ∧ s.requestOpen = true ∧ s.candidates = [4] ∧ (sink .copying).requestOpen = false ∧
      w.rv.request = .waiting ∧ w.unreachable 1 = true ∧ w.unreachable 0 = false ∧ w.job.st ≠ .orphaned := by decide

theorem test_hyps_RecallRequestsArePlacedAndExpire_withdrawn :
    let queued := updRv fun r => { r with request := .queued }
    (queued (sink .copying)).rv.request = .queued ∧ (queued (sink .copying)).requestOpen = false ∧
      up.rv.request ≠ .queued := by decide

theorem test_hyps_RecallFramesAreTaken :
    (sink .orphaned).job.source = false ∧ (sink .orphaned).ident.mode = .active ∧ (sink .orphaned).job.st = .orphaned ∧
      (sink .orphaned).job.number = some 7 ∧ (sink .orphaned).rv.heard.length + [(4 : Word32)].length ≤ 32 ∧
      (source .closing).job.source = true ∧ (source .closing).job.st = .closing ∧ (source .closing).job.number = some 7 ∧
      up.job.number ≠ some 7 := by decide

theorem test_hyps_RecallFramesAreTaken_own :
    let s := updWin (fun w => { w with base := 5 }) (owing .copying 4 0 (source .closing))
    s.job.source = true ∧ s.job.st = .closing ∧ s.owedByWriters = [4] ∧ 4 < s.win.base ∧
      (s.rv.queue.length + s.owedByWriters.length ≤ 32) ∧ (∀ r : Fin 2, (s.slot (.rslot r)).seg ≠ some 4) ∧
      (ownRequests s).rv.queue = [4] := by decide

theorem test_hyps_MonitorTables :
    let m (cond latched : Bool) (d : Nat) : Monitor :=
      { running := true, level := 4, threshold := 4, duration := d, latched := latched, run := 0, cond := cond }
    (m false false 0).running = true ∧ 3 < (m false false 0).threshold ∧ (m false false 0).threshold ≤ 4 ∧
      (m false false 0).cond = false ∧ (m true true 1).cond = true ∧ (m true true 1).latched = true ∧
      (m true false 1).latched = false ∧ 1 ≤ (m false false 1).duration ∧
      (m false false 1).threshold ≤ (m false false 1).level ∧ Monitor.idle.running = false := by decide

theorem test_hyps_HoldOutputFollowsTheDemand :
    let s := owing .preparing 1 0 (sink .enrolling)
    let a := updPacing (fun p => { p with hold := .asserted, holdTimer := some 1 }) s
    s.holdDemand = true ∧ s.pacing.hold = .released ∧ a.holdDemand = true ∧ a.pacing.hold ≠ .released ∧
      up.holdDemand = false ∧ a.pacing.holdTimer.isSome := by decide

theorem test_hyps_LampAndCodeTables :
    testing.ident.memTest = true ∧ muted.ident.memTest = false ∧ muted.ident.mode = .mute ∧ up.ident.memTest = false ∧
      up.ident.mode ≠ .mute := by decide

theorem test_hyps_PatchStringsAndPlans :
    (0 : Nat) < 256 ∧ (255 : Nat) < 256 ∧ entry1.kind = 3 ∧
      [entry1].Pairwise (fun p q => p.number.toNat < q.number.toNat) ∧ entry1.seg.toNat = 4 ∧
      entry1.offset.toNat ≤ 107 ∧ 107 < entry1.offset.toNat + (patchString 0 0 entry1).length ∧
      [((0 : Nat), (1 : Byte)), (3, 2)].Pairwise (fun a b => a.1 < b.1) := by decide

theorem test_hyps_StepKeepsTheModeRules :
    (∃ t, step up = .next t) ∧ (∃ t, step muted = .next t) ∧ beaconOk up ∧ beaconOk muted ∧ withdrawn up ∧ withdrawn muted ∧
      formerOk up ∧ formerOk (updJob (fun j => { j with former := some .closing }) (sink .orphaned)) :=
  ⟨⟨_, rfl⟩, ⟨_, rfl⟩, by unfold beaconOk; decide, by unfold beaconOk; decide, by unfold withdrawn; decide,
    by unfold withdrawn; decide, by unfold formerOk; decide, by unfold formerOk; decide⟩

theorem test_hyps_StepKeepsStorageInOrder : (∃ t, step up = .next t) ∧ storageOk up ∧ capacityOk up ∧ listsOk up := by
  refine ⟨⟨_, rfl⟩, storage_of_empty _ (by decide) (by decide) (by decide) (by decide), by unfold capacityOk; decide, ?_⟩
  exact SocketsOk.lists (fun k => by
    rw [show up.sockets[k] = Socket.reset [] by revert k; decide]
    exact SocketOk.reset [] .nil) (by decide)

/-- A REPAYING socket that has segments to check again, one owed, one in its ring and one expected. -/
def repayingSocket : Socket :=
  { Socket.reset [] with
    st := .repaying, recheck := [3, 4], owed := [{ seg := 5, record := { origin := .revoked, attempts := 0 } }],
    ring := [{ seg := 6, src := .win 6, inFlight := false, owed := none }],
    expect := [{ seg := 4, check := 5, poisoned := false }] }

theorem test_hyps_StepKeepsStorageInOrder_repaying : recheckOk repayingSocket := by
  refine ⟨?_, ?_, ?_, fun _ => ⟨[3, 4, 5, 6], by decide, ?_⟩⟩
  · intro h
    revert h
    decide
  · intro c h
    have h : (none : Option Command) = some c := h
    cases h
  · intro h
    have h : SocketState.repaying = .verifying := h
    cases h
  · rintro g (h | h | ⟨x, h, rfl⟩ | ⟨_, h, _⟩)
    · have h : g ∈ [3, 4] := h
      simp only [List.mem_cons, List.not_mem_nil, or_false] at h ⊢
      tauto
    · have h : ((5 == g) || false) = true := h
      rw [← eq_of_beq ((Bool.or_false _).symm.trans h)]
      decide
    · have h : x ∈ [({ seg := 6, src := .win 6, inFlight := false, owed := none } : Descriptor)] := h
      rw [List.mem_singleton.1 h]
      decide
    · have h : (none : Option Command) = _ := h
      cases h

theorem test_hyps_StepKeepsNeedsInTheWindow :
    (∃ t, step up = .next t) ∧ needsOk up ∧ needsOk (needing .waitingDelay 0 (sink .copying)) :=
  ⟨⟨_, rfl⟩, by unfold needsOk; decide, by unfold needsOk; decide⟩

theorem test_hyps_StepKeepsHoldWithTheDemand :
    (∃ t, step up = .next t) ∧ monitorOk up ∧ holdOk up ∧ monitorOk (sink .copying) ∧ holdOk (sink .copying) :=
  ⟨⟨_, rfl⟩, by unfold monitorOk; decide, by unfold holdOk; decide, by unfold monitorOk; decide, by unfold holdOk; decide⟩

theorem test_hyps_BaseNeverDecreasesInAJob :
    ∃ t, step (sink .copying) = .next t ∧ (sink .copying).job.st.working = true ∧ t.job.st.working = true :=
  ⟨_, rfl, by decide, by decide⟩

end Sys2Proof.Tests
end

section
/-! SUPPORT. The first unwritten index of a socket, its contribution and the station's low mark
(spec/06_socket_write_rings.md, R119, R120). -/
namespace Sys2Proof.Machine

/-! ### The first unwritten index (R119) -/

/-- A segment that the socket has not marked written and does not owe bounds its first unwritten index. -/
def Socket.missing (sk : Socket) (i : Nat) : Prop := i ∉ sk.written ∧ sk.owes i = false

theorem Socket.not_missing_iff {sk : Socket} {i : Nat} : ¬ sk.missing i ↔ i ∈ sk.written ∨ sk.owes i = true := by
  rw [missing, not_and_or, not_not, Bool.not_eq_false]

/-- Either the search finds a missing segment below `n` and none before it, or there is none and the index is `n`. -/
theorem Socket.firstUnwritten_cases (sk : Socket) (n : Nat) :
    (sk.firstUnwritten n < n ∧ sk.missing (sk.firstUnwritten n) ∧ ∀ i < sk.firstUnwritten n, ¬ sk.missing i) ∨
      (sk.firstUnwritten n = n ∧ ∀ i < n, ¬ sk.missing i) := by
  unfold firstUnwritten
  cases found : (List.range n).find? fun i => !sk.written.contains i && !sk.owes i with
  | some j =>
    obtain ⟨test, below, before⟩ := List.find?_range_eq_some.1 found
    exact .inl ⟨by simpa using below, by simpa [missing] using test,
      fun i hi => not_missing_iff.2 (by simpa using before i hi)⟩
  | none => exact .inr ⟨rfl, by simpa [missing] using found⟩

theorem Socket.firstUnwritten_le (sk : Socket) (n : Nat) : sk.firstUnwritten n ≤ n := by
  obtain ⟨below, -, -⟩ | ⟨eq, -⟩ := sk.firstUnwritten_cases n
  · exact below.le
  · exact eq.le

theorem Socket.not_missing_of_lt_firstUnwritten {sk : Socket} {n i : Nat} (h : i < sk.firstUnwritten n) :
    ¬ sk.missing i := by
  obtain ⟨-, -, before⟩ | ⟨eq, all⟩ := sk.firstUnwritten_cases n
  · exact before i h
  · exact all i (eq ▸ h)

theorem Socket.missing_firstUnwritten {sk : Socket} {n : Nat} (h : sk.firstUnwritten n < n) :
    sk.missing (sk.firstUnwritten n) := by
  obtain ⟨-, found, -⟩ | ⟨eq, -⟩ := sk.firstUnwritten_cases n
  · exact found
  · exact absurd eq h.ne

/-! ### The low mark (R120) -/

theorem SocketState.enrolledOrCopying_iff (st : SocketState) :
    st.enrolledOrCopying = true ↔ st = .enrolled ∨ st = .copying := by
  cases st <;> simp [enrolledOrCopying]

/-- The socket takes part in the low mark: TIED, in ENROLLED or COPYING. -/
def State.contributes (s : State) (k : Fin 8) : Prop :=
  s.sockets[k].tie = .tied ∧ (s.sockets[k].st = .enrolled ∨ s.sockets[k].st = .copying)

/-- What a contributing socket gives: its first unwritten index, the base where that is larger. -/
def State.mark (s : State) (k : Fin 8) : Nat := max (s.sockets[k].firstUnwritten s.imageSize) s.win.base

theorem State.contribution_eq_some_iff {s : State} {k : Fin 8} {m : Nat} :
    s.contribution k = some m ↔ s.contributes k ∧ s.mark k = m := by
  simp only [contribution, contributes, mark, SocketState.enrolledOrCopying_iff, Option.ite_none_right_eq_some,
    Option.some.injEq]

theorem State.mem_contributions {s : State} {m : Nat} :
    m ∈ allSockets.filterMap s.contribution ↔ ∃ k, s.contributes k ∧ s.mark k = m := by
  have all : ∀ k : Fin 8, k ∈ allSockets := by decide
  simp only [List.mem_filterMap, all, true_and, contribution_eq_some_iff]

theorem State.lowMark_eq_none_iff {s : State} : s.lowMark = none ↔ ∀ k, ¬ s.contributes k := by
  rw [lowMark, List.min?_eq_none_iff, List.eq_nil_iff_forall_not_mem]
  simp only [mem_contributions, not_exists, not_and]
  exact ⟨fun h k hk => h _ k hk rfl, fun h _ k hk => absurd hk (h k)⟩

theorem State.lowMark_eq_some_iff {s : State} {m : Nat} :
    s.lowMark = some m ↔ (∃ k, s.contributes k ∧ s.mark k = m) ∧ ∀ k, s.contributes k → m ≤ s.mark k := by
  rw [lowMark, List.min?_eq_some_iff, mem_contributions]
  refine and_congr_right fun _ => ⟨fun h k hk => h _ (mem_contributions.2 ⟨k, hk, rfl⟩), fun h b hb => ?_⟩
  obtain ⟨k, hk, rfl⟩ := mem_contributions.1 hb
  exact h k hk

theorem State.base_le_mark (s : State) (k : Fin 8) : s.win.base ≤ s.mark k := Nat.le_max_right _ _

/-- Settles O46: the search of R119 by its two outcomes, and the minimum of R120 by membership in the list of
contributions. -/
theorem lowMarkIsTheSmallest : Obligations.LowMarkIsTheSmallest := by
  unfold Obligations.LowMarkIsTheSmallest
  refine ⟨fun sk n => ⟨sk.firstUnwritten_le n, fun i hi => ?_, Socket.missing_firstUnwritten⟩,
    fun s => ⟨State.lowMark_eq_none_iff, fun m hm => ?_⟩⟩
  · exact Socket.not_missing_iff.1 (Socket.not_missing_of_lt_firstUnwritten hi)
  · obtain ⟨⟨k, hk, eq⟩, least⟩ := State.lowMark_eq_some_iff.1 hm
    exact ⟨eq ▸ s.base_le_mark k, ⟨k, hk, eq⟩, least⟩

end Sys2Proof.Machine
end

section
/-! SUPPORT. The byte strings of patch entries, the patch plan of a segment and the stream it patches
(spec/09_personalization.md, R160 to R162). A plan is read through `List.lookup`: each operation has one equation that says
what byte it leaves at a position. -/
namespace Sys2Proof.Machine

/-! ### The digits (R160) -/

theorem decDigit_toNat (n : Nat) : (decDigit n).toNat = 48 + n % 10 := by
  rw [decDigit, BitVec.toNat_ofNat]
  omega

theorem hexDigit_toNat (n : Nat) : (hexDigit n).toNat = if n % 16 < 10 then 48 + n % 16 else 55 + n % 16 := by
  rw [hexDigit, BitVec.toNat_ofNat]
  split <;> omega

theorem mod_eq_of_hexDigit_eq {m n : Nat} (h : hexDigit m = hexDigit n) : m % 16 = n % 16 := by
  have eq := congrArg BitVec.toNat h
  rw [hexDigit_toNat, hexDigit_toNat] at eq
  split at eq <;> split at eq <;> omega

/-- A number below `16 ^ k` is given by its `k` hexadecimal digits. -/
theorem eq_of_hex_digits_eq (k : Nat) : ∀ {a b : Nat}, a < 16 ^ k → b < 16 ^ k →
    (∀ i < k, a / 16 ^ i % 16 = b / 16 ^ i % 16) → a = b := by
  induction k with
  | zero =>
    intro a b ha hb _
    rw [pow_zero] at ha hb
    omega
  | succ k ih =>
    intro a b ha hb digits
    have high : a / 16 = b / 16 := by
      rw [pow_succ'] at ha hb
      refine ih (Nat.div_lt_of_lt_mul ha) (Nat.div_lt_of_lt_mul hb) fun i hi => ?_
      rw [Nat.div_div_eq_div_mul, Nat.div_div_eq_div_mul, ← pow_succ']
      exact digits (i + 1) (Nat.succ_lt_succ hi)
    have low := digits 0 k.succ_pos
    rw [pow_zero, Nat.div_one, Nat.div_one] at low
    omega

/-! ### The byte strings (R160) -/

/-- The number a SERIAL entry writes: the serial base plus the global socket number, reduced. -/
def serialOf (base : Word32) (g : Nat) : Nat := (base.toNat + g) % 4294967296

theorem patchString_bytes {p : PatchEntry} (h : p.kind = 1) (base : Word32) (g : Nat) :
    patchString base g p = p.value.take p.len.toNat := if_pos h

theorem patchString_socket {p : PatchEntry} (h : p.kind = 2) (base : Word32) (g : Nat) :
    patchString base g p = [decDigit (g / 100), decDigit (g / 10), decDigit g] := by
  simp [patchString, h]

theorem patchString_serial {p : PatchEntry} (h : p.kind = 3) (base : Word32) (g : Nat) :
    patchString base g p = (List.range 8).map fun i => hexDigit (serialOf base g / 16 ^ (7 - i)) := by
  have sum : (base + BitVec.ofNat 32 g).toNat = serialOf base g := by
    rw [BitVec.toNat_add, BitVec.toNat_ofNat, Nat.add_mod_mod]
    rfl
  simp [patchString, h, sum, List.range_succ]

theorem patchString_socket_toNat {p : PatchEntry} (h : p.kind = 2) (base : Word32) {g : Nat} (hg : g < 256) :
    (patchString base g p).map BitVec.toNat = [48 + g / 100, 48 + g / 10 % 10, 48 + g % 10] := by
  have hundreds : g / 100 % 10 = g / 100 := by omega
  simp only [patchString_socket h, List.map_cons, List.map_nil, decDigit_toNat, hundreds]

theorem patchString_serial_toNat {p : PatchEntry} (h : p.kind = 3) (base : Word32) (g : Nat) {i : Nat} (hi : i < 8) :
    ((patchString base g p).getD i 0).toNat =
      let d := serialOf base g / 16 ^ (7 - i) % 16
      if d < 10 then 48 + d else 55 + d := by
  rw [patchString_serial h, List.getD_eq_getElem _ _ (by simpa using hi), List.getElem_map, List.getElem_range,
    hexDigit_toNat]

/-- No two sockets of a tower have the same SOCKET string. -/
theorem patchString_socket_inj {p : PatchEntry} (hp : p.kind = 2) {base : Word32} {g h : Nat} (hg : g < 256) (hh : h < 256)
    (eq : patchString base g p = patchString base h p) : g = h := by
  have digits := congrArg (List.map BitVec.toNat) eq
  rw [patchString_socket_toNat hp base hg, patchString_socket_toNat hp base hh] at digits
  simp only [List.cons.injEq, and_true] at digits
  omega

/-- Nor the same SERIAL string: the eight digits give the sum, and the base is the same. -/
theorem patchString_serial_inj {p : PatchEntry} (hp : p.kind = 3) {base : Word32} {g h : Nat} (hg : g < 256) (hh : h < 256)
    (eq : patchString base g p = patchString base h p) : g = h := by
  rw [patchString_serial hp, patchString_serial hp, List.map_inj_left] at eq
  have sums : serialOf base g = serialOf base h := by
    refine eq_of_hex_digits_eq 8 (Nat.mod_lt _ (by decide)) (Nat.mod_lt _ (by decide)) fun i hi => ?_
    have digit := mod_eq_of_hexDigit_eq (eq (7 - i) (List.mem_range.2 (by omega)))
    rwa [Nat.sub_sub_self (Nat.le_of_lt_succ hi)] at digit
  unfold serialOf at sums
  omega

/-! ### Plans (R161) -/

/-- The positions of a plan rise. -/
def Rising (plan : List (Nat × Byte)) : Prop := plan.Pairwise fun a b => a.1 < b.1

theorem lookup_cons_ite (x : Nat) (c : Nat × Byte) (cs : List (Nat × Byte)) :
    (c :: cs).lookup x = if x = c.1 then some c.2 else cs.lookup x := by
  rw [show c :: cs = (c.1, c.2) :: cs from rfl, List.lookup_cons]
  split
  · next eq => rw [if_pos (beq_iff_eq.1 eq)]
  · next ne => rw [if_neg (beq_eq_false_iff_ne.1 ne)]

theorem lookup_eq_none_of_lt {x : Nat} {plan : List (Nat × Byte)} (h : ∀ c ∈ plan, x < c.1) : plan.lookup x = none :=
  List.lookup_eq_none_iff.2 fun c hc => bne_iff_ne.2 (h c hc).ne

/-- In a rising plan a position has one byte at most: the one that a search for the position finds. -/
theorem Rising.lookup_eq_some_iff {plan : List (Nat × Byte)} (rise : Rising plan) {x : Nat} {b : Byte} :
    plan.lookup x = some b ↔ (x, b) ∈ plan := by
  induction plan with
  | nil => simp
  | cons c cs ih =>
    obtain ⟨above, rise⟩ := List.pairwise_cons.1 rise
    rw [lookup_cons_ite, List.mem_cons]
    split
    · next eq =>
      subst eq
      have absent : (c.1, b) ∉ cs := fun hm => absurd (above _ hm) (lt_irrefl _)
      simp only [absent, or_false, Option.some.injEq, Prod.ext_iff, true_and, eq_comm]
    · next ne => simp only [ih rise, Prod.ext_iff, ne, false_and, false_or]

theorem mem_planInsert {pos : Nat} {b : Byte} {plan : List (Nat × Byte)} {c : Nat × Byte}
    (h : c ∈ planInsert pos b plan) : c = (pos, b) ∨ c ∈ plan := by
  induction plan with
  | nil => exact .inl (List.mem_singleton.1 h)
  | cons d ds ih =>
    unfold planInsert at h
    split at h
    · exact List.mem_cons.1 h
    · split at h
      · exact .inr h
      · obtain rfl | h := List.mem_cons.1 h
        · exact .inr List.mem_cons_self
        · exact (ih h).imp_right (List.mem_cons_of_mem _)

theorem Rising.planInsert {plan : List (Nat × Byte)} (rise : Rising plan) (pos : Nat) (b : Byte) :
    Rising (planInsert pos b plan) := by
  induction plan with
  | nil => exact List.pairwise_singleton _ _
  | cons d ds ih =>
    obtain ⟨above, rise'⟩ := List.pairwise_cons.1 rise
    unfold Machine.planInsert
    split
    · next before =>
      exact rise.cons fun c hc => (List.mem_cons.1 hc).elim (· ▸ before) fun hc => before.trans (above c hc)
    · next notBefore =>
      split
      · exact rise
      · next ne =>
        refine (ih rise').cons fun c hc => ?_
        obtain rfl | hc := mem_planInsert hc
        · exact Nat.lt_of_le_of_ne (Nat.le_of_not_lt notBefore) (Ne.symm ne)
        · exact above c hc

/-- An insertion gives its byte to its position, unless the plan has one there. -/
theorem Rising.lookup_planInsert {plan : List (Nat × Byte)} (rise : Rising plan) (pos : Nat) (b : Byte) (x : Nat) :
    (Machine.planInsert pos b plan).lookup x = (plan.lookup x).or (if x = pos then some b else none) := by
  induction plan with
  | nil => rw [Machine.planInsert, lookup_cons_ite, List.lookup_nil, Option.none_or]
  | cons c cs ih =>
    obtain ⟨above, rise'⟩ := List.pairwise_cons.1 rise
    unfold Machine.planInsert
    split
    · next before =>
      rw [lookup_cons_ite]
      split
      · next eq =>
        have free : (c :: cs).lookup x = none := lookup_eq_none_of_lt fun d hd =>
          eq ▸ (List.mem_cons.1 hd).elim (· ▸ before) fun hd => before.trans (above d hd)
        rw [free, Option.none_or]
      · rw [Option.or_none]
    · split
      · next eq => by_cases h : x = c.1 <;> simp [lookup_cons_ite, h, eq]
      · rw [lookup_cons_ite, lookup_cons_ite, ih rise']
        split <;> rfl

theorem Rising.planString {plan : List (Nat × Byte)} (rise : Rising plan) (pos : Nat) (bs : List Byte) :
    Rising (planString pos bs plan) := by
  induction bs generalizing pos plan with
  | nil => exact rise
  | cons b bs ih => exact ih (rise.planInsert pos b) (pos + 1)

/-- The byte of a string laid down from `pos` on that falls on `x`. -/
def byteFrom (pos : Nat) (bs : List Byte) (x : Nat) : Option Byte := if pos ≤ x then bs[x - pos]? else none

theorem byteFrom_cons (pos : Nat) (b : Byte) (bs : List Byte) (x : Nat) :
    byteFrom pos (b :: bs) x = (if x = pos then some b else none).or (byteFrom (pos + 1) bs x) := by
  unfold byteFrom
  obtain before | rfl | after := Nat.lt_trichotomy x pos
  · simp [before.ne, Nat.not_le.2 before, Nat.not_le.2 (before.trans pos.lt_succ_self)]
  · simp
  · obtain ⟨k, rfl⟩ := Nat.exists_eq_add_of_lt after
    have shift : pos + k + 1 - pos = k + 1 := by omega
    have shift' : pos + k + 1 - (pos + 1) = k := by omega
    simp [after.ne', after.le, Nat.succ_le_of_lt after, shift, shift']

/-- A string fills the positions that the plan leaves free. -/
theorem Rising.lookup_planString {plan : List (Nat × Byte)} (rise : Rising plan) (pos : Nat) (bs : List Byte) (x : Nat) :
    (Machine.planString pos bs plan).lookup x = (plan.lookup x).or (byteFrom pos bs x) := by
  induction bs generalizing pos plan with
  | nil => simp [Machine.planString, byteFrom]
  | cons b bs ih =>
    rw [Machine.planString, ih (rise.planInsert pos b), rise.lookup_planInsert, byteFrom_cons, Option.or_assoc]

/-! ### The plan of a segment (R161) -/

section Segment
variable (base : Word32) (g seg : Nat)

/-- What an entry has for a position of the segment. -/
def entryByte (x : Nat) (p : PatchEntry) : Option Byte :=
  if p.seg.toNat = seg then byteFrom p.offset.toNat (patchString base g p) x else none

/-- The entry covers the position. -/
def Covers (p : PatchEntry) (x : Nat) : Prop :=
  p.seg.toNat = seg ∧ p.offset.toNat ≤ x ∧ x < p.offset.toNat + (patchString base g p).length

/-- Put the strings of the segment's entries into a plan, in the order of the list. -/
def planEntries (patches : List PatchEntry) (plan : List (Nat × Byte)) : List (Nat × Byte) :=
  (patches.filter fun p => p.seg.toNat == seg).foldl
    (fun plan p => planString p.offset.toNat (patchString base g p) plan) plan

variable {base g seg}

theorem patchPlan_eq (patches : List PatchEntry) : patchPlan patches base g seg = planEntries base g seg patches [] := rfl

theorem planEntries_cons_of_seg {p : PatchEntry} (h : p.seg.toNat = seg) (l : List PatchEntry) (plan : List (Nat × Byte)) :
    planEntries base g seg (p :: l) plan =
      planEntries base g seg l (planString p.offset.toNat (patchString base g p) plan) := by
  simp [planEntries, h]

theorem planEntries_cons_of_ne {p : PatchEntry} (h : p.seg.toNat ≠ seg) (l : List PatchEntry) (plan : List (Nat × Byte)) :
    planEntries base g seg (p :: l) plan = planEntries base g seg l plan := by
  simp [planEntries, h]

theorem Rising.planEntries {plan : List (Nat × Byte)} (rise : Rising plan) (patches : List PatchEntry) :
    Rising (planEntries base g seg patches plan) := by
  induction patches generalizing plan with
  | nil => exact rise
  | cons p l ih =>
    by_cases h : p.seg.toNat = seg
    · rw [planEntries_cons_of_seg h]
      exact ih (rise.planString _ _)
    · rw [planEntries_cons_of_ne h]
      exact ih rise

/-- A free position takes the byte of the first entry of the list that has one for it. -/
theorem Rising.lookup_planEntries {plan : List (Nat × Byte)} (rise : Rising plan) (patches : List PatchEntry) (x : Nat) :
    (Machine.planEntries base g seg patches plan).lookup x =
      (plan.lookup x).or (patches.findSome? (entryByte base g seg x)) := by
  induction patches generalizing plan with
  | nil => simp [Machine.planEntries]
  | cons p l ih =>
    rw [List.findSome?_cons]
    by_cases h : p.seg.toNat = seg
    · rw [planEntries_cons_of_seg h, ih (rise.planString _ _), rise.lookup_planString, Option.or_assoc, entryByte, if_pos h]
      cases byteFrom p.offset.toNat (patchString base g p) x <;> rfl
    · rw [planEntries_cons_of_ne h, ih rise, entryByte, if_neg h]

theorem patchPlan_rising (patches : List PatchEntry) : Rising (patchPlan patches base g seg) :=
  Rising.planEntries .nil patches

theorem mem_patchPlan_iff {patches : List PatchEntry} {x : Nat} {b : Byte} :
    (x, b) ∈ patchPlan patches base g seg ↔ patches.findSome? (entryByte base g seg x) = some b := by
  rw [← (patchPlan_rising patches).lookup_eq_some_iff, patchPlan_eq, Rising.lookup_planEntries .nil]
  rfl

theorem Covers.entryByte_eq {p : PatchEntry} {x : Nat} (h : Covers base g seg p x) :
    entryByte base g seg x p = some ((patchString base g p).getD (x - p.offset.toNat) 0) := by
  obtain ⟨hs, low, high⟩ := h
  have inside : x - p.offset.toNat < (patchString base g p).length := by omega
  rw [entryByte, if_pos hs, byteFrom, if_pos low, List.getElem?_eq_getElem inside, List.getD_eq_getElem _ _ inside]

theorem covers_of_entryByte_eq {p : PatchEntry} {x : Nat} {b : Byte} (h : entryByte base g seg x p = some b) :
    Covers base g seg p x := by
  rw [entryByte, Option.ite_none_right_eq_some, byteFrom, Option.ite_none_right_eq_some] at h
  obtain ⟨hs, low, found⟩ := h
  obtain ⟨inside, -⟩ := List.getElem?_eq_some_iff.1 found
  exact ⟨hs, low, by omega⟩

/-- A position in the plan is covered by an entry. -/
theorem exists_covers_of_mem_patchPlan {patches : List PatchEntry} {c : Nat × Byte}
    (h : c ∈ patchPlan patches base g seg) : ∃ p ∈ patches, Covers base g seg p c.1 := by
  obtain ⟨p, hp, eq⟩ := List.exists_of_findSome?_eq_some (mem_patchPlan_iff.1 h)
  exact ⟨p, hp, covers_of_entryByte_eq eq⟩

/-- In a table in entry-number order the covering entry with the lowest number is the first that covers the position, and
gives its byte. -/
theorem mem_patchPlan_of_lowest {patches : List PatchEntry}
    (order : patches.Pairwise fun p q => p.number.toNat < q.number.toNat) {p : PatchEntry} (hp : p ∈ patches) {x : Nat}
    (covers : Covers base g seg p x)
    (lowest : ∀ q ∈ patches, Covers base g seg q x → p.number.toNat ≤ q.number.toNat) :
    (x, (patchString base g p).getD (x - p.offset.toNat) 0) ∈ patchPlan patches base g seg := by
  obtain ⟨before, after, rfl⟩ := List.append_of_mem hp
  obtain ⟨-, -, below⟩ := List.pairwise_append.1 order
  have none_before : before.findSome? (entryByte base g seg x) = none := by
    refine List.findSome?_eq_none_iff.2 fun q hq => Option.eq_none_iff_forall_ne_some.2 fun b hb => ?_
    exact absurd (lowest q (List.mem_append_left _ hq) (covers_of_entryByte_eq hb))
      (Nat.not_le.2 (below q hq p List.mem_cons_self))
  rw [mem_patchPlan_iff, List.findSome?_append, none_before, Option.none_or, List.findSome?_cons, covers.entryByte_eq]

end Segment

/-! ### Patched streams (R162) -/

theorem applyPlan_length (pos : Nat) (plan : List (Nat × Byte)) (bytes : List Byte) :
    (applyPlan pos plan bytes).length = bytes.length := by
  induction pos, plan, bytes using applyPlan.induct with
  | case1 => simp [applyPlan]
  | case2 => simp [applyPlan]
  | case3 c cs b bs ih => simp [applyPlan, ih]
  | case4 pos c cs b bs ne ih => simp [applyPlan, ne, ih]

/-- A stream has the plan's byte where the plan has one, and its own elsewhere. -/
theorem Rising.getElem?_applyPlan {pos : Nat} {plan : List (Nat × Byte)} (rise : Rising plan)
    (from_pos : ∀ c ∈ plan, pos ≤ c.1) (bytes : List Byte) (i : Nat) :
    (applyPlan pos plan bytes)[i]? = bytes[i]?.map fun b => (plan.lookup (pos + i)).getD b := by
  induction pos, plan, bytes using applyPlan.induct generalizing i with
  | case1 => simp [applyPlan]
  | case2 => simp [applyPlan]
  | case3 c cs b bs ih =>
    obtain ⟨above, rise'⟩ := List.pairwise_cons.1 rise
    rw [applyPlan, if_pos rfl]
    cases i with
    | zero => simp [lookup_cons_ite]
    | succ i =>
      rw [List.getElem?_cons_succ, List.getElem?_cons_succ, ih rise' above, lookup_cons_ite,
        if_neg (by omega), Nat.add_right_comm, Nat.add_assoc]
  | case4 pos c cs b bs ne ih =>
    obtain ⟨above, -⟩ := List.pairwise_cons.1 rise
    have first : pos < c.1 := Nat.lt_of_le_of_ne (from_pos c List.mem_cons_self) (Ne.symm ne)
    have later : ∀ d ∈ c :: cs, pos < d.1 := fun d hd =>
      (List.mem_cons.1 hd).elim (· ▸ first) fun hd => first.trans (above d hd)
    rw [applyPlan, if_neg ne]
    cases i with
    | zero => simp [lookup_eq_none_of_lt later]
    | succ i =>
      rw [List.getElem?_cons_succ, List.getElem?_cons_succ, ih rise later, show pos + (i + 1) = pos + 1 + i by omega]

theorem Rising.getElem?_applyPlan_of_mem {plan : List (Nat × Byte)} (rise : Rising plan) {bytes : List Byte} {pos : Nat}
    {b : Byte} (h : (pos, b) ∈ plan) (hp : pos < bytes.length) : (applyPlan 0 plan bytes)[pos]? = some b := by
  rw [rise.getElem?_applyPlan (fun _ _ => Nat.zero_le _), Nat.zero_add, rise.lookup_eq_some_iff.2 h,
    List.getElem?_eq_getElem hp]
  rfl

theorem Rising.getElem?_applyPlan_of_not_mem {plan : List (Nat × Byte)} (rise : Rising plan) (bytes : List Byte) {pos : Nat}
    (h : ∀ c ∈ plan, c.1 ≠ pos) : (applyPlan 0 plan bytes)[pos]? = bytes[pos]? := by
  have free : plan.lookup pos = none := List.lookup_eq_none_iff.2 fun c hc => bne_iff_ne.2 (h c hc).symm
  rw [rise.getElem?_applyPlan (fun _ _ => Nat.zero_le _), Nat.zero_add, free]
  exact Option.map_id'

/-- Settles O54: the strings by kind, the plan by the byte it has at a position, the stream by the plan. -/
theorem patchStringsAndPlans : Obligations.PatchStringsAndPlans := by
  unfold Obligations.PatchStringsAndPlans
  refine ⟨fun p base g hg => ⟨fun kind => patchString_bytes kind base g,
      fun kind => patchString_socket_toNat kind base hg,
      fun kind => ⟨?_, fun i => patchString_serial_toNat kind base g⟩, ?_⟩,
    fun patches base g seg => ⟨patchPlan_rising patches, fun order p hp x => mem_patchPlan_of_lowest order hp,
      fun c => exists_covers_of_mem_patchPlan⟩,
    fun plan bytes rise => ⟨applyPlan_length 0 plan bytes, fun pos b => Rising.getElem?_applyPlan_of_mem rise,
      fun pos => Rising.getElem?_applyPlan_of_not_mem rise bytes⟩⟩
  · rw [patchString_serial kind, List.length_map, List.length_range]
  · rintro (kind | kind) h hh eq
    · exact patchString_socket_inj kind hg hh eq
    · exact patchString_serial_inj kind hg hh eq

end Sys2Proof.Machine
end

section
/-! SUPPORT. What every step keeps: the predicates of Sys2Proof/Safety.lean, each by the turns of a command (`exec_turns`),
and the HOLD output, which the judgement at the end of a step brings to the demand. -/
namespace Sys2Proof.Machine
open Sys2Proof.Safety

/-! ### The outer part, field by field -/

theorem Does.roster {s t : State} (h : Does s t) : t.roster = s.roster := congrArg Outer.roster h.outer
theorem Does.badFrames {s t : State} (h : Does s t) : t.port.badFrames = s.port.badFrames := congrArg Outer.badFrames h.outer
theorem Does.giveUps {s t : State} (h : Does s t) : t.port.giveUps = s.port.giveUps := congrArg Outer.giveUps h.outer
theorem Does.handoffs {s t : State} (h : Does s t) : t.port.handoffs = s.port.handoffs := congrArg Outer.handoffs h.outer

section Handoff

variable (o : Owner) (x : Byte) (j : Word16) (b : FrameBody) (s : State)

@[simp] theorem takeHandoff_ident : (takeHandoff o x j b s).ident = s.ident := rfl
@[simp] theorem takeHandoff_roster : (takeHandoff o x j b s).roster = s.roster := rfl
@[simp] theorem takeHandoff_job : (takeHandoff o x j b s).job = s.job := rfl
@[simp] theorem takeHandoff_win : (takeHandoff o x j b s).win = s.win := rfl
@[simp] theorem takeHandoff_repair : (takeHandoff o x j b s).repair = s.repair := rfl
@[simp] theorem takeHandoff_sockets : (takeHandoff o x j b s).sockets = s.sockets := rfl
@[simp] theorem takeHandoff_pacing : (takeHandoff o x j b s).pacing = s.pacing := rfl
@[simp] theorem takeHandoff_rv : (takeHandoff o x j b s).rv = s.rv := rfl
@[simp] theorem takeHandoff_patches : (takeHandoff o x j b s).patches = s.patches := rfl
@[simp] theorem takeHandoff_port : (takeHandoff o x j b s).port =
    { s.port with handoffs := s.port.handoffs.erase (o, { sender := x, job := j, body := b }) } := rfl

end Handoff

/-! ### The mode rules (R24, R28, R42) -/

theorem Change.outer {s t : State} (h : Change s t) : outer t = outer s := Stores.outer (.single h)

theorem Change.ident {s t : State} (h : Change s t) : t.ident = s.ident := congrArg Outer.ident h.outer

theorem Change.patches {s t : State} (h : Change s t) : t.patches = s.patches := Stores.patches (.single h)

theorem Turn.beaconRule {c : Instr} {s t : State} (e : Turn c s t) (h : BeaconRule s.ident) : BeaconRule t.ident := by
  cases e with
  | elem _ _ e => exact (Change.ident (.elem _ _ e)) ▸ h
  | store _ _ _ e => exact e.ident ▸ h
  | port | take | entry | adopted => exact h
  | beacon f s _ _ hf => exact hf h
  | active => exact ⟨show 1 ≤ 8 by decide, fun hm => absurd rfl hm⟩
  | mute => exact ⟨Nat.zero_le _, fun _ => ⟨rfl, rfl⟩⟩
  | reset i s _ hi => exact hi
  | powerOn i s _ hi => exact hi

theorem FormerRule.adopted (job : Word16) (b : JobBody) (j : Job) : FormerRule (j.adopted job b) := by
  refine ⟨?_, fun g hg => absurd hg (by simp [Job.adopted])⟩
  simp only [Job.adopted, Option.isSome_none, Bool.false_eq_true, iff_false]
  split <;> decide

theorem FormerRule.reset : FormerRule Job.reset := ⟨by decide, by simp [Job.reset]⟩

theorem Turn.formerRule {c : Instr} {s t : State} (e : Turn c s t) (h : FormerRule s.job) : FormerRule t.job := by
  cases e with
  | elem _ _ e => exact e.former h
  | store _ _ _ e => exact Stores.former (.single e) h
  | port | take | entry | beacon | active | mute => exact h
  | adopted job b s => exact .adopted job b s.job
  | reset | powerOn => exact .reset

theorem Turn.withdrawn {c : Instr} {s t : State} (e : Turn c s t) (h : withdrawn s) : withdrawn t := by
  cases e with
  | elem _ _ e => exact e.withdrawn h
  | store _ _ _ e => exact Stores.withdrawn (.single e) h
  | port f s _ _ _ free => exact fun hm => ⟨free (h hm).1, (h hm).2⟩
  | take tx s active => exact fun hm => absurd active hm
  | entry => exact h
  | beacon f s _ same _ => exact fun hm => h (same ▸ hm)
  | active => exact fun hm => absurd rfl hm
  | mute s _ idle free released _ => exact fun _ => ⟨free, by simp [released], idle⟩
  | adopted job b s _ active => exact fun hm => absurd active hm
  | reset | powerOn => exact fun _ => ⟨rfl, by simp [resetBlocks, Pacing.reset], rfl⟩

/-- Settles O56: each of the three rules is kept by every turn of a command. -/
theorem stepKeepsTheModeRules : Obligations.StepKeepsTheModeRules := by
  unfold Obligations.StepKeepsTheModeRules
  exact ⟨fun s t h e => step_keeps (P := fun u => BeaconRule u.ident) (fun _ _ hs => hs) Turn.beaconRule e h,
    fun s t h e => step_keeps (P := fun u => FormerRule u.job) (fun _ _ hs => hs) Turn.formerRule e h,
    fun s t h e => step_keeps (fun _ _ hs => hs) Turn.withdrawn e h⟩

/-! ### Storage, capacities and lists (R61, R104, R159, R165, R170) -/

/-- What is kept of the patch table (R159). -/
def PatchesOk (p : List PatchEntry) : Prop := p.length ≤ 8 ∧ p.Pairwise fun p q => p.number.toNat < q.number.toNat

/-- Storage, capacities and lists by their parts: the DRAM, the sockets, the recall unit and the patch table. -/
structure InOrder (s : State) : Prop where
  dram : DramOk s
  sockets : SocketsOk s
  recallUnit : RecallOk s.rv
  patches : PatchesOk s.patches

theorem inOrder_iff {s : State} : storageOk s ∧ capacityOk s ∧ listsOk s ↔ InOrder s := by
  constructor
  · rintro ⟨hs, hc, hl⟩
    have sockets := SocketsOk.of hs hc hl
    obtain ⟨buffers, table, -⟩ := hs
    obtain ⟨-, heardSize, heard, queueSize, queue, size, order⟩ := hc
    exact ⟨⟨buffers, table⟩, sockets, ⟨heardSize, heard, queueSize, queue⟩, ⟨size, order⟩⟩
  · rintro ⟨⟨buffers, table⟩, sockets, ⟨heardSize, heard, queueSize, queue⟩, size, order⟩
    have ring (k : Fin 8) : RingOk s.sockets[k] := (sockets k).ring
    exact ⟨⟨buffers, table, fun k => (ring k).2.2.2⟩,
      ⟨fun k => ⟨(ring k).1, (ring k).2.1, (ring k).2.2.1⟩, heardSize, heard, queueSize, queue, size, order⟩,
      sockets.lists size⟩

theorem Change.inOrder {s t : State} (e : Change s t) (h : InOrder s) : InOrder t :=
  have run : Stores s t := .single e
  ⟨run.dram h.dram, run.socketsOk h.sockets, run.recall h.recallUnit, run.patches ▸ h.patches⟩

/-- A socket at its reset values, over marks in order. -/
theorem socketsOk_reset {s : State} {p : List PatchEntry} (marks : ∀ k : Fin 8, ascending s.sockets[k].written) (i : Ident)
    (k : Fin 8) : SocketOk p (resetBlocks i s).sockets[k] := by
  have eq : (resetBlocks i s).sockets[k] = Socket.reset s.sockets[k].written := by simp [resetBlocks]
  exact eq ▸ .reset _ (marks k)

theorem resetBlocks_slot (i : Ident) (s : State) (id : SlotId) :
    (resetBlocks i s).slot id = Slot.empty (s.slot id).buf := by
  cases id <;> simp [resetBlocks, Window.cleared, State.slot]

theorem resetBlocks_inOrder (i : Ident) {s : State} (dram : DramOk s)
    (marks : ∀ k : Fin 8, ascending s.sockets[k].written) : InOrder (resetBlocks i s) where
  dram := dram.ofBuffers (fun id => by rw [resetBlocks_slot]; rfl) rfl
  sockets := socketsOk_reset marks i
  recallUnit := recallReset_ok
  patches := ⟨Nat.zero_le _, .nil⟩

/-- The DRAM as power-on leaves it (log entry 9). -/
theorem dramOk_unwritten (s : State) : DramOk { s with win := Window.reset } := by
  refine ⟨fun id => ?_, .nil, by simp [Window.reset]⟩
  have eq : ({ s with win := Window.reset } : State).slot id = Slot.empty [] := by
    cases id <;> simp [State.slot, Window.reset]
  rw [eq]
  exact ⟨⟨.nil, by simp [Slot.empty]⟩, by simp [Slot.empty]⟩

/-- An adoption changes the patch table, over empty expectation lists. -/
theorem SocketOk.repatch {p q : List PatchEntry} {sk : Socket} (h : SocketOk p sk) (he : sk.expect = []) : SocketOk q sk :=
  ⟨h.ring, he ▸ .nil q, h.size, h.order, h.recheck⟩

theorem Turn.inOrder {c : Instr} {s t : State} (e : Turn c s t) (h : InOrder s) : InOrder t := by
  cases e with
  | elem _ _ e => exact Change.inOrder (.elem _ _ e) h
  | store _ _ _ e => exact e.inOrder h
  | port | take | entry | beacon | active | mute => exact ⟨h.dram, h.sockets, h.recallUnit, h.patches⟩
  | adopted job b s _ _ _ valid empty =>
    exact ⟨h.dram, fun k => (h.sockets k).repatch (empty k), h.recallUnit,
      (patchTable_perm b).length_eq ▸ judgeJob_length valid, patchTable_strict valid⟩
  | reset i s _ _ => exact resetBlocks_inOrder i h.dram fun k => (h.sockets k).ring.2.2.2
  | powerOn i s _ _ =>
    refine resetBlocks_inOrder i (dramOk_unwritten { s with sockets := Vector.replicate 8 (Socket.reset []) }) fun k => ?_
    simp [Socket.reset]

/-- Settles O57: the DRAM, the sockets, the recall unit and the patch table are each kept by every turn. -/
theorem stepKeepsStorageInOrder : Obligations.StepKeepsStorageInOrder := by
  unfold Obligations.StepKeepsStorageInOrder
  intro s t h e
  have keep := step_keeps (P := InOrder) (fun s q h => ⟨h.dram, h.sockets, h.recallUnit, h.patches⟩) Turn.inOrder e
  exact inOrder_iff.2 (keep (inOrder_iff.1 h))

/-! ### The needs (R85, R86, R97) -/

theorem Turn.repairOk {c : Instr} {s t : State} (e : Turn c s t) (h : RepairOk s.win.base s.repair) :
    RepairOk t.win.base t.repair := by
  cases e with
  | elem _ _ e => exact e.repairOk h
  | store _ _ _ e => exact Stores.repairOk (.single e) h
  | port | take | entry | beacon | active | mute | adopted => exact h
  | reset | powerOn => exact repairEmpty_ok 0

/-- An ascending list of segments in the window has at most 16. -/
theorem window_length {l : List Nat} {base : Nat} (rise : ascending l)
    (inside : ∀ g ∈ l, base ≤ g ∧ g < base + Config.windowSlots) : l.length ≤ 16 := by
  have sub := length_le_of_mem rise fun g hg =>
    List.mem_range'_1.2 (inside g hg)
  simpa [Config.windowSlots] using sub

/-- Settles O58: the repair unit's rule is kept by every turn; an ascending list inside the window has at most 16. -/
theorem stepKeepsNeedsInTheWindow : Obligations.StepKeepsNeedsInTheWindow := by
  unfold Obligations.StepKeepsNeedsInTheWindow
  refine ⟨fun s t h e => step_keeps (P := fun u => RepairOk u.win.base u.repair) (fun _ _ hs => hs) Turn.repairOk e h, ?_⟩
  rintro s ⟨needs, exhausted, needsIn, exhaustedIn, -⟩
  have bound := window_length needs fun g hg => by
    obtain ⟨e, he, rfl⟩ := List.mem_map.1 hg
    exact needsIn e he
  exact ⟨by simpa using bound, window_length exhausted exhaustedIn⟩

/-! ### The base (R64) -/

/-- A command that adopts no job and is no reset: a step that ends inside a job began inside it, at a base no higher. -/
theorem Turn.base_le {c : Instr} {s t : State} (e : Turn c s t) (hc : mayChangePatches c = false)
    (ht : t.job.st.working = true) : s.job.st.working = true ∧ s.win.base ≤ t.win.base := by
  have noReset : isReset c ≠ true := fun h => by cases c <;> simp_all [mayChangePatches, isReset]
  cases e with
  | elem _ _ e => exact Does.base_le (.single e) ht
  | store _ _ _ e => exact Stores.base_le (.single e) ht
  | port | take | entry | beacon | active | mute => exact ⟨ht, Nat.le_refl _⟩
  | adopted _ _ _ hp => exact absurd (hc.symm.trans hp) (by decide)
  | reset _ _ hr => exact absurd hr noReset
  | powerOn _ _ hr => exact absurd (hr ▸ rfl) noReset

theorem Turns.base_le {c : Instr} {s t : State} (run : Turns c s t) (hc : mayChangePatches c = false)
    (ht : t.job.st.working = true) : s.job.st.working = true ∧ s.win.base ≤ t.win.base := by
  induction run with
  | refl => exact ⟨ht, Nat.le_refl _⟩
  | tail _ e ih =>
    obtain ⟨working, le⟩ := e.base_le hc ht
    exact ⟨(ih working).1, (ih working).2.trans le⟩

/-- A JOB frame inside a job adopts nothing (R43). -/
theorem execJobArrival_base_le {x : Byte} {j : Word16} {b : JobBody} {s t : State} (e : execJobArrival x j b s = .next t)
    (hs : s.job.st.working = true) (ht : t.job.st.working = true) : s.win.base ≤ t.win.base := by
  obtain ⟨u, v, ev, run, before | ⟨-, outside, -⟩⟩ := execJobArrival_eq x j b s
  · have same : v.win = t.win ∧ v.job = t.job := by
      rcases ev with ev | ev <;> injection e.symm.trans ev with eq <;> exact eq ▸ ⟨rfl, rfl⟩
    rw [← same.1]
    exact (Does.base_le (before.trans run) (same.2 ▸ ht)).2
  · exact absurd hs (by simp [outside])

theorem isReset_iff {c : Instr} : isReset c = true ↔
    c = .powerOnReset ∨ (∃ pass straps, c = .memoryTestEnd pass straps) ∨ ∃ straps, c = .resetn straps := by
  cases c <;> simp [isReset]

/-- A reset leaves the state alone or the job record at its reset values (R42). -/
theorem exec_reset_job {c : Instr} {s t : State} (hc : isReset c = true) (e : exec c s = .next t) :
    t = s ∨ t.job = Job.reset := by
  obtain rfl | ⟨pass, straps, rfl⟩ | ⟨straps, rfl⟩ := isReset_iff.1 hc
  · injection e with e
    exact .inr (e ▸ rfl)
  · injection e with e
    cases test : s.ident.memTest
    · rw [test, doIf_false] at e; exact .inl e.symm
    · rw [test, doIf_true] at e; exact .inr (e ▸ rfl)
  · injection e with e
    cases test : s.ident.memTest
    · rw [whenUp_up test] at e; exact .inr (e ▸ rfl)
    · rw [whenUp_test test] at e; exact .inl e.symm

/-- The commands that may change the patch table are the resets and a JOB frame. -/
theorem mayChangePatches_cases (c : Instr) :
    mayChangePatches c = false ∨ isReset c = true ∨ ∃ x j b, c = .jobArrival x j b := by
  cases c <;> simp [mayChangePatches, isReset]

theorem exec_base_le {c : Instr} {s t : State} (e : exec c s = .next t) (hs : s.job.st.working = true)
    (ht : t.job.st.working = true) : s.win.base ≤ t.win.base := by
  obtain hc | hc | ⟨x, j, b, rfl⟩ := mayChangePatches_cases c
  · obtain ⟨u, eu, run⟩ := exec_turns c s
    injection eu.symm.trans e with eq
    exact ((eq ▸ run).base_le hc ht).2
  · obtain rfl | reset := exec_reset_job hc e
    · exact Nat.le_refl _
    · exact absurd ht (by simp [reset, Job.reset, JobState.working])
  · exact execJobArrival_base_le e hs ht

/-- Settles O60: no turn inside a job lowers the base, and a JOB frame inside a job adopts nothing. -/
theorem baseNeverDecreasesInAJob : Obligations.BaseNeverDecreasesInAJob := by
  unfold Obligations.BaseNeverDecreasesInAJob
  intro s t e hs ht
  unfold step at e
  split at e
  · injection e with e
    exact e ▸ Nat.le_refl _
  · rename_i rest _
    exact exec_base_le (s := { s with pending := rest }) e hs ht

end Sys2Proof.Machine
end

section
/-! SUPPORT. The HOLD output follows the demand after every step (R131 to R134): what a command keeps of the pacing unit by
its turns, and the demand by the judgement at its end, or because the command touches nothing the demand is read from. -/
namespace Sys2Proof.Machine
open Sys2Proof.Safety

/-! ### The pacing unit outside a job -/

/-- A station outside ACTIVE is IDLE (R29, R32). -/
def IdleOutside (s : State) : Prop := s.ident.mode ≠ .active → s.job.st = .idle

theorem Elem.idleOutside {s t : State} (e : Elem s t) (h : IdleOutside s) : IdleOutside t := by
  intro hm
  rw [(Does.one e).ident] at hm
  cases e with
  | work _ _ w => exact w.apart.job ▸ h hm
  | job f s hi | jobEnd f s hi => exact hi (h hm)
  | marks | rise | windowEnd | port | repair | rv | draw => exact h hm

theorem Turn.idleOutside {c : Instr} {s t : State} (e : Turn c s t) (h : IdleOutside s) : IdleOutside t := by
  cases e with
  | elem _ _ e => exact e.idleOutside h
  | store _ _ _ e => exact e.kept Elem.idleOutside (fun _ _ _ p => p) h
  | port | take | entry => exact h
  | beacon f s _ same _ => exact fun hm => h (same ▸ hm)
  | active => exact fun hm => absurd rfl hm
  | mute s _ idle => exact fun _ => idle
  | adopted job b s _ active => exact fun hm => absurd active hm
  | reset | powerOn => exact fun _ => rfl

theorem pacingOk_reset {s : State} (h : s.pacing = Pacing.reset) : PacingOk s := by
  simp [PacingOk, h, Pacing.reset]

theorem Turn.pacingOk {c : Instr} {s t : State} (e : Turn c s t) (h : PacingOk s) : PacingOk t := by
  cases e with
  | elem _ _ e => exact e.pacingOk h
  | store _ _ _ e => exact e.kept Elem.pacingOk (fun _ _ _ p => p) h
  | port | take | entry | beacon | active | mute => exact h
  | adopted job b s =>
    exact ⟨fun outside => absurd (adopted_working job b s.job) (by simpa [adoptRecord] using outside), h.2⟩
  | reset | powerOn => exact pacingOk_reset rfl

/-! ### The demand -/

/-- HOLD is RELEASED exactly while the demand is false (R132). -/
def Follows (s : State) : Prop := s.pacing.hold = .released ↔ s.holdDemand = false

theorem judgeHold_demand (s : State) : (judgeHold s).holdDemand = s.holdDemand := by
  unfold judgeHold
  repeat' split
  all_goals rfl

theorem judgeHold_follows (s : State) : Follows (judgeHold s) := by
  obtain ⟨-, -, released, held⟩ := judgeHold_pacing s
  rw [Follows, judgeHold_demand]
  cases demand : s.holdDemand
  · simp [released demand]
  · simp [held demand]

/-- What the demand is read from, and the pacing unit, are the same. -/
structure SameHold (s t : State) : Prop where
  mode : t.ident.mode = s.ident.mode
  job : t.job.st = s.job.st
  preparing : ∀ k : Fin 8, t.sockets[k].st = .preparing ↔ s.sockets[k].st = .preparing
  pacing : t.pacing = s.pacing

theorem SameHold.refl (s : State) : SameHold s s := ⟨rfl, rfl, fun _ => .rfl, rfl⟩

theorem SameHold.trans {s t u : State} (h : SameHold s t) (g : SameHold t u) : SameHold s u :=
  ⟨g.mode.trans h.mode, g.job.trans h.job, fun k => (g.preparing k).trans (h.preparing k), g.pacing.trans h.pacing⟩

theorem SameHold.doIf {f : State → State} {s : State} (c : Bool) (h : SameHold s (f s)) : SameHold s (doIf c f s) :=
  doIf_inv c f s (fun _ => h) (.refl s)

/-- A change of other blocks. -/
theorem SameHold.apart {s t : State} (mode : t.ident.mode = s.ident.mode) (job : t.job.st = s.job.st)
    (sockets : t.sockets = s.sockets) (pacing : t.pacing = s.pacing) : SameHold s t :=
  ⟨mode, job, fun k => by rw [sockets], pacing⟩

theorem SameHold.socket (k : Fin 8) (f : Socket → Socket) (s : State)
    (h : (f s.sockets[k]).st = .preparing ↔ s.sockets[k].st = .preparing) : SameHold s (updSocket k f s) := by
  refine ⟨rfl, rfl, fun j => ?_, rfl⟩
  by_cases hj : j = k
  · subst hj
    rwa [updSocket_same]
  · rw [updSocket_other hj]

theorem SameHold.slot (id : SlotId) (f : Slot → Slot) (s : State) : SameHold s (updSlot id f s) :=
  .apart (by simp) (by simp) (by simp) (by simp)

theorem SameHold.demand {s t : State} (h : SameHold s t) : t.holdDemand = s.holdDemand := by
  have cause : t.enrollCause = s.enrollCause := by
    have eq (k : Fin 8) : (t.sockets[k].st == .preparing) = (s.sockets[k].st == .preparing) := by
      rw [Bool.eq_iff_iff, beq_iff_eq, beq_iff_eq]
      exact h.preparing k
    simp only [State.enrollCause, h.job, eq]
  simp only [State.holdDemand, h.mode, cause, h.pacing]

theorem SameHold.follows {s t : State} (h : SameHold s t) (hs : Follows s) : Follows t := by
  rw [Follows, h.demand, h.pacing]
  exact hs

theorem whenUp_follows {f : State → State} {s : State} (h : Follows s) (hf : Follows (f s)) : Follows (whenUp f s) := by
  unfold whenUp
  split
  · exact h
  · exact hf

theorem takeHandoff_same (o : Owner) (x : Byte) (j : Word16) (b : FrameBody) (s : State) :
    SameHold s (takeHandoff o x j b s) := .apart rfl rfl rfl rfl

/-- A command that ends with the judgements (log entry 24). -/
theorem act_follows {f : State → State} {s : State} (h : Follows s) : Follows (act f s) :=
  whenUp_follows h (judgeHold_follows _)

theorem actOnArrival_follows {o : Owner} {x : Byte} {j : Word16} {b : FrameBody} {f : State → State} {s : State}
    (h : Follows s) : Follows (actOnArrival o x j b f s) :=
  whenUp_follows h ((takeHandoff_same ..).follows (judgeHold_follows _))

theorem arrival_follows {o : Owner} {x : Byte} {j : Word16} {b : FrameBody} {f : State → State} {s : State}
    (h : Follows s) (hf : SameHold s (f s)) : Follows (arrival o x j b f s) :=
  whenUp_follows h ((hf.trans (takeHandoff_same ..)).follows h)

/-! ### The operations of the commands without the judgements -/

theorem hold_same (tag : HeldTag) (job : Word16) (body : FrameBody) (s : State) : SameHold s (hold tag job body s) :=
  .apart rfl rfl rfl rfl

theorem updNeed_same (g : Nat) (f : NeedEntry → NeedEntry) (s : State) : SameHold s (updNeed g f s) :=
  .apart rfl rfl rfl rfl

theorem updAnswer_same (g : Nat) (f : AnswerEntry → AnswerEntry) (s : State) : SameHold s (updAnswer g f s) :=
  .apart rfl rfl rfl rfl

theorem dropAnswer_same (g : Nat) (s : State) : SameHold s (dropAnswer g s) := .apart rfl rfl rfl rfl

theorem startSending_same (g : Nat) (s : State) : SameHold s (startSending g s) := .apart rfl rfl rfl rfl

theorem rewait_same (g : Nat) (m : Byte) (s : State) : SameHold s (rewait g m s) := .apart rfl rfl rfl rfl

theorem askNeed_same (g : Nat) (s : State) : SameHold s (askNeed g s) := .apart rfl rfl rfl rfl

theorem countRecall_st (l : List Nat) (sk : Socket) : (sk.countRecall l).st = sk.st := by
  unfold Socket.countRecall
  split <;> rfl

theorem countRecalls_same (l : List Nat) (s : State) :
    SameHold s (forSockets (fun k => updSocket k (Socket.countRecall l)) s) := by
  refine forSockets_inv (P := SameHold s) _ (fun k u h => h.trans (.socket k _ u ?_)) s (.refl s)
  rw [countRecall_st]

theorem takeRequest_same (s : State) : SameHold s (takeRequest s) := by
  have listed : SameHold s (updRv (fun r => { r with request := .taken, listed := s.candidates.take Config.maxListed }) s) :=
    .apart rfl rfl rfl rfl
  exact (listed.trans (countRecalls_same _ _)).trans (hold_same ..)

theorem takeAnswer_same (g : Nat) (s : State) : SameHold s (takeAnswer g s) := by
  unfold takeAnswer
  split
  · split
    · refine .trans ?_ (hold_same ..)
      split
      · exact dropAnswer_same g s
      · exact updAnswer_same ..
    · exact dropAnswer_same g s
  · exact dropAnswer_same g s

theorem takeChoice_same (c : Choice) (s : State) : SameHold s (takeChoice c s) := by
  cases c with
  | jobRepeat =>
    simp only [takeChoice, takeRepeat]
    split <;> exact .apart rfl rfl rfl rfl
  | answer g => exact takeAnswer_same g s
  | recallRequest => exact takeRequest_same s
  | beacon | cancel | need | newData | recallParcel => exact .apart rfl rfl rfl rfl

theorem coverNeed_same (g : Nat) (m : Byte) (s : State) : SameHold s (coverNeed g m s) := by
  unfold coverNeed
  repeat' split
  all_goals exact .apart rfl rfl rfl rfl

theorem answerNeed_same (g : Nat) (m : Byte) (s : State) : SameHold s (answerNeed g m s) := by
  unfold answerNeed
  repeat' split
  all_goals exact .apart rfl rfl rfl rfl

theorem repairHeard_same (g : Nat) (p : Fin 8) (s : State) : SameHold s (repairHeard g p s) := by
  unfold repairHeard
  repeat' split
  all_goals exact .apart rfl rfl rfl rfl

theorem setState_same {k : Fin 8} {st : SocketState} {r : Reason} {s : State} (h : s.sockets[k].st ≠ .preparing)
    (hs : st ≠ .preparing) : SameHold s (setState k st r s) :=
  .socket k _ s (iff_of_false hs h)

theorem rejectAttach_same {k : Fin 8} {r : Reason} {s : State} (h : s.sockets[k].st ≠ .preparing) :
    SameHold s (rejectAttach k r s) := by
  refine .trans (.socket k _ s .rfl) (setState_same ?_ (by decide))
  rwa [updSocket_same]

theorem issue_same (k : Fin 8) (p : Purpose) (s : State) : SameHold s (issue k p s) := .socket k _ s .rfl

theorem reportOccupancy_same (k : Fin 8) (s : State) : SameHold s (reportOccupancy k s) := .socket k _ s .rfl

theorem takeDescriptor_same (k : Fin 8) (s : State) : SameHold s (takeDescriptor k s) := by
  unfold takeDescriptor
  split
  · split
    · exact .trans (.slot ..) (.trans (.socket k _ _ .rfl) (reportOccupancy_same ..))
    · exact .refl s
  · exact .refl s

theorem cancelRepeat_same (s : State) : SameHold s (cancelRepeat s) := by
  unfold cancelRepeat
  split
  · split
    · exact .apart rfl rfl rfl rfl
    · cases !s.port.cancels.contains _ <;> exact .apart rfl rfl rfl rfl
  · exact .refl s

theorem placeRequest_same (s : State) : SameHold s (placeRequest s) := by
  unfold placeRequest
  split <;> exact .apart rfl rfl rfl rfl

/-- ENTER_ACTIVE of an IDLE station demands nothing (R30, R134). -/
theorem enterActive_follows {s : State} (mon : monitorOk s) (h : Follows s) (hm : s.ident.mode = .listening) :
    Follows (enterActive s) := by
  obtain ⟨loss, idle⟩ := mon
  have job : s.job.st = .idle := idle (by simp [hm])
  have cond : s.pacing.loss.cond = false := by rw [loss (by rw [job]; rfl)]; rfl
  have released : s.pacing.hold = .released := h.2 (holdDemand_off (by simp [hm]))
  have demand : (enterActive s).holdDemand = false := by
    simp [enterActive, State.holdDemand, State.enrollCause, job, cond]
  exact iff_of_true released demand

/-- A reset leaves HOLD released and demands nothing (R28, R133). -/
theorem resetBlocks_follows (i : Ident) (s : State) : Follows (resetBlocks i s) := by
  refine iff_of_true rfl ?_
  simp [resetBlocks, State.holdDemand, State.enrollCause, Job.reset, Pacing.reset, Monitor.idle]

theorem holdExpired_follows {s : State} (h : Follows s) : Follows (holdExpired s) := by
  unfold holdExpired
  split
  · rename_i asserted
    have demand : s.holdDemand ≠ false := fun off => absurd (asserted.1.symm.trans (h.2 off)) (by decide)
    exact iff_of_false (by simp) demand
  · exact h

/-- After every command HOLD is RELEASED exactly while the demand is false. -/
theorem exec_follows (c : Instr) {s t : State} (mon : monitorOk s) (h : Follows s) (e : exec c s = .next t) : Follows t := by
  have same {u : State} (hu : SameHold s u) : Follows u := hu.follows h
  have up {f : State → State} (hf : SameHold s (f s)) : Follows (whenUp f s) := whenUp_follows h (same hf)
  have whole {u : State} (eq : exec c s = .next u) (hu : Follows u) : Follows t := by
    injection e.symm.trans eq with eq
    exact eq ▸ hu
  cases c
  case powerOnReset => exact whole rfl (resetBlocks_follows ..)
  case memoryTestEnd pass straps => exact whole rfl (doIf_inv _ _ s (fun _ => resetBlocks_follows ..) h)
  case resetn straps => exact whole rfl (whenUp_follows h (resetBlocks_follows ..))
  case listeningTimerExpiry =>
    refine whole rfl (whenUp_follows h ?_)
    cases listening : s.ident.mode == .listening && s.ident.listenTimer.isSome
    · exact h
    · rw [Bool.and_eq_true, beq_iff_eq] at listening
      exact enterActive_follows mon h listening.1
  case holdExpiry => exact whole rfl (whenUp_follows h (holdExpired_follows h))
  case gapTimerExpiry i =>
    refine whole rfl (whenUp_follows h ?_)
    dsimp only
    split
    · exact judgeHold_follows _
    all_goals exact h
  case holdLineChange a => exact whole rfl (same (.apart rfl rfl rfl rfl))
  case beaconTimerExpiry | jobRepeatTimerExpiry => exact whole rfl (up (.doIf _ (.apart rfl rfl rfl rfl)))
  case laneIdle | settleTimerExpiry | heardSetExpiry => exact whole rfl (up (.apart rfl rfl rfl rfl))
  case receptionComplete bytes own =>
    refine whole rfl (up (.doIf _ ?_))
    unfold receive
    split <;> exact .apart rfl rfl rfl rfl
  case receptionBroken n own => exact whole rfl (up (.doIf _ (.apart rfl rfl rfl rfl)))
  case receptionOverlong own =>
    exact whole rfl (up (.trans (t := doIf _ countBad s) (.doIf _ (.apart rfl rfl rfl rfl)) (.apart rfl rfl rfl rfl)))
  case transmitterTake =>
    refine whole rfl (up ?_)
    split
    · split
      · exact takeChoice_same _ s
      · exact .refl s
    · exact .refl s
  case interFrameGapComplete | backoffEnd =>
    refine whole rfl (up ?_)
    split <;> exact .apart rfl rfl rfl rfl
  case collision n =>
    refine whole rfl (up ?_)
    split
    · exact .trans (.doIf _ (.apart rfl rfl rfl rfl)) (.apart rfl rfl rfl rfl)
    all_goals exact .refl s
  case cancelRepeatExpiry => exact whole rfl (up (cancelRepeat_same s))
  case recallSlotTimerExpiry r => exact whole rfl (up (.doIf _ (.slot ..)))
  case parcelArrivalRepair x j b => exact whole rfl (arrival_follows h (.doIf _ (repairHeard_same ..)))
  case needArrival x j g m =>
    exact whole rfl (arrival_follows h (.doIf _ (.trans (coverNeed_same ..) (answerNeed_same ..))))
  case needDelayExpiry g =>
    refine whole rfl (up ?_)
    repeat' split
    all_goals exact .apart rfl rfl rfl rfl
  case suppressionExpiry g | answerDelayExpiry g =>
    refine whole rfl (up ?_)
    repeat' split
    all_goals exact .apart rfl rfl rfl rfl
  case descriptorTake k => exact whole rfl (up (takeDescriptor_same k s))
  case insertion k =>
    refine whole rfl (up ?_)
    cases empty : s.sockets[k].st == .empty
    · exact .refl s
    · rw [beq_iff_eq] at empty
      have begun : SameHold s (issue k .identify (updSocket k (fun sk => { sk with attachTimer := some Config.attachSpan }) s)) :=
        .trans (.socket k _ s .rfl) (.socket k _ _ .rfl)
      refine begun.trans (setState_same (fun h => ?_) (by decide))
      exact absurd (empty.symm.trans ((begun.preparing k).1 h)) (by decide)
  case attachTimerExpiry k =>
    refine whole rfl (up ?_)
    cases attaching : s.sockets[k].st == .attaching && s.sockets[k].attachTimer.isSome
    · exact .refl s
    · rw [Bool.and_eq_true, beq_iff_eq] at attaching
      exact rejectAttach_same (by rw [attaching.1]; decide)
  case identifyComplete k good =>
    refine whole rfl (up ?_)
    cases at_ : s.attachAt k .identify
    · exact .refl s
    · cases good
      · exact rejectAttach_same (by rw [attachAt_state at_]; decide)
      · exact issue_same k _ s
  case capacityComplete k sectors =>
    refine whole rfl (up ?_)
    cases at_ : s.attachAt k .capacity
    · exact .refl s
    · cases sectors
      · exact rejectAttach_same (by rw [attachAt_state at_]; decide)
      · exact .trans (.socket k (fun sk => { sk with capacity := some _ }) s .rfl) (issue_same k _ _)
  case recallRequestPlace => exact whole rfl (up (placeRequest_same s))
  case beaconArrival | jobArrival | cancelArrival | parcelArrivalWindow | recallArrivalSink | recallArrivalSource =>
    exact whole rfl (actOnArrival_follows h)
  case silenceTimerExpiry | orphanTimerExpiry | frameSent | jamEnd | segmentOpen | readAheadRead | readSegmentComplete
      | needRetryExpiry | writeSegmentComplete | lastByteStreamed | protectStatusComplete | stallTimerExpiry | portResetEnd
      | removal | recallWaitExpiry | recallReadIssue =>
    exact whole rfl (act_follows h)

theorem exec_holdOk (c : Instr) {s t : State} (mon : monitorOk s) (h : holdOk s) (e : exec c s = .next t) :
    monitorOk t ∧ holdOk t := by
  obtain ⟨loss, idle⟩ := id mon
  obtain ⟨follows, timer⟩ := h
  have pacing : PacingOk t := exec_keeps c Turn.pacingOk e ⟨loss, timer⟩
  have outside : IdleOutside t := exec_keeps c Turn.idleOutside e idle
  exact ⟨⟨pacing.1, outside⟩, exec_follows c mon follows e, pacing.2⟩

/-- Settles O59: the expiry timer and the loss monitor by the turns of a command, the demand by its end. -/
theorem stepKeepsHoldWithTheDemand : Obligations.StepKeepsHoldWithTheDemand := by
  unfold Obligations.StepKeepsHoldWithTheDemand
  rintro s t ⟨mon, h⟩ e
  unfold step at e
  split at e
  · injection e with e
    exact e ▸ ⟨mon, h⟩
  · rename_i rest _
    exact exec_holdOk _ (s := { s with pending := rest }) mon h e

end Sys2Proof.Machine
end

section
/-! SUPPORT. The step, what commands leave alone, resets and the timers of mode and job (spec/00_scope.md,
spec/02_station_identity_and_the_roster.md, spec/03_jobs.md). -/
namespace Sys2Proof.Machine
open Sys2Proof.Safety

/-! ### The step -/

/-- Settles O1: by the two cases of the queue. -/
theorem stepRunsTheFrontCommand : Obligations.StepRunsTheFrontCommand := by
  unfold Obligations.StepRunsTheFrontCommand
  exact ⟨fun c rest s h => by rw [step, h], fun s h => by rw [step, h]⟩

theorem Turn.pending {c : Instr} {s t : State} (e : Turn c s t) : t.pending = s.pending := by
  cases e with
  | elem _ _ e => exact congrArg Outer.pending e.outer
  | store _ _ _ e => exact congrArg Outer.pending e.outer
  | port | take | entry | beacon | active | mute | adopted | reset | powerOn => rfl

/-- What each turn of a command leaves alone, the command leaves alone. -/
theorem exec_frame {α : Type} (π : State → α) {c : Instr} (h : ∀ {s t}, Turn c s t → π t = π s) {s t : State}
    (e : exec c s = .next t) : π t = π s :=
  exec_keeps (P := fun u => π u = π s) c (fun e p => (h e).trans p) e rfl

/-- During the memory test a command other than a power-on reset, the end of the test and the HOLD line does nothing (R26,
log entry 13). -/
theorem exec_testing {c : Instr} {s : State} (test : s.ident.memTest = true) (on : c ≠ .powerOnReset)
    (ending : ∀ p n, c ≠ .memoryTestEnd p n) (line : ∀ a, c ≠ .holdLineChange a) : exec c s = .next s := by
  cases c
  case powerOnReset => exact absurd rfl on
  case memoryTestEnd p n => exact absurd rfl (ending p n)
  case holdLineChange a => exact absurd rfl (line a)
  all_goals exact congrArg Host.Outcome.next (whenUp_test test)

/-- Settles O2: a command's answer is a run of turns, none of which touches the queue. -/
theorem everyCommandCompletes : Obligations.EveryCommandCompletes := by
  unfold Obligations.EveryCommandCompletes
  refine ⟨fun c s => ?_, fun c s => exec_testing⟩
  obtain ⟨t, e, -⟩ := exec_turns c s
  exact ⟨t, e, exec_frame State.pending Turn.pending e⟩

/-! ### Frames -/

/-- The bytes of every slot buffer and the check table are the same. -/
def SameMemory (s t : State) : Prop :=
  (∀ id : SlotId, (t.slot id).buf = (s.slot id).buf) ∧ t.win.checkTable = s.win.checkTable

theorem SameMemory.trans {s t u : State} (h : SameMemory s t) (g : SameMemory t u) : SameMemory s u :=
  ⟨fun id => (g.1 id).trans (h.1 id), g.2.trans h.2⟩

theorem SameMemory.ofWin {s t : State} (h : t.win = s.win) : SameMemory s t :=
  ⟨fun id => by rw [slot_of_win h], by rw [h]⟩

theorem resetBlocks_memory (i : Ident) (s : State) : SameMemory s (resetBlocks i s) :=
  ⟨fun id => by rw [resetBlocks_slot]; rfl, rfl⟩

theorem Turn.memory {c : Instr} (hc : mayStore c = false) {s t : State} (e : Turn c s t) : SameMemory s t := by
  cases e with
  | elem _ _ e => exact e.memory
  | store _ _ h _ => exact absurd (hc.symm.trans h) (by decide)
  | port | take | entry | beacon | active | mute | adopted => exact .ofWin rfl
  | reset => exact resetBlocks_memory ..
  | powerOn _ _ h => exact absurd (h ▸ hc) (by decide)

theorem exec_memory {c : Instr} (hc : mayStore c = false) {s t : State} (e : exec c s = .next t) : SameMemory s t :=
  exec_keeps (P := SameMemory s) c (fun e p => p.trans (e.memory hc)) e (.ofWin rfl)

/-- The end of a read that is no master read stores nothing. -/
theorem readEnds_does {k : Fin 8} {data : Option (List Byte)} {c : Command} {s : State} (hc : s.sockets[k].cmd = some c)
    (noMaster : ∀ seg dst, c.purpose ≠ .master seg dst) : Does s (readEnds k data c s) := by
  unfold readEnds
  split
  · rename_i seg purpose
    split
    · exact (endDiscarded_works k s).does
    · split
      · exact verifyGood_does k seg _ s ⟨c, hc, purpose⟩
      · exact attemptError_does k c s
  · rename_i seg dst purpose
    exact absurd purpose (noMaster seg dst)
  all_goals exact .none s

theorem readSegmentComplete_memory {k : Fin 8} {data : Option (List Byte)} {s t : State}
    (noMaster : ∀ c seg dst, s.sockets[k].cmd = some c → c.purpose ≠ .master seg dst)
    (e : exec (.readSegmentComplete k data) s = .next t) : SameMemory s t := by
  have run : Does s (act (fun s => match s.sockets[k].attempt with
      | some c => readEnds k data c s
      | none => s) s) := by
    refine act_does _ s ?_
    split
    · rename_i c attempt
      exact readEnds_does (attempt_cmd attempt) fun seg dst => noMaster c seg dst (attempt_cmd attempt)
    · exact .none s
  injection e with e
  exact (show _ = t from e) ▸ run.memory

/-- Settles O3: a turn of a command that may not store changes no byte, and a read that is no master read is a run of
elementary changes. -/
theorem onlyFourCommandsStore : Obligations.OnlyFourCommandsStore := by
  unfold Obligations.OnlyFourCommandsStore
  have read {s t : State} (h : SameMemory s t) : (∀ (id : SlotId) (a : Nat), (t.slot id).buf.read a = (s.slot id).buf.read a) ∧
      ∀ seg : Nat, t.win.checkTable.read seg = s.win.checkTable.read seg :=
    ⟨fun id a => by rw [h.1 id], fun seg => by rw [h.2]⟩
  exact ⟨fun c s t hc e => read (exec_memory hc e), fun k data s t hn e => read (readSegmentComplete_memory hn e)⟩

theorem Turn.ident {c : Instr} (hc : mayChangeIdent c = false) {s t : State} (e : Turn c s t) : t.ident = s.ident := by
  cases e with
  | elem _ _ e => exact Change.ident (.elem _ _ e)
  | store _ _ _ e => exact e.ident
  | port | take | entry | adopted => rfl
  | beacon _ _ h | active _ h | mute _ h => exact absurd (hc.symm.trans h) (by decide)
  | reset _ _ h => cases c <;> simp_all [mayChangeIdent, isReset]
  | powerOn _ _ h => exact absurd (h ▸ hc) (by decide)

theorem Turn.roster {c : Instr} (hc : mayChangeRoster c = false) {s t : State} (e : Turn c s t) : t.roster = s.roster := by
  cases e with
  | elem _ _ e => exact congrArg Outer.roster e.outer
  | store _ _ _ e => exact congrArg Outer.roster e.outer
  | entry _ _ _ h => exact absurd (hc.symm.trans h) (by decide)
  | port | take | beacon | active | mute | adopted => rfl
  | reset _ _ h => cases c <;> simp_all [mayChangeRoster, isReset]
  | powerOn _ _ h => exact absurd (h ▸ hc) (by decide)

theorem Turn.badFrames {c : Instr} (hc : mayCountBad c = false) {s t : State} (e : Turn c s t) :
    t.port.badFrames = s.port.badFrames := by
  cases e with
  | elem _ _ e => exact congrArg Outer.badFrames e.outer
  | store _ _ _ e => exact congrArg Outer.badFrames e.outer
  | port _ _ bad => exact bad hc
  | take | entry | beacon | active | mute | adopted => rfl
  | reset _ _ h => cases c <;> simp_all [mayCountBad, isReset]
  | powerOn _ _ h => exact absurd (h ▸ hc) (by decide)

theorem Turn.giveUps {c : Instr} (hc : mayGiveUp c = false) {s t : State} (e : Turn c s t) :
    t.port.giveUps = s.port.giveUps := by
  cases e with
  | elem _ _ e => exact congrArg Outer.giveUps e.outer
  | store _ _ _ e => exact congrArg Outer.giveUps e.outer
  | port _ _ _ given => exact given hc
  | take | entry | beacon | active | mute | adopted => rfl
  | reset _ _ h => cases c <;> simp_all [mayGiveUp, isReset]
  | powerOn _ _ h => exact absurd (h ▸ hc) (by decide)

theorem Turn.patches {c : Instr} (hc : mayChangePatches c = false) {s t : State} (e : Turn c s t) :
    t.patches = s.patches := by
  cases e with
  | elem _ _ e => exact Change.patches (.elem _ _ e)
  | store _ _ _ e => exact e.patches
  | port | take | entry | beacon | active | mute => rfl
  | adopted _ _ _ h => exact absurd (hc.symm.trans h) (by decide)
  | reset _ _ h => cases c <;> simp_all [mayChangePatches, isReset]
  | powerOn _ _ h => exact absurd (h ▸ hc) (by decide)

theorem Turn.holdLevel {c : Instr} (hc : ∀ a, c ≠ .holdLineChange a) {s t : State} (e : Turn c s t) :
    t.port.holdLevel = s.port.holdLevel := by
  cases e with
  | elem _ _ e => exact congrArg Outer.holdLevel e.outer
  | store _ _ _ e => exact congrArg Outer.holdLevel e.outer
  | port _ _ _ _ line => exact line hc
  | take | entry | beacon | active | mute | adopted | reset | powerOn => rfl

/-- Settles O4: each part of the outer state by the turns that may change it. -/
theorem outerStateFrame : Obligations.OuterStateFrame := by
  unfold Obligations.OuterStateFrame
  exact fun c s t e => ⟨fun h => exec_frame State.ident (Turn.ident h) e, fun h => exec_frame State.roster (Turn.roster h) e,
    fun h => exec_frame (·.port.badFrames) (Turn.badFrames h) e, fun h => exec_frame (·.port.giveUps) (Turn.giveUps h) e,
    fun h => exec_frame State.patches (Turn.patches h) e, fun h => exec_frame (·.port.holdLevel) (Turn.holdLevel h) e,
    exec_frame State.pending Turn.pending e⟩

/-! ### Resets (R26 to R28) -/

theorem replicate_roster (x : Fin 32) : (Vector.replicate 32 RosterEntry.empty)[x] = RosterEntry.empty := by simp

theorem resetBlocks_socket (i : Ident) (s : State) (k : Fin 8) :
    (resetBlocks i s).sockets[k] = Socket.reset s.sockets[k].written := by
  simp [resetBlocks]

theorem resetBlocks_afterReset (i : Ident) (s : State) : afterReset s (resetBlocks i s) :=
  ⟨replicate_roster, rfl, rfl, rfl, rfl, rfl, rfl, rfl, rfl, rfl, rfl, rfl, resetBlocks_slot i s, resetBlocks_socket i s⟩

theorem identAfter_eq (fault : Bool) (straps : BitVec 5) :
    identAfter fault straps =
      { station := straps, memFault := fault, mode := if fault then .mute else .listening
        listenTimer := if fault then none else some (3 * Config.tb), beaconTimer := none, debt := 0, memTest := false
        blink := true } := by
  cases fault <;> rfl

theorem exec_memoryTestEnd {pass : Bool} {straps : BitVec 5} {s : State} (test : s.ident.memTest = true) :
    exec (.memoryTestEnd pass straps) s = .next (resetBlocks (identAfter (!pass) straps) s) := by
  simp only [exec, execMemoryTestEnd, test, doIf_true]

theorem exec_memoryTestEnd_up {pass : Bool} {straps : BitVec 5} {s : State} (up : s.ident.memTest = false) :
    exec (.memoryTestEnd pass straps) s = .next s := by
  simp only [exec, execMemoryTestEnd, up, doIf_false]

theorem exec_resetn {straps : BitVec 5} {s : State} (up : s.ident.memTest = false) :
    exec (.resetn straps) s = .next (resetBlocks (identAfter s.ident.memFault straps) s) := by
  simp only [exec, execResetn, whenUp_up up]

/-- Settles O5: each reset command is `resetBlocks` with its identity block, or does nothing. -/
theorem resetsTakeTheResetValues : Obligations.ResetsTakeTheResetValues := by
  unfold Obligations.ResetsTakeTheResetValues
  refine ⟨⟨fun pass straps s test => ⟨_, exec_memoryTestEnd test, resetBlocks_afterReset _ s, rfl, rfl, ?_⟩,
    fun pass straps s => exec_memoryTestEnd_up⟩, ⟨fun straps s up =>
      ⟨_, exec_resetn up, resetBlocks_afterReset _ s, rfl, rfl, identAfter_eq ..⟩,
    fun straps s test => congrArg Host.Outcome.next (whenUp_test test)⟩,
    fun s => ⟨_, rfl, rfl, rfl, rfl, rfl, rfl, rfl, rfl, rfl, rfl, rfl, rfl, rfl, replicate_roster, fun _ => rfl, rfl⟩⟩
  refine (identAfter_eq ..).trans ?_
  cases pass <;> rfl

/-! ### The timers of mode and job -/

theorem exec_listeningTimerExpiry {s : State} (up : s.ident.memTest = false) :
    exec .listeningTimerExpiry s = .next
      (if s.ident.mode = .listening ∧ s.ident.listenTimer.isSome then enterActive s else s) := by
  simp only [exec, execListeningTimerExpiry, whenUp_up up, doIf, Bool.and_eq_true, beq_iff_eq]

theorem exec_beaconTimerExpiry {s : State} (up : s.ident.memTest = false) :
    exec .beaconTimerExpiry s = .next
      (if s.ident.mode = .active ∧ s.ident.beaconTimer.isSome then
        updIdent (fun i => { i with debt := min 8 (i.debt + 1), beaconTimer := some Config.tb }) s
      else s) := by
  simp only [exec, execBeaconTimerExpiry, whenUp_up up, doIf, Bool.and_eq_true, beq_iff_eq]

theorem debt_next (n : Nat) : min 8 (n + 1) = if n < 8 then n + 1 else 8 := by
  split <;> omega

theorem exec_cancelRepeatExpiry {s : State} (up : s.ident.memTest = false) :
    exec .cancelRepeatExpiry s = .next (cancelRepeat s) := congrArg Host.Outcome.next (whenUp_up up)

theorem cancelRepeat_none {s : State} (h : s.job.cancel = none) : cancelRepeat s = s := by rw [cancelRepeat, h]

theorem cancelRepeat_last {s : State} {c : CancelProgress} (h : s.job.cancel = some c) (last : c.left = 0) :
    cancelRepeat s = { s with job := { s.job with cancel := none } } := by
  simp only [cancelRepeat, h, last, if_true]
  rfl

theorem cancelRepeat_copy {s : State} {c : CancelProgress} (h : s.job.cancel = some c) (more : c.left ≠ 0) :
    cancelRepeat s =
      { s with
        job := { s.job with cancel := some { copy := c.copy, left := c.left - 1, timer := some Config.tb } }
        port := { s.port with
          cancels := if c.copy ∈ s.port.cancels then s.port.cancels else s.port.cancels ++ [c.copy] } } := by
  simp only [cancelRepeat, h, if_neg more]
  by_cases waits : c.copy ∈ s.port.cancels
  · rw [List.contains_iff_mem.2 waits, Bool.not_true, doIf_false, if_pos waits]
    rfl
  · rw [Bool.eq_false_iff.2 (mt List.contains_iff_mem.1 waits), Bool.not_false, doIf_true, if_neg waits]
    rfl

theorem exec_jobRepeatTimerExpiry {s : State} (up : s.ident.memTest = false) :
    exec .jobRepeatTimerExpiry s = .next
      (if s.job.source = true ∧ s.job.repeatTimer.isSome then { s with port := { s.port with jobRepeat := true } } else s) := by
  simp only [exec, execJobRepeatTimerExpiry, whenUp_up up, doIf, Bool.and_eq_true]
  rfl

/-- Settles O6: each timer's command by its guard. -/
theorem modeAndJobTimersExpire : Obligations.ModeAndJobTimersExpire := by
  unfold Obligations.ModeAndJobTimersExpire
  refine ⟨fun s up => exec_listeningTimerExpiry up, fun s up => ?_, fun s up => ?_⟩
  · rw [exec_beaconTimerExpiry up, ← debt_next]
    rfl
  · rw [exec_cancelRepeatExpiry up]
    exact ⟨fun h => congrArg _ (cancelRepeat_none h), fun c h last => congrArg _ (cancelRepeat_last h last),
      fun c h more => congrArg _ (cancelRepeat_copy h more), exec_jobRepeatTimerExpiry up,
      congrArg Host.Outcome.next (whenUp_up up)⟩

/-! ### The state after reset (R28) -/

theorem reset_slot (id : SlotId) : State.reset.slot id = Slot.empty [] := by
  cases id <;> simp [State.slot, State.reset, Window.reset]

theorem reset_socket (k : Fin 8) : State.reset.sockets[k] = Socket.reset [] := by simp [State.reset]

theorem reset_inOrder : InOrder State.reset where
  dram := ⟨fun id => by rw [reset_slot]; exact ⟨⟨.nil, by simp [Slot.empty]⟩, by simp [Slot.empty]⟩, .nil, by
    simp [State.reset, Window.reset]⟩
  sockets := fun k => by rw [reset_socket]; exact .reset [] .nil
  recallUnit := recallReset_ok
  patches := ⟨Nat.zero_le _, .nil⟩

theorem reset_holdOk : holdOk State.reset :=
  ⟨iff_of_true rfl (holdDemand_off (by decide)), by simp [State.reset, Pacing.reset]⟩

/-- Settles O55: the record of each block, and each invariant by the lemma for its reset value. -/
theorem resetValues : Obligations.ResetValues := by
  unfold Obligations.ResetValues
  obtain ⟨storage, capacity, lists⟩ := inOrder_iff.2 reset_inOrder
  refine ⟨⟨rfl, replicate_roster, rfl, rfl, ⟨rfl, rfl, rfl, rfl, rfl⟩, reset_slot, rfl, reset_socket, rfl, rfl, rfl, rfl, ?_⟩,
    ⟨Nat.zero_le _, fun _ => ⟨rfl, rfl⟩⟩, fun _ => ⟨rfl, by decide, rfl⟩, FormerRule.reset, storage, capacity, lists,
    repairEmpty_ok 0, ⟨fun _ => rfl, fun _ => rfl⟩, reset_holdOk⟩
  refine ⟨replicate_roster, rfl, rfl, rfl, rfl, rfl, rfl, rfl, rfl, rfl, rfl, rfl, fun id => ?_, fun k => ?_⟩
  · rw [reset_slot]
    rfl
  · rw [reset_socket]
    rfl

end Sys2Proof.Machine
end

section
/-! SUPPORT. Receptions, the frames a station builds, and the arbiter (spec/01_the_copy_bus.md). -/
namespace Sys2Proof.Machine
open Sys2Proof.Safety

/-! ### Receptions (R11 to R15) -/

theorem Transmitter.onLane_iff (tx : Transmitter) :
    tx.onLane = true ↔ ∃ h, tx = .holding h .sending ∨ tx = .holding h .jamming := by
  cases tx with
  | free => simp [onLane]
  | holding h phase => cases phase <;> simp [onLane]

theorem State.judged_iff (s : State) (own : Bool) :
    s.judged own = true ↔ ¬ (s.port.rxWait = true ∨ own = true ∨ s.port.tx.onLane = true) := by
  simp [judged, not_or, and_assoc]

theorem countBad_eq (s : State) :
    countBad s = { s with port := { s.port with
      badFrames := if s.port.badFrames = 0xFFFF#16 then 0xFFFF#16 else s.port.badFrames + 1 } } := by
  rw [← satInc_eq]
  rfl

theorem exec_receptionComplete {bytes : List Byte} {own : Bool} {s : State} (up : s.ident.memTest = false) :
    exec (.receptionComplete bytes own) s = .next (doIf (s.judged own) (receive bytes) s) :=
  congrArg Host.Outcome.next (whenUp_up up)

theorem exec_receptionBroken {stored : Nat} {own : Bool} {s : State} (up : s.ident.memTest = false) :
    exec (.receptionBroken stored own) s = .next (doIf (s.judged own && decide (64 < stored)) countBad s) :=
  congrArg Host.Outcome.next (whenUp_up up)

theorem exec_receptionOverlong {own : Bool} {s : State} (up : s.ident.memTest = false) :
    exec (.receptionOverlong own) s =
      .next (updPort (fun p => { p with rxWait := true }) (doIf (s.judged own) countBad s)) :=
  congrArg Host.Outcome.next (whenUp_up up)

/-! ### Accepted frames (R12) -/

theorem patchesOf_length (k : Nat) (l : List Byte) : (patchesOf k l).length = k := by
  induction k generalizing l with
  | zero => rfl
  | succ k ih => simp [patchesOf, ih]

theorem segsOf_length (k : Nat) (l : List Byte) : (segsOf k l).length = k := by
  induction k generalizing l with
  | zero => rfl
  | succ k ih => simp [segsOf, ih]

/-- The length a body must have and the test of its kind (R12), over the body's bytes. -/
def FrameBody.allowed (sender : Byte) (l : List Byte) : FrameBody → Prop
  | .beacon _ => l.length = 26 ∧ sender.toNat ≤ 31
  | .job b => b.patches.length ≤ 8 ∧ l.length = 23 + 25 * b.patches.length
  | .cancel _ => l.length = 1
  | .parcel _ => l.length = 4110 ∧ (byteAt l 4).toNat ≤ 7
  | .need _ _ => l.length = 5
  | .recallList segs => 1 ≤ segs.length ∧ segs.length ≤ 8 ∧ l.length = 1 + 4 * segs.length

theorem parcelOf_number {l : List Byte} {b : ParcelBody} (h : parcelOf l = some b) : (byteAt l 4).toNat ≤ 7 := by
  unfold parcelOf at h
  split at h
  · omega
  · cases h

theorem bodyOf_allowed {kind sender : Byte} {l : List Byte} {b : FrameBody} (h : bodyOf kind sender l = some b) :
    b.kind = kind ∧ b.allowed sender l := by
  unfold bodyOf at h
  split_ifs at h with hk hl hk hl hk hl hk hl hk hl hk hl <;> subst_vars
  · injection h with h
    exact h ▸ ⟨rfl, hl.1, by omega⟩
  · injection h with h
    subst h
    have count : (jobOf l).patches.length = (byteAt l 18).toNat := patchesOf_length _ _
    exact ⟨rfl, count ▸ hl.2.1, count ▸ hl.2.2⟩
  · injection h with h
    exact h ▸ ⟨rfl, hl⟩
  · obtain ⟨p, hp, rfl⟩ := Option.map_eq_some_iff.1 h
    exact ⟨rfl, hl, parcelOf_number hp⟩
  · injection h with h
    exact h ▸ ⟨rfl, hl⟩
  · injection h with h
    subst h
    simpa [FrameBody.kind, FrameBody.allowed, segsOf_length] using hl

/-- A byte of a body, read in the frame's bytes. -/
theorem byteAt_body (l : List Byte) (i : Nat) (h : i + 10 < l.length) :
    byteAt ((l.take (l.length - 4)).drop 6) i = byteAt l (6 + i) := by
  have left : 6 + i < l.length - 4 := by omega
  simp [byteAt, List.getD_eq_getElem?_getD, left, show 6 + i < l.length by omega]

theorem acceptFrame_some {l : List Byte} {f : Frame} (h : acceptFrame l = some f) :
    11 ≤ l.length ∧ check (l.take (l.length - 4)) = word32At (l.drop (l.length - 4)) 0 ∧
      (word16At l 4).toNat = l.length - 10 ∧ f.sender = byteAt l 1 ∧ f.job = word16At l 2 ∧ f.body.kind = byteAt l 0 ∧
      f.body.allowed f.sender ((l.take (l.length - 4)).drop 6) := by
  unfold acceptFrame at h
  split at h
  · cases h
  · rename_i long
    dsimp only at h
    split at h
    · rename_i tests
      obtain ⟨b, hb, rfl⟩ := Option.map_eq_some_iff.1 h
      obtain ⟨kind, allowed⟩ := bodyOf_allowed hb
      refine ⟨by omega, tests.1, ?_, rfl, rfl, kind, allowed⟩
      rw [tests.2]
      simp
      omega
    · cases h

/-- Settles O7: each reception by what it is judged to be, and an accepted frame by the tests it has passed. -/
theorem receptionsAreJudged : Obligations.ReceptionsAreJudged := by
  unfold Obligations.ReceptionsAreJudged
  refine ⟨Transmitter.onLane_iff, fun bytes own s up => ?_, fun stored own s up => ?_, fun l f accepted => ?_⟩
  · rw [exec_receptionComplete up]
    by_cases judged : s.judged own = true
    · rw [judged, doIf_true, if_neg ((s.judged_iff own).1 judged), receive]
      cases acceptFrame bytes with
      | some f => rfl
      | none => exact congrArg _ (countBad_eq s)
    · rw [Bool.eq_false_iff.2 judged, doIf_false, if_pos (not_not.1 (mt (s.judged_iff own).2 judged))]
  · refine ⟨?_, ?_, congrArg Host.Outcome.next (whenUp_up up)⟩
    · rw [exec_receptionBroken up, doIf, countBad_eq]
      simp only [State.judged, Bool.and_eq_true, decide_eq_true_eq]
    · rw [exec_receptionOverlong up, doIf, countBad_eq]
      show _ = Host.Outcome.next { s with port := { s.port with
        badFrames := if s.judged own = true then _ else s.port.badFrames, rxWait := true } }
      cases s.judged own <;> rfl
  · obtain ⟨long, sum, length, sender, job, kind, allowed⟩ := acceptFrame_some accepted
    refine ⟨long, sum, length, sender, job, kind, ?_⟩
    have size : ((l.take (l.length - 4)).drop 6).length = l.length - 10 := by
      simp
      omega
    cases body : f.body with
    | parcel b =>
      rw [body] at allowed
      obtain ⟨full, number⟩ := allowed
      rw [byteAt_body l 4 (by omega)] at number
      exact ⟨size ▸ full, number⟩
    | beacon | job | cancel | need | recallList => rw [body, FrameBody.allowed, size] at allowed; exact allowed

/-! ### Frames as built (R3 to R10) -/

theorem bodyOf_bytes {f : Frame} (h : f.wf = true) : bodyOf f.body.kind f.sender f.body.bytes = some f.body := by
  unfold Frame.wf at h
  cases body : f.body with
  | beacon b =>
    simp only [body, Bool.and_eq_true, decide_eq_true_eq, beq_iff_eq] at h
    obtain ⟨sender, codes⟩ := h
    simp [bodyOf, FrameBody.kind, FrameBody.bytes, beaconBytes_length b codes, beaconOf_bytes b codes, sender]
  | job b =>
    simp only [body, Bool.and_eq_true, decide_eq_true_eq, List.all_eq_true, beq_iff_eq] at h
    obtain ⟨count, values⟩ := h
    obtain ⟨number, back⟩ := jobOf_bytes b count values
    have size : (BitVec.ofNat 8 b.patches.length).toNat = b.patches.length := by
      rw [BitVec.toNat_ofNat]
      omega
    have tests : 19 ≤ (jobBytes b).length ∧ (byteAt (jobBytes b) 18).toNat ≤ 8 ∧
        (jobBytes b).length = 23 + 25 * (byteAt (jobBytes b) 18).toNat := by
      rw [number, size, jobBytes_length b values]
      omega
    rw [bodyOf, FrameBody.kind, FrameBody.bytes, if_neg (by decide), if_pos rfl, if_pos tests, back]
  | cancel r => rfl
  | parcel b =>
    simp only [body, beq_iff_eq] at h
    rw [bodyOf, FrameBody.kind, FrameBody.bytes, if_neg (by decide), if_neg (by decide), if_neg (by decide), if_pos rfl,
      if_pos (parcelBodyBytes_length b h), parcelOf_bytes]
    rfl
  | need seg mask =>
    have read : word32At (bytes32 seg ++ [mask]) 0 = seg := word32At_field [] [mask] seg 0 rfl
    have last : byteAt (bytes32 seg ++ [mask]) 4 = mask := byteAt_right _ _ 4 (Nat.le_refl _)
    simp [bodyOf, FrameBody.kind, FrameBody.bytes, read, last, bytes32_length]
  | recallList segs =>
    simp only [body, Bool.and_eq_true, decide_eq_true_eq] at h
    have size : (byteAt (recallBytes segs) 0).toNat = segs.length := by
      show (BitVec.ofNat 8 segs.length).toNat = segs.length
      rw [BitVec.toNat_ofNat]
      omega
    have tests : 1 ≤ (byteAt (recallBytes segs) 0).toNat ∧ (byteAt (recallBytes segs) 0).toNat ≤ 8 ∧
        (recallBytes segs).length = 1 + 4 * (byteAt (recallBytes segs) 0).toNat := by
      rw [size]
      exact ⟨h.1, h.2, recallBytes_length segs⟩
    rw [bodyOf, FrameBody.kind, FrameBody.bytes, if_neg (by decide), if_neg (by decide), if_neg (by decide),
      if_neg (by decide), if_neg (by decide), if_pos rfl, if_pos tests, size]
    exact congrArg (some ∘ FrameBody.recallList) (segsOf_bytes segs)

/-- The header of a frame (R4). -/
theorem Frame.covered_eq (f : Frame) : f.covered =
    [f.body.kind, f.sender] ++ (bytes16 f.job ++ (bytes16 (BitVec.ofNat 16 f.body.bytes.length) ++ f.body.bytes)) := by
  simp [covered, List.append_assoc]

theorem Frame.covered_length (f : Frame) : f.covered.length = 6 + f.body.bytes.length := by
  simp [covered, bytes16_length]
  omega

/-- The header fields of a frame's bytes, whatever follows (R4). -/
theorem Frame.header (f : Frame) (m : List Byte) :
    byteAt (f.covered ++ m) 0 = f.body.kind ∧ byteAt (f.covered ++ m) 1 = f.sender ∧ word16At (f.covered ++ m) 2 = f.job ∧
      word16At (f.covered ++ m) 4 = BitVec.ofNat 16 f.body.bytes.length ∧ f.covered.drop 6 = f.body.bytes := by
  have header : f.covered ++ m = [f.body.kind, f.sender] ++ (bytes16 f.job ++
      (bytes16 (BitVec.ofNat 16 f.body.bytes.length) ++ (f.body.bytes ++ m))) := by
    simp only [covered_eq, List.append_assoc]
  have later : f.covered ++ m = ([f.body.kind, f.sender] ++ bytes16 f.job) ++
      (bytes16 (BitVec.ofNat 16 f.body.bytes.length) ++ (f.body.bytes ++ m)) := by
    simp only [covered_eq, List.append_assoc]
  refine ⟨by rw [header]; rfl, by rw [header]; rfl, ?_, ?_, by rw [covered_eq]; rfl⟩
  · rw [header]
    exact word16At_field [f.body.kind, f.sender] _ f.job 2 rfl
  · rw [later]
    exact word16At_field ([f.body.kind, f.sender] ++ bytes16 f.job) _ _ 4 rfl

/-- Settles O8: the bytes split into the covered part and its check; the header reads back, and the body by its kind. -/
theorem framesSurviveTheLane : Obligations.FramesSurviveTheLane := by
  unfold Obligations.FramesSurviveTheLane
  intro f wf
  obtain ⟨low, high⟩ := body_lt f wf
  have length : f.bytes.length = 6 + f.body.bytes.length + 4 := by
    rw [Frame.bytes, List.length_append, f.covered_length, bytes32_length]
  have covered : f.bytes.take (f.bytes.length - 4) = f.covered := by
    rw [length, Nat.add_sub_cancel, ← f.covered_length]
    exact List.take_left
  have rest : f.bytes.drop (f.bytes.length - 4) = bytes32 (check f.covered) := by
    rw [length, Nat.add_sub_cancel, ← f.covered_length]
    exact List.drop_left
  obtain ⟨kind, sender, job, size, body⟩ := f.header (bytes32 (check f.covered))
  have sum : word32At (bytes32 (check f.covered)) 0 = check f.covered := by
    simpa using word32At_field [] [] (check f.covered) 0 rfl
  have count : (BitVec.ofNat 16 f.body.bytes.length).toNat = f.body.bytes.length := by
    rw [BitVec.toNat_ofNat]
    omega
  rw [acceptFrame, if_neg (by omega), covered, rest]
  dsimp only
  rw [body, sum, Frame.bytes, kind, sender, job, size,
    if_pos ⟨rfl, count⟩, bodyOf_bytes wf]
  rfl

/-! ### The arbiter (R23, R24) -/

/-- Settles O9: the heads of the classes, searched in order. -/
theorem arbiterTakesTheFirstClass : Obligations.ArbiterTakesTheFirstClass := by
  unfold Obligations.ArbiterTakesTheFirstClass
  intro s
  by_cases active : s.ident.mode = .active
  · rw [State.choice, if_pos active, if_neg (not_not.2 active), State.classHeads]
    by_cases full : s.ident.debt = 8
    · simp [full]
    · cases cancels : s.port.cancels with
      | cons c cs => simp [full]
      | nil =>
        cases repeats : s.port.jobRepeat with
        | true => simp [full]
        | false =>
          cases s.port.class4 with
          | cons g l => simp [full]
          | nil =>
            cases s.port.class5 with
            | cons g l => simp [full]
            | nil =>
              cases s.port.class6 with
              | cons x l => simp [full]
              | nil =>
                cases s.port.class7 with
                | cons x l => simp [full]
                | nil =>
                  by_cases queued : s.rv.request = .queued
                  · simp [full, queued]
                  · by_cases debt : 1 ≤ s.ident.debt ∧ s.ident.debt ≤ 7
                    · simp [full, queued, debt]
                    · simp only [full, queued, debt, if_false, List.head?_nil, Option.map_none, List.findSome?_cons, id,
                        List.findSome?_nil, Bool.false_eq_true]
  · rw [State.choice, if_neg active, if_pos active]

end Sys2Proof.Machine
end

section
/-! SUPPORT. The tables of the repair unit and the slots, read after each change: one equation for each operation
(spec/04_the_segment_window.md, spec/05_repair_within_the_window.md). -/
namespace Sys2Proof.Machine
open Sys2Proof.Safety

/-! ### Tables found by segment -/

section Find

variable {α : Type} (key : α → Nat)

/-- A change of the entries of one segment, looked up. -/
theorem find?_map_key (f : α → α) (g x : Nat) (hf : ∀ e, key (f e) = key e) (l : List α) :
    (l.map fun e => if key e = g then f e else e).find? (fun e => key e == x) =
      if x = g then (l.find? fun e => key e == x).map f else l.find? fun e => key e == x := by
  induction l with
  | nil => simp
  | cons e l ih =>
    have same : key (if key e = g then f e else e) = key e := by split <;> simp [hf]
    rw [List.map_cons, List.find?_cons, List.find?_cons, same]
    cases found : key e == x with
    | false => exact ih
    | true =>
      rw [beq_iff_eq] at found
      subst found
      by_cases h : key e = g <;> simp [h]

/-- The entries whose segments pass a test, looked up. -/
theorem find?_filter_key (t : Nat → Bool) (x : Nat) (l : List α) :
    (l.filter fun e => t (key e)).find? (fun e => key e == x) =
      if t x then l.find? fun e => key e == x else none := by
  induction l with
  | nil => simp
  | cons e l ih =>
    rw [List.filter_cons]
    by_cases found : key e = x
    · subst found
      cases h : t (key e) <;> simp [h, ih]
    · split <;> simp [found, ih]

end Find

/-! ### Pending needs (R85) -/

theorem updNeed_need (g : Nat) (f : NeedEntry → NeedEntry) (hf : ∀ e, (f e).seg = e.seg) (s : State) (x : Nat) :
    (updNeed g f s).need x = if x = g then (s.need x).map f else s.need x :=
  find?_map_key NeedEntry.seg f g x hf s.repair.needs

theorem updNeed_need_same {g : Nat} {f : NeedEntry → NeedEntry} {s : State} {e : NeedEntry} (h : s.need g = some e)
    (hf : ∀ e, (f e).seg = e.seg := by exact fun _ => rfl) : (updNeed g f s).need g = some (f e) := by
  rw [updNeed_need g f hf, if_pos rfl, h, Option.map_some]

theorem updNeed_need_other {g x : Nat} (h : x ≠ g) (f : NeedEntry → NeedEntry) (s : State)
    (hf : ∀ e, (f e).seg = e.seg := by exact fun _ => rfl) : (updNeed g f s).need x = s.need x := by
  rw [updNeed_need g f hf, if_neg h]

theorem updNeed_length (g : Nat) (f : NeedEntry → NeedEntry) (s : State) :
    (updNeed g f s).repair.needs.length = s.repair.needs.length := List.length_map _

theorem keepNeeds_need (t : Nat → Bool) (s : State) (x : Nat) :
    (keepNeeds t s).need x = if t x then s.need x else none :=
  find?_filter_key NeedEntry.seg t x s.repair.needs

theorem dropNeed_need_same (g : Nat) (s : State) : (dropNeed g s).need g = none := by
  rw [dropNeed, keepNeeds_need]
  simp

theorem dropNeed_need_other {g x : Nat} (h : x ≠ g) (s : State) : (dropNeed g s).need x = s.need x := by
  rw [dropNeed, keepNeeds_need]
  simp [h]

/-- The entries of a table with a new entry among them. -/
theorem insertNeed_perm {e : NeedEntry} {l : List NeedEntry} (h : ∀ x ∈ l, x.seg ≠ e.seg) :
    (insertNeed e l).Perm (e :: l) := by
  induction l with
  | nil => exact .refl _
  | cons y l ih =>
    have ne : e.seg ≠ y.seg := Ne.symm (h y List.mem_cons_self)
    rw [insertNeed]
    split
    · exact .refl _
    · exact ((ih fun x hx => h x (List.mem_cons_of_mem _ hx)).cons y).trans (.swap e y l)

theorem insertNeed_find {e : NeedEntry} {l : List NeedEntry} (h : ∀ x ∈ l, x.seg ≠ e.seg) (x : Nat) :
    (insertNeed e l).find? (fun y => y.seg == x) = if x = e.seg then some e else l.find? fun y => y.seg == x := by
  induction l with
  | nil =>
    by_cases hx : x = e.seg
    · simp [insertNeed, hx]
    · simp [insertNeed, hx, Ne.symm hx]
  | cons y l ih =>
    have ne : e.seg ≠ y.seg := Ne.symm (h y List.mem_cons_self)
    rw [insertNeed]
    split
    · by_cases hx : x = e.seg
      · simp [hx]
      · simp [hx, Ne.symm hx]
    · rw [List.find?_cons, List.find?_cons, ih fun x hx => h x (List.mem_cons_of_mem _ hx)]
      by_cases hx : x = e.seg
      · simp [hx, beq_false_of_ne (Ne.symm ne)]
      · simp [hx]

theorem State.need_eq_none_iff {s : State} {g : Nat} : s.need g = none ↔ ∀ e ∈ s.repair.needs, e.seg ≠ g := by
  simp [need]

/-! ### The answer queue (R97) -/

theorem updAnswer_answer (g : Nat) (f : AnswerEntry → AnswerEntry) (hf : ∀ e, (f e).seg = e.seg) (s : State) (x : Nat) :
    (updAnswer g f s).answer x = if x = g then (s.answer x).map f else s.answer x :=
  find?_map_key AnswerEntry.seg f g x hf s.repair.answers

theorem updAnswer_answer_same {g : Nat} {f : AnswerEntry → AnswerEntry} {s : State} {e : AnswerEntry}
    (h : s.answer g = some e) (hf : ∀ e, (f e).seg = e.seg := by exact fun _ => rfl) : (updAnswer g f s).answer g = some (f e) := by
  rw [updAnswer_answer g f hf, if_pos rfl, h, Option.map_some]

theorem updAnswer_answer_other {g x : Nat} (h : x ≠ g) (f : AnswerEntry → AnswerEntry) (s : State)
    (hf : ∀ e, (f e).seg = e.seg := by exact fun _ => rfl) : (updAnswer g f s).answer x = s.answer x := by
  rw [updAnswer_answer g f hf, if_neg h]

theorem keepAnswers_answer (t : Nat → Bool) (s : State) (x : Nat) :
    (keepAnswers t s).answer x = if t x then s.answer x else none :=
  find?_filter_key AnswerEntry.seg t x s.repair.answers

theorem dropAnswer_answer_same (g : Nat) (s : State) : (dropAnswer g s).answer g = none := by
  rw [dropAnswer, keepAnswers_answer]
  simp

theorem dropAnswer_answer_other {g x : Nat} (h : x ≠ g) (s : State) : (dropAnswer g s).answer x = s.answer x := by
  rw [dropAnswer, keepAnswers_answer]
  simp [h]

/-! ### Slots (R61, R63, R83) -/

/-- Settling claims in one condition. -/
theorem Slot.settleClaims_eq (isRecall : Bool) (sl : Slot) :
    sl.settleClaims isRecall =
      if ((isRecall = true ∧ sl.toSend = 0 ∧ sl.st = .whole) ∨ sl.st = .retired) ∧ sl.pending = 0 ∧ sl.inFlight = 0 then
        sl.freed
      else sl := by
  unfold settleClaims unclaimed
  by_cases claims : sl.pending = 0 ∧ sl.inFlight = 0
  · rw [if_pos (by simpa using claims)]
    cases sl.st with
    | whole => cases isRecall <;> simp [claims]
    | retired => simp [claims]
    | free | reading | filling | damaged => simp
  · rw [if_neg (by simpa using claims), if_neg fun h => claims h.2]

theorem settleSlot_same (id : SlotId) (s : State) :
    (settleSlot id s).slot id = (s.slot id).settleClaims id.isRecall := updSlot_same ..

theorem settleSlot_other {id j : SlotId} (h : j ≠ id) (s : State) : (settleSlot id s).slot j = s.slot j :=
  updSlot_other h ..

/-- A parcel bit is the bit of its parcel alone. -/
theorem hasParcel_parcelBit (p q : Fin 8) : hasParcel (parcelBit p) q = true ↔ q = p := by
  revert p q
  decide

theorem hasParcel_ext {m n : Byte} (h : ∀ p, hasParcel m p = hasParcel n p) : m = n :=
  BitVec.eq_of_getLsbD_eq fun i hi => h ⟨i, hi⟩

theorem allParcels_eq : allParcels = List.finRange 8 := by decide

end Sys2Proof.Machine
end

section
/-! SUPPORT. The transmitter: what it takes, and what becomes of a held frame (spec/01_the_copy_bus.md, R16 to R24). -/
namespace Sys2Proof.Machine
open Sys2Proof.Safety

/-! ### The next parcel of an answer (R100) -/

theorem nextSet_eq_none_iff (m : Byte) (start : Fin 8) : nextSet m start = none ↔ m = 0 := by
  have all : nextSet m start = none ↔ ∀ p, hasParcel m (start + p) = false := by
    simp [nextSet, allParcels_eq, List.find?_eq_none]
  rw [all]
  constructor
  · intro h
    refine hasParcel_ext fun p => ?_
    have bit := h (p - start)
    rw [add_sub_cancel] at bit
    rw [bit]
    simp [hasParcel]
  · rintro rfl p
    simp [hasParcel]

/-- The search in wrap order ends at the first set bit: none is set between `start` and it. -/
theorem nextSet_eq_some_iff (m : Byte) (start q : Fin 8) :
    nextSet m start = some q ↔ hasParcel m q = true ∧ ∀ d : Fin 8, d < q - start → hasParcel m (start + d) = false := by
  rw [nextSet, allParcels_eq, List.find?_eq_some_iff_getElem]
  simp only [List.length_map, List.length_finRange, List.getElem_map, List.getElem_finRange, Bool.not_eq_true',
    Fin.cast_mk]
  refine and_congr_right fun _ => ⟨?_, fun before => ?_⟩
  · rintro ⟨i, hi, rfl, before⟩ d hd
    rw [add_sub_cancel_left] at hd
    exact before d.val hd
  · exact ⟨(q - start).val, (q - start).isLt, by rw [Fin.eta, add_sub_cancel], fun j hj => before ⟨j, by omega⟩ hj⟩

/-! ### What the transmitter takes (R16) -/

theorem countRecall_eq (listed : List Nat) (sk : Socket) :
    sk.countRecall listed =
      if sk.st = .copying ∨ sk.st = .repaying then
        { sk with owed := sk.owed.map fun e =>
            if e.seg ∈ listed then { e with record := { e.record with attempts := min 4 (e.record.attempts + 1) } } else e }
      else sk := by
  have state : (sk.st.copyingOrRepaying = true) = (sk.st = .copying ∨ sk.st = .repaying) := by
    cases sk.st <;> simp [SocketState.copyingOrRepaying]
  simp only [Socket.countRecall, state, List.contains_iff_mem]
  rfl

theorem exec_transmitterTake_holding {s : State} (up : s.ident.memTest = false) (h : s.port.tx ≠ .free) :
    exec .transmitterTake s = .next s := by
  refine congrArg Host.Outcome.next ((whenUp_up up).trans ?_)
  split
  · rename_i free
    exact absurd free h
  · rfl

theorem exec_transmitterTake_none {s : State} (up : s.ident.memTest = false) (h : s.port.tx = .free)
    (hc : s.choice = none) : exec .transmitterTake s = .next s := by
  refine congrArg Host.Outcome.next ((whenUp_up up).trans ?_)
  simp only [h, hc]

theorem exec_transmitterTake_some {s : State} (up : s.ident.memTest = false) (h : s.port.tx = .free) {c : Choice}
    (hc : s.choice = some c) : exec .transmitterTake s = .next (takeChoice c s) := by
  refine congrArg Host.Outcome.next ((whenUp_up up).trans ?_)
  simp only [h, hc]

@[simp] theorem hold_need (tag : HeldTag) (job : Word16) (body : FrameBody) (s : State) (x : Nat) :
    (hold tag job body s).need x = s.need x := rfl

@[simp] theorem hold_answer (tag : HeldTag) (job : Word16) (body : FrameBody) (s : State) (x : Nat) :
    (hold tag job body s).answer x = s.answer x := rfl

theorem takeRepeat_eq {s : State} {b : JobBody} (h : s.job.body = some b) :
    takeRepeat s = hold .jobRepeat s.jobField
      (.job { b with enrollClosed := if 0 < s.win.next ∨ b.enrollClosed = 1 then 1 else 0 })
      (updPort (fun p => { p with jobRepeat := false }) s) := by
  simp only [takeRepeat, h]

theorem takeNeed_eq {s : State} {g : Nat} {e : NeedEntry} (h : s.need g = some e) :
    takeNeed g s = hold (.need g) s.jobField (.need (BitVec.ofNat 32 g) e.missing)
      (updNeed g (fun e => { e with st := .asked .held }) (updPort (fun p => { p with class4 := p.class4.drop 1 }) s)) := by
  simp only [takeNeed, h]
  rfl

theorem takeAnswer_eq {s : State} {g : Nat} {e : AnswerEntry} {q : Fin 8} (h : s.answer g = some e)
    (hq : nextSet e.mask e.nextParcel = some q) :
    takeAnswer g s = hold .answer s.jobField (.parcel { s.parcelFrom (.win (winOf g)) g q with isRepair := true })
      (if e.mask &&& ~~~ parcelBit q = 0 then dropAnswer g s
      else updAnswer g (fun x => { x with mask := e.mask &&& ~~~ parcelBit q, nextParcel := q + 1 }) s) := by
  simp only [takeAnswer, h, hq]

/-- A walk that changes one socket at each step leaves the blocks alone that one such change leaves alone. -/
theorem forSockets_updSocket {α : Type} (π : State → α) (f : Socket → Socket)
    (h : ∀ k u, π (updSocket k f u) = π u) (s : State) : π (forSockets (fun k => updSocket k f) s) = π s :=
  forSockets_inv (P := fun u => π u = π s) _ (fun k u hu => (h k u).trans hu) s rfl

theorem forSockets_updSocket_socket (f : Socket → Socket) (s : State) (k : Fin 8) :
    (forSockets (fun k => updSocket k f) s).sockets[k] = f s.sockets[k] :=
  (forSockets_each (I := fun _ => True) (Q := fun j sk => sk = f s.sockets[j]) _ s (fun j => Only.socket j f)
    (fun _ _ _ => trivial) (fun j t _ eq => by rw [updSocket_same, eq]) trivial).2 k

theorem parcelBody_ext_recall {s : State} {r : Fin 2} {p : Fin 8} {g : Nat} (h : (s.slot (.rslot r)).seg = some g) :
    takeRecallParcel r p s = hold (.recallParcel r) s.jobField
      (.parcel { s.parcelFrom (.rslot r) g p with isRecall := true })
      (updPort (fun q => { q with class7 := q.class7.drop 1 }) s) := by
  simp only [takeRecallParcel, h, Option.getD_some]

/-- A walk that changes only sockets. -/
theorem forSockets_updSocket_frame (f : Socket → Socket) (s : State) :
    let u := forSockets (fun k => updSocket k f) s
    u.port = s.port ∧ u.rv = s.rv ∧ (∀ k : Fin 8, u.sockets[k] = f s.sockets[k]) ∧ u.win = s.win ∧ u.job = s.job ∧
      u.repair = s.repair ∧ u.ident = s.ident :=
  have same {α : Type} (π : State → α) (h : ∀ k u, π (updSocket k f u) = π u) := forSockets_updSocket π f h s
  ⟨same State.port fun _ _ => rfl, same State.rv fun _ _ => rfl, forSockets_updSocket_socket f s,
    same State.win fun _ _ => rfl, same State.job fun _ _ => rfl, same State.repair fun _ _ => rfl,
    same State.ident fun _ _ => rfl⟩

/-- Taking the RECALL request: the port, the recall unit and the owed entries of the sockets (R175). -/
theorem takeRequest_spec (s : State) :
    (takeRequest s).port =
        (hold .recallRequest s.jobField (.recallList ((s.candidates.take 8).map (BitVec.ofNat 32))) s).port ∧
      (takeRequest s).rv = { s.rv with request := .taken, listed := s.candidates.take 8 } ∧
      (∀ k : Fin 8, (takeRequest s).sockets[k] = s.sockets[k].countRecall (s.candidates.take 8)) ∧
      (takeRequest s).win = s.win ∧ (takeRequest s).job = s.job ∧ (takeRequest s).repair = s.repair ∧
      (takeRequest s).ident = s.ident := by
  unfold takeRequest
  dsimp only
  obtain ⟨port, rv, sockets, win, job, repair, ident⟩ :=
    forSockets_updSocket_frame (Socket.countRecall (s.candidates.take Config.maxListed))
      (updRv (fun r => { r with request := .taken, listed := s.candidates.take Config.maxListed }) s)
  revert port rv sockets win job repair ident
  generalize forSockets (fun k => updSocket k (Socket.countRecall (s.candidates.take Config.maxListed)))
    (updRv (fun r => { r with request := .taken, listed := s.candidates.take Config.maxListed }) s) = counted
  intro port rv sockets win job repair ident
  refine ⟨?_, rv, sockets, win, job, repair, ident⟩
  simp only [hold, State.jobField, updPort_port, port, job, ident]
  rfl

/-- Settles O10: the search of R100, the count of R175, and the take by the class of the choice. -/
theorem transmitterTakesTheChoice : Obligations.TransmitterTakesTheChoice := by
  unfold Obligations.TransmitterTakesTheChoice
  refine ⟨fun m start => ⟨nextSet_eq_none_iff m start, nextSet_eq_some_iff m start⟩,
    fun m p q => ⟨rfl, hasParcel_parcelBit p q⟩, countRecall_eq, fun s up => ⟨exec_transmitterTake_holding up, fun free => ?_⟩⟩
  cases choice : s.choice with
  | none => exact exec_transmitterTake_none up free choice
  | some c =>
    rw [exec_transmitterTake_some up free choice]
    cases c with
    | beacon | cancel | newData => rfl
    | jobRepeat => exact fun b hb => congrArg Host.Outcome.next (takeRepeat_eq hb)
    | need g =>
      intro e he
      refine ⟨_, congrArg Host.Outcome.next (takeNeed_eq he), rfl, ?_, fun x hx => ?_, rfl, rfl, rfl, rfl, rfl, rfl⟩
      · rw [hold_need]
        exact updNeed_need_same he
      · rw [hold_need]
        exact updNeed_need_other hx ..
    | answer g =>
      intro e q he hq
      refine ⟨_, congrArg Host.Outcome.next (takeAnswer_eq he hq), ?_⟩
      dsimp only
      by_cases left : e.mask &&& ~~~ parcelBit q = 0
      · simp only [if_pos left]
        exact ⟨rfl, dropAnswer_answer_same g s, fun x hx => dropAnswer_answer_other hx s, rfl, rfl, rfl, rfl, rfl, rfl⟩
      · simp only [if_neg left]
        refine ⟨rfl, ?_, fun x hx => ?_, rfl, rfl, rfl, rfl, rfl, rfl⟩
        · rw [hold_answer]
          exact updAnswer_answer_same he
        · rw [hold_answer]
          exact updAnswer_answer_other hx ..
    | recallParcel r p => exact fun g hg => congrArg Host.Outcome.next (parcelBody_ext_recall hg)
    | recallRequest => exact ⟨takeRequest s, rfl, takeRequest_spec s⟩

/-! ### The outcome of a frame (R17 to R22) -/

/-- The report of an outcome leaves the port, the sockets, the job record, the pacing unit, the roster and the patch table
alone; of the identity block it changes the debt of a beacon that was sent (R18, R22). -/
theorem reportOutcome_frame (tag : HeldTag) (sent : Bool) (s : State) :
    let u := reportOutcome tag sent s
    u.port = s.port ∧ u.sockets = s.sockets ∧ u.job = s.job ∧ u.pacing = s.pacing ∧ u.roster = s.roster ∧
      u.patches = s.patches ∧
      u.ident = if tag = .beacon ∧ sent = true then { s.ident with debt := 0 } else s.ident := by
  cases tag with
  | beacon => cases sent <;> exact ⟨rfl, rfl, rfl, rfl, rfl, rfl, rfl⟩
  | need g => exact ⟨rfl, rfl, rfl, rfl, rfl, rfl, rfl⟩
  | recallParcel r => exact ⟨rfl, rfl, rfl, rfl, rfl, rfl, rfl⟩
  | recallRequest =>
    simp only [reportOutcome]
    split <;> exact ⟨rfl, rfl, rfl, rfl, rfl, rfl, rfl⟩
  | cancel | jobRepeat | answer | newData | stale => exact ⟨rfl, rfl, rfl, rfl, rfl, rfl, rfl⟩

/-- The block that offered the frame takes the report (R18, R22, R92, R175, R180). -/
theorem reportOutcome_reported (tag : HeldTag) (sent : Bool) (s : State) :
    outcomeReported tag s (reportOutcome tag sent s) := by
  cases tag with
  | beacon => cases sent <;> exact ⟨rfl, rfl, rfl⟩
  | need g =>
    have keeps (e : NeedEntry) : (if e.st = .asked .held then
        { e with st := .asked .retry, timer := some Config.retrySpan } else e).seg = e.seg := by split <;> rfl
    refine ⟨rfl, rfl, rfl, rfl, fun x hx => updNeed_need_other hx _ s keeps, fun h => ?_, fun e he => ?_⟩
    · simp only [reportOutcome]
      rw [updNeed_need g _ keeps, h, Option.map_none, if_pos rfl]
    · exact updNeed_need_same he keeps
  | recallParcel r =>
    refine ⟨rfl, rfl, rfl, fun id hid => ?_, ?_⟩
    · exact (settleSlot_other hid _).trans (updSlot_other hid _ s)
    · simp only [reportOutcome]
      rw [settleSlot_same, updSlot_same, Slot.settleClaims_eq]
      simp only [SlotId.isRecall, true_and]
      rfl
  | recallRequest =>
    simp only [outcomeReported, reportOutcome]
    split <;> exact ⟨rfl, rfl, rfl⟩
  | cancel | jobRepeat | answer | newData | stale => exact ⟨rfl, rfl, rfl⟩

/-- A FREE transmitter stays FREE (R16, R24). -/
theorem Does.tx_free {s t : State} (h : Does s t) (free : s.port.tx = .free) : t.port.tx = .free := by
  refine h.keeps (P := fun u => u.port.tx = .free) (fun e free => ?_) free
  cases e with
  | work _ _ w => exact w.apart.port ▸ free
  | port f s _ _ _ _ _ stays => exact stays free
  | marks | rise | windowEnd | job | jobEnd | repair | rv | draw => exact free

theorem backoffSlots_lt (attempts draw : Nat) : backoffSlots attempts draw < 2 ^ min attempts 6 :=
  Nat.mod_lt _ (Nat.two_pow_pos _)

theorem exec_interFrameGapComplete {s : State} (up : s.ident.memTest = false) :
    (∀ h, s.port.tx = .holding h .deferring →
      exec .interFrameGapComplete s = .next { s with port := { s.port with tx := .holding h .sending } }) ∧
    ((∀ h, s.port.tx ≠ .holding h .deferring) → exec .interFrameGapComplete s = .next s) := by
  refine ⟨fun h hx => congrArg Host.Outcome.next ((whenUp_up up).trans ?_),
    fun hx => congrArg Host.Outcome.next ((whenUp_up up).trans ?_)⟩
  · simp only [hx]
    rfl
  · split
    · rename_i h e
      exact absurd e (hx h)
    all_goals rfl

theorem exec_backoffEnd {s : State} (up : s.ident.memTest = false) :
    (∀ h n, s.port.tx = .holding h (.backingOff n) →
      exec .backoffEnd s = .next { s with port := { s.port with tx := .holding h .deferring } }) ∧
    ((∀ h n, s.port.tx ≠ .holding h (.backingOff n)) → exec .backoffEnd s = .next s) := by
  refine ⟨fun h n hx => congrArg Host.Outcome.next ((whenUp_up up).trans ?_),
    fun hx => congrArg Host.Outcome.next ((whenUp_up up).trans ?_)⟩
  · simp only [hx]
    rfl
  · split
    · rename_i h n e
      exact absurd e (hx h n)
    all_goals rfl

theorem exec_collision {s : State} (up : s.ident.memTest = false) (position : Nat) :
    (∀ h, s.port.tx = .holding h .sending →
      exec (.collision position) s = .next { s with port := { s.port with
        tx := .holding h .jamming
        badFrames := if 65 ≤ position then satInc s.port.badFrames else s.port.badFrames } }) ∧
    ((∀ h, s.port.tx ≠ .holding h .sending) → exec (.collision position) s = .next s) := by
  refine ⟨fun h hx => congrArg Host.Outcome.next ((whenUp_up up).trans ?_),
    fun hx => congrArg Host.Outcome.next ((whenUp_up up).trans ?_)⟩
  · simp only [hx]
    by_cases late : 65 ≤ position
    · rw [decide_eq_true late, doIf_true, if_pos late]
      rfl
    · rw [decide_eq_false late, doIf_false, if_neg late]
      rfl
  · split
    · rename_i h e
      exact absurd e (hx h)
    all_goals rfl

theorem exec_jamEnd {s : State} {h : HeldFrame} (up : s.ident.memTest = false) (hx : s.port.tx = .holding h .jamming)
    (draw : Nat) : exec (.jamEnd draw) s = .next (settle s.settled (jamEnded h draw s)) := by
  refine congrArg Host.Outcome.next ((act_up up).trans ?_)
  simp only [hx]

theorem exec_frameSent {s : State} {h : HeldFrame} (up : s.ident.memTest = false)
    (hx : s.port.tx = .holding h .sending) :
    exec .frameSent s = .next (settle s.settled (reportOutcome h.tag true (freeTx s))) := by
  refine congrArg Host.Outcome.next ((act_up up).trans ?_)
  simp only [hx]

/-- Settles O11: the phases of an attempt by the phase held, and both outcomes by the report to the frame's block. -/
theorem framesAreSentOrGivenUp : Obligations.FramesAreSentOrGivenUp := by
  unfold Obligations.FramesAreSentOrGivenUp
  simp only [← satInc_eq]
  refine ⟨fun s position up => ?_, fun s h draw up hx => ⟨fun few => ?_, fun all => ?_⟩, fun s h up hx => ?_⟩
  · obtain ⟨gap, gapElse⟩ := exec_interFrameGapComplete up
    obtain ⟨hit, hitElse⟩ := exec_collision up position
    obtain ⟨back, backElse⟩ := exec_backoffEnd up
    exact ⟨gap, hit, back, gapElse, hitElse, backElse⟩
  · refine ⟨_, backoffSlots (h.attempts + 1) draw, exec_jamEnd up hx draw, backoffSlots_lt _ _, ?_⟩
    have more : ¬ Config.maxFrameAttempts ≤ h.attempts + 1 := by
      simp only [Config.maxFrameAttempts]
      omega
    simp only [jamEnded, if_neg more]
    rfl
  · let given : State := freeTx (updPort (fun p => { p with giveUps := satInc p.giveUps }) s)
    have eq : jamEnded h draw s = reportOutcome h.tag false given := if_pos all
    obtain ⟨port, sockets, job, pacing, roster, patches, ident⟩ := reportOutcome_frame h.tag false given
    have run : Does (reportOutcome h.tag false given) (settle s.settled (reportOutcome h.tag false given)) :=
      settle_does ..
    refine ⟨_, _, (exec_jamEnd up hx draw).trans (congrArg (fun u => Host.Outcome.next (settle s.settled u)) eq), rfl,
      run.tx_free (by rw [port]; rfl), ?_, ?_, ?_, ?_, port, ident.trans (by simp; rfl), sockets, job, pacing, roster,
      patches, reportOutcome_reported ..⟩
    · exact run.giveUps.trans (by rw [port]; rfl)
    · exact run.badFrames.trans (by rw [port]; rfl)
    · exact run.ident.trans (ident.trans (by simp; rfl))
    · exact run.roster.trans roster
  · obtain ⟨port, sockets, job, pacing, roster, patches, ident⟩ := reportOutcome_frame h.tag true (freeTx s)
    exact ⟨_, exec_frameSent up hx, port, ident.trans (by simp only [and_true]; rfl), sockets, job, pacing, roster, patches,
      reportOutcome_reported ..⟩

end Sys2Proof.Machine
end

section
/-! SUPPORT. The roster's commands, MUTE and the beacon (spec/02_station_identity_and_the_roster.md). -/
namespace Sys2Proof.Machine
open Sys2Proof.Safety

/-! ### BEACON_ARRIVAL (R31, R38) -/

theorem stationOf_eq_some {sender : Byte} {x : Fin 32} (h : sender.toNat = x.val) : stationOf sender = some x := by
  have inside : sender.toNat < 32 := h ▸ x.isLt
  rw [stationOf, dif_pos inside]
  exact congrArg some (Fin.ext h)

theorem exec_beaconArrival_own {sender : Byte} {job : Word16} {b : BeaconBody} {w : Bool} {s : State}
    (up : s.ident.memTest = false) (h : sender.toNat = s.own.val) :
    exec (.beaconArrival sender job b w) s =
      .next (takeHandoff .roster sender job (.beacon b) (settle s.settled (ownNumberHeard s))) := by
  refine congrArg Host.Outcome.next ((actOnArrival_up up).trans ?_)
  simp only [stationOf_eq_some h, if_true]

theorem exec_beaconArrival_other {sender : Byte} {job : Word16} {b : BeaconBody} {w : Bool} {s : State} {x : Fin 32}
    (up : s.ident.memTest = false) (h : sender.toNat = x.val) (other : x ≠ s.own) :
    exec (.beaconArrival sender job b w) s = .next (takeHandoff .roster sender job (.beacon b)
      (settle s.settled (rosterReport w x (updEntry x (fun _ => heardEntry job b) s)))) := by
  refine congrArg Host.Outcome.next ((actOnArrival_up up).trans ?_)
  simp only [stationOf_eq_some h, if_neg other]

theorem ownNumberHeard_mute {s : State} (h : s.ident.mode = .mute) : ownNumberHeard s = s := by
  rw [ownNumberHeard, h]
  exact doIf_false ..

theorem ownNumberHeard_mutes {s : State} (h : s.ident.mode ≠ .mute) : ownNumberHeard s = enterMute s := by
  rw [ownNumberHeard, bne_iff_ne.2 h, doIf_true]

theorem tornDown_takeHandoff {s : State} (h : tornDown s) (o : Owner) (x : Byte) (j : Word16) (b : FrameBody) :
    tornDown (takeHandoff o x j b s) := h

/-! ### MUTE (R24, R32) -/

/-- The station when its job has ended on the way to MUTE. -/
def endedForMute (s : State) : State :=
  if s.job.st = .idle then updJob (fun _ => Job.reset) s else exitSockets .ready (teardown (fun _ => Job.reset) s)

theorem enterMute_eq (s : State) : enterMute s =
    updIdent (fun i => { i with mode := .mute, listenTimer := none, beaconTimer := none, debt := 0 })
      (updPacing (fun p => { p with hold := .released, holdTimer := none })
        (updPort (fun p => { p.jobEnded with tx := .free, cancels := [] }) (endedForMute s))) := rfl

/-- A job ended on the way to MUTE is torn down. -/
theorem endedForMute_torn {s : State} (h : s.job.st ≠ .idle) :
    tornDown (endedForMute s) ∧ Torn (endedForMute s) ∧ (endedForMute s).job = Job.reset ∧
      (endedForMute s).port = s.port.jobEnded := by
  obtain ⟨down, torn, job, port, -⟩ := endJob_torn (fun _ => Job.reset) .ready s rfl ⟨rfl, rfl, rfl, rfl, rfl⟩ rfl (by decide)
  rw [endedForMute, if_neg h]
  exact ⟨down, torn, job, port⟩

theorem endedForMute_job (s : State) : (endedForMute s).job = Job.reset := by
  by_cases h : s.job.st = .idle
  · rw [endedForMute, if_pos h]
    rfl
  · exact (endedForMute_torn h).2.2.1

theorem endedForMute_port (s : State) : (endedForMute s).port.jobEnded = s.port.jobEnded := by
  by_cases h : s.job.st = .idle
  · rw [endedForMute, if_pos h]
    rfl
  · rw [(endedForMute_torn h).2.2.2, Port.jobEnded, Port.jobEnded]
    cases s.port.tx with
    | free => rfl
    | holding f phase =>
      have twice : f.tag.jobEnded.jobEnded = f.tag.jobEnded := by cases f.tag <;> rfl
      simp only [Transmitter.jobEnded, twice]

theorem enterMute_job (s : State) : (enterMute s).job = Job.reset := endedForMute_job s

theorem enterMute_port (s : State) : (enterMute s).port = { s.port.jobEnded with tx := .free, cancels := [] } :=
  congrArg (fun p : Port => { p with tx := .free, cancels := [] }) (endedForMute_port s)

theorem endedForMute_does (s : State) : Does s (endedForMute s) := by
  unfold endedForMute
  split
  · rename_i idle
    exact .one (.job _ s (fun _ => rfl) (by rw [idle]; rfl) fun _ => FormerRule.reset)
  · exact endJob_does _ s (fun _ => rfl) rfl rfl .ready

theorem enterMute_ident (s : State) :
    (enterMute s).ident = { s.ident with mode := .mute, listenTimer := none, beaconTimer := none, debt := 0 } :=
  congrArg (fun i : Ident => { i with mode := .mute, listenTimer := none, beaconTimer := none, debt := 0 })
    (endedForMute_does s).ident

theorem enterMute_roster (s : State) : (enterMute s).roster = s.roster :=
  congrArg Outer.roster (endedForMute_does s).outer

theorem enterMute_torn {s : State} (h : s.job.st ≠ .idle) : tornDown (enterMute s) ∧ Torn (enterMute s) := by
  obtain ⟨down, torn, -, -⟩ := endedForMute_torn h
  have pacing : (enterMute s).pacing = Pacing.reset := by
    show { (endedForMute s).pacing with hold := .released, holdTimer := none } = Pacing.reset
    rw [torn.pacing]
    rfl
  obtain ⟨source, former, orphan, settle_, repeat_, repair, rv, -, base, next, mark, high, -, slots, sockets⟩ := down
  exact ⟨⟨source, former, orphan, settle_, repeat_, repair, rv, pacing, base, next, mark, high,
    ⟨rfl, rfl, rfl, rfl, rfl⟩, slots, sockets⟩, ⟨torn.slots, torn.sockets, pacing, torn.outside⟩⟩

/-! ### The end of a step outside a job -/

theorem withdrawRequest_frame (s : State) :
    ∃ r, withdrawRequest s = { s with rv := { s.rv with request := r } } ∧
      (s.ident.mode ≠ .active → r ≠ .queued) := by
  unfold withdrawRequest
  split
  · exact ⟨.idle, rfl, fun _ => by decide⟩
  · rename_i kept
    refine ⟨s.rv.request, rfl, fun outside queued => kept ⟨queued, ?_⟩⟩
    simp [State.requestOpen, outside]

theorem judgeHold_frame (s : State) : ∃ h t, judgeHold s = { s with pacing := { s.pacing with hold := h, holdTimer := t } } := by
  unfold judgeHold
  split
  · split
    · exact ⟨_, _, rfl⟩
    all_goals exact ⟨s.pacing.hold, s.pacing.holdTimer, rfl⟩
  · exact ⟨_, _, rfl⟩

/-- At the end of a step outside a job only the request and the HOLD output may change. -/
theorem settle_outside_frame {s : State} (h : s.job.st.working = false) (b : Bool) :
    ∃ r o t, settle b s =
      { s with rv := { s.rv with request := r }, pacing := { s.pacing with hold := o, holdTimer := t } } ∧
      (s.ident.mode ≠ .active → r ≠ .queued ∧ o = .released ∧ t = none) := by
  obtain ⟨r, er, hr⟩ := withdrawRequest_frame s
  obtain ⟨o, t, eo⟩ := judgeHold_frame (withdrawRequest s)
  refine ⟨r, o, t, by rw [settle_outside b s h, eo, er], fun outside => ?_⟩
  have off : (withdrawRequest s).holdDemand = false := holdDemand_off (by rw [er]; exact outside)
  have held : { (withdrawRequest s).pacing with hold := o, holdTimer := t } =
      { (withdrawRequest s).pacing with hold := .released, holdTimer := none } := by
    have eq := congrArg State.pacing eo
    rw [judgeHold, off] at eq
    exact eq.symm
  injection held with _ ho ht
  exact ⟨hr outside, ho, ht⟩

/-! ### What the roster's commands leave -/

/-- Settles O12: the entry is set before the reports, and neither they nor the judgements touch a roster entry. -/
theorem beaconFillsTheEntry : Obligations.BeaconFillsTheEntry := by
  unfold Obligations.BeaconFillsTheEntry
  intro sender job b w s x up hx
  refine ⟨fun own => ⟨_, exec_beaconArrival_own up (hx.trans (congrArg Fin.val own)), ?_⟩,
    fun other => ⟨_, exec_beaconArrival_other up hx other, ?_⟩⟩
  · rw [takeHandoff_roster, (settle_does ..).roster]
    by_cases mute : s.ident.mode = .mute
    · rw [ownNumberHeard_mute mute]
    · rw [ownNumberHeard_mutes mute, enterMute_roster]
  · have run : Does (updEntry x (fun _ => heardEntry job b) s)
        (settle s.settled (rosterReport w x (updEntry x (fun _ => heardEntry job b) s))) :=
      (settle_does ..).after (rosterReport_does ..)
    rw [takeHandoff_roster, takeHandoff_ident, takeHandoff_port, run.roster, run.ident, run.handoffs]
    exact ⟨rfl, rfl, rfl⟩

/-- What MUTE leaves at the end of its step: only a queued request may have been withdrawn since `enterMute`. -/
theorem settle_enterMute (s : State) :
    let t := settle s.settled (enterMute s)
    t.roster = s.roster ∧ t.ident = { s.ident with mode := .mute, listenTimer := none, beaconTimer := none, debt := 0 } ∧
      t.job = Job.reset ∧ t.port = { s.port.jobEnded with tx := .free, cancels := [] } ∧ t.rv.request ≠ .queued ∧
      t.pacing.hold = .released ∧ t.pacing.holdTimer = none ∧ (s.job.st ≠ .idle → tornDown t) := by
  have outside : (enterMute s).job.st.working = false := by
    rw [enterMute_job]
    rfl
  have mute : (enterMute s).ident.mode ≠ .active := by
    rw [enterMute_ident]
    simp
  obtain ⟨r, o, t, eq, hr⟩ := settle_outside_frame outside s.settled
  obtain ⟨notQueued, released, stopped⟩ := hr mute
  dsimp only
  refine ⟨?_, ?_, ?_, ?_, ?_, ?_, ?_, fun inJob => ?_⟩
  · rw [eq, ← enterMute_roster s]
  · rw [eq, ← enterMute_ident s]
  · rw [eq, ← enterMute_job s]
  · rw [eq, ← enterMute_port s]
  · rw [eq]
    exact notQueued
  · rw [eq]
    exact released
  · rw [eq]
    exact stopped
  · obtain ⟨down, torn⟩ := enterMute_torn inJob
    rw [settle_tornDown down torn]
    exact down

/-- Settles O13: MUTE by `enterMute`, after which the end of the step can only withdraw the request. -/
theorem ownNumberMutes : Obligations.OwnNumberMutes := by
  unfold Obligations.OwnNumberMutes
  intro sender job b w s up hx
  refine ⟨_, exec_beaconArrival_own up hx, ?_⟩
  by_cases mute : s.ident.mode = .mute
  · rw [ownNumberHeard_mute mute, takeHandoff_roster, takeHandoff_port, takeHandoff_ident]
    have run : Does s (settle s.settled s) := settle_does ..
    exact ⟨run.roster, run.giveUps, run.badFrames, fun _ => run.ident, fun h => absurd mute h⟩
  · rw [ownNumberHeard_mutes mute]
    obtain ⟨roster, ident, job, port, request, hold, timer, down⟩ := settle_enterMute s
    rw [takeHandoff_roster, takeHandoff_port, takeHandoff_ident, takeHandoff_job, takeHandoff_rv, takeHandoff_pacing, port]
    exact ⟨roster, rfl, rfl, fun h => absurd h mute, fun _ => ⟨ident, job, rfl, rfl, rfl, rfl, rfl, rfl, rfl, request, hold,
      timer, fun inJob => tornDown_takeHandoff (down inJob) ..⟩⟩

/-! ### SILENCE_TIMER_EXPIRY and the reports (R39, R40) -/

theorem exec_silenceTimerExpiry {x : Fin 32} {w : Bool} {s : State} (up : s.ident.memTest = false) :
    exec (.silenceTimerExpiry x w) s = .next (settle s.settled
      (if x ≠ s.own ∧ s.roster[x].timer.isSome then rosterReport w x (updEntry x RosterEntry.silenced s) else s)) := by
  rw [exec, execSilenceTimerExpiry, act_up up]

theorem silenced_present {e : RosterEntry} (h : e.st = .present) :
    e.silenced = { e with st := .silent, timer := some (100 * Config.tb) } := by
  rw [RosterEntry.silenced, h]
  rfl

theorem silenced_silent {e : RosterEntry} (h : e.st = .silent) : e.silenced = RosterEntry.empty := by
  rw [RosterEntry.silenced, h]

theorem updEntry_eq {x : Fin 32} {f : RosterEntry → RosterEntry} {s : State} {e : RosterEntry} (h : f s.roster[x] = e) :
    updEntry x f s = { s with roster := s.roster.set x e } := by
  rw [updEntry, h]

/-- A station's number as a sender byte. -/
theorem eq_ofNat_iff {b : Byte} {x : Fin 32} : b = BitVec.ofNat 8 x.val ↔ b.toNat = x.val := by
  rw [BitVec.toNat_eq, BitVec.toNat_ofNat, Nat.mod_eq_of_lt (by omega)]

theorem isSource_iff {s : State} {x : Fin 32} :
    s.isSource (BitVec.ofNat 8 x.val) = true ↔ ∃ b, s.job.body = some b ∧ b.srcStation.toNat = x.val := by
  rw [State.isSource]
  cases s.job.body with
  | none => simp
  | some b => simp [eq_ofNat_iff]

theorem watches_iff {s : State} {x : Fin 32} :
    s.watches x = true ↔ s.job.source = false ∧ s.job.st.working = true ∧
      ∃ b, s.job.body = some b ∧ b.srcStation.toNat = x.val := by
  rw [State.watches, Bool.and_eq_true, Bool.and_eq_true, Bool.not_eq_true', isSource_iff, and_assoc]

/-- Settles O14: the expiry by the entry's state, the reports by what the station watches. -/
theorem rosterChangesAreReported : Obligations.RosterChangesAreReported := by
  unfold Obligations.RosterChangesAreReported
  refine ⟨fun x w s up => ?_, fun sender job b w s x up hx other => exec_beaconArrival_other up hx other,
    fun w x s => ⟨fun mute => if_pos mute, fun outside => if_neg outside, fun idle => ?_, fun watched => ?_⟩⟩
  · have stopped (h : x = s.own ∨ s.roster[x].timer = none) :
        exec (.silenceTimerExpiry x w) s = .next (settle s.settled s) := by
      rw [exec_silenceTimerExpiry up, if_neg]
      rintro ⟨other, runs⟩
      obtain own | off := h
      · exact other own
      · rw [off] at runs
        cases runs
    have expires (other : x ≠ s.own) (runs : s.roster[x].timer.isSome) {e : RosterEntry} (he : s.roster[x].silenced = e) :
        exec (.silenceTimerExpiry x w) s =
          .next (settle s.settled (rosterReport w x { s with roster := s.roster.set x e })) := by
      rw [exec_silenceTimerExpiry up, if_pos ⟨other, runs⟩, updEntry_eq he]
    have present (other : x ≠ s.own) (runs : s.roster[x].timer.isSome) (h : s.roster[x].st = .present) :=
      expires other runs (silenced_present h)
    have silent (other : x ≠ s.own) (runs : s.roster[x].timer.isSome) (h : s.roster[x].st = .silent) :=
      expires other runs (silenced_silent h)
    have ends {u t : State} (run : Does u t) (e : exec (.silenceTimerExpiry x w) s = .next t) {v : State}
        (ev : exec (.silenceTimerExpiry x w) s = .next v) : v.roster = u.roster := by
      injection e.symm.trans ev with eq
      exact eq ▸ run.roster
    refine ⟨⟨_, exec_silenceTimerExpiry up, ?_, fun h => ?_, fun other runs h => ?_, fun other runs h => ?_⟩,
      stopped, present, silent⟩
    · refine (settle_does ..).ident.trans ?_
      split
      · exact (rosterReport_does ..).ident
      · rfl
    · exact ends (settle_does ..) (stopped h) (exec_silenceTimerExpiry up)
    · exact ends ((settle_does ..).after (rosterReport_does ..)) (present other runs h) (exec_silenceTimerExpiry up)
    · exact ends ((settle_does ..).after (rosterReport_does ..)) (silent other runs h) (exec_silenceTimerExpiry up)
  · have off : s.watches x = false := Bool.eq_false_iff.2 (mt watches_iff.1 idle)
    exact ⟨by simp [jobReport, off], by simp [windowReport, off]⟩
  · have on : s.watches x = true := watches_iff.2 watched
    exact ⟨by simp [jobReport, on], by simp [windowReport, on]⟩

/-! ### The beacon (R36) -/

theorem mem_allSockets (k : Fin 8) : k ∈ allSockets := by
  revert k
  decide

theorem allSockets_getElem? (k : Fin 8) : allSockets[k.val]? = some k := by
  revert k
  decide

theorem settled_iff {s : State} : s.settled = true ↔ ∀ k : Fin 8, s.sockets[k].st.inJob = false := by
  simp only [State.settled, List.all_eq_true, Bool.not_eq_true']
  exact ⟨fun h k => h k (mem_allSockets k), fun h k _ => h k⟩

/-- The fields of a socket code byte (R8). -/
theorem codeByte_bits (hold tie : Bool) (code : BitVec 4) :
    let c : Byte := (0#2 ++ (BitVec.ofBool hold ++ BitVec.ofBool tie)) ++ code
    c.extractLsb' 0 4 = code ∧ c.getLsbD 4 = tie ∧ c.getLsbD 5 = hold ∧ c.getLsbD 6 = false ∧ c.getLsbD 7 = false := by
  revert hold tie code
  decide

theorem enrollCause_iff {s : State} :
    s.enrollCause = true ↔ s.job.st = .enrolling ∧ ∃ k : Fin 8, s.sockets[k].st = .preparing := by
  simp only [State.enrollCause, Bool.and_eq_true, beq_iff_eq, List.any_eq_true]
  exact and_congr_right fun _ => ⟨fun ⟨k, _, h⟩ => ⟨k, h⟩, fun ⟨k, h⟩ => ⟨k, mem_allSockets k, h⟩⟩

theorem holdFlag_iff {s : State} {k : Fin 8} :
    s.holdFlag k = true ↔ s.pacing.hold = .asserted ∧
      ((s.job.st = .enrolling ∧ s.sockets[k].st = .preparing) ∨ s.pacing.loss.cond = true) := by
  simp only [State.holdFlag, Bool.and_eq_true, Bool.or_eq_true, beq_iff_eq, enrollCause_iff]
  refine and_congr_right fun _ => or_congr_left ⟨fun h => ⟨h.1.1, h.2⟩, fun h => ⟨⟨h.1, k, h.2⟩, h.2⟩⟩

/-- Settles O15: the record field by field, the code bytes by their bits. -/
theorem beaconReportsTheStation : Obligations.BeaconReportsTheStation := by
  unfold Obligations.BeaconReportsTheStation
  refine ⟨fun s => ⟨rfl, rfl, rfl, rfl, settled_iff, beq_iff_eq, rfl, rfl, ?_, rfl, rfl, rfl, fun k => ?_, rfl, rfl⟩,
    ⟨rfl, rfl, rfl, rfl, rfl, rfl, rfl⟩, rfl, rfl, rfl, rfl, rfl, rfl, rfl⟩
  · show lowMarkField s.lowMark = _
    cases s.lowMark <;> rfl
  · obtain ⟨code, tie, hold, high⟩ := codeByte_bits (s.holdFlag k) (s.sockets[k].tie == .released)
      (socketCode s.sockets[k].st s.sockets[k].reason)
    refine ⟨s.codeByte k, ?_, code, ?_, ?_, high⟩
    · show (allSockets.map s.codeByte)[k.val]? = _
      rw [List.getElem?_map, allSockets_getElem?]
      rfl
    · exact (Bool.eq_iff_iff.1 tie).trans beq_iff_eq
    · exact (Bool.eq_iff_iff.1 hold).trans holdFlag_iff

end Sys2Proof.Machine
end

section
/-! SUPPORT. The job controller: the judgement of a JOB frame, the end of a job, the source's reports and the finishing checks
(spec/03_jobs.md). -/
namespace Sys2Proof.Machine
open Sys2Proof.Safety

/-! ### The tests of a JOB frame (R44) -/

theorem find?_cons_ite {α : Type} (p : α → Bool) (a : α) (l : List α) :
    (a :: l).find? p = if p a = true then some a else l.find? p := by
  rw [List.find?_cons]
  cases p a <;> rfl

theorem imageSize_fails (b : JobBody) :
    (!decide (1 ≤ b.imageSize.toNat ∧ b.imageSize.toNat ≤ Config.maxImage)) = true ↔
      b.imageSize.toNat = 0 ∨ 2097152 < b.imageSize.toNat := by
  rw [Bool.not_eq_true', decide_eq_false_iff_not]
  simp only [Config.maxImage]
  omega

theorem source_fails (b : JobBody) :
    (!(decide (b.srcStation.toNat ≤ 31) && decide (b.srcSocket.toNat ≤ 7))) = true ↔
      31 < b.srcStation.toNat ∨ 7 < b.srcSocket.toNat := by
  simp only [Bool.not_eq_true', Bool.and_eq_false_iff, decide_eq_false_iff_not, not_le]

theorem config_fails (job : Word16) (b : JobBody) :
    (!configOk job b) = true ↔
      job = 0 ∨ 2 < b.policy.toNat ∨ b.lagThreshold.toNat = 0 ∨ 15 < b.lagThreshold.toNat ∨
        15 < b.lagDuration.toNat ∨ 1 < b.latch.toNat ∨ b.needThreshold.toNat = 0 ∨ 16 < b.needThreshold.toNat ∨
        15 < b.lossDuration.toNat ∨ 1 < b.verify.toNat ∨ 1 < b.enrollClosed.toNat ∨ b.digest ≠ jobDigest b := by
  have zero (n : Nat) : ¬ (1 ≤ n) ↔ n = 0 := by omega
  simp only [configOk, Bool.not_eq_true', Bool.and_eq_false_iff, decide_eq_false_iff_not, not_and_or, not_le, zero,
    bne_eq_false_iff_eq, beq_eq_false_iff_ne, or_assoc]

theorem patchKind_fails (l : List PatchEntry) :
    (!l.all fun p => p.kind == 1 || p.kind == 2 || p.kind == 3) = true ↔
      ∃ p ∈ l, p.kind.toNat = 0 ∨ 3 < p.kind.toNat := by
  have kind (k : Byte) : (k == 1 || k == 2 || k == 3) = false ↔ k.toNat = 0 ∨ 3 < k.toNat := by
    simp only [Bool.or_eq_false_iff, beq_eq_false_iff_ne, ne_eq, BitVec.toNat_eq]
    simp
    omega
  simp only [Bool.not_eq_true', List.all_eq_false, Bool.not_eq_true, kind]

theorem patchLength_fails (l : List PatchEntry) :
    (!l.all lengthOk) = true ↔ ∃ p ∈ l, (p.kind.toNat = 1 ∧ (p.len.toNat = 0 ∨ 16 < p.len.toNat)) ∨
      (p.kind.toNat = 2 ∧ p.len.toNat ≠ 3) ∨ (p.kind.toNat = 3 ∧ p.len.toNat ≠ 8) := by
  have length (p : PatchEntry) : lengthOk p = false ↔ (p.kind.toNat = 1 ∧ (p.len.toNat = 0 ∨ 16 < p.len.toNat)) ∨
      (p.kind.toNat = 2 ∧ p.len.toNat ≠ 3) ∨ (p.kind.toNat = 3 ∧ p.len.toNat ≠ 8) := by
    unfold lengthOk
    have eq (b : Byte) (n : Nat) (h : n < 256) : b = BitVec.ofNat 8 n ↔ b.toNat = n := by
      rw [BitVec.toNat_eq, BitVec.toNat_ofNat, Nat.mod_eq_of_lt h]
    have one := eq p.kind 1 (by decide)
    have two := eq p.kind 2 (by decide)
    have three := eq p.kind 3 (by decide)
    split_ifs with h1 h2 h3
    · have k := one.1 h1
      simp only [decide_eq_false_iff_not]
      omega
    · have k := two.1 h2
      have len : p.len = 3 ↔ _ := eq p.len 3 (by decide)
      simp only [beq_eq_false_iff_ne, ne_eq]
      rw [len]
      omega
    · have k := three.1 h3
      have len : p.len = 8 ↔ _ := eq p.len 8 (by decide)
      simp only [beq_eq_false_iff_ne, ne_eq]
      rw [len]
      omega
    · have k1 := mt one.2 h1
      have k2 := mt two.2 h2
      have k3 := mt three.2 h3
      simp only [false_iff]
      omega
  simp only [Bool.not_eq_true', List.all_eq_false, Bool.not_eq_true, length]

theorem patchPlace_fails (n : Nat) (l : List PatchEntry) :
    (!l.all fun p => decide (p.offset.toNat + p.len.toNat ≤ Config.segmentBytes) && decide (p.seg.toNat < n)) = true ↔
      ∃ p ∈ l, 32768 < p.offset.toNat + p.len.toNat ∨ n ≤ p.seg.toNat := by
  simp only [Bool.not_eq_true', List.all_eq_false, Bool.not_eq_true, Bool.and_eq_false_iff, decide_eq_false_iff_not, not_le,
    not_lt]
  rfl

theorem patchNumber_fails (l : List PatchEntry) :
    (!((l.all fun p => decide (p.number.toNat ≤ 7)) && decide (l.map (·.number)).Nodup)) = true ↔
      (∃ p ∈ l, 7 < p.number.toNat) ∨ ¬ (l.map fun p => p.number).Nodup := by
  simp only [Bool.not_eq_true', Bool.and_eq_false_iff, List.all_eq_false, decide_eq_true_eq, not_le,
    decide_eq_false_iff_not]

/-- The reason of a JOB frame is that of the first test it fails, in code order (R44). -/
theorem judgeJob_eq (job : Word16) (b : JobBody) :
    judgeJob job b =
      if b.imageSize.toNat = 0 ∨ 2097152 < b.imageSize.toNat then some .imageSize
      else if 31 < b.srcStation.toNat ∨ 7 < b.srcSocket.toNat then some .source
      else if job = 0 ∨ 2 < b.policy.toNat ∨ b.lagThreshold.toNat = 0 ∨ 15 < b.lagThreshold.toNat ∨
          15 < b.lagDuration.toNat ∨ 1 < b.latch.toNat ∨ b.needThreshold.toNat = 0 ∨ 16 < b.needThreshold.toNat ∨
          15 < b.lossDuration.toNat ∨ 1 < b.verify.toNat ∨ 1 < b.enrollClosed.toNat ∨ b.digest ≠ jobDigest b then
        some .config
      else if ∃ p ∈ b.patches, p.kind.toNat = 0 ∨ 3 < p.kind.toNat then some .patchKind
      else if ∃ p ∈ b.patches, (p.kind.toNat = 1 ∧ (p.len.toNat = 0 ∨ 16 < p.len.toNat)) ∨
          (p.kind.toNat = 2 ∧ p.len.toNat ≠ 3) ∨ (p.kind.toNat = 3 ∧ p.len.toNat ≠ 8) then some .patchLength
      else if ∃ p ∈ b.patches, 32768 < p.offset.toNat + p.len.toNat ∨ b.imageSize.toNat ≤ p.seg.toNat then
        some .patchPlace
      else if (∃ p ∈ b.patches, 7 < p.number.toNat) ∨ ¬ (b.patches.map fun p => p.number).Nodup then some .patchNumber
      else none := by
  simp only [judgeJob, jobTests, find?_cons_ite, List.find?_nil, apply_ite (Option.map Prod.fst), Option.map_some,
    Option.map_none, imageSize_fails, source_fails, config_fails, patchKind_fails, patchLength_fails, patchPlace_fails,
    patchNumber_fails]

/-! ### JOB_ARRIVAL (R43, R44) -/

theorem exec_jobArrival {sender : Byte} {job : Word16} {b : JobBody} {s : State} (up : s.ident.memTest = false) :
    exec (.jobArrival sender job b) s = .next (takeHandoff .jobController sender job (.job b)
      (settle s.settled (doIf (s.ident.mode == .active) (takeJob job b) s))) :=
  congrArg Host.Outcome.next (actOnArrival_up up)

theorem exec_jobArrival_active {sender : Byte} {job : Word16} {b : JobBody} {s : State} (up : s.ident.memTest = false)
    (active : s.ident.mode = .active) :
    exec (.jobArrival sender job b) s = .next (takeHandoff .jobController sender job (.job b)
      (settle s.settled (takeJob job b s))) := by
  rw [exec_jobArrival up, active]
  rfl

/-- A JOB frame is judged where no job is held, or an ended one with another number (R43). -/
theorem takeJob_judged {job : Word16} {b : JobBody} {s : State}
    (h : s.job.st = .idle ∨ ((s.job.st = .finished ∨ s.job.st = .cancelled) ∧ s.job.lastAdopted ≠ some job)) :
    takeJob job b s = judgeAdoption job b s ∧ s.job.st.working = false := by
  obtain idle | ⟨ended | ended, other⟩ := h
  · exact ⟨by simp only [takeJob, idle], by rw [idle]; rfl⟩
  · exact ⟨by simp only [takeJob, ended, if_neg other], by rw [ended]; rfl⟩
  · exact ⟨by simp only [takeJob, ended, if_neg other], by rw [ended]; rfl⟩

theorem takeJob_ignored {job : Word16} {b : JobBody} {s : State}
    (h : s.job.st.working = true ∨
      ((s.job.st = .finished ∨ s.job.st = .cancelled) ∧ s.job.lastAdopted = some job)) : takeJob job b s = s := by
  obtain working | ⟨ended | ended, same⟩ := h
  · cases st : s.job.st <;> simp only [takeJob, st]
    all_goals exact absurd working (by rw [st]; decide)
  · simp only [takeJob, ended, if_pos same]
  · simp only [takeJob, ended, if_pos same]

/-- Settles O16: the tests one by one, a refusal as a change of the refusal reason alone, and the frames not judged. -/
theorem jobTestsAndRefusal : Obligations.JobTestsAndRefusal := by
  unfold Obligations.JobTestsAndRefusal
  refine ⟨⟨judgeJob_eq, fun sender job b r s up active free refused => ?_⟩, fun sender job b s up h => ?_⟩
  · obtain ⟨judged, outside⟩ := takeJob_judged (b := b) free
    have taken : takeJob job b s = updJob (fun j => { j with refusal := some r }) s := by
      rw [judged, judgeAdoption, refused]
    obtain ⟨q, o, t, eq, -⟩ := settle_outside_frame (s := updJob (fun j => { j with refusal := some r }) s) outside s.settled
    refine ⟨_, exec_jobArrival_active up active, ?_⟩
    rw [taken, eq]
    exact ⟨rfl, rfl, rfl, rfl, rfl, rfl, rfl, rfl, rfl, rfl, rfl⟩
  · rw [exec_jobArrival up]
    obtain inactive | ignored := h
    · rw [beq_false_of_ne inactive, doIf_false]
    · rw [doIf, takeJob_ignored ignored, ite_self]

/-! ### CANCEL_ARRIVAL and ORPHAN_TIMER_EXPIRY (R51, R57, R59) -/

theorem exec_cancelArrival {sender : Byte} {job : Word16} {reason : Byte} {s : State} (up : s.ident.memTest = false) :
    exec (.cancelArrival sender job reason) s = .next (takeHandoff .jobController sender job (.cancel reason)
      (settle s.settled (doIf (s.ident.mode == .active && s.isCurrent job && s.job.st.working) enterCancelled s))) :=
  congrArg Host.Outcome.next (actOnArrival_up up)

theorem exec_orphanTimerExpiry {s : State} (up : s.ident.memTest = false) (runs : s.job.orphanTimer.isSome) :
    exec .orphanTimerExpiry s = .next (settle s.settled (orphanExpired s)) := by
  refine congrArg Host.Outcome.next ((act_up up).trans ?_)
  rw [runs]
  rfl

theorem takeHandoff_cancels (o : Owner) (x : Byte) (j : Word16) (b : FrameBody) (s : State) :
    (takeHandoff o x j b s).port.cancels = s.port.cancels := rfl

/-- A step that has torn the job down ends at once. -/
theorem settle_enterCancelled (b : Bool) (s : State) : settle b (enterCancelled s) = enterCancelled s :=
  settle_tornDown (enterCancelled_torn s).1 (enterCancelled_torn s).2.1 b

theorem settle_enterFinished (b : Bool) (s : State) : settle b (enterFinished s) = enterFinished s :=
  settle_tornDown (enterFinished_torn s).1 (enterFinished_torn s).2.1 b

theorem enterCancelled_cancels (s : State) : (enterCancelled s).port.cancels = s.port.cancels := by
  obtain ⟨-, -, -, port, -⟩ := enterCancelled_torn s
  rw [port]
  rfl

theorem enterFinished_cancels (s : State) : (enterFinished s).port.cancels = s.port.cancels := by
  obtain ⟨-, -, -, port, -⟩ := enterFinished_torn s
  rw [port]
  rfl

/-- The marks survive a CANCEL (R106). -/
theorem enterCancelled_written (s : State) (k : Fin 8) : (enterCancelled s).sockets[k].written = s.sockets[k].written :=
  endJob_marks (Job.ended .cancelled) .ready s k

/-- A final orphan's sockets fail with SOURCE-LOST, at once or as an exit target (R59, R150). -/
theorem enterFinished_socket {s : State} {k : Fin 8} (h : s.sockets[k].st.inJob = true) :
    ((enterFinished s).sockets[k].st = .failed ∧ (enterFinished s).sockets[k].reason = .sourceLost) ∨
      (enterFinished s).sockets[k].exit = some .sourceLost :=
  endJob_socket (Job.ended .finished) .sourceLost s rfl rfl (by decide) k h

/-- Settles O19: the CANCEL by its conditions, the orphan timer by the job state; both end in a teardown. -/
theorem cancelAndOrphanTimerEndTheJob : Obligations.CancelAndOrphanTimerEndTheJob := by
  unfold Obligations.CancelAndOrphanTimerEndTheJob
  refine ⟨fun sender job reason s up => ⟨?_, fun other => ?_⟩, fun s up runs => ⟨fun orphaned => ?_, fun st unconfirmed => ?_⟩⟩
  · rintro ⟨active, current, working⟩
    have guard : (s.ident.mode == .active && s.isCurrent job && s.job.st.working) = true := by
      simp [active, State.isCurrent, current, working]
    obtain ⟨down, -, jobEq, -, table⟩ := enterCancelled_torn s
    refine ⟨_, exec_cancelArrival up, ?_⟩
    rw [guard, doIf_true, settle_enterCancelled]
    refine ⟨tornDown_takeHandoff down .., ?_, ?_, ?_, fun k => ?_⟩
    · rw [takeHandoff_job, jobEq]
      rfl
    · rw [takeHandoff_cancels, enterCancelled_cancels]
    · rw [takeHandoff_win, table]
    · rw [takeHandoff_sockets, enterCancelled_written]
  · have guard : (s.ident.mode == .active && s.isCurrent job && s.job.st.working) = false := by
      refine Bool.eq_false_iff.2 fun h => other ?_
      simpa [State.isCurrent, and_assoc] using h
    rw [exec_cancelArrival up, guard, doIf_false]
  · refine ⟨_, exec_orphanTimerExpiry up runs, ?_⟩
    rw [orphanExpired, if_pos orphaned, settle_enterFinished]
    obtain ⟨down, -, jobEq, -⟩ := enterFinished_torn (updJob (fun j => { j with orphanTimer := none }) s)
    exact ⟨by rw [jobEq]; rfl, down, enterFinished_cancels _, fun k h =>
      enterFinished_socket (s := updJob (fun j => { j with orphanTimer := none }) s) h⟩
  · refine ⟨_, exec_orphanTimerExpiry up runs, ?_⟩
    have guard : s.job.st ≠ .orphaned ∧ s.job.st.working = true := by
      obtain st | st | st := st <;> rw [st] <;> decide
    rw [orphanExpired, if_neg guard.1, if_pos ⟨guard.2, unconfirmed⟩, settle_enterCancelled]
    obtain ⟨down, -, jobEq, -⟩ := enterCancelled_torn (updJob (fun j => { j with orphanTimer := none }) s)
    exact ⟨by rw [jobEq]; rfl, down, enterCancelled_cancels _⟩

/-! ### The source's reports (R58) -/

theorem sameJob_iff {s : State} {e : RosterEntry} :
    s.sameJob e = true ↔ e.st = .present ∧ s.job.number = some e.job ∧ s.job.digest = some e.digest := by
  simp [State.sameJob, and_assoc]

theorem sourceReport_same {e : RosterEntry} {s : State} (h : s.sameJob e = true) :
    sourceReport e s = sameJobReport e.jobState s := by
  obtain ⟨present, number, digest⟩ := sameJob_iff.1 h
  simp only [sourceReport, present, if_pos number, if_pos digest]

theorem sourceReport_otherDigest {e : RosterEntry} {s : State} (present : e.st = .present)
    (number : s.job.number = some e.job) (digest : s.job.digest ≠ some e.digest) : sourceReport e s = dropJob s := by
  simp only [sourceReport, present, if_pos number, if_neg digest]

theorem sourceReport_otherJob {e : RosterEntry} {s : State} (present : e.st = .present)
    (number : s.job.number ≠ some e.job) :
    sourceReport e s = if s.job.st = .orphaned ∨ s.job.confirmed = true then enterFinished s else s := by
  simp only [sourceReport, present, if_neg number]

theorem sourceReport_silent {e : RosterEntry} {s : State} (silent : e.st = .silent) :
    sourceReport e s = if s.job.st ≠ .orphaned ∧ s.job.confirmed = true then enterOrphaned s else s := by
  simp only [sourceReport, silent]

theorem sourceReport_absent {e : RosterEntry} {s : State} (absent : e.st = .absent) : sourceReport e s = s := by
  simp only [sourceReport, absent]

/-- The source works on the job: it is confirmed, or an orphan returns (R57, R58). -/
theorem sameJobReport_working {c : BitVec 3} (h : c = 1 ∨ c = 2 ∨ c = 3) (s : State) :
    sameJobReport c s = if s.job.st = .orphaned then returnFromOrphan s else confirm s := if_pos h

theorem sameJobReport_cancelled (s : State) : sameJobReport 5 s = enterCancelled s := rfl

/-- The source shows FINISHED (R54, R58). -/
theorem sameJobReport_finished (s : State) :
    sameJobReport 4 s = if s.settled = true then enterFinished (confirm s)
      else if s.job.st = .orphaned then s else enterOrphaned (confirm s) := rfl

theorem sameJobReport_unnamed {c : BitVec 3} (h : c = 0 ∨ c = 6 ∨ c = 7) (s : State) : sameJobReport c s = s := by
  obtain rfl | rfl | rfl := h <;> rfl

theorem formerState_eq {j : Job} {g : JobState} (hg : g = .enrolling ∨ g = .copying ∨ g = .closing)
    (h : j.former = some g) : j.formerState = g := by
  obtain rfl | rfl | rfl := hg <;> simp only [Job.formerState, h]

/-- Settles O20: the table row by row, by the state of the entry and the code it shows. -/
theorem sourceReportTable : Obligations.SourceReportTable := by
  unfold Obligations.SourceReportTable
  refine ⟨fun e s => sameJob_iff, fun j g => formerState_eq, fun e s working => ⟨fun same => ?_, fun present number digest => ?_,
    fun present number => ?_, fun silent => ?_, sourceReport_absent⟩⟩
  · simp only [sourceReport_same same]
    refine ⟨fun code => ?_, fun code => ?_, fun code => ?_, fun code => sameJobReport_unnamed code s⟩
    · rw [sameJobReport_working code]
      exact ⟨fun st => if_neg st, fun st => if_pos st⟩
    · rw [code, sameJobReport_cancelled]
      obtain ⟨down, -, job, -⟩ := enterCancelled_torn s
      exact ⟨by rw [job]; rfl, down, enterCancelled_cancels s⟩
    · rw [code, sameJobReport_finished]
      refine ⟨fun settled => ?_, fun unsettled orphaned => ?_, fun unsettled st => ?_⟩
      · obtain ⟨down, -, job, -⟩ := enterFinished_torn (confirm s)
        rw [if_pos settled]
        exact ⟨by rw [job]; rfl, by rw [job]; rfl, down⟩
      · rw [if_neg (by simp [unsettled]), if_pos orphaned]
      · rw [if_neg (by simp [unsettled]), if_neg st]
        rfl
  · rw [sourceReport_otherDigest present number digest]
    obtain ⟨down, -, job, port, -⟩ := dropJob_torn s
    rw [job, port]
    exact ⟨rfl, rfl, rfl, rfl, rfl, rfl, rfl, down⟩
  · rw [sourceReport_otherJob present number]
    refine ⟨fun known => ?_, fun st unconfirmed => if_neg (by simp [st, unconfirmed])⟩
    obtain ⟨down, -, job, -⟩ := enterFinished_torn s
    rw [if_pos known]
    exact ⟨by rw [job]; rfl, down⟩
  · rw [sourceReport_silent silent]
    refine ⟨fun st confirmed => if_pos ⟨st, confirmed⟩, fun h => if_neg ?_⟩
    rintro ⟨st, confirmed⟩
    obtain orphaned | unconfirmed := h
    · exact st orphaned
    · exact absurd (confirmed.symm.trans unconfirmed) (by decide)

/-! ### The finishing checks (R53 to R56) -/

theorem inJob_eq_false_iff {st : SocketState} : st.inJob = false ↔
    st ≠ .preparing ∧ st ≠ .enrolled ∧ st ≠ .copying ∧ st ≠ .repaying ∧ st ≠ .verifying := by
  cases st <;> simp [SocketState.inJob]

theorem mem_allStations (x : Fin 32) : x ∈ allStations := by
  revert x
  decide

theorem recallReading_iff {s : State} : s.recallReading = true ↔
    ∃ c seg r, s.sockets[s.masterSocket].cmd = some c ∧ c.purpose = .master seg (.rslot r) := by
  unfold State.recallReading
  split
  · rename_i seg r _ _ _ _ _ _ h
    exact iff_of_true rfl ⟨_, seg, r, h, rfl⟩
  · rename_i c other h
    refine iff_of_false Bool.false_ne_true ?_
    rintro ⟨d, seg, r, hd, purpose⟩
    rw [h] at hd
    injection hd with hd
    subst hd
    cases c
    cases purpose
    exact other _ _ _ _ _ _ _ _ rfl
  · rename_i h
    refine iff_of_false Bool.false_ne_true ?_
    rintro ⟨d, seg, r, hd, -⟩
    rw [h] at hd
    cases hd

theorem sourceDone_iff {s : State} : s.sourceDone = true ↔
    s.job.source = true ∧ s.job.st = .closing ∧ s.rv.queue = [] ∧ s.settled = true ∧
      (¬ ∃ c seg r, s.sockets[s.masterSocket].cmd = some c ∧ c.purpose = .master seg (.rslot r)) ∧
      ∀ x : Fin 32, s.sameJob (s.entry x) = true → (s.entry x).settled = true := by
  have others : (allStations.all fun x => !s.sameJob (s.entry x) || (s.entry x).settled) = true ↔
      ∀ x : Fin 32, s.sameJob (s.entry x) = true → (s.entry x).settled = true := by
    simp only [List.all_eq_true, Bool.or_eq_true, Bool.not_eq_true', ← Bool.not_eq_true, ← imp_iff_not_or]
    exact ⟨fun h x => h x (mem_allStations x), fun h x _ => h x⟩
  simp only [State.sourceDone, Bool.and_eq_true, beq_iff_eq, List.isEmpty_iff, others, ← recallReading_iff, Bool.not_eq_true',
    Bool.not_eq_true]
  tauto

theorem sinkDone_iff {s : State} : s.sinkDone = true ↔
    s.job.source = false ∧ s.job.st.working = true ∧ s.settled = true ∧
      ∃ (b : JobBody) (x : Fin 32), s.job.body = some b ∧ b.srcStation.toNat = x.val ∧
        s.sameJob (s.entry x) = true ∧ (s.entry x).jobState = 4 := by
  simp only [State.sinkDone, Bool.and_eq_true, Bool.not_eq_true', List.any_eq_true, beq_iff_eq, isSource_iff, and_assoc]
  refine and_congr_right fun _ => and_congr_right fun _ => and_congr_right fun _ => ⟨?_, ?_⟩
  · rintro ⟨x, -, ⟨b, body, station⟩, same, code⟩
    exact ⟨b, x, body, station, same, code⟩
  · rintro ⟨b, x, body, station, same, code⟩
    exact ⟨x, mem_allStations x, ⟨b, body, station⟩, same, code⟩

/-- The two finishing checks together: the source's at every judgement, the sink's as the station becomes SETTLED (R53, R55). -/
theorem judgeFinish_due_iff (before : Bool) (s : State) :
    (s.sourceDone = true ∨ (s.settled ≠ before ∧ s.sinkDone = true)) ↔
      ((s.job.source = true ∧ s.job.st = .closing ∧ s.rv.queue = [] ∧ s.settled = true ∧
        (¬ ∃ c seg r, s.sockets[s.masterSocket].cmd = some c ∧ c.purpose = .master seg (.rslot r)) ∧
        ∀ x : Fin 32, s.sameJob (s.entry x) = true → (s.entry x).settled = true) ∨
      (s.job.source = false ∧ s.job.st.working = true ∧ before = false ∧ s.settled = true ∧
        ∃ (b : JobBody) (x : Fin 32), s.job.body = some b ∧ b.srcStation.toNat = x.val ∧
          s.sameJob (s.entry x) = true ∧ (s.entry x).jobState = 4)) := by
  have changed (settled : s.settled = true) : s.settled ≠ before ↔ before = false := by
    rw [settled]
    cases before <;> simp
  rw [sourceDone_iff, sinkDone_iff]
  refine or_congr_right ⟨?_, ?_⟩
  · rintro ⟨new, source, working, settled, named⟩
    exact ⟨source, working, (changed settled).1 new, settled, named⟩
  · rintro ⟨source, working, new, settled, named⟩
    exact ⟨(changed settled).2 new, source, working, settled, named⟩

/-- Settles O21: SETTLED and both finishing checks as conditions on the fields, and the order of `settle` unfolded. -/
theorem settledStationsFinish : Obligations.SettledStationsFinish := by
  unfold Obligations.SettledStationsFinish
  refine ⟨fun x s => ⟨sameJob_iff, rfl⟩, fun s => ⟨by simp only [settled_iff, inJob_eq_false_iff], rfl⟩,
    fun before s => ?_, fun before s => rfl⟩
  have due := judgeFinish_due_iff before s
  refine ⟨fun done => ?_, fun other => if_neg (mt due.1 other)⟩
  have finish : judgeFinish before s = enterFinished s := if_pos (due.2 done)
  obtain ⟨down, -, job, -⟩ := enterFinished_torn s
  rw [finish, job]
  exact ⟨rfl, down, rfl, rfl⟩

end Sys2Proof.Machine
end

section
/-! SUPPORT. Pacing, lamps and recall: the condition monitors, the HOLD output, the lamp tables, the candidates of a RECALL and
the heard set and queue it fills (spec/09_pacing.md, spec/11_recall.md). -/
namespace Sys2Proof.Machine
open Sys2Proof.Safety

/-! ### Lamps and codes -/

/-- The reasons of FAILED. -/
def failReasons : List Reason :=
  [.writeError, .stall, .prepareError, .owedOverflow, .unreachable, .verifyLimit, .sourceLost]

/-- Code and lamps together tell the reasons of FAILED apart. -/
theorem failReasons_told_apart : ∀ p ∈ failReasons, ∀ q ∈ failReasons, socketCode .failed p = socketCode .failed q →
    socketLamps .failed p = socketLamps .failed q → p = q := by decide

/-- Settles O53: the tables by evaluation, the lamps of a socket by the memory test and the mode. -/
theorem lampAndCodeTables : Obligations.LampAndCodeTables := by
  unfold Obligations.LampAndCodeTables
  refine ⟨by decide, fun r => by simp only [socketCode, and_self], by decide, fun s k => ⟨fun test => ?_, fun up mute => ?_,
    fun up on => ?_⟩, fun p q hp hq => failReasons_told_apart p hp q hq⟩
  · rw [State.lamps, if_pos test]
  · rw [State.lamps, if_neg (by simp [up]), if_pos mute]
  · rw [State.lamps, if_neg (by simp [up]), if_neg on]

/-! ### The HOLD output (R131 to R133) -/

theorem holdDemand_iff {s : State} : s.holdDemand = true ↔ s.ident.mode = .active ∧
    ((s.job.st = .enrolling ∧ ∃ k : Fin 8, s.sockets[k].st = .preparing) ∨ s.pacing.loss.cond = true) := by
  rw [State.holdDemand, Bool.and_eq_true, beq_iff_eq, Bool.or_eq_true, enrollCause_iff]

theorem judgeHold_asserts {s : State} (h : s.holdDemand = true) (released : s.pacing.hold = .released) :
    judgeHold s = { s with pacing := { s.pacing with hold := .asserted, holdTimer := some (2000 * Config.ms) } } := by
  simp only [judgeHold, h, released, if_true]
  rfl

theorem judgeHold_keeps {s : State} (h : s.holdDemand = true) (driven : s.pacing.hold ≠ .released) : judgeHold s = s := by
  cases hold : s.pacing.hold
  case released => exact absurd hold driven
  all_goals simp only [judgeHold, h, hold, if_true]

theorem judgeHold_releases {s : State} (h : s.holdDemand = false) :
    judgeHold s = { s with pacing := { s.pacing with hold := .released, holdTimer := none } } := by
  rw [judgeHold, if_neg (by simp [h])]
  rfl

/-- Settles O52: the demand as a condition, its judgement by the demand and the present output, the expiry by its guard. -/
theorem holdOutputFollowsTheDemand : Obligations.HoldOutputFollowsTheDemand := by
  unfold Obligations.HoldOutputFollowsTheDemand
  refine ⟨fun s asserted => ⟨rfl, ?_⟩, fun s => ⟨holdDemand_iff, judgeHold_asserts, judgeHold_keeps, judgeHold_releases,
    fun up => congrArg Host.Outcome.next (whenUp_up up)⟩⟩
  rw [State.holdSeen, Bool.or_eq_true, beq_iff_eq]

/-! ### The condition monitors (R121 to R129) -/

theorem Monitor.report_idle {m : Monitor} (h : m.running = false) (level : Nat) : m.report level = m := by
  simp [Monitor.report, h]

theorem Monitor.segmentEnd_idle {m : Monitor} (h : m.running = false) : m.segmentEnd = m := by
  simp [Monitor.segmentEnd, h]

/-- A high level makes the condition true at once where the duration is 0 (R124). -/
theorem Monitor.report_high {m : Monitor} {level : Nat} (h : m.running = true) (high : m.threshold ≤ level) :
    m.report level = { m with level := level, cond := m.cond || decide (m.duration = 0) } := by
  have positive : decide (1 ≤ m.duration) = !decide (m.duration = 0) := by
    rw [← decide_not, decide_eq_decide]
    omega
  have test : m.high level = true := decide_eq_true high
  rw [Monitor.report, if_neg (by simp [h]), if_pos test, positive]
  obtain ⟨running, old, threshold, duration, latched, run, cond⟩ := m
  cases cond <;> cases decide (duration = 0) <;> rfl

/-- A low level makes the condition false unless it is true and latched (R124). -/
theorem Monitor.report_low {m : Monitor} {level : Nat} (h : m.running = true) (low : level < m.threshold) :
    m.report level = if m.cond && m.latched then { m with level := level }
      else { m with level := level, cond := false, run := 0 } := by
  have test : m.high level = false := decide_eq_false (by omega)
  rw [Monitor.report, if_neg (by simp [h]), if_neg (by simp [test])]

theorem Monitor.segmentEnd_counts {m : Monitor} (h : m.running = true) (cond : m.cond = false) (duration : 1 ≤ m.duration)
    (high : m.threshold ≤ m.level) :
    m.segmentEnd = { m with run := m.run + 1, cond := decide (m.run + 1 = m.duration) } := by
  rw [Monitor.segmentEnd, if_pos]
  simp [h, cond, duration, Monitor.high, high]

theorem Monitor.segmentEnd_still {m : Monitor} (h : m.cond = true ∨ m.duration = 0 ∨ m.level < m.threshold) :
    m.segmentEnd = m := by
  rw [Monitor.segmentEnd, if_neg]
  simp only [Bool.and_eq_true, Bool.not_eq_true', decide_eq_true_eq, Monitor.high]
  rintro ⟨⟨⟨-, cond⟩, duration⟩, high⟩
  obtain true' | zero | low := h
  · exact absurd (true'.symm.trans cond) (by decide)
  · omega
  · omega

/-- The end of a segment time reaches the loss monitor and every lag monitor, and nothing else (R122). -/
theorem segmentTimeEnd_socket (s : State) (k : Fin 8) :
    (segmentTimeEnd s).sockets[k] = s.sockets[k].lagBy Monitor.segmentEnd :=
  forSockets_updSocket_socket (Socket.lagBy Monitor.segmentEnd) s k

theorem segmentTimeEnd_frame (s : State) :
    (segmentTimeEnd s).pacing = { s.pacing with loss := s.pacing.loss.segmentEnd } ∧ (segmentTimeEnd s).win = s.win ∧
      Apart s (segmentTimeEnd s) := by
  refine ⟨?_, ?_, (segmentTimeEnd_works s).apart⟩
  · exact congrArg (fun p : Pacing => { p with loss := p.loss.segmentEnd })
      (forSockets_updSocket State.pacing (Socket.lagBy Monitor.segmentEnd) (fun _ _ => rfl) s)
  · exact forSockets_updSocket State.win (Socket.lagBy Monitor.segmentEnd) (fun _ _ => rfl) s

/-- Settles O51: the two tables cell by cell, the ties by evaluation, the reports as changes of each monitor. -/
theorem monitorTables : Obligations.MonitorTables := by
  unfold Obligations.MonitorTables
  refine ⟨fun m level running => ?_, fun m => ⟨Monitor.segmentEnd_counts, fun _ => Monitor.segmentEnd_still,
    fun idle => ⟨Monitor.segmentEnd_idle idle, Monitor.report_idle idle⟩⟩, ⟨rfl, rfl, rfl, rfl, fun b t => ?_,
    fun b a => ⟨rfl, rfl⟩⟩, fun s => ⟨fun k => rfl, (segmentTimeEnd_frame s).1, fun k => segmentTimeEnd_socket s k, ?_⟩⟩
  · obtain low | high := Nat.lt_or_ge level m.threshold
    · rw [Monitor.report_low running low]
      cases cond : m.cond <;> cases latched : m.latched <;> simp [running] <;> omega
    · rw [Monitor.report_high running high]
      cases cond : m.cond <;> simp [running] <;> omega
  · cases t <;> cases b <;> rfl
  · obtain ⟨-, win, apart⟩ := segmentTimeEnd_frame s
    exact ⟨win, apart.job, apart.port, apart.repair⟩

/-! ### Recall slots by what they hold -/

theorem allRecallSlots_find? (p : Fin 2 → Bool) :
    allRecallSlots.find? p = if p 0 = true then some 0 else if p 1 = true then some 1 else none := by
  simp only [allRecallSlots, List.find?_cons, List.find?_nil]
  cases p 0 <;> cases p 1 <;> rfl

theorem allRecallSlots_find?_eq_none {p : Fin 2 → Bool} :
    allRecallSlots.find? p = none ↔ ∀ r : Fin 2, p r = false := by
  rw [allRecallSlots_find?, Fin.forall_fin_two]
  cases p 0 <;> cases p 1 <;> simp

/-- The lowest-numbered recall slot that passes a test. -/
theorem allRecallSlots_find?_eq_some {p : Fin 2 → Bool} {r : Fin 2} :
    allRecallSlots.find? p = some r ↔ p r = true ∧ ∀ q : Fin 2, q < r → p q = false := by
  rw [allRecallSlots_find?, Fin.forall_fin_two]
  obtain rfl | rfl : r = 0 ∨ r = 1 := by omega
  all_goals cases p 0 <;> cases p 1 <;> simp

theorem recallHolding_eq_none_iff {s : State} {g : Nat} :
    s.recallHolding g = none ↔ ∀ r : Fin 2, (s.slot (.rslot r)).seg ≠ some g := by
  simp only [State.recallHolding, allRecallSlots_find?_eq_none, Slot.holds, beq_eq_false_iff_ne, ne_eq]

theorem recallHolding_seg {s : State} {g : Nat} {r : Fin 2} (h : s.recallHolding g = some r) :
    (s.slot (.rslot r)).seg = some g :=
  eq_of_beq (allRecallSlots_find?_eq_some.1 h).1

theorem usableRecall_eq_none_iff {s : State} :
    s.usableRecall = none ↔ ∀ r : Fin 2, (s.slot (.rslot r)).usable = false := allRecallSlots_find?_eq_none

theorem usableRecall_eq_some_iff {s : State} {r : Fin 2} :
    s.usableRecall = some r ↔ (s.slot (.rslot r)).usable = true ∧ ∀ q : Fin 2, q < r → (s.slot (.rslot q)).usable = false :=
  allRecallSlots_find?_eq_some

theorem usableRecall_isSome_iff {s : State} :
    s.usableRecall.isSome = true ↔ ∃ r : Fin 2, (s.slot (.rslot r)).usable = true := by
  rw [Option.isSome_iff_ne_none, ne_eq, usableRecall_eq_none_iff, not_forall]
  simp only [Bool.not_eq_false]

theorem copyingOrRepaying_iff {st : SocketState} : st.copyingOrRepaying = true ↔ st = .copying ∨ st = .repaying := by
  cases st <;> simp [SocketState.copyingOrRepaying]

theorem enrolledOrCopying_iff {st : SocketState} : st.enrolledOrCopying = true ↔ st = .enrolled ∨ st = .copying := by
  cases st <;> simp [SocketState.enrolledOrCopying]

theorem recalling_iff {st : JobState} : st.recalling = true ↔ st = .copying ∨ st = .closing := by
  cases st <;> simp [JobState.recalling]

theorem sourced_iff {st : JobState} : st.sourced = true ↔ st = .enrolling ∨ st = .copying ∨ st = .closing := by
  cases st <;> simp [JobState.sourced]

/-! ### The recall request (R173 to R176) -/

theorem owedByWriters_mem {s : State} {g : Nat} : g ∈ s.owedByWriters ↔
    ∃ k : Fin 8, (s.sockets[k].st = .copying ∨ s.sockets[k].st = .repaying) ∧ s.sockets[k].owes g = true := by
  rw [(owedByWriters_iff s).2 g]
  simp only [copyingOrRepaying_iff]

theorem candidates_mem {s : State} {g : Nat} : g ∈ s.candidates ↔
    g < s.win.base ∧ (∀ r : Fin 2, (s.slot (.rslot r)).seg ≠ some g) ∧ g ∉ s.rv.heard ∧
      ∃ k : Fin 8, (s.sockets[k].st = .copying ∨ s.sockets[k].st = .repaying) ∧ s.sockets[k].owes g = true := by
  rw [State.candidates, List.mem_filter, owedByWriters_mem, Bool.and_eq_true, Bool.and_eq_true, decide_eq_true_eq,
    Option.isNone_iff_eq_none, recallHolding_eq_none_iff, Bool.not_eq_true', ← Bool.not_eq_true, List.contains_iff_mem,
    and_comm, and_assoc, and_assoc]

theorem requestOpen_iff {s : State} : s.requestOpen = true ↔ s.job.source = false ∧ s.ident.mode = .active ∧
    (s.job.st = .copying ∨ s.job.st = .closing) ∧ (∃ r : Fin 2, (s.slot (.rslot r)).usable = true) ∧ s.candidates ≠ [] := by
  simp only [State.requestOpen, Bool.and_eq_true, Bool.not_eq_true', beq_iff_eq, recalling_iff, usableRecall_isSome_iff,
    List.isEmpty_eq_false_iff, and_assoc]

theorem exec_recallRequestPlace {s : State} (up : s.ident.memTest = false) :
    exec .recallRequestPlace s = .next (placeRequest s) :=
  congrArg Host.Outcome.next (whenUp_up up)

theorem unreachable_iff {s : State} {k : Fin 8} : s.unreachable k = true ↔
    (s.sockets[k].st = .copying ∨ s.sockets[k].st = .repaying) ∧
      ∃ e ∈ s.sockets[k].owed, e.seg ∈ s.rv.listed ∧ e.record.attempts = 4 ∧
        ∀ r : Fin 2, (s.slot (.rslot r)).seg ≠ some e.seg := by
  simp only [State.unreachable, Bool.and_eq_true, copyingOrRepaying_iff, List.any_eq_true, List.contains_iff_mem,
    beq_iff_eq, Option.isNone_iff_eq_none, recallHolding_eq_none_iff, and_assoc]
  rfl

/-- A socket that fails takes its reason. -/
theorem failSocket_reason {k : Fin 8} {s : State} (h : s.sockets[k].st ≠ .failed) (r : Reason) :
    (failSocket k r s).sockets[k].reason = r := by
  rw [failSocket, if_neg h, setState_socket]

/-- The sockets that fail as the recall wait expires; none while ORPHANED (R176). -/
def State.lostSockets (s : State) : List (Fin 8) :=
  if s.job.st = .orphaned then [] else allSockets.filter s.unreachable

theorem mem_lostSockets {s : State} {k : Fin 8} :
    k ∈ s.lostSockets ↔ s.job.st ≠ .orphaned ∧ s.unreachable k = true := by
  unfold State.lostSockets
  split_ifs with orphaned
  · simp [orphaned]
  · simp [orphaned, mem_allSockets]

/-- Each socket that has lost a segment fails, and no other changes. -/
theorem failLost_sockets (s : State) (k : Fin 8) :
    let u := forEach s.lostSockets (fun j => failSocket j .unreachable) s
    (k ∈ s.lostSockets → u.sockets[k].st = .failed ∧ u.sockets[k].reason = .unreachable) ∧
      (k ∉ s.lostSockets → u.sockets[k] = s.sockets[k]) := by
  have nodup : s.lostSockets.Nodup := by
    unfold State.lostSockets
    split_ifs
    · exact List.nodup_nil
    · exact List.Nodup.filter _ (by decide)
  have walk := forEach_each (I := fun _ => True)
    (Q := fun j sk => j ∈ s.lostSockets → sk.st = .failed ∧ sk.reason = .unreachable) s s.lostSockets nodup
    (fun j => failSocket j .unreachable) (fun j t => failSocket_only j _ t) (fun _ _ _ _ => trivial)
    (fun j t _ eq lost => by
      have writes : t.sockets[j].st ≠ .failed := by
        rw [eq]
        obtain st | st := (unreachable_iff.1 (mem_lostSockets.1 lost).2).1 <;> rw [st] <;> decide
      exact ⟨failSocket_failed j _ t, failSocket_reason writes _⟩) s trivial (fun _ _ => rfl)
  exact ⟨fun lost => walk.2.1 k lost lost, walk.2.2 k⟩

theorem waitExpired_eq {s : State} (h : s.rv.request = .waiting) :
    waitExpired s = updRv (fun r => { r with request := .idle, wait := none, listed := [] })
      (forEach s.lostSockets (fun j => failSocket j .unreachable) s) := by
  rw [waitExpired, if_pos h]
  rfl

/-- Settles O49: the candidates as a set, the request by its conditions, the expiry as the failure of the lost sockets. -/
theorem recallRequestsArePlacedAndExpire : Obligations.RecallRequestsArePlacedAndExpire := by
  unfold Obligations.RecallRequestsArePlacedAndExpire
  refine ⟨fun s => ⟨ascending_filter _ (owedByWriters_iff s).1, fun g => candidates_mem, fun up idle held => ?_,
    fun up h => ?_, fun queued failed => ?_, fun h => ?_⟩, fun s up waiting => ?_⟩
  · rw [exec_recallRequestPlace up, placeRequest, if_pos ⟨idle, requestOpen_iff.2 held⟩]
    rfl
  · rw [exec_recallRequestPlace up, placeRequest, if_neg]
    rintro ⟨idle, held⟩
    exact h.elim (fun busy => busy idle) fun failed => failed (requestOpen_iff.1 held)
  · rw [withdrawRequest, if_pos ⟨queued, Bool.eq_false_iff.2 (mt requestOpen_iff.1 failed)⟩]
    rfl
  · rw [withdrawRequest, if_neg]
    rintro ⟨queued, failed⟩
    exact h.elim (fun other => other queued) fun held => Bool.eq_false_iff.1 failed (requestOpen_iff.2 held)
  · have apart : Apart s (forEach s.lostSockets (fun j => failSocket j .unreachable) s) :=
      (Works.each _ _ (fun j t => failSocket_works j _ t) s).apart
    have sockets := failLost_sockets s
    have eq := waitExpired_eq waiting
    generalize forEach s.lostSockets (fun j => failSocket j .unreachable) s = u at apart sockets eq
    refine ⟨waitExpired s, congrArg Host.Outcome.next (act_up up), ?_⟩
    rw [eq]
    refine ⟨congrArg (fun r : Recall => { r with request := .idle, wait := none, listed := [] }) apart.rv, apart.job,
      apart.port, apart.repair, fun k => ?_⟩
    have lost_iff := (mem_lostSockets (s := s) (k := k)).trans (and_congr_right fun _ => unreachable_iff)
    exact ⟨fun lost => (sockets k).1 (lost_iff.2 lost), fun kept => (sockets k).2 (mt lost_iff.1 kept)⟩

/-! ### Heard sets and recall queues (R177, R178) -/

/-- A list of segment indices joins an ascending list, as far as each passes a test and the list has room for 32. -/
def joinSegs (ok : Nat → Bool) (l : List Nat) (q : List Nat) : List Nat :=
  l.foldl (fun q g => if ok g = true ∧ q.length < 32 then insertSeg g q else q) q

theorem joinSegs_cons (ok : Nat → Bool) (g : Nat) (l q : List Nat) :
    joinSegs ok (g :: l) q = joinSegs ok l (if ok g = true ∧ q.length < 32 then insertSeg g q else q) := rfl

theorem joinSegs_old (ok : Nat → Bool) (l : List Nat) : ∀ q, ∀ x ∈ q, x ∈ joinSegs ok l q := by
  induction l with
  | nil => exact fun q x hx => hx
  | cons g l ih =>
    intro q x hx
    rw [joinSegs_cons]
    refine ih _ x ?_
    split_ifs
    · exact (insertSeg_has g q).1 x hx
    · exact hx

theorem joinSegs_new (ok : Nat → Bool) (l : List Nat) : ∀ q, ∀ x ∈ joinSegs ok l q, x ∈ q ∨ (ok x = true ∧ x ∈ l) := by
  induction l with
  | nil => exact fun q x hx => Or.inl hx
  | cons g l ih =>
    intro q x hx
    rw [joinSegs_cons] at hx
    obtain joined | ⟨passes, mem⟩ := ih _ x hx
    · split_ifs at joined with h
      · obtain rfl | old := insertSeg_mem joined
        · exact Or.inr ⟨h.1, List.mem_cons_self⟩
        · exact Or.inl old
      · exact Or.inl joined
    · exact Or.inr ⟨passes, List.mem_cons_of_mem _ mem⟩

/-- With room for all, every index that passes joins. -/
theorem joinSegs_all (ok : Nat → Bool) (l : List Nat) :
    ∀ q, q.length + l.length ≤ 32 → ∀ x ∈ l, ok x = true → x ∈ joinSegs ok l q := by
  induction l with
  | nil => exact fun q _ x hx => absurd hx List.not_mem_nil
  | cons g l ih =>
    intro q room x hx passes
    rw [List.length_cons] at room
    rw [joinSegs_cons]
    obtain rfl | later := List.mem_cons.1 hx
    · refine joinSegs_old ok l _ x ?_
      rw [if_pos ⟨passes, by omega⟩]
      exact (insertSeg_has x q).2
    · refine ih _ ?_ x later passes
      have grown := insertSeg_length g q
      split_ifs <;> omega

theorem hearSegment_eq (g : Nat) (s : State) : hearSegment g s =
    { s with rv := { s.rv with
      heard := if decide (g < s.imageSize) = true ∧ s.rv.heard.length < 32 then insertSeg g s.rv.heard else s.rv.heard } } := by
  rw [hearSegment]
  by_cases h : g < s.imageSize ∧ s.rv.heard.length < Config.recallQueueSize
  · rw [if_pos h, if_pos ⟨decide_eq_true h.1, h.2⟩]
    rfl
  · rw [if_neg h, if_neg fun c => h ⟨of_decide_eq_true c.1, c.2⟩]

theorem hearSegments_eq (l : List Word32) (s : State) : forEach l (fun w => hearSegment w.toNat) s =
    { s with rv := { s.rv with
      heard := joinSegs (fun g => decide (g < s.imageSize)) (l.map BitVec.toNat) s.rv.heard } } := by
  induction l generalizing s with
  | nil => rfl
  | cons w l ih => exact (ih (hearSegment w.toNat s)).trans (by rw [hearSegment_eq]; rfl)

/-- An index may join the recall queue: below the base, and no recall slot is gathering it or still sending it (R178). -/
def State.mayJoin (s : State) (g : Nat) : Bool :=
  decide (g < s.win.base) && !allRecallSlots.any fun r =>
    (s.slot (.rslot r)).holdsIn g .filling || ((s.slot (.rslot r)).holds g && (s.slot (.rslot r)).toSend != 0)

theorem mayJoin_iff {s : State} {g : Nat} : s.mayJoin g = true ↔ ¬ (s.win.base ≤ g ∨
    ∃ r : Fin 2, (s.slot (.rslot r)).seg = some g ∧ ((s.slot (.rslot r)).st = .filling ∨ (s.slot (.rslot r)).toSend ≠ 0)) := by
  have all (p : Fin 2 → Bool) : allRecallSlots.any p = true ↔ ∃ r : Fin 2, p r = true := by
    simp [allRecallSlots, Fin.exists_fin_two]
  rw [State.mayJoin, Bool.and_eq_true, Bool.not_eq_true', ← Bool.not_eq_true, all, not_or, decide_eq_true_eq, Nat.not_le]
  simp only [Slot.holdsIn, Slot.holds, Bool.or_eq_true, Bool.and_eq_true, beq_iff_eq, bne_iff_ne, ← and_or_left]

theorem joinQueue_eq (g : Nat) (s : State) : joinQueue g s =
    { s with rv := { s.rv with
      queue := if s.mayJoin g = true ∧ s.rv.queue.length < 32 then insertSeg g s.rv.queue else s.rv.queue } } := by
  have test : (g < s.win.base ∧ (allRecallSlots.any fun r => (s.slot (.rslot r)).holdsIn g .filling ||
      ((s.slot (.rslot r)).holds g && (s.slot (.rslot r)).toSend != 0)) = false ∧
        s.rv.queue.length < Config.recallQueueSize) ↔ s.mayJoin g = true ∧ s.rv.queue.length < 32 := by
    rw [State.mayJoin, Bool.and_eq_true, Bool.not_eq_true', decide_eq_true_eq, and_assoc]
    rfl
  rw [joinQueue]
  by_cases h : s.mayJoin g = true ∧ s.rv.queue.length < 32
  · rw [if_pos (test.2 h), if_pos h]
    rfl
  · rw [if_neg (mt test.1 h), if_neg h]

theorem joinQueues_eq (l : List Nat) (s : State) : forEach l joinQueue s =
    { s with rv := { s.rv with queue := joinSegs s.mayJoin l s.rv.queue } } := by
  induction l generalizing s with
  | nil => rfl
  | cons g l ih => exact (ih (joinQueue g s)).trans (by rw [joinQueue_eq]; rfl)

theorem ownRequests_eq {s : State} (h : s.job.source = true ∧ (s.job.st = .copying ∨ s.job.st = .closing)) :
    ownRequests s = { s with rv := { s.rv with queue := joinSegs s.mayJoin s.owedByWriters s.rv.queue } } := by
  rw [ownRequests, if_pos ⟨h.1, recalling_iff.2 h.2⟩, joinQueues_eq]

theorem ownRequests_none {s : State} (h : ¬ (s.job.source = true ∧ (s.job.st = .copying ∨ s.job.st = .closing))) :
    ownRequests s = s := by
  rw [ownRequests, if_neg]
  rintro ⟨source, st⟩
  exact h ⟨source, recalling_iff.1 st⟩

theorem hearRecall_eq (job : Word16) (l : List Word32) (s : State) :
    hearRecall job l s = doIf (decide (s.job.source = false ∧ s.ident.mode = .active ∧
      (s.job.st = .copying ∨ s.job.st = .closing ∨ s.job.st = .orphaned) ∧ s.job.number = some job))
      (forEach l fun w => hearSegment w.toNat) s := by
  rw [hearRecall]
  congr 1
  rw [Bool.eq_iff_iff, decide_eq_true_eq]
  simp only [Bool.and_eq_true, Bool.not_eq_true', beq_iff_eq, Bool.or_eq_true, recalling_iff, State.isCurrent, and_assoc,
    or_assoc]

theorem queueRecall_eq (job : Word16) (l : List Word32) (s : State) :
    queueRecall job l s = doIf (decide (s.job.source = true ∧ (s.job.st = .copying ∨ s.job.st = .closing) ∧
      s.job.number = some job)) (forEach l fun w => joinQueue w.toNat) s := by
  rw [queueRecall]
  congr 1
  rw [Bool.eq_iff_iff, decide_eq_true_eq]
  simp only [Bool.and_eq_true, beq_iff_eq, recalling_iff, State.isCurrent, and_assoc]

/-- Settles O50: a RECALL frame joins its indices to the heard set or the queue, the own requests theirs. -/
theorem recallFramesAreTaken : Obligations.RecallFramesAreTaken := by
  unfold Obligations.RecallFramesAreTaken
  refine ⟨fun sender job segs s up => ⟨hearRecall job segs s, congrArg Host.Outcome.next (actOnArrival_up up), fun other => ?_,
    fun taken => ?_, fun g => congrArg Host.Outcome.next (whenUp_up up)⟩, fun sender job segs s up =>
    ⟨queueRecall job segs s, congrArg Host.Outcome.next (actOnArrival_up up), fun other => ?_, fun taken => ?_⟩,
    fun s => ⟨(owedByWriters_iff s).1, fun g => owedByWriters_mem, ownRequests_none, fun own => ?_⟩⟩
  · rw [hearRecall_eq, decide_eq_false other, doIf_false]
  · rw [hearRecall_eq, decide_eq_true taken, doIf_true, hearSegments_eq]
    refine ⟨fun g mem => ?_, fun g mem => joinSegs_old _ _ _ g mem, fun room w mem below => ?_, rfl, rfl, rfl, rfl⟩
    · refine (joinSegs_new _ _ _ g mem).imp_right fun new => ⟨of_decide_eq_true new.1, ?_⟩
      simpa using new.2
    · exact joinSegs_all _ _ _ (by simpa using room) _ (List.mem_map_of_mem mem) (decide_eq_true below)
  · rw [queueRecall_eq, decide_eq_false other, doIf_false]
  · have walk : (forEach segs (fun w => joinQueue w.toNat) s) = _ :=
      (List.foldl_map (f := BitVec.toNat) (g := fun t a => joinQueue a t)).symm.trans (joinQueues_eq (segs.map BitVec.toNat) s)
    rw [queueRecall_eq, decide_eq_true taken, doIf_true, walk]
    refine ⟨fun g mem => ?_, fun g mem => joinSegs_old _ _ _ g mem, fun room w mem free => ?_, rfl, rfl, rfl, rfl⟩
    · refine (joinSegs_new _ _ _ g mem).imp_right fun new => ⟨mayJoin_iff.1 new.1, ?_⟩
      simpa using new.2
    · exact joinSegs_all _ _ _ (by simpa using room) _ (List.mem_map_of_mem mem) (mayJoin_iff.2 free)
  · rw [ownRequests_eq own]
    exact ⟨rfl, fun g mem => (joinSegs_new _ _ _ g mem).imp_right fun new => ⟨mayJoin_iff.1 new.1, new.2⟩,
      fun g mem => joinSegs_old _ _ _ g mem, fun room g mem free => joinSegs_all _ _ _ room g mem (mayJoin_iff.2 free)⟩

end Sys2Proof.Machine
end

section
/-! SUPPORT. The repair unit: gap reports, the timers of a pending need, NEED frames heard, and the answering side
(spec/06_repair.md, R85 to R102, R113). -/
namespace Sys2Proof.Machine
open Sys2Proof.Safety

/-! ### What the elementary changes of the repair unit leave -/

theorem drawnDelay_mem (k : Nat) {lo hi : Nat} (h : lo ≤ hi) :
    lo ≤ Config.drawnDelay k lo hi ∧ Config.drawnDelay k lo hi ≤ hi := by
  have below : Config.freeDraw k % (hi - lo + 1) < hi - lo + 1 := Nat.mod_lt _ (by omega)
  simp only [Config.drawnDelay]
  omega

theorem needDelay_mem (s : State) : ∃ d, d ≤ 2 * Config.ms ∧ s.needDelay = some d :=
  ⟨_, (drawnDelay_mem s.draws (Nat.zero_le _)).2, rfl⟩

/-- What an operation on one pending need leaves alone: the other needs, the rest of the repair unit and every other block but
the port and the pacing unit. -/
structure NeedFrame (g : Nat) (s t : State) : Prop where
  others : ∀ x, x ≠ g → t.need x = s.need x
  exhausted : t.repair.exhausted = s.repair.exhausted
  answers : t.repair.answers = s.repair.answers
  win : t.win = s.win
  job : t.job = s.job
  sockets : t.sockets = s.sockets

theorem NeedFrame.refl (g : Nat) (s : State) : NeedFrame g s s := ⟨fun _ _ => rfl, rfl, rfl, rfl, rfl, rfl⟩

theorem updNeed_frame (g : Nat) (f : NeedEntry → NeedEntry) (s : State)
    (hf : ∀ e, (f e).seg = e.seg := by exact fun _ => rfl) : NeedFrame g s (updNeed g f s) :=
  ⟨fun _ other => updNeed_need_other other f s hf, rfl, rfl, rfl, rfl, rfl⟩

theorem dropNeed_frame (g : Nat) (s : State) : NeedFrame g s (dropNeed g s) :=
  ⟨fun _ other => dropNeed_need_other other s, rfl, rfl, rfl, rfl, rfl⟩

theorem rewait_frame (g : Nat) (m : Byte) (s : State) : NeedFrame g s (rewait g m s) :=
  ⟨(updNeed_frame g _ s).others, rfl, rfl, rfl, rfl, rfl⟩

theorem rewait_need {g : Nat} {m : Byte} {s : State} {e : NeedEntry} (h : s.need g = some e) :
    ∃ d, d ≤ 2 * Config.ms ∧
      (rewait g m s).need g = some { e with missing := m, st := .waitingDelay, timer := some d } := by
  obtain ⟨d, short, delay⟩ := needDelay_mem s
  have entry : (rewait g m s).need g = some { e with missing := m, st := .waitingDelay, timer := s.needDelay } :=
    updNeed_need_same h
  exact ⟨d, short, entry.trans (by rw [delay])⟩

/-! ### Gap reports (R85, R87, R90, R94) -/

/-- A gap report is taken: in a job, of a segment in the window that is not exhausted, with a parcel missing (R87). -/
def State.takesGap (s : State) (g : Nat) (m : Byte) : Prop :=
  s.job.st.working = true ∧ m ≠ 0 ∧ g ∉ s.repair.exhausted ∧ s.win.base ≤ g ∧ g < s.win.base + 16

/-- The table with a new entry for a segment, before the count is reported. -/
def addNeed (g : Nat) (m : Byte) (s : State) : State :=
  nextDraw (updRepair (fun r =>
    { r with needs := insertNeed { seg := g, missing := m, count := 0, st := .waitingDelay, timer := s.needDelay } r.needs })
    s)

section GapReport

variable {g : Nat} {m : Byte} {s : State} {e : NeedEntry}

theorem gapReport_ignored (h : ¬ s.takesGap g m) : gapReport g m s = s := if_neg h

theorem gapReport_new (h : s.takesGap g m) (absent : s.need g = none) : gapReport g m s = reportNeeds (addNeed g m s) := by
  refine (if_pos h).trans ?_
  simp only [absent]
  rfl

theorem gapReport_merges (h : s.takesGap g m) (entry : s.need g = some e)
    (st : e.st = .waitingDelay ∨ ∃ p, e.st = .asked p) :
    gapReport g m s = updNeed g (fun e => { e with missing := e.missing ||| m }) s := by
  refine (if_pos h).trans ?_
  obtain st | ⟨p, st⟩ := st <;> simp only [entry, st]

theorem gapReport_covered (h : s.takesGap g m) (entry : s.need g = some e) (st : e.st = .suppressed)
    (old : e.missing ||| m = e.missing) : gapReport g m s = s := by
  refine (if_pos h).trans ?_
  simp only [entry, st, if_pos old]

theorem gapReport_rewaits (h : s.takesGap g m) (entry : s.need g = some e) (st : e.st = .suppressed)
    (new : e.missing ||| m ≠ e.missing) : gapReport g m s = rewait g (e.missing ||| m) s := by
  refine (if_pos h).trans ?_
  simp only [entry, st, if_neg new]

theorem addNeed_need (absent : s.need g = none) (x : Nat) : (addNeed g m s).need x =
    if x = g then some { seg := g, missing := m, count := 0, st := .waitingDelay, timer := s.needDelay } else s.need x :=
  insertNeed_find (State.need_eq_none_iff.1 absent) x

theorem addNeed_length (absent : s.need g = none) :
    (addNeed g m s).repair.needs.length = s.repair.needs.length + 1 :=
  (insertNeed_perm (State.need_eq_none_iff.1 absent)).length_eq

/-- A gap report touches the entry of its segment, the count reported and the draws, and nothing else. -/
theorem gapReport_frame (g : Nat) (m : Byte) (s : State) :
    NeedFrame g s (gapReport g m s) ∧ (gapReport g m s).port = s.port ∧
      (s.need g ≠ none → (gapReport g m s).pacing = s.pacing) := by
  by_cases taken : s.takesGap g m
  · cases entry : s.need g with
    | none =>
      rw [gapReport_new taken entry]
      exact ⟨⟨fun x other => (addNeed_need entry x).trans (if_neg other), rfl, rfl, rfl, rfl, rfl⟩, rfl,
        fun h => absurd rfl h⟩
    | some e =>
      cases st : e.st with
      | waitingDelay =>
        rw [gapReport_merges taken entry (.inl st)]
        exact ⟨updNeed_frame g _ s, rfl, fun _ => rfl⟩
      | asked p =>
        rw [gapReport_merges taken entry (.inr ⟨p, st⟩)]
        exact ⟨updNeed_frame g _ s, rfl, fun _ => rfl⟩
      | suppressed =>
        by_cases old : e.missing ||| m = e.missing
        · rw [gapReport_covered taken entry st old]
          exact ⟨.refl g s, rfl, fun _ => rfl⟩
        · rw [gapReport_rewaits taken entry st old]
          exact ⟨rewait_frame g _ s, rfl, fun _ => rfl⟩
  · rw [gapReport_ignored taken]
    exact ⟨.refl g s, rfl, fun _ => rfl⟩

theorem damageReport_absent (h : s.need g = none) : damageReport g s = gapReport g 0xFF s := by
  simp only [damageReport, h]
  rfl

theorem damageReport_guard : (s.job.st.working && !s.repair.exhausted.contains g && decide (s.win.base ≤ g) &&
    decide (g < s.win.base + Config.windowSlots)) = true ↔
      s.job.st.working = true ∧ g ∉ s.repair.exhausted ∧ s.win.base ≤ g ∧ g < s.win.base + 16 := by
  simp only [Bool.and_eq_true, Bool.not_eq_true', ← Bool.not_eq_true, List.contains_iff_mem, decide_eq_true_eq, and_assoc]
  rfl

theorem damageReport_fills (h : s.need g = some e)
    (taken : s.job.st.working = true ∧ g ∉ s.repair.exhausted ∧ s.win.base ≤ g ∧ g < s.win.base + 16) :
    damageReport g s = updNeed g (fun e => { e with missing := 0xFF }) s := by
  simp only [damageReport, h, damageReport_guard.2 taken, doIf_true]
  rfl

theorem damageReport_ignored (h : s.need g ≠ none)
    (other : ¬ (s.job.st.working = true ∧ g ∉ s.repair.exhausted ∧ s.win.base ≤ g ∧ g < s.win.base + 16)) :
    damageReport g s = s := by
  obtain ⟨e, entry⟩ := Option.ne_none_iff_exists'.1 h
  simp only [damageReport, entry, Bool.eq_false_iff.2 (mt damageReport_guard.1 other), doIf_false]

theorem parcelPlaced_absent (p : Fin 8) (h : s.need g = none) : parcelPlaced g p s = s := by
  simp only [parcelPlaced, h]

theorem parcelPlaced_last {p : Fin 8} (h : s.need g = some e) (last : e.missing &&& ~~~ parcelBit p = 0) :
    parcelPlaced g p s = dropNeed g s := by
  simp only [parcelPlaced, h, if_pos last]

theorem parcelPlaced_more {p : Fin 8} (h : s.need g = some e) (more : e.missing &&& ~~~ parcelBit p ≠ 0) :
    parcelPlaced g p s = updNeed g (fun e => { e with missing := e.missing &&& ~~~ parcelBit p }) s := by
  simp only [parcelPlaced, h, if_neg more]

end GapReport

/-- Settles O33: each report by the entry of its segment, row by row of the table. -/
theorem gapReportTable : Obligations.GapReportTable := by
  unfold Obligations.GapReportTable
  refine ⟨fun g m s => ?_, fun g s => ⟨damageReport_absent, fun entry other => damageReport_ignored entry ?_, ?_⟩,
    fun g p s => ⟨parcelPlaced_absent p, fun e entry => ?_⟩⟩
  · obtain ⟨frame, port, pacing⟩ := gapReport_frame g m s
    refine ⟨gapReport_ignored, fun taken absent => ?_, pacing, fun taken e entry st => ?_, fun taken e => gapReport_covered taken,
      fun taken e entry st new => ?_, frame.others, frame.exhausted, frame.answers, frame.win, frame.job, port, frame.sockets⟩
    · obtain ⟨d, short, delay⟩ := needDelay_mem s
      have found : (reportNeeds (addNeed g m s)).need g =
          some { seg := g, missing := m, count := 0, st := .waitingDelay, timer := s.needDelay } :=
        (addNeed_need absent g).trans (if_pos rfl)
      dsimp only
      rw [gapReport_new taken absent]
      refine ⟨⟨d, short, found.trans (by rw [delay])⟩, addNeed_length absent, ?_⟩
      exact congrArg (fun n => { s.pacing with loss := s.pacing.loss.report n }) (addNeed_length absent)
    · rw [gapReport_merges taken entry st]
      exact ⟨updNeed_need_same entry, rfl⟩
    · rw [gapReport_rewaits taken entry st new]
      exact rewait_need entry
  · rintro ⟨working, live, low, high⟩
    obtain idle | exhausted | below | above := other
    · exact absurd (working.symm.trans idle) (by decide)
    · exact live exhausted
    · omega
    · omega
  · intro working live low high e entry
    rw [damageReport_fills entry ⟨working, live, low, high⟩]
    exact ⟨updNeed_need_same entry, rfl, (updNeed_frame g _ s).others, rfl, rfl, rfl⟩
  · dsimp only
    by_cases last : e.missing &&& ~~~ parcelBit p = 0
    · rw [parcelPlaced_last entry last, if_pos last, if_pos last, if_pos last]
      exact ⟨dropNeed_need_same g s, (dropNeed_frame g s).others, rfl, rfl, rfl, rfl, rfl, rfl, rfl⟩
    · rw [parcelPlaced_more entry last, if_neg last, if_neg last, if_neg last]
      exact ⟨updNeed_need_same entry, (updNeed_frame g _ s).others, rfl, rfl, rfl, rfl, rfl, rfl, rfl⟩

/-! ### NEED frames heard (R95, R97, R98) -/

theorem lowestParcel_lowest {m : Byte} (h : m ≠ 0) :
    hasParcel m (lowestParcel m) = true ∧ ∀ q : Fin 8, q < lowestParcel m → hasParcel m q = false := by
  have same : allParcels.find? (hasParcel m) = nextSet m 0 := by
    rw [nextSet]
    congr 1
  cases found : nextSet m 0 with
  | none => exact absurd ((nextSet_eq_none_iff m 0).1 found) h
  | some q =>
    have lowest : lowestParcel m = q := by rw [lowestParcel, same, found, Option.getD_some]
    obtain ⟨set, before⟩ := (nextSet_eq_some_iff m 0 q).1 found
    rw [lowest]
    refine ⟨set, fun p below => ?_⟩
    have clear := before p (by rwa [sub_zero])
    rwa [zero_add] at clear

section CoverNeed

variable {g : Nat} {m : Byte} {s : State} {e : NeedEntry}

theorem coverNeed_uncovered (h : s.need g = some e) (other : e.missing &&& ~~~ m ≠ 0) : coverNeed g m s = s := by
  simp only [coverNeed, h, if_neg other]

theorem coverNeed_waiting (h : s.need g = some e) (covers : e.missing &&& ~~~ m = 0) (st : e.st = .waitingDelay) :
    coverNeed g m s = updNeed g (fun e => { e with st := .suppressed, timer := some (8 * Config.ms) }) s := by
  simp only [coverNeed, h, if_pos covers, st]
  rfl

theorem coverNeed_inClass (h : s.need g = some e) (covers : e.missing &&& ~~~ m = 0) (st : e.st = .asked .inClass) :
    coverNeed g m s = updPort (fun p => { p with class4 := p.class4.filter fun x => x != g })
      (updNeed g (fun e => { e with st := .suppressed, count := e.count - 1, timer := some (8 * Config.ms) }) s) := by
  simp only [coverNeed, h, if_pos covers, st]
  rfl

theorem coverNeed_held (h : s.need g = some e) (covers : e.missing &&& ~~~ m = 0) (st : e.st = .asked .held) :
    coverNeed g m s = s := by
  simp only [coverNeed, h, if_pos covers, st]

theorem coverNeed_restarts (h : s.need g = some e) (covers : e.missing &&& ~~~ m = 0)
    (st : e.st = .asked .retry ∨ e.st = .suppressed) :
    coverNeed g m s = updNeed g (fun e => { e with timer := some (8 * Config.ms) }) s := by
  obtain st | st := st <;> (simp only [coverNeed, h, if_pos covers, st]; rfl)

theorem coverNeed_absent (h : s.need g = none) : coverNeed g m s = s := by
  simp only [coverNeed, h]

theorem coverNeed_frame (g : Nat) (m : Byte) (s : State) : NeedFrame g s (coverNeed g m s) := by
  cases h : s.need g with
  | none =>
    rw [coverNeed_absent h]
    exact .refl g s
  | some e =>
    by_cases covers : e.missing &&& ~~~ m = 0
    · cases st : e.st with
      | waitingDelay =>
        rw [coverNeed_waiting h covers st]
        exact updNeed_frame g _ s
      | suppressed =>
        rw [coverNeed_restarts h covers (.inr st)]
        exact updNeed_frame g _ s
      | asked phase =>
        cases phase with
        | inClass =>
          rw [coverNeed_inClass h covers st]
          exact ⟨(updNeed_frame g _ s).others, rfl, rfl, rfl, rfl, rfl⟩
        | held =>
          rw [coverNeed_held h covers st]
          exact .refl g s
        | retry =>
          rw [coverNeed_restarts h covers (.inl st)]
          exact updNeed_frame g _ s
    · rw [coverNeed_uncovered h covers]
      exact .refl g s

end CoverNeed

/-- A NEED is answered: its slot is WHOLE with the segment, at the source one already opened (R98). -/
def State.answers (s : State) (g : Nat) : Prop :=
  (s.slot (.win (winOf g))).st = .whole ∧ (s.slot (.win (winOf g))).seg = some g ∧ (s.job.source = true → g < s.win.next)

/-- A new answer entry (R97, R98). -/
def AnswerEntry.fresh (g : Nat) (m : Byte) : AnswerEntry :=
  { seg := g, mask := m, sending := false, timer := none, nextParcel := 0 }

section AnswerNeed

variable {g : Nat} {m : Byte} {s : State} {e : AnswerEntry}

theorem answers_iff : ((s.slot (.win (winOf g))).holdsIn g .whole = true ∧ (s.job.source = true → g < s.win.next)) ↔
    s.answers g := by
  simp only [Slot.holdsIn, Bool.and_eq_true, beq_iff_eq, State.answers, and_assoc, and_left_comm]

theorem answerNeed_ignored (h : ¬ s.answers g) : answerNeed g m s = s := if_neg (mt answers_iff.1 h)

theorem answerNeed_merges (h : s.answers g) (entry : s.answer g = some e) :
    answerNeed g m s = updAnswer g (fun e => { e with mask := e.mask ||| m }) s := by
  refine (if_pos (answers_iff.2 h)).trans ?_
  simp only [entry]

theorem answerNeed_full (h : s.answers g) (absent : s.answer g = none) (full : 8 ≤ s.repair.answers.length) :
    answerNeed g m s = s := by
  refine (if_pos (answers_iff.2 h)).trans ?_
  simp only [absent]
  exact if_pos full

theorem answerNeed_delays (h : s.answers g) (absent : s.answer g = none) (room : s.repair.answers.length < 8)
    (sink : s.job.source = false) :
    answerNeed g m s = nextDraw (updRepair (fun r => { r with answers := r.answers ++
      [{ AnswerEntry.fresh g m with
        timer := some (Config.drawnDelay s.draws Config.answerDelayMin Config.answerDelayMax) }] }) s) := by
  refine (if_pos (answers_iff.2 h)).trans ?_
  simp only [absent]
  exact (if_neg (Nat.not_le.2 room)).trans (if_neg (by simp [sink]))

theorem answerNeed_sends (h : s.answers g) (absent : s.answer g = none) (room : s.repair.answers.length < 8)
    (source : s.job.source = true) :
    answerNeed g m s = startSending g
      (updRepair (fun r => { r with answers := r.answers ++ [AnswerEntry.fresh g m] }) s) := by
  refine (if_pos (answers_iff.2 h)).trans ?_
  simp only [absent]
  exact (if_neg (Nat.not_le.2 room)).trans (if_pos source)

theorem startSending_answer (entry : s.answer g = some e) :
    (startSending g s).answer g = some { e with sending := true, timer := none, nextParcel := lowestParcel e.mask } :=
  updAnswer_answer_same entry

/-- The entry of a segment that had none, at the end of the queue. -/
theorem appendAnswer_answer (e : AnswerEntry) (absent : s.answer e.seg = none) :
    (updRepair (fun r => { r with answers := r.answers ++ [e] }) s).answer e.seg = some e := by
  have none' : s.repair.answers.find? (fun x => x.seg == e.seg) = none := absent
  simp [State.answer, none']

end AnswerNeed

/-- A NEED that is judged: of the current job, in a job, with a parcel asked for, of a segment of the image (R95, R98). -/
def State.takesNeed (s : State) (job : Word16) (m : Byte) (g : Nat) : Prop :=
  s.job.st.working = true ∧ s.job.number = some job ∧ m ≠ 0 ∧ g < s.imageSize

theorem exec_needArrival {sender : Byte} {job : Word16} {seg : Word32} {m : Byte} {s : State} (up : s.ident.memTest = false) :
    exec (.needArrival sender job seg m) s = .next (takeHandoff .repairUnit sender job (.need seg m)
      (doIf (s.job.st.working && s.isCurrent job && m != 0 && decide (seg.toNat < s.imageSize))
        (fun s => answerNeed seg.toNat m (coverNeed seg.toNat m s)) s)) :=
  congrArg Host.Outcome.next (arrival_up up)

theorem takesNeed_iff {s : State} {job : Word16} {m : Byte} {g : Nat} :
    (s.job.st.working && s.isCurrent job && m != 0 && decide (g < s.imageSize)) = true ↔ s.takesNeed job m g := by
  simp only [State.isCurrent, Bool.and_eq_true, beq_iff_eq, bne_iff_ne, decide_eq_true_eq, and_assoc, State.takesNeed]

/-- What answering a NEED leaves alone. -/
theorem answerNeed_rest (g : Nat) (m : Byte) (s : State) :
    (answerNeed g m s).repair.needs = s.repair.needs ∧ (answerNeed g m s).sockets = s.sockets ∧
      (answerNeed g m s).win = s.win ∧ (answerNeed g m s).job = s.job := by
  by_cases h : s.answers g
  · cases entry : s.answer g with
    | some e =>
      rw [answerNeed_merges h entry]
      exact ⟨rfl, rfl, rfl, rfl⟩
    | none =>
      obtain room | full := Nat.lt_or_ge s.repair.answers.length 8
      · cases source : s.job.source with
        | false =>
          rw [answerNeed_delays h entry room source]
          exact ⟨rfl, rfl, rfl, rfl⟩
        | true =>
          rw [answerNeed_sends h entry room source]
          exact ⟨rfl, rfl, rfl, rfl⟩
      · rw [answerNeed_full h entry full]
        exact ⟨rfl, rfl, rfl, rfl⟩
  · rw [answerNeed_ignored h]
    exact ⟨rfl, rfl, rfl, rfl⟩

/-- Settles O35: the asking side by the entry's state, the answering side by slot, entry, room and role. -/
theorem needsHeardAreJudged : Obligations.NeedsHeardAreJudged := by
  unfold Obligations.NeedsHeardAreJudged
  refine ⟨fun m => lowestParcel_lowest, fun g m s e entry => ?_, fun sender job seg m s up => ?_⟩
  · have frame := coverNeed_frame g m s
    refine ⟨coverNeed_uncovered entry, fun covers => ⟨fun st => ?_, fun st => ?_, coverNeed_held entry covers, fun st => ?_,
      fun st => ?_⟩, frame.others, frame.answers, frame.win, frame.job, frame.sockets⟩
    · rw [coverNeed_waiting entry covers st]
      exact ⟨updNeed_need_same entry, rfl⟩
    · dsimp only
      rw [coverNeed_inClass entry covers st]
      exact ⟨updNeed_need_same entry, rfl⟩
    · rw [coverNeed_restarts entry covers (.inl st)]
      exact ⟨updNeed_need_same entry, rfl⟩
    · rw [coverNeed_restarts entry covers (.inr st)]
      exact ⟨updNeed_need_same entry, rfl⟩
  · refine ⟨_, exec_needArrival up, fun other => ?_, ?_⟩
    · rw [Bool.eq_false_iff.2 (mt takesNeed_iff.1 other), doIf_false]
    have frame := coverNeed_frame seg.toNat m s
    have answer (x : Nat) : (coverNeed seg.toNat m s).answer x = s.answer x := by
      rw [State.answer, frame.answers, ← State.answer]
    have answering : (coverNeed seg.toNat m s).answers seg.toNat ↔ s.answers seg.toNat := by
      simp only [State.answers, slot_of_win frame.win, frame.job, frame.win]
    have rest := answerNeed_rest seg.toNat m (coverNeed seg.toNat m s)
    rw [frame.sockets, frame.win, frame.job] at rest
    have judged (taken : s.takesNeed job m seg.toNat) :
        doIf (s.job.st.working && s.isCurrent job && m != 0 && decide (seg.toNat < s.imageSize))
          (fun s => answerNeed seg.toNat m (coverNeed seg.toNat m s)) s = answerNeed seg.toNat m (coverNeed seg.toNat m s) := by
      rw [takesNeed_iff.2 taken, doIf_true]
    refine ⟨fun taken other => ?_, fun taken held e entry => ?_, fun taken held absent full => ?_,
      fun taken held absent room sink => ?_, fun taken held absent room source => ?_⟩
    · rw [judged taken, answerNeed_ignored (mt answering.1 other)]
    · rw [judged taken]
      refine ⟨?_, ?_, rest⟩
      · rw [answerNeed_merges (answering.2 held) ((answer _).trans entry)]
        exact updAnswer_answer_same ((answer _).trans entry)
      · rw [answerNeed_merges (answering.2 held) ((answer _).trans entry)]
        rfl
    · rw [judged taken, answerNeed_full (answering.2 held) ((answer _).trans absent) (by rwa [frame.answers])]
    · rw [judged taken]
      refine ⟨rest, ?_⟩
      rw [answerNeed_delays (answering.2 held) ((answer _).trans absent) (by rwa [frame.answers]) (by rwa [frame.job])]
      obtain ⟨long, short⟩ := drawnDelay_mem (coverNeed seg.toNat m s).draws
        (lo := Config.answerDelayMin) (hi := Config.answerDelayMax) (by decide)
      refine ⟨rfl, _, long, short, ?_⟩
      rw [← frame.answers]
      rfl
    · rw [judged taken]
      refine ⟨rest, ?_⟩
      rw [answerNeed_sends (answering.2 held) ((answer _).trans absent) (by rwa [frame.answers]) (by rwa [frame.job])]
      exact ⟨rfl, startSending_answer (appendAnswer_answer (AnswerEntry.fresh seg.toNat m) ((answer _).trans absent))⟩

/-! ### The answering side (R99, R100) -/

theorem exec_parcelArrivalRepair {sender : Byte} {job : Word16} {b : ParcelBody} {s : State} (up : s.ident.memTest = false) :
    exec (.parcelArrivalRepair sender job b) s = .next (takeHandoff .repairUnit sender job (.parcel b)
      (doIf (b.isRepair && s.isCurrent job) (repairHeard b.seg.toNat b.parcel) s)) :=
  congrArg Host.Outcome.next (arrival_up up)

theorem exec_answerDelayExpiry {g : Nat} {s : State} {e : AnswerEntry} (up : s.ident.memTest = false)
    (entry : s.answer g = some e) :
    exec (.answerDelayExpiry g) s = .next (if e.sending = true then s else startSending g s) := by
  refine congrArg Host.Outcome.next ((whenUp_up up).trans ?_)
  simp only [entry]

theorem repairHeard_sending {g : Nat} {p : Fin 8} {s : State} {e : AnswerEntry} (entry : s.answer g = some e)
    (sending : e.sending = true) : repairHeard g p s = s := by
  simp only [repairHeard, entry, if_pos sending]

theorem repairHeard_delaying {g : Nat} {p : Fin 8} {s : State} {e : AnswerEntry} (entry : s.answer g = some e)
    (delaying : e.sending = false) :
    repairHeard g p s = if e.mask &&& ~~~ parcelBit p = 0 then dropAnswer g s
      else updAnswer g (fun e => { e with mask := e.mask &&& ~~~ parcelBit p }) s := by
  simp only [repairHeard, entry, delaying, Bool.false_eq_true, if_false]

/-- Settles O36: the REPAIR parcel by the entry's state and the mask it leaves, the delay by the entry's state. -/
theorem answersWaitAndStart : Obligations.AnswersWaitAndStart := by
  unfold Obligations.AnswersWaitAndStart
  refine ⟨fun m => lowestParcel_lowest, fun sender job b s e up entry => ⟨_, exec_parcelArrivalRepair up, ?_, fun other => ?_,
    _, exec_answerDelayExpiry up entry, fun sending => if_pos sending, fun delaying => ?_⟩⟩
  · rintro ⟨repair, current, delaying⟩
    have guard : (b.isRepair && s.isCurrent job) = true := by simp [repair, State.isCurrent, current]
    rw [guard, doIf_true, repairHeard_delaying entry delaying]
    split_ifs with last
    · exact ⟨dropAnswer_answer_same _ s, rfl, rfl, rfl, rfl, fun x other => dropAnswer_answer_other other s⟩
    · exact ⟨updAnswer_answer_same entry, rfl, rfl, rfl, rfl, fun x other => updAnswer_answer_other other _ s⟩
  · cases sending : e.sending with
    | true => rw [doIf, repairHeard_sending entry sending, ite_self]
    | false =>
      have guard : (b.isRepair && s.isCurrent job) = false := by
        rw [Bool.eq_false_iff, ne_eq, Bool.and_eq_true, State.isCurrent, beq_iff_eq]
        exact fun h => other ⟨h.1, h.2, sending⟩
      rw [guard, doIf_false]
  · rw [if_neg (by simp [delaying])]
    exact ⟨startSending_answer entry, rfl, rfl, rfl, rfl, rfl⟩

end Sys2Proof.Machine
end

section
/-! SUPPORT. The timers of a pending need: a new delay, the NEED asked, exhaustion (spec/06_repair.md, R91 to R96, R113). -/
namespace Sys2Proof.Machine
open Sys2Proof.Safety

/-! ### The pacing unit under the loss of descriptors -/

theorem failSocket_pacing (k : Fin 8) (r : Reason) (s : State) : (failSocket k r s).pacing = s.pacing := by
  unfold failSocket
  split_ifs
  · rfl
  · exact (emptyRing_ring k _).2

theorem addOwed_pacing (k : Fin 8) (g : Nat) (o : Origin) (n : Nat) (s : State) : (addOwed k g o n s).pacing = s.pacing := by
  unfold addOwed
  split_ifs
  · rfl
  · exact failSocket_pacing k _ s
  · rfl

theorem revoke_pacing (k : Fin 8) (d : Descriptor) (o : Origin) (s : State) : (revoke k d o s).pacing = s.pacing :=
  (addOwed_pacing k d.seg o d.attempts _).trans (updSlot_pacing ..)

theorem doIf_pacing {c : Bool} {f : State → State} {s : State} (h : (f s).pacing = s.pacing) :
    (doIf c f s).pacing = s.pacing := by
  cases c
  · rfl
  · exact h

theorem oweLacking_pacing (g : Nat) (o : Origin) (s : State) : (oweLacking g o s).pacing = s.pacing :=
  forSockets_inv (P := fun t => t.pacing = s.pacing) _ (fun k t h => (doIf_pacing (addOwed_pacing k g o 0 t)).trans h) s rfl

theorem revokeSlot_pacing (id : SlotId) (s : State) : (revokeSlot id s).pacing = s.pacing :=
  forSockets_inv (P := fun t => t.pacing = s.pacing) _ (fun k _ h => forEach_inv (P := fun t => t.pacing = s.pacing) _ _
    (fun d u hu => (doIf_pacing (revoke_pacing k d .revoked u)).trans hu) _ h) s rfl

/-- A socket without a pending descriptor that names the slot is left alone by its revocation. -/
theorem revokeSlot_unnamed {id : SlotId} {s : State} {k : Fin 8}
    (none' : (s.sockets[k].ring.filter fun d => d.src == id && !d.inFlight) = []) :
    (revokeSlot id s).sockets[k] = s.sockets[k] :=
  (forSockets_each (I := fun _ => True)
    (Q := fun j sk => (s.sockets[j].ring.filter fun d => d.src == id && !d.inFlight) = [] → sk = s.sockets[j]) _ s
    (fun j t => .each _ _ (fun d u => .when _ _ _ (revoke_only j d _ u)) t) (fun _ _ _ => trivial)
    (fun j t _ eq empty => by rw [← eq] at empty ⊢; rw [empty]; rfl) trivial).2 k none'

/-- Into a list that does not have its segment an entry goes with all the others kept. -/
theorem insertOwed_perm {e : OwedEntry} {l : List OwedEntry} (h : ∀ x ∈ l, x.seg ≠ e.seg) :
    (insertOwed e l).Perm (e :: l) := by
  induction l with
  | nil => exact .refl _
  | cons y l ih =>
    have ne : e.seg ≠ y.seg := Ne.symm (h y List.mem_cons_self)
    rw [insertOwed]
    split_ifs
    · exact .refl _
    · exact ((ih fun x hx => h x (List.mem_cons_of_mem _ hx)).cons y).trans (.swap e y l)

theorem owes_iff {sk : Socket} {g : Nat} : sk.owes g = true ↔ ∃ e ∈ sk.owed, e.seg = g := by
  simp [Socket.owes]

theorem lacks_iff {sk : Socket} {g : Nat} :
    sk.lacks g = true ↔ g ∉ sk.written ∧ (∀ d ∈ sk.ring, d.seg ≠ g) ∧ ∀ e ∈ sk.owed, e.seg ≠ g := by
  simp [Socket.lacks, Socket.queued, Socket.owes, and_assoc]

/-! ### Exhaustion (R93, R113) -/

/-- The repair unit's part of an exhaustion: the need leaves, its segment joins the exhausted set. -/
def dropExhausted (g : Nat) (s : State) : State :=
  dropNeed g (updRepair (fun r => { r with exhausted := insertSeg g r.exhausted }) s)

/-- The socket's part: the segment owed where it is lacking, then the descriptors of the DAMAGED slot revoked. -/
def oweExhausted (g : Nat) (s : State) : State :=
  doIf ((s.slot (.win (winOf g))).holdsIn g .damaged) (revokeSlot (.win (winOf g))) (oweLacking g .needExhausted s)

/-- Whether a descriptor is revoked as the need of a segment is exhausted (R113). -/
def State.revokesFor (s : State) (g : Nat) (d : Descriptor) : Bool :=
  (s.slot (.win (winOf g))).holdsIn g .damaged && d.src == .win (winOf g) && !d.inFlight

theorem exhaustNeed_eq (g : Nat) (s : State) : exhaustNeed g s = oweExhausted g (dropExhausted g s) := by
  have kept := (oweLacking_kept g .needExhausted (dropExhausted g s) (.win (winOf g))).damaged g
  show doIf (((oweLacking g .needExhausted (dropExhausted g s)).slot (.win (winOf g))).holdsIn g .damaged) _ _ = _
  rw [kept]
  rfl

theorem oweExhausted_works (g : Nat) (s : State) : Works s (oweExhausted g s) :=
  (oweLacking_works g .needExhausted s).andThen (.when _ _ _ (revokeSlot_works _ _))

theorem oweExhausted_pacing (g : Nat) (s : State) : (oweExhausted g s).pacing = s.pacing :=
  (doIf_pacing (revokeSlot_pacing _ _)).trans (oweLacking_pacing g .needExhausted s)

theorem oweExhausted_kept (g : Nat) (s : State) : SlotsKept s (oweExhausted g s) :=
  (oweLacking_kept g .needExhausted s).trans (.when _ _ _ (revokeSlot_spec _ _).1)

/-- Of the descriptors that are revoked, after the owed additions as before. -/
theorem oweExhausted_lost (g : Nat) (s : State) (k : Fin 8) :
    LostBy (s.revokesFor g) (RevokedFrom (s.revokesFor g) (oweLacking g .needExhausted s).sockets[k])
      (oweLacking g .needExhausted s).sockets[k] (oweExhausted g s).sockets[k] := by
  unfold oweExhausted State.revokesFor
  cases damaged : (s.slot (.win (winOf g))).holdsIn g .damaged with
  | true => exact (revokeSlot_spec _ _).2 k
  | false =>
    rw [doIf_false]
    refine .inr ⟨?_, fun e h => h, fun _ d _ h => absurd h (by simp), fun e h => .inl h⟩
    simp

theorem oweExhausted_same {g : Nat} {s : State} {k : Fin 8}
    (none' : (oweLacking g .needExhausted s).sockets[k].ring.filter (s.revokesFor g) = []) :
    (oweExhausted g s).sockets[k] = (oweLacking g .needExhausted s).sockets[k] := by
  unfold oweExhausted
  unfold State.revokesFor at none'
  cases damaged : (s.slot (.win (winOf g))).holdsIn g .damaged with
  | true =>
    rw [doIf_true]
    refine revokeSlot_unnamed ?_
    simpa [damaged] using none'
  | false => rfl

/-- The owed entry of an exhausted need. -/
def OwedEntry.exhausted (g : Nat) : OwedEntry := { seg := g, record := { origin := .needExhausted, attempts := 0 } }

/-- What exhaustion makes of a socket: it owes the segment it lacks and the segments of its revoked descriptors, or it has failed
on a full owed list. -/
theorem oweExhausted_socket (g : Nat) (s : State) (k : Fin 8) :
    let sk := s.sockets[k]
    let sk' := (oweExhausted g s).sockets[k]
    let lacking : Prop := sk.st.enrolledOrCopying = true ∧ sk.lacks g = true
    (lacking → sk.owed.length < 32 → sk.ring.filter (s.revokesFor g) = [] →
      sk' = { sk with owed := insertOwed (.exhausted g) sk.owed } ∧ ∀ x, x ∈ sk'.owed ↔ x = .exhausted g ∨ x ∈ sk.owed) ∧
    (lacking → 32 ≤ sk.owed.length → sk'.st = .failed ∧ sk'.reason = .owedOverflow ∧ sk'.ring = [] ∧
      sk'.owed = [] ∧ sk'.written = sk.written) ∧
    (¬ lacking → sk.ring.filter (s.revokesFor g) = [] → sk' = sk) ∧
    ((sk.st ≠ .failed ∧ sk'.st = .failed ∧ sk'.reason = .owedOverflow ∧ sk'.ring = [] ∧ sk'.written = sk.written) ∨
      (sk' = { sk with ring := sk.ring.filter (fun d => !s.revokesFor g d), owed := sk'.owed, lag := sk'.lag, tie := sk'.tie } ∧
        (lacking → .exhausted g ∈ sk'.owed) ∧
        (sk.st ≠ .failed → ∀ d ∈ sk.ring, s.revokesFor g d = true → sk'.owes d.seg = true) ∧
        (∀ x ∈ sk.owed, x ∈ sk'.owed) ∧
        ∀ x ∈ sk'.owed, x ∈ sk.owed ∨ (lacking ∧ x = .exhausted g) ∨ ∃ d ∈ sk.ring, s.revokesFor g d = true ∧
          d.seg = x.seg ∧ x.record = { origin := .revoked, attempts := d.attempts })) := by
  have lost := oweExhausted_lost g s k
  have same := oweExhausted_same (g := g) (s := s) (k := k)
  obtain ⟨plain, owing⟩ := oweLacking_spec g .needExhausted s k
  dsimp only
  revert lost same plain owing
  generalize (oweExhausted g s).sockets[k] = sk'
  generalize (oweLacking g .needExhausted s).sockets[k] = mid
  generalize s.sockets[k] = sk
  intro lost same plain owing
  simp only [Bool.and_eq_true] at owing
  rw [Bool.eq_false_iff, ne_eq, Bool.and_eq_true] at plain
  by_cases lacking : sk.st.enrolledOrCopying = true ∧ sk.lacks g = true
  · have writes : sk.st ≠ .failed := fun failed => by
      rw [failed] at lacking
      exact absurd lacking.1 (by decide)
    obtain ⟨short, long⟩ := owing lacking
    refine ⟨fun _ room none' => ?_, fun _ full => ?_, fun h => absurd lacking h, ?_⟩
    · have eq := short room
      have ring : mid.ring = sk.ring := by rw [eq]
      rw [same (by rw [ring, none']), eq]
      refine ⟨rfl, fun x => ?_⟩
      rw [(insertOwed_perm (lacks_iff.1 lacking.2).2.2).mem_iff, List.mem_cons]
      rfl
    · obtain ⟨st, reason, ring, owed, written⟩ := long full
      rw [same (by rw [ring]; rfl)]
      exact ⟨st, reason, ring, owed, written⟩
    · obtain room | full := Nat.lt_or_ge sk.owed.length Config.owedSize
      · have eq := short room
        have owed : mid.owed = insertOwed (.exhausted g) sk.owed := by rw [eq]; rfl
        obtain ⟨-, failed⟩ | ⟨eq', old, named, new⟩ := lost
        · rw [eq] at failed
          exact .inl ⟨writes, failed⟩
        · refine .inr ⟨?_, fun _ => old _ ?_, fun _ d hd hr => ?_, fun x hx => old x ?_, fun x hx => ?_⟩
          · rw [eq] at eq'
            exact eq'
          · rw [owed, (insertOwed_perm (lacks_iff.1 lacking.2).2.2).mem_iff]
            exact List.mem_cons_self
          · rw [eq] at named
            exact owes_iff.2 (named writes d hd hr)
          · rw [owed]
            exact (insertOwed_has _ _).1 x hx
          · obtain mem | ⟨d, hd, from'⟩ := new x hx
            · rw [owed] at mem
              exact (insertOwed_mem mem).elim (fun h => .inr (.inl ⟨lacking, h⟩)) .inl
            · rw [eq] at hd
              exact .inr (.inr ⟨d, hd, from'⟩)
      · obtain ⟨st, reason, ring, owed, written⟩ := long full
        rw [same (by rw [ring]; rfl)]
        exact .inl ⟨writes, st, reason, ring, written⟩
  · have eq := plain lacking
    rw [eq] at lost same
    refine ⟨fun h => absurd h lacking, fun h => absurd h lacking, fun _ => same, ?_⟩
    obtain failed | ⟨eq', old, named, new⟩ := lost
    · exact .inl failed
    · exact .inr ⟨eq', fun h => absurd h lacking, fun writes d hd hr => owes_iff.2 (named writes d hd hr), old,
        fun x hx => (new x hx).imp_right .inr⟩

/-! ### The timers (R91, R92, R96) -/

section Timers

variable {g : Nat} {s : State} {e : NeedEntry}

theorem exec_needDelayExpiry (up : s.ident.memTest = false) (entry : s.need g = some e) :
    exec (.needDelayExpiry g) s = .next (if e.st = .waitingDelay then
      if (s.slot (.win (winOf g))).discards = true then rewait g e.missing s else askNeed g s else s) := by
  refine congrArg Host.Outcome.next ((whenUp_up up).trans ?_)
  simp only [entry]

theorem exec_suppressionExpiry (up : s.ident.memTest = false) (entry : s.need g = some e) :
    exec (.suppressionExpiry g) s = .next (if e.st = .suppressed then rewait g e.missing s else s) := by
  refine congrArg Host.Outcome.next ((whenUp_up up).trans ?_)
  simp only [entry]

theorem exec_needRetryExpiry (up : s.ident.memTest = false) (entry : s.need g = some e) (st : e.st = .asked .retry) :
    exec (.needRetryExpiry g) s =
      .next (settle s.settled (if e.count < 6 then rewait g e.missing s else exhaustNeed g s)) := by
  refine congrArg Host.Outcome.next ((act_up up).trans ?_)
  simp only [entry, if_pos st]
  rfl

end Timers

theorem usable_iff {sl : Slot} :
    sl.usable = true ↔ sl.st = .free ∧ sl.inFlight = 0 ∧ sl.masterRead = false ∧ sl.toSend = 0 := by
  simp only [Slot.usable, Bool.and_eq_true, beq_iff_eq, Bool.not_eq_true', and_assoc]

theorem discards_iff {sl : Slot} : sl.discards = true ↔ (sl.st = .free ∧ sl.usable = false) ∨
    ((sl.st = .damaged ∨ sl.st = .retired) ∧ 0 < sl.inFlight) := by
  unfold Slot.discards
  cases sl.st <;> simp

theorem rewait_delays {g : Nat} {s : State} {e : NeedEntry} (entry : s.need g = some e) :
    ∃ d, d ≤ 2 * Config.ms ∧ (rewait g e.missing s).need g = some { e with st := .waitingDelay, timer := some d } :=
  rewait_need entry

/-- Settles O34: each timer by the entry's state, exhaustion by the repair unit's part and the sockets'. -/
theorem needTimersExpire : Obligations.NeedTimersExpire := by
  unfold Obligations.NeedTimersExpire
  refine ⟨fun sl => ⟨discards_iff, usable_iff⟩, fun g s e up entry => ⟨fun st open' => ?_, fun st shut => ?_, fun st => ?_,
    fun st few => ?_, fun st many => ?_, fun other => ?_, fun other => ?_⟩⟩
  · refine ⟨askNeed g s, ?_, ⟨(updNeed_frame g _ s).others, rfl, rfl, rfl, rfl, rfl, rfl⟩, updNeed_need_same entry, rfl⟩
    rw [exec_needDelayExpiry up entry, if_pos st, if_neg (by simp [open'])]
  · refine ⟨rewait g e.missing s, ?_, ⟨(rewait_frame g _ s).others, rfl, rfl, rfl, rfl, rfl, rfl⟩, rewait_delays entry, rfl⟩
    rw [exec_needDelayExpiry up entry, if_pos st, if_pos shut]
  · refine ⟨rewait g e.missing s, ?_, ⟨(rewait_frame g _ s).others, rfl, rfl, rfl, rfl, rfl, rfl⟩, rewait_delays entry, rfl⟩
    rw [exec_suppressionExpiry up entry, if_pos st]
  · refine ⟨rewait g e.missing s, ?_, ⟨(rewait_frame g _ s).others, rfl, rfl, rfl, rfl, rfl, rfl⟩, rewait_delays entry, rfl⟩
    rw [exec_needRetryExpiry up entry st, if_pos few]
  · refine ⟨exhaustNeed g s, ?_, ?_⟩
    · rw [exec_needRetryExpiry up entry st, if_neg (Nat.not_lt.2 many)]
    have apart := (oweExhausted_works g (dropExhausted g s)).apart
    have kept := oweExhausted_kept g (dropExhausted g s) (.win (winOf g))
    have sockets := oweExhausted_socket g (dropExhausted g s)
    have pacing := oweExhausted_pacing g (dropExhausted g s)
    rw [exhaustNeed_eq]
    generalize oweExhausted g (dropExhausted g s) = u at apart kept sockets pacing
    have answers : u.repair.answers = s.repair.answers := (congrArg Repair.answers apart.repair).trans rfl
    have repair : u.repair.needs = s.repair.needs.filter fun x => x.seg != g := congrArg Repair.needs apart.repair
    refine ⟨?_, repair, fun x => ?_, answers, ?_, apart.port, apart.job, apart.rv, apart.base,
      apart.next, apart.checkTable, fun damaged => ?_, sockets⟩
    · rw [State.need, apart.repair]
      exact dropNeed_need_same g _
    · rw [apart.repair]
      exact insertSeg_iff g s.repair.exhausted x
    · rw [pacing, repair]
      rfl
    · have still := (kept.damaged g).trans damaged
      rw [Slot.holdsIn, Bool.and_eq_true, beq_iff_eq, beq_iff_eq] at still
      exact ⟨still.2, still.1⟩
  · rw [exec_needDelayExpiry up entry, if_neg other]
  · rw [exec_suppressionExpiry up entry, if_neg other]

end Sys2Proof.Machine
end

section
/-! SUPPORT. The socket engines: what each command of an engine does to its socket, the descriptor it takes, attach, removal,
exit targets and stalls (spec/10_sockets.md). -/
namespace Sys2Proof.Machine
open Sys2Proof.Safety

/-! ### Changes of one socket -/

/-- Two changes of one socket in one. -/
theorem updSocket_updSocket (k : Fin 8) (f g : Socket → Socket) (s : State) :
    updSocket k f (updSocket k g s) = updSocket k (fun sk => f (g sk)) s := by
  unfold updSocket
  simp

/-- A change of one socket by the socket it is made on. -/
theorem updSocket_congr {k : Fin 8} {f g : Socket → Socket} {s : State} (h : f s.sockets[k] = g s.sockets[k]) :
    updSocket k f s = updSocket k g s := by
  unfold updSocket
  rw [h]

/-- What a change of socket `k` alone leaves. -/
structure SocketFrame (k : Fin 8) (s t : State) : Prop where
  others : ∀ j : Fin 8, j ≠ k → t.sockets[j] = s.sockets[j]
  win : t.win = s.win
  job : t.job = s.job
  port : t.port = s.port
  repair : t.repair = s.repair

theorem updSocket_frame (k : Fin 8) (f : Socket → Socket) (s : State) : SocketFrame k s (updSocket k f s) :=
  ⟨fun _ other => updSocket_other other f s, rfl, rfl, rfl, rfl⟩

theorem attempt_some {sk : Socket} {c : Command} (h : sk.cmd = some c) (attempt : c.portReset = false) :
    sk.attempt = some c := by
  simp [Socket.attempt, h, attempt]

theorem discards_command_iff {sk : Socket} {c : Command} :
    sk.discards c = true ↔ sk.exit.isSome = true ∨ ∃ seg src, c.purpose = .descriptor seg src true := by
  rw [Socket.discards, Bool.or_eq_true]
  refine or_congr_right ?_
  cases c.purpose <;> simp [Purpose.isDetached]

/-- A command whose result counts: the socket is not exit-bound and the write not detached. -/
theorem discards_false {sk : Socket} {c : Command} (exit : sk.exit = none) (attached : c.purpose.isDetached = false) :
    sk.discards c = false := by
  simp [Socket.discards, exit, attached]

/-! ### The commands of an engine -/

section Commands

variable {k : Fin 8} {s : State} {c : Command}

theorem exec_stallTimerExpiry (up : s.ident.memTest = false) (cmd : s.sockets[k].cmd = some c) (attempt : c.portReset = false)
    (runs : c.stall.isSome) : exec (.stallTimerExpiry k) s = .next (settle s.settled (attemptStalled k c s)) := by
  refine congrArg Host.Outcome.next ((act_up up).trans ?_)
  simp only [attempt_some cmd attempt, runs, doIf_true]

theorem exec_writeSegmentComplete (up : s.ident.memTest = false) (cmd : s.sockets[k].cmd = some c)
    (attempt : c.portReset = false) (good : Bool) :
    exec (.writeSegmentComplete k good) s = .next (settle s.settled (writeEnds k good c s)) := by
  refine congrArg Host.Outcome.next ((act_up up).trans ?_)
  simp only [attempt_some cmd attempt]

theorem exec_readSegmentComplete (up : s.ident.memTest = false) (cmd : s.sockets[k].cmd = some c)
    (attempt : c.portReset = false) (data : Option (List Byte)) :
    exec (.readSegmentComplete k data) s = .next (settle s.settled (readEnds k data c s)) := by
  refine congrArg Host.Outcome.next ((act_up up).trans ?_)
  simp only [attempt_some cmd attempt]

theorem exec_portResetEnd (up : s.ident.memTest = false) (cmd : s.sockets[k].cmd = some c) :
    exec (.portResetEnd k) s = .next (settle s.settled (if c.portReset = true then
      if s.sockets[k].discards c = true then endDiscarded k s else retry k s else s)) := by
  refine congrArg Host.Outcome.next ((act_up up).trans ?_)
  simp only [cmd]

end Commands

/-! ### DESCRIPTOR_TAKE (R109) -/

theorem exec_descriptorTake (k : Fin 8) (s : State) :
    exec (.descriptorTake k) s = .next (if s.ident.memTest then s else takeDescriptor k s) := rfl

theorem takeDescriptor_some {k : Fin 8} {s : State} {d : Descriptor}
    (idle : (s.sockets[k].st = .copying ∨ s.sockets[k].st = .repaying) ∧ s.sockets[k].cmd = none ∧ s.sockets[k].exit = none)
    (next : s.nextReady k = some d) :
    takeDescriptor k s = reportOccupancy k (updSocket k (fun sk =>
      { sk with
        ring := sk.ring.replace d { d with inFlight := true }
        cmd := some (s.writeCommand k d.seg d.src) }) (startWrite d.src s)) := by
  refine (if_pos ⟨copyingOrRepaying_iff.2 idle.1, idle.2⟩).trans ?_
  simp only [next]
  unfold State.writeCommand State.planFor State.serialBase State.globalSocket startWrite
  simp only [updSlot_patches, updSlot_job, updSlot_ident, updSlot_checkTable]

theorem takeDescriptor_none {k : Fin 8} {s : State} (none' : s.nextReady k = none) : takeDescriptor k s = s := by
  unfold takeDescriptor
  split_ifs
  · rw [none']
  · rfl

theorem takeDescriptor_busy {k : Fin 8} {s : State}
    (busy : ¬ ((s.sockets[k].st = .copying ∨ s.sockets[k].st = .repaying) ∧ s.sockets[k].cmd = none ∧
      s.sockets[k].exit = none)) : takeDescriptor k s = s := by
  refine if_neg fun h => busy ?_
  exact ⟨copyingOrRepaying_iff.1 h.1, h.2⟩

/-- A value replaced in a list where it stands first. -/
theorem replace_append {α : Type} [BEq α] [LawfulBEq α] {a b : α} {l : List α} (h : ∀ x ∈ l, x ≠ a) (m : List α) :
    (l ++ a :: m).replace a b = l ++ b :: m := by
  induction l with
  | nil => simp
  | cons y l ih =>
    have ne : y ≠ a := h y List.mem_cons_self
    rw [List.cons_append, List.replace_cons, beq_false_of_ne (Ne.symm ne), List.cons_append,
      ih fun x hx => h x (List.mem_cons_of_mem _ hx)]

theorem nextReady_append {k : Fin 8} {s : State} {older newer : List Descriptor} {d : Descriptor}
    (ring : s.sockets[k].ring = older ++ d :: newer) (before : ∀ o ∈ older, o.inFlight = true ∨ s.ready o = false)
    (pending : d.inFlight = false) (ready : s.ready d = true) : s.nextReady k = some d := by
  rw [State.nextReady, ring, List.find?_append, List.find?_eq_none.2, Option.none_or, List.find?_cons]
  · simp [pending, ready]
  · intro o ho
    obtain flying | unready := before o ho
    · simp [flying]
    · simp [unready]

/-- Settles O37: the descriptor taken is the first that is pending and ready; the rest is the record of its start. -/
theorem engineTakesTheOldestReady : Obligations.EngineTakesTheOldestReady := by
  unfold Obligations.EngineTakesTheOldestReady
  refine fun k s up => ⟨fun older d newer idle ring before pending ready => ?_, fun h => ?_⟩
  · have next := nextReady_append ring (fun o ho => (before o ho).2) pending ready
    have eq := takeDescriptor_some idle next
    refine ⟨takeDescriptor k s, by rw [exec_descriptorTake, up]; rfl, ?_⟩
    have socket : (takeDescriptor k s).sockets[k] = Socket.lagBy (Monitor.report
        (s.sockets[k].ring.replace d { d with inFlight := true }).length)
        { s.sockets[k] with
          ring := s.sockets[k].ring.replace d { d with inFlight := true }
          cmd := some (s.writeCommand k d.seg d.src) } := by
      rw [eq, reportOccupancy_socket, updSocket_same, startWrite_sockets]
    have apart := (takeDescriptor_works k s).apart
    rw [socket]
    refine ⟨?_, rfl, ?_, fun j other => ?_, fun j other => takeDescriptor_only k s j other, rfl, rfl, rfl, apart.job,
      apart.port, apart.repair⟩
    · show s.sockets[k].ring.replace d _ = _
      rw [ring]
      exact replace_append (fun o ho => (before o ho).1) newer
    · rw [eq, reportOccupancy, updSocket_slot, updSocket_slot]
      exact updSlot_same ..
    · rw [eq, reportOccupancy, updSocket_slot, updSocket_slot]
      exact updSlot_other other ..
  · rw [exec_descriptorTake, up]
    refine congrArg Host.Outcome.next ?_
    obtain busy | unready := h
    · exact takeDescriptor_busy busy
    · refine takeDescriptor_none (List.find?_eq_none.2 fun d hd => ?_)
      obtain flying | unready := unready d hd
      · simp [flying]
      · simp [unready]

end Sys2Proof.Machine
end

section
/-! SUPPORT. Attach and placement, exit targets, master failures, stalls and removal (spec/10_sockets.md). -/
namespace Sys2Proof.Machine
open Sys2Proof.Safety

/-! ### Placement (R141) -/

/-- What becomes of a socket that reaches READY, by the job state (R141). -/
def Socket.placed (job : JobState) (n : Nat) (sk : Socket) : Socket :=
  match job with
  | .idle | .finished | .cancelled => { sk with st := .ready, reason := .none }
  | .enrolling =>
    if sk.fits n = true then { sk with st := .preparing, reason := .none, cmd := some (Command.first .blanking) }
    else { sk with st := .rejected, reason := .tooSmall }
  | .copying | .closing | .orphaned => { sk with st := .waiting, reason := .none }

theorem placeReady_eq (k : Fin 8) (s : State) :
    placeReady k s = updSocket k (Socket.placed s.job.st s.imageSize) s := by
  cases st : s.job.st <;> simp only [placeReady, st]
  case enrolling =>
    split_ifs with fits
    · rw [setState, issue, updSocket_updSocket]
      exact updSocket_congr (by simp only [Socket.placed, if_pos fits])
    · exact updSocket_congr (by simp only [Socket.placed, if_neg fits])
  all_goals rfl

section Placed

variable {job : JobState} {n : Nat} {sk : Socket}

theorem placed_outside (h : job = .idle ∨ job = .finished ∨ job = .cancelled) :
    sk.placed job n = { sk with st := .ready, reason := .none } := by
  obtain rfl | rfl | rfl := h <;> rfl

theorem placed_late (h : job = .copying ∨ job = .closing ∨ job = .orphaned) :
    sk.placed job n = { sk with st := .waiting, reason := .none } := by
  obtain rfl | rfl | rfl := h <;> rfl

theorem fits_iff : sk.fits n = true ↔ n * 64 ≤ sk.capacity.getD 0 := decide_eq_true_iff

theorem placed_fits (h : n * 64 ≤ sk.capacity.getD 0) : sk.placed .enrolling n =
    { sk with st := .preparing, reason := .none, cmd := some (Command.first .blanking) } := if_pos (fits_iff.2 h)

theorem placed_small (h : ¬ n * 64 ≤ sk.capacity.getD 0) :
    sk.placed .enrolling n = { sk with st := .rejected, reason := .tooSmall } := if_neg (mt fits_iff.1 h)

end Placed

/-! ### Attach (R140) -/

theorem rejectAttach_eq (k : Fin 8) (r : Reason) (s : State) : rejectAttach k r s =
    updSocket k (fun sk => { sk with st := .rejected, reason := r, cmd := none, attachTimer := none }) s := by
  rw [rejectAttach, setState, updSocket_updSocket]

theorem attachSucceeds_eq (k : Fin 8) (s : State) : attachSucceeds k s =
    updSocket k (fun sk => Socket.placed s.job.st s.imageSize { sk with cmd := none, attachTimer := none }) s := by
  rw [attachSucceeds, placeReady_eq, updSocket_updSocket]
  rfl

section Attach

variable {k : Fin 8} {s : State} {c : Command}

theorem attachAt_true {p : Purpose} (st : s.sockets[k].st = .attaching) (cmd : s.sockets[k].cmd = some c)
    (attempt : c.portReset = false) (purpose : c.purpose = p) : s.attachAt k p = true := by
  simp only [State.attachAt, attempt_some cmd attempt, st, purpose, beq_self_eq_true, Bool.and_self]

theorem exec_identifyComplete (up : s.ident.memTest = false) (at' : s.attachAt k .identify = true) (good : Bool) :
    exec (.identifyComplete k good) s = .next ((if good then issue k .capacity else rejectAttach k .noResponse) s) := by
  refine congrArg Host.Outcome.next ((whenUp_up up).trans ?_)
  simp only [at', doIf_true]

theorem exec_capacityComplete_some (up : s.ident.memTest = false) (at' : s.attachAt k .capacity = true) (n : Nat) :
    exec (.capacityComplete k (some n)) s =
      .next (issue k .protectStatus (updSocket k (fun sk => { sk with capacity := some n }) s)) := by
  refine congrArg Host.Outcome.next ((whenUp_up up).trans ?_)
  simp only [at', doIf_true]

theorem exec_capacityComplete_none (up : s.ident.memTest = false) (at' : s.attachAt k .capacity = true) :
    exec (.capacityComplete k none) s = .next (rejectAttach k .noResponse s) := by
  refine congrArg Host.Outcome.next ((whenUp_up up).trans ?_)
  simp only [at', doIf_true]

theorem exec_protectStatusComplete_none (up : s.ident.memTest = false) (at' : s.attachAt k .protectStatus = true) :
    exec (.protectStatusComplete k none) s = .next (settle s.settled (rejectAttach k .noResponse s)) := by
  refine congrArg Host.Outcome.next ((act_up up).trans ?_)
  simp only [at', doIf_true]

theorem exec_protectStatusComplete_true (up : s.ident.memTest = false) (at' : s.attachAt k .protectStatus = true) :
    exec (.protectStatusComplete k (some true)) s = .next (settle s.settled (rejectAttach k .isProtected s)) := by
  refine congrArg Host.Outcome.next ((act_up up).trans ?_)
  simp only [at', doIf_true]

theorem exec_protectStatusComplete_false (up : s.ident.memTest = false) (at' : s.attachAt k .protectStatus = true) :
    exec (.protectStatusComplete k (some false)) s = .next (settle s.settled (attachSucceeds k s)) := by
  refine congrArg Host.Outcome.next ((act_up up).trans ?_)
  simp only [at', doIf_true]

end Attach

/-- A change of one socket, written out for the statements: the others, the blocks, and the socket itself. -/
theorem updSocket_spec {k : Fin 8} {f : Socket → Socket} {s : State} {sk : Socket} (h : f s.sockets[k] = sk) :
    ((∀ j : Fin 8, j ≠ k → (updSocket k f s).sockets[j] = s.sockets[j]) ∧ (updSocket k f s).win = s.win ∧
      (updSocket k f s).job = s.job ∧ (updSocket k f s).port = s.port ∧ (updSocket k f s).repair = s.repair) ∧
      (updSocket k f s).sockets[k] = sk :=
  ⟨⟨fun _ other => updSocket_other other f s, rfl, rfl, rfl, rfl⟩, (updSocket_same k f s).trans h⟩

/-- A rejected stick, in the same form. -/
theorem rejectAttach_spec (k : Fin 8) (r : Reason) (s : State) :
    ((∀ j : Fin 8, j ≠ k → (rejectAttach k r s).sockets[j] = s.sockets[j]) ∧ (rejectAttach k r s).win = s.win ∧
      (rejectAttach k r s).job = s.job ∧ (rejectAttach k r s).port = s.port ∧ (rejectAttach k r s).repair = s.repair) ∧
      (rejectAttach k r s).sockets[k] =
        { s.sockets[k] with st := .rejected, reason := r, cmd := none, attachTimer := none } := by
  rw [rejectAttach_eq]
  exact updSocket_spec rfl

/-- Settles O44: event by event, each a change of the one socket. -/
theorem attachSequence : Obligations.AttachSequence := by
  unfold Obligations.AttachSequence
  refine fun k s up => ⟨fun st => ?_, fun st => ?_, fun st runs => ?_, fun c st cmd attempt => ⟨fun purpose => ?_,
    fun purpose => ?_, fun purpose => ?_⟩⟩
  · refine ⟨updSocket k (fun sk => { sk with
      st := .attaching, reason := .none, cmd := some (Command.first .identify), attachTimer := some (1000 * Config.ms) }) s, ?_,
      updSocket_spec rfl⟩
    refine congrArg Host.Outcome.next ((whenUp_up up).trans ?_)
    rw [st, beq_self_eq_true, doIf_true, setState, issue, updSocket_updSocket, updSocket_updSocket]
    rfl
  · refine congrArg Host.Outcome.next ((whenUp_up up).trans ?_)
    rw [beq_false_of_ne st, doIf_false]
  · refine ⟨rejectAttach k .noResponse s, ?_, rejectAttach_spec k _ s⟩
    refine congrArg Host.Outcome.next ((whenUp_up up).trans ?_)
    rw [st, runs]
    rfl
  · have at' := attachAt_true st cmd attempt purpose
    exact ⟨⟨issue k .capacity s, exec_identifyComplete up at' true, updSocket_spec rfl⟩,
      ⟨rejectAttach k .noResponse s, exec_identifyComplete up at' false, rejectAttach_spec k _ s⟩⟩
  · have at' := attachAt_true st cmd attempt purpose
    refine ⟨fun n => ⟨_, exec_capacityComplete_some up at' n, ?_⟩,
      ⟨_, exec_capacityComplete_none up at', rejectAttach_spec k _ s⟩⟩
    rw [issue, updSocket_updSocket]
    exact updSocket_spec rfl
  · have at' := attachAt_true st cmd attempt purpose
    have attached {sk : Socket}
        (h : Socket.placed s.job.st s.imageSize { s.sockets[k] with cmd := none, attachTimer := none } = sk) :
        ∃ u, exec (.protectStatusComplete k (some false)) s = .next (settle s.settled u) ∧
          ((∀ j : Fin 8, j ≠ k → u.sockets[j] = s.sockets[j]) ∧ u.win = s.win ∧ u.job = s.job ∧ u.port = s.port ∧
            u.repair = s.repair) ∧ u.sockets[k] = sk := by
      refine ⟨_, exec_protectStatusComplete_false up at', ?_⟩
      rw [attachSucceeds_eq]
      exact updSocket_spec h
    refine ⟨⟨_, exec_protectStatusComplete_none up at', rejectAttach_spec k _ s⟩,
      ⟨_, exec_protectStatusComplete_true up at', rejectAttach_spec k _ s⟩,
      fun outside => attached (placed_outside outside), fun late => attached (placed_late late),
      fun enrolling fits => attached ?_, fun enrolling small => attached ?_⟩
    · rw [enrolling]
      exact placed_fits fits
    · rw [enrolling]
      exact placed_small (Nat.not_le.2 small)

/-! ### The end of a command (R63, R69, R83, R150) -/

section Abandon

variable {k : Fin 8} {s : State} {c : Command}

theorem abandonRead_eq {seg : Nat} {dst : SlotId} (cmd : s.sockets[k].cmd = some c) (purpose : c.purpose = .master seg dst) :
    abandonCommand k s = endMasterRead dst (updSocket k (fun sk => { sk with cmd := none }) s) := by
  obtain ⟨p, a, st, pr, pl, rf, v⟩ := c
  cases purpose
  unfold abandonCommand
  rw [cmd]

/-- A command of no slot ends alone. -/
theorem abandonOther_eq (other : ∀ c, s.sockets[k].cmd = some c → (∀ seg src x, c.purpose ≠ .descriptor seg src x) ∧
    ∀ seg dst, c.purpose ≠ .master seg dst) : abandonCommand k s = updSocket k (fun sk => { sk with cmd := none }) s := by
  unfold abandonCommand
  cases cmd : s.sockets[k].cmd with
  | none => rfl
  | some c =>
    obtain ⟨p, a, st, pr, pl, rf, v⟩ := c
    obtain ⟨write, read⟩ := other _ cmd
    cases p with
    | descriptor seg src x => exact absurd rfl (write seg src x)
    | master seg dst => exact absurd rfl (read seg dst)
    | identify | capacity | protectStatus | blanking | verify => rfl

theorem endMasterRead_slot (dst : SlotId) (s : State) : (endMasterRead dst s).slot dst =
    if (s.slot dst).masterRead = true ∧ ((s.slot dst).st = .reading ∨ (s.slot dst).st = .filling) then
      { s.slot dst with st := .free, seg := none, mask := 0, timer := none, masterRead := false }
    else { s.slot dst with masterRead := false } := by
  refine (updSlot_same ..).trans ?_
  simp only [Bool.and_eq_true, Bool.or_eq_true, beq_iff_eq]
  rfl

theorem abandonCommand_pacing (k : Fin 8) (s : State) : (abandonCommand k s).pacing = s.pacing := by
  by_cases write : ∃ c seg src x, s.sockets[k].cmd = some c ∧ c.purpose = .descriptor seg src x
  · obtain ⟨c, seg, src, x, cmd, purpose⟩ := write
    rw [abandonWrite_eq k s cmd purpose, endWrite, settleSlot, updSlot_pacing, updSlot_pacing, updSocket_pacing]
  by_cases read : ∃ c seg dst, s.sockets[k].cmd = some c ∧ c.purpose = .master seg dst
  · obtain ⟨c, seg, dst, cmd, purpose⟩ := read
    rw [abandonRead_eq cmd purpose, endMasterRead, updSlot_pacing, updSocket_pacing]
  · rw [abandonOther_eq fun c cmd => ⟨fun seg src x p => write ⟨c, seg, src, x, cmd, p⟩,
      fun seg dst p => read ⟨c, seg, dst, cmd, p⟩⟩, updSocket_pacing]

end Abandon

/-! ### Exit targets (R143, R150) -/

theorem takeTarget_waiting (k : Fin 8) (s : State) : takeTarget k .waiting s =
    updSocket k (fun sk => { sk with st := .waiting, reason := .none, exit := none }) s := by
  rw [takeTarget, setState, updSocket_updSocket]

theorem takeTarget_ready (k : Fin 8) (s : State) : takeTarget k .ready s =
    updSocket k (fun sk => Socket.placed s.job.st s.imageSize { sk with exit := none }) s := by
  refine (placeReady_eq k _).trans ?_
  exact updSocket_updSocket ..

theorem giveExit_idle {k : Fin 8} {x : ExitTarget} {s : State} (h : s.sockets[k].cmd = none) :
    giveExit k x s = takeTarget k x s := by
  simp only [giveExit, h]

theorem giveExit_some {k : Fin 8} {x : ExitTarget} {s : State} {c : Command} (h : s.sockets[k].cmd = some c) :
    giveExit k x s = if c.portReset = true then takeTarget k x (abandonCommand k s)
      else updSocket k (fun sk => { sk with exit := some x }) s := by
  simp only [giveExit, h]

section WriteEnds

variable {k : Fin 8} {s : State} {c : Command} {good : Bool} {data : Option (List Byte)}

theorem writeEnds_blanking (purpose : c.purpose = .blanking) :
    writeEnds k good c s = if s.sockets[k].discards c = true then endDiscarded k s
      else if good = true then setState k .enrolled .none (clearCommand k s) else attemptError k c s := by
  simp only [writeEnds, purpose]

theorem writeEnds_descriptor {seg : Nat} {src : SlotId} {x : Bool} (purpose : c.purpose = .descriptor seg src x) :
    writeEnds k good c s = if s.sockets[k].discards c = true then endDiscarded k (doIf good (judgeStream k) s)
      else if good = true then writeGood k s else attemptError k c s := by
  simp only [writeEnds, purpose]

theorem readEnds_discarded (purpose : (∃ seg, c.purpose = .verify seg) ∨ ∃ seg dst, c.purpose = .master seg dst)
    (discards : s.sockets[k].discards c = true) : readEnds k data c s = endDiscarded k s := by
  obtain ⟨seg, purpose⟩ | ⟨seg, dst, purpose⟩ := purpose <;> simp only [readEnds, purpose, if_pos discards]

end WriteEnds

/-- Settles O42: a target taken, given, and taken at the end of an attempt; the end of a command by its purpose. -/
theorem exitTargetsAreTaken : Obligations.ExitTargetsAreTaken := by
  unfold Obligations.ExitTargetsAreTaken
  refine ⟨fun k s => ⟨takeTarget_waiting k s, fun outside => ?_, fun late => ?_, fun enrolling => ?_, rfl⟩,
    fun k x s => ⟨giveExit_idle, fun c => giveExit_some⟩, fun k s => ?_, fun k s c up cmd discarded => ?_⟩
  · exact (takeTarget_ready k s).trans (updSocket_congr (placed_outside outside))
  · exact (takeTarget_ready k s).trans (updSocket_congr (placed_late late))
  · rw [takeTarget_ready, enrolling]
    split_ifs with fits
    · exact updSocket_congr (placed_fits fits)
    · exact updSocket_congr (placed_small fits)
  · have apart := (abandonCommand_works k s).apart
    refine ⟨abandonCommand_socket k s, abandonCommand_only k s, apart.job, apart.port, apart.repair, abandonCommand_pacing k s,
      fun c seg src x => abandonWrite_eq k s, fun c seg dst cmd purpose => ?_, fun other => ?_⟩
    · dsimp only
      rw [abandonRead_eq cmd purpose]
      refine ⟨endMasterRead_slot dst _, fun j other => ?_⟩
      exact (updSlot_other other ..).trans (updSocket_slot ..)
    · rw [abandonOther_eq other]
      rfl
  · have discards := discards_command_iff.2 discarded
    refine ⟨fun reset => ?_, fun attempt => ⟨fun runs => ?_, fun purpose good => ?_, fun seg src x purpose => ⟨?_, ?_⟩,
      fun seg purpose data => ?_, fun seg dst purpose data => ?_⟩⟩
    · refine (exec_portResetEnd up cmd).trans ?_
      rw [if_pos reset, if_pos discards]
      rfl
    · refine (exec_stallTimerExpiry up cmd attempt runs).trans ?_
      rw [attemptStalled, if_pos discards]
      rfl
    · refine (exec_writeSegmentComplete up cmd attempt _).trans ?_
      rw [writeEnds_blanking purpose, if_pos discards]
      rfl
    · refine (exec_writeSegmentComplete up cmd attempt _).trans ?_
      rw [writeEnds_descriptor purpose, if_pos discards]
      rfl
    · refine (exec_writeSegmentComplete up cmd attempt _).trans ?_
      rw [writeEnds_descriptor purpose, if_pos discards]
      rfl
    · refine (exec_readSegmentComplete up cmd attempt _).trans ?_
      rw [readEnds_discarded (.inl ⟨seg, purpose⟩) discards]
      rfl
    · refine (exec_readSegmentComplete up cmd attempt _).trans ?_
      rw [readEnds_discarded (.inr ⟨seg, dst, purpose⟩) discards]
      rfl

theorem updSocket_apart (k : Fin 8) (f : Socket → Socket) (s : State) : Apart s (updSocket k f s) :=
  ⟨rfl, rfl, rfl, rfl, rfl, rfl, rfl, rfl, rfl, rfl, rfl, rfl, rfl, rfl⟩

/-! ### Failure of a socket without a command (R149) -/

theorem emptyRing_idle {k : Fin 8} {s : State} (idle : s.sockets[k].cmd = none) :
    (emptyRing k s).sockets[k] = Socket.lagBy (Monitor.report 0) { s.sockets[k] with ring := [], cmd := none } := by
  obtain ⟨⟨c, eq⟩, -⟩ := emptyRing_socket k s
  obtain ⟨-, -, -, -, same⟩ := emptyRing_spec k s
  have cmd : (emptyRing k s).sockets[k].cmd = none := (same fun c seg src x h => by rw [idle] at h; cases h).trans idle
  rw [eq] at cmd ⊢
  rw [show c = none from cmd]

/-- A socket that fails with no command in flight (R149). -/
theorem failSocket_idle {k : Fin 8} {s : State} (idle : s.sockets[k].cmd = none) (writes : s.sockets[k].st ≠ .failed)
    (r : Reason) : (failSocket k r s).sockets[k] =
      { Socket.lagBy (Monitor.report 0) { s.sockets[k].clearLists with exit := none, ring := [], cmd := none } with
        st := .failed, reason := r } := by
  have cleared : (updSocket k (fun sk => { sk.clearLists with exit := none }) s).sockets[k].cmd = none := by
    rw [updSocket_same]
    exact idle
  rw [failSocket, if_neg writes, setState_socket, emptyRing_idle cleared, updSocket_same]

/-! ### Master failures (R48, R52) -/

theorem startCancel_eq {r : Byte} {s : State} {n : Word16} (number : s.job.number = some n) : startCancel r s =
    updPort (fun p => { p with cancels := p.cancels ++ [{ job := n, reason := r }] })
      (updJob (fun j => { j with
        cancel := some { copy := { job := n, reason := r }, left := 2, timer := some Config.tb } }) s) := by
  simp only [startCancel, number]
  rfl

/-- A station torn down stays so as it starts a CANCEL. -/
theorem startCancel_tornDown {r : Byte} {s : State} {n : Word16} (number : s.job.number = some n) (down : tornDown s)
    (torn : Torn s) : tornDown (startCancel r s) ∧ Torn (startCancel r s) := by
  rw [startCancel_eq number]
  exact ⟨down, torn.slots, torn.sockets, torn.pacing, torn.outside⟩

/-- A master failure at the source of a job: the station is CANCELLED and the job torn down, and its CANCEL waits (R48). -/
theorem masterFailure_source {r : Byte} {s : State} {n : Word16} (source : s.job.source = true)
    (sourced : s.job.st.sourced = true) (number : s.job.number = some n) :
    (masterFailure r s).job.st = .cancelled ∧ tornDown (masterFailure r s) ∧ Torn (masterFailure r s) ∧
      (masterFailure r s).port.cancels = s.port.cancels ++ [{ job := n, reason := r }] ∧
      (masterFailure r s).sockets = (enterCancelled s).sockets := by
  obtain ⟨down, torn, job, port, -⟩ := enterCancelled_torn s
  have cancels := enterCancelled_cancels s
  have known : (enterCancelled s).job.number = some n := by
    rw [job]
    exact number
  obtain ⟨down', torn'⟩ := startCancel_tornDown (r := r) known down torn
  rw [masterFailure, if_pos ⟨source, sourced⟩]
  refine ⟨?_, down', torn', ?_, ?_⟩
  · rw [startCancel_eq known, updPort_job, updJob_job, job]
    rfl
  · rw [startCancel_eq known, updPort_port, updJob_port, cancels]
  · rw [startCancel_eq known, updPort_sockets, updJob_sockets]

theorem masterFailure_elsewhere {r : Byte} {s : State} (h : s.job.source = false ∨ s.job.st.sourced = false) :
    masterFailure r s = s := by
  refine if_neg ?_
  rintro ⟨source, sourced⟩
  obtain h | h := h
  · exact absurd (source.symm.trans h) (by decide)
  · exact absurd (sourced.symm.trans h) (by decide)

/-- The end of a job leaves a socket alone that is not in it (R150). -/
theorem enterCancelled_st {s : State} {k : Fin 8} (out : s.sockets[k].st.inJob = false) (master : s.sockets[k].st ≠ .master)
    (waiting : s.sockets[k].st ≠ .waiting) : (enterCancelled s).sockets[k].st = s.sockets[k].st := by
  obtain ⟨st, -, -⟩ := teardown_states (Job.ended .cancelled) s k
  obtain ⟨torn, -⟩ := teardown_torn (Job.ended .cancelled) s rfl
  obtain ⟨-, -, -, same⟩ := (exitSockets_torn .ready _ torn rfl (by decide)).2 k
  rw [enterCancelled, same (by rw [st]; exact out) (by rw [st]; exact master) (by rw [st]; exact waiting), st]

/-! ### Removal (R152) -/

/-- The part of a removal before the master failure. -/
def dropStick (k : Fin 8) (s : State) : State :=
  setState k .empty .none (updSocket k (fun sk => { sk.clearLists with capacity := none, exit := none, attachTimer := none })
    (emptyRing k (abandonCommand k s)))

theorem removeStick_eq (k : Fin 8) (s : State) :
    removeStick k s = if s.sockets[k].st = .master then masterFailure reasonRemoved (dropStick k s) else dropStick k s := by
  simp only [removeStick, dropStick]

theorem dropStick_apart (k : Fin 8) (s : State) : Apart s (dropStick k s) := by
  have emptied : Apart s (emptyRing k (abandonCommand k s)) :=
    ((abandonCommand_works k s).andThen (emptyRing_works k _)).apart
  unfold dropStick setState
  exact (emptied.trans (updSocket_apart k _ _)).trans (updSocket_apart k _ _)

theorem dropStick_only (k : Fin 8) (s : State) : Only k s (dropStick k s) :=
  (setState_only k _ _ _).after ((Only.socket k _ _).after ((emptyRing_only k _).after (abandonCommand_only k s)))

theorem dropStick_socket (k : Fin 8) (s : State) : (dropStick k s).sockets[k] =
    { Socket.lagBy (Monitor.report 0) { s.sockets[k] with ring := [], cmd := none } with
      st := .empty, reason := .none, capacity := none, exit := none, attachTimer := none, owed := [], recheck := []
      passCount := 0, passList := [], cursor := none, expect := [] } := by
  have idle : (abandonCommand k s).sockets[k].cmd = none := by rw [abandonCommand_socket]
  rw [dropStick, setState_socket, updSocket_same, emptyRing_idle idle, abandonCommand_socket]
  rfl

theorem exec_removal {k : Fin 8} {s : State} (up : s.ident.memTest = false) (held : s.sockets[k].st ≠ .empty) :
    exec (.removal k) s = .next (settle s.settled (removeStick k s)) := by
  refine congrArg Host.Outcome.next ((act_up up).trans ?_)
  rw [bne_iff_ne.2 held, doIf_true]

/-- Settles O45: the socket as a removal leaves it, and the master failure after it. -/
theorem removalEmptiesTheSocket : Obligations.RemovalEmptiesTheSocket := by
  unfold Obligations.RemovalEmptiesTheSocket
  refine fun k s up held => ⟨fun plain => ⟨dropStick k s, ?_, ?_⟩, fun n master source sourced number => ?_⟩
  · rw [exec_removal up held, removeStick_eq, if_neg plain]
  · have apart := dropStick_apart k s
    rw [dropStick_socket]
    exact ⟨rfl, rfl, rfl, rfl, rfl, rfl, rfl, rfl, rfl, rfl, rfl, rfl, dropStick_only k s, apart.job, apart.port,
      apart.repair⟩
  · have apart := dropStick_apart k s
    have st : (dropStick k s).sockets[k].st = .empty := by rw [dropStick_socket]
    rw [exec_removal up held, removeStick_eq, if_pos master]
    rw [← apart.job] at source sourced number
    obtain ⟨cancelled, down, torn, cancels, sockets⟩ := masterFailure_source (r := reasonRemoved) source sourced number
    refine ⟨_, rfl, ?_⟩
    rw [settle_tornDown down torn, sockets]
    refine ⟨?_, cancelled, down, by rw [cancels, apart.port]; rfl⟩
    rw [enterCancelled_st (by rw [st]; rfl) (by rw [st]; decide) (by rw [st]; decide), st]

/-! ### Stalls (R138, R139) -/

section Stalls

variable {k : Fin 8} {s : State} {c : Command}

theorem attemptStalled_attach (counts : s.sockets[k].discards c = false)
    (purpose : c.purpose = .identify ∨ c.purpose = .capacity ∨ c.purpose = .protectStatus) :
    attemptStalled k c s = rejectAttach k .noResponse s := by
  refine (if_neg (Bool.eq_false_iff.1 counts)).trans ?_
  obtain purpose | purpose | purpose := purpose <;> simp only [purpose]

/-- The purposes of a command of up to four attempts. -/
def Purpose.retried (p : Purpose) : Prop :=
  p = .blanking ∨ (∃ seg src, p = .descriptor seg src false) ∨ (∃ seg, p = .verify seg) ∨ ∃ seg dst, p = .master seg dst

theorem Purpose.retried.attached {p : Purpose} (h : p.retried) : p.isDetached = false := by
  obtain h | ⟨_, _, h⟩ | ⟨_, h⟩ | ⟨_, _, h⟩ := h <;> rw [h] <;> rfl

theorem attemptStalled_retried (counts : s.sockets[k].discards c = false) (purpose : c.purpose.retried) :
    attemptStalled k c s = if c.attempt < 4 then
      updSocket k (fun sk => { sk with cmd := some { c with stall := none, portReset := true } }) s
    else commandFailed k c.purpose true s := by
  refine (if_neg (Bool.eq_false_iff.1 counts)).trans ?_
  obtain purpose | ⟨_, _, purpose⟩ | ⟨_, purpose⟩ | ⟨_, _, purpose⟩ := purpose <;> (simp only [purpose]; rfl)

/-- The next attempt of a command (R139). -/
theorem retry_eq (cmd : s.sockets[k].cmd = some c) (purpose : c.purpose.retried) :
    ∃ c', retry k s = updSocket k (fun sk => { sk with cmd := some c' }) s ∧ c'.purpose = c.purpose ∧
      c'.attempt = c.attempt + 1 ∧ c'.portReset = false ∧ c'.stall = some (3000 * Config.ms) := by
  obtain purpose | ⟨seg, src, purpose⟩ | ⟨_, purpose⟩ | ⟨_, _, purpose⟩ := purpose
  case inr.inl =>
    refine ⟨{ s.writeCommand k seg src with attempt := c.attempt + 1 }, ?_, purpose.symm, rfl, rfl, rfl⟩
    simp only [retry, cmd, purpose]
  all_goals
    refine ⟨{ Command.first c.purpose with attempt := c.attempt + 1 }, ?_, rfl, rfl, rfl, rfl⟩
    simp only [retry, cmd, purpose]

/-- The fourth attempt of a blanking write or of a verify read, or of a write handed back, fails the socket. -/
theorem failCleared_spec (writes : s.sockets[k].st ≠ .failed) (r : Reason) :
    let u := failSocket k r (clearCommand k s)
    u.sockets[k].st = .failed ∧ u.sockets[k].reason = r ∧ u.sockets[k].cmd = none ∧ u.sockets[k].ring = [] ∧
      u.sockets[k].owed = [] ∧ u.sockets[k].written = s.sockets[k].written ∧
      (∀ j : Fin 8, j ≠ k → u.sockets[j] = s.sockets[j]) ∧ u.job = s.job ∧ u.port = s.port := by
  have cleared : (clearCommand k s).sockets[k] = { s.sockets[k] with cmd := none } := updSocket_same ..
  have socket := failSocket_idle (k := k) (s := clearCommand k s) (by rw [cleared]) (by rw [cleared]; exact writes) r
  have apart := (failSocket_works k r (clearCommand k s)).apart
  have only : Only k s (failSocket k r (clearCommand k s)) :=
    (failSocket_only k r _).after (clearCommand_only k s)
  dsimp only
  rw [socket, cleared]
  exact ⟨rfl, rfl, rfl, rfl, rfl, rfl, only, apart.job, apart.port⟩

theorem endWriteError_spec {seg : Nat} {src : SlotId} (writes : s.sockets[k].st ≠ .failed) (r : Reason) :
    let u := endWriteError k seg src r s
    u.sockets[k].st = .failed ∧ u.sockets[k].reason = r ∧ u.sockets[k].ring = [] ∧ u.sockets[k].owed = [] ∧
      (∀ j : Fin 8, j ≠ k → u.sockets[j] = s.sockets[j]) ∧ u.job = s.job := by
  obtain ⟨m, t, back⟩ := handBack_socket k seg src s
  have socket := failSocket_idle (k := k) (s := handBack k seg src s) (by rw [back]) (by rw [back]; exact writes) r
  have job : (endWriteError k seg src r s).job = s.job :=
    (failSocket_works k r _).apart.job.trans (handBack_touches k seg src s).spec.1.job
  dsimp only
  rw [show (endWriteError k seg src r s).sockets[k] = _ from socket]
  exact ⟨rfl, rfl, rfl, rfl, endWriteError_only k seg src r s, job⟩

end Stalls

/-- Settles O41: an attempt that stalls by the purpose and the number of the attempt, the port reset by its end. -/
theorem stallsResetThePort : Obligations.StallsResetThePort := by
  unfold Obligations.StallsResetThePort
  refine ⟨fun k s c up cmd exit attempt runs => ⟨fun purpose last writes => ?_, fun seg dst purpose last => ?_,
    fun purpose => ?_⟩, fun k s c up cmd exit purpose => ?_⟩
  · have counts := discards_false (sk := s.sockets[k]) (c := c) exit (by rw [purpose]; rfl)
    refine ⟨_, exec_stallTimerExpiry up cmd attempt runs, ?_⟩
    rw [attemptStalled_retried counts (.inl purpose), if_neg (Nat.not_lt.2 last), purpose]
    exact failCleared_spec writes _
  · have counts := discards_false (sk := s.sockets[k]) (c := c) exit (by rw [purpose]; rfl)
    have step := exec_stallTimerExpiry up cmd attempt runs
    rw [attemptStalled_retried counts (.inr (.inr (.inr ⟨seg, dst, purpose⟩))), if_neg (Nat.not_lt.2 last), purpose] at step
    have apart : Apart s (endMasterRead dst (clearCommand k s)) :=
      (updSocket_apart k _ s).trans (endMasterRead_works dst (clearCommand k s)).apart
    refine ⟨fun n source sourced number => ?_, fun elsewhere => ?_⟩
    · rw [← apart.job] at source sourced number
      obtain ⟨cancelled, down, torn, cancels, -⟩ := masterFailure_source (r := reasonReadError) source sourced number
      refine ⟨masterFailure reasonReadError (endMasterRead dst (clearCommand k s)), ?_, cancelled, down, ?_⟩
      · rw [step, commandFailed, settle_tornDown down torn]
      · rw [cancels, apart.port]
        rfl
    · rw [← apart.job] at elsewhere
      rw [step, commandFailed, masterFailure_elsewhere elsewhere]
      rfl
  · have counts := discards_false (sk := s.sockets[k]) (c := c) exit (by
      obtain purpose | purpose | purpose := purpose <;> rw [purpose] <;> rfl)
    rw [exec_stallTimerExpiry up cmd attempt runs, attemptStalled_attach counts purpose, rejectAttach_eq]
  · have counts := discards_false (sk := s.sockets[k]) (c := c) exit (Purpose.retried.attached purpose)
    refine ⟨fun attempt runs more => ⟨_, exec_stallTimerExpiry up cmd attempt runs, ?_⟩,
      fun attempt runs last writes which => ⟨_, exec_stallTimerExpiry up cmd attempt runs, ?_⟩, fun reset => ?_,
      fun attempt => ?_⟩
    · rw [attemptStalled_retried counts purpose, if_pos more]
    · rw [attemptStalled_retried counts purpose, if_neg (Nat.not_lt.2 last)]
      obtain ⟨seg, verify | ⟨src, write⟩⟩ := which
      · rw [verify]
        obtain ⟨st, reason, -, ring, owed, -, others, job, -⟩ := failCleared_spec (k := k) writes .stall
        exact ⟨st, reason, ring, owed, others, job⟩
      · rw [write]
        exact endWriteError_spec writes .stall
    · obtain ⟨c', eq, same, number, off, stall⟩ := retry_eq (k := k) cmd purpose
      refine ⟨retry k s, c', ?_, ?_⟩
      · rw [exec_portResetEnd up cmd, if_pos reset, if_neg (Bool.eq_false_iff.1 counts)]
      · rw [eq]
        exact ⟨updSocket_same .., same, number, off, stall, fun j other => updSocket_other other .., rfl, rfl⟩
    · rw [exec_portResetEnd up cmd, if_neg (by simp [attempt])]

end Sys2Proof.Machine
end

section
/-! SUPPORT. The write rings: what a ring gains at an offer and what it loses by overrun, revocation and emptying
(spec/07_write_rings.md, R104 to R117, R149). -/
namespace Sys2Proof.Machine
open Sys2Proof.Safety

/-! ### What a ring gains (R107) -/

theorem wants_window_iff {sk : Socket} {i : Fin 16} {g : Nat} : sk.wants (.win i) g = true ↔
    ((sk.st = .enrolled ∨ sk.st = .copying) ∧ g ∉ sk.written ∧ (∀ d ∈ sk.ring, d.seg ≠ g) ∧ ∀ e ∈ sk.owed, e.seg ≠ g) ∨
      ((sk.st = .enrolled ∨ sk.st = .copying ∨ sk.st = .repaying) ∧ ∃ e ∈ sk.owed, e.seg = g) := by
  simp only [Socket.wants, Bool.or_eq_true, Bool.and_eq_true, enrolledOrCopying_iff, lacks_iff, owes_iff, beq_iff_eq, or_assoc]

theorem wants_recall_iff {sk : Socket} {r : Fin 2} {g : Nat} : sk.wants (.rslot r) g = true ↔
    (sk.st = .copying ∨ sk.st = .repaying) ∧ ∃ e ∈ sk.owed, e.seg = g := by
  simp only [Socket.wants, Bool.and_eq_true, copyingOrRepaying_iff, owes_iff]

theorem isRecall_iff {id : SlotId} : id.isRecall = true ↔ ∃ r, id = .rslot r := by
  cases id <;> simp [SlotId.isRecall]

/-- A slot left without claims (R63, R83). -/
theorem settleSlot_slot (id : SlotId) (s : State) : (settleSlot id s).slot id =
    if (s.slot id).pending = 0 ∧ (s.slot id).inFlight = 0 ∧
        ((s.slot id).st = .retired ∨ ((s.slot id).st = .whole ∧ (∃ r, id = .rslot r) ∧ (s.slot id).toSend = 0)) then
      { s.slot id with st := .free, seg := none, mask := 0, timer := none }
    else s.slot id := by
  rw [settleSlot_same, Slot.settleClaims_eq]
  refine if_congr ?_ rfl rfl
  rw [isRecall_iff]
  tauto

theorem overrun_room {k : Fin 8} {s : State} (room : s.sockets[k].ring.length < 18) : overrun k s = s :=
  if_neg (Nat.not_le.2 room)

theorem overrun_flying {k : Fin 8} {s : State} (flying : ∀ d ∈ s.sockets[k].ring, d.inFlight = true) : overrun k s = s := by
  have none' : s.sockets[k].ring.find? (fun d => !d.inFlight) = none :=
    List.find?_eq_none.2 fun d hd => by simp [flying d hd]
  unfold overrun
  split_ifs
  · rw [none']
  · rfl

theorem overrun_full {k : Fin 8} {s : State} {older newer : List Descriptor} {d : Descriptor}
    (ring : s.sockets[k].ring = older ++ d :: newer) (flying : ∀ o ∈ older, o.inFlight = true) (pending : d.inFlight = false)
    (full : 18 ≤ s.sockets[k].ring.length) : overrun k s = settleSlot d.src (revoke k d .overrun s) := by
  have oldest : s.sockets[k].ring.find? (fun d => !d.inFlight) = some d := by
    rw [ring, List.find?_append, List.find?_eq_none.2 fun o ho => by simp [flying o ho], Option.none_or, List.find?_cons]
    simp [pending]
  refine (if_pos full).trans ?_
  rw [oldest]

/-- A descriptor joins a ring: the owed entry's record goes with it, the slot gains the claim, the occupancy is reported. -/
def gainDescriptor (k : Fin 8) (id : SlotId) (g : Nat) (s : State) : State :=
  reportOccupancy k (claimSlot id (updSocket k (fun sk =>
    { sk with
      ring := sk.ring ++ [{ seg := g, src := id, inFlight := false
                            owed := (sk.owed.find? fun e => e.seg == g).map (·.record) }]
      owed := sk.owed.filter fun e => e.seg != g }) s))

theorem queueDescriptor_room {k : Fin 8} {s : State} (room : s.sockets[k].ring.length < 18)
    (writes : s.sockets[k].st ≠ .failed) (id : SlotId) (g : Nat) : queueDescriptor k id g s =
      if s.sockets[k].st = .enrolled then takeDescriptor k (setState k .copying .none (gainDescriptor k id g s))
      else gainDescriptor k id g s := by
  unfold queueDescriptor
  rw [overrun_room room]
  exact if_neg fun h => h.elim writes (Nat.not_le.2 room)

theorem queueDescriptor_refused {k : Fin 8} {s : State}
    (shut : (overrun k s).sockets[k].st = .failed ∨ 18 ≤ (overrun k s).sockets[k].ring.length) (id : SlotId) (g : Nat) :
    queueDescriptor k id g s = overrun k s := if_pos shut

/-- After an overrun that makes room the descriptor is queued as to a ring with room. -/
theorem queueDescriptor_overrun {k : Fin 8} {s : State} (room : (overrun k s).sockets[k].ring.length < 18) (id : SlotId)
    (g : Nat) : queueDescriptor k id g s = queueDescriptor k id g (overrun k s) := by
  conv_rhs => unfold queueDescriptor
  rw [overrun_room room]
  rfl

section Gain

variable (k : Fin 8) (id : SlotId) (g : Nat) (s : State)

theorem gainDescriptor_socket : (gainDescriptor k id g s).sockets[k] =
    ({ s.sockets[k] with
      ring := s.sockets[k].ring ++ [{ seg := g, src := id, inFlight := false
                                      owed := (s.sockets[k].owed.find? fun e => e.seg == g).map (·.record) }]
      owed := s.sockets[k].owed.filter fun e => e.seg != g } : Socket).lagBy
        (Monitor.report (s.sockets[k].ring.length + 1)) := by
  rw [gainDescriptor, reportOccupancy_socket, claimSlot_sockets, updSocket_same, List.length_append]
  rfl

theorem gainDescriptor_other {j : Fin 8} (other : j ≠ k) : (gainDescriptor k id g s).sockets[j] = s.sockets[j] := by
  rw [gainDescriptor, reportOccupancy, updSocket_other other, claimSlot_sockets, updSocket_other other]

theorem gainDescriptor_slot : (gainDescriptor k id g s).slot id =
    { s.slot id with pending := (s.slot id).pending + 1 } := by
  rw [gainDescriptor, reportOccupancy, updSocket_slot, claimSlot, updSlot_same, updSocket_slot]

theorem gainDescriptor_slot_other {j : SlotId} (other : j ≠ id) : (gainDescriptor k id g s).slot j = s.slot j := by
  rw [gainDescriptor, reportOccupancy, updSocket_slot, claimSlot, updSlot_other other, updSocket_slot]

theorem gainDescriptor_frame : Apart s (gainDescriptor k id g s) ∧ (gainDescriptor k id g s).pacing = s.pacing := by
  refine ⟨((updSocket_apart k _ s).trans (claimSlot_works id _).apart).trans (reportOccupancy_works k _).apart, ?_⟩
  rw [gainDescriptor, reportOccupancy, updSocket_pacing, claimSlot, updSlot_pacing, updSocket_pacing]

end Gain

/-- Settles O38: the offer by what each socket wants, the queueing by the room in the ring and the socket's state. -/
theorem ringsGainDescriptors : Obligations.RingsGainDescriptors := by
  unfold Obligations.RingsGainDescriptors
  refine ⟨fun sk g => ⟨fun i => wants_window_iff, fun r => wants_recall_iff⟩,
    fun id g s => ⟨rfl, fun j other => settleSlot_other other s, settleSlot_sockets id s, settleSlot_slot id s⟩,
    fun k id g s => ?_⟩
  obtain ⟨apart, pacing⟩ := gainDescriptor_frame k id g s
  refine ⟨fun room writes plain => ?_, fun room enrolled => ⟨gainDescriptor k id g s, ?_, ?_⟩, fun room failed => ?_,
    fun full => ⟨fun shut => queueDescriptor_refused shut id g, fun _ room => queueDescriptor_overrun room id g⟩, rfl⟩
  · rw [queueDescriptor_room room writes, if_neg plain]
    exact ⟨gainDescriptor_socket k id g s, fun j => gainDescriptor_other k id g s, gainDescriptor_slot k id g s,
      fun j => gainDescriptor_slot_other k id g s, apart.base, apart.job, apart.port, apart.repair, pacing⟩
  · exact ⟨gainDescriptor_socket k id g s, fun j => gainDescriptor_other k id g s, gainDescriptor_slot k id g s,
      fun j => gainDescriptor_slot_other k id g s, apart.base, apart.job, apart.port, apart.repair, pacing⟩
  · rw [queueDescriptor_room room (by rw [enrolled]; decide), if_pos enrolled]
    rfl
  · have same := overrun_room room
    rw [queueDescriptor_refused (.inl (by rw [same]; exact failed)), same]

/-! ### An emptied ring and a failed socket (R115, R149) -/

theorem updSlot_updSocket (id : SlotId) (f : Slot → Slot) (k : Fin 8) (h : Socket → Socket) (s : State) :
    updSlot id f (updSocket k h s) = updSocket k h (updSlot id f s) := by
  cases id <;> rfl

theorem unclaimSlot_updSocket (id : SlotId) (k : Fin 8) (h : Socket → Socket) (s : State) :
    unclaimSlot id (updSocket k h s) = updSocket k h (unclaimSlot id s) := by
  rw [unclaimSlot, settleSlot, updSlot_updSocket, updSlot_updSocket]
  rfl

theorem endWrite_updSocket (id : SlotId) (k : Fin 8) (h : Socket → Socket) (s : State) :
    endWrite id (updSocket k h s) = updSocket k h (endWrite id s) := by
  rw [endWrite, settleSlot, updSlot_updSocket, updSlot_updSocket]
  rfl

theorem unclaimSlots_updSocket (l : List Descriptor) (k : Fin 8) (h : Socket → Socket) (s : State) :
    forEach l (fun d => unclaimSlot d.src) (updSocket k h s) = updSocket k h (forEach l (fun d => unclaimSlot d.src) s) := by
  induction l generalizing s with
  | nil => rfl
  | cons d l ih =>
    show forEach l _ (unclaimSlot d.src (updSocket k h s)) = _
    rw [unclaimSlot_updSocket, ih]
    rfl

/-- The lists cleared and the exit dropped, as at a failure (R149). -/
def Socket.cleared (sk : Socket) : Socket := { sk.clearLists with exit := none }

theorem detachWrite_cleared (k : Fin 8) (s : State) :
    detachWrite k (updSocket k Socket.cleared s) = updSocket k Socket.cleared (detachWrite k s) := by
  have cmd : (updSocket k Socket.cleared s).sockets[k].cmd = s.sockets[k].cmd := by
    rw [updSocket_same]
    rfl
  obtain ⟨-, -, live, between, other⟩ := detachWrite_spec k s
  obtain ⟨-, -, live', between', other'⟩ := detachWrite_spec k (updSocket k Socket.cleared s)
  rw [cmd] at live' between' other'
  by_cases write : ∃ c seg src x, s.sockets[k].cmd = some c ∧ c.purpose = .descriptor seg src x
  · obtain ⟨c, seg, src, x, held, purpose⟩ := write
    cases reset : c.portReset with
    | false =>
      rw [live' c seg src x held purpose reset, live c seg src x held purpose reset, updSocket_updSocket, updSocket_updSocket]
      rfl
    | true =>
      rw [between' c seg src x held purpose reset, between c seg src x held purpose reset,
        abandonWrite_eq k s held purpose, abandonWrite_eq k _ (cmd.trans held) purpose]
      simp only [endWrite_updSocket, updSocket_updSocket]
      rfl
  · have none' : ∀ c seg src x, s.sockets[k].cmd = some c → c.purpose ≠ .descriptor seg src x :=
      fun c seg src x held purpose => write ⟨c, seg, src, x, held, purpose⟩
    rw [other' none', other none']

/-- A ring is emptied in the same way whatever lists the socket has. -/
theorem emptyRing_cleared (k : Fin 8) (s : State) :
    emptyRing k (updSocket k Socket.cleared s) = updSocket k Socket.cleared (emptyRing k s) := by
  have ring : (updSocket k Socket.cleared s).sockets[k].ring = s.sockets[k].ring := by
    rw [updSocket_same]
    rfl
  have early : updSocket k (fun sk => { sk with ring := [] }) (updSocket k Socket.cleared s) =
      updSocket k Socket.cleared (updSocket k (fun sk => { sk with ring := [] }) s) := by
    rw [updSocket_updSocket, updSocket_updSocket]
    rfl
  unfold emptyRing
  dsimp only
  rw [ring, early, unclaimSlots_updSocket, detachWrite_cleared]
  simp only [reportOccupancy, updSocket_updSocket]
  rfl

theorem failSocket_eq {k : Fin 8} {s : State} (writes : s.sockets[k].st ≠ .failed) (r : Reason) :
    failSocket k r s = updSocket k (fun sk => { sk.cleared with st := .failed, reason := r }) (emptyRing k s) := by
  refine (if_neg writes).trans ?_
  show setState k .failed r (emptyRing k (updSocket k Socket.cleared s)) = _
  rw [emptyRing_cleared, setState, updSocket_updSocket]

/-! ### Revocation (R108, R112, R114) -/

theorem revoke_room {k : Fin 8} {d : Descriptor} {o : Origin} {s : State} (writes : s.sockets[k].st ≠ .failed)
    (room : s.sockets[k].owed.length < 32) : revoke k d o s = reportOccupancy k (updSocket k (fun sk =>
      { sk with
        ring := sk.ring.erase d
        owed := insertOwed { seg := d.seg, record := { origin := o, attempts := d.attempts } } sk.owed })
      (updSlot d.src (fun sl => { sl with pending := sl.pending - 1 }) s)) := by
  have socket : (updSlot d.src (fun sl => { sl with pending := sl.pending - 1 })
      (updSocket k (fun sk => { sk with ring := sk.ring.erase d }) s)).sockets[k] =
        { s.sockets[k] with ring := s.sockets[k].ring.erase d } := by
    rw [updSlot_sockets, updSocket_same]
  unfold revoke
  dsimp only
  rw [(addOwed_spec k d.seg d.attempts o _).2.2 (by rw [socket]; exact writes) (by rw [socket]; exact room),
    updSlot_updSocket, updSocket_updSocket]

/-- A revocation at a full owed list fails the socket. -/
theorem revoke_full {k : Fin 8} {d : Descriptor} {o : Origin} {s : State} (writes : s.sockets[k].st ≠ .failed)
    (full : 32 ≤ s.sockets[k].owed.length) : (revoke k d o s).sockets[k].st = .failed ∧
      (revoke k d o s).sockets[k].reason = .owedOverflow ∧ (revoke k d o s).sockets[k].ring = [] ∧
      (revoke k d o s).sockets[k].owed = [] := by
  have socket : (updSlot d.src (fun sl => { sl with pending := sl.pending - 1 })
      (updSocket k (fun sk => { sk with ring := sk.ring.erase d }) s)).sockets[k] =
        { s.sockets[k] with ring := s.sockets[k].ring.erase d } := by
    rw [updSlot_sockets, updSocket_same]
  have still : (updSlot d.src (fun sl => { sl with pending := sl.pending - 1 })
      (updSocket k (fun sk => { sk with ring := sk.ring.erase d }) s)).sockets[k].st ≠ .failed := by
    rw [socket]
    exact writes
  obtain ⟨-, c, failed⟩ := (failSocket_spec k .owedOverflow _).2 still
  unfold revoke
  dsimp only
  rw [(addOwed_spec k d.seg d.attempts o _).2.1 still (by rw [socket]; exact full), reportOccupancy_socket, failed]
  exact ⟨rfl, rfl, rfl, rfl⟩

/-- What a socket has lost to the revocation of a slot, in the words of the statements. -/
theorem LostBy.takenBack {id : SlotId} {sk sk' : Socket}
    (h : LostBy (fun d => d.src == id && !d.inFlight) (RevokedFrom (fun d => d.src == id && !d.inFlight) sk) sk sk') :
    (sk'.ring = (sk.ring.filter fun d => !(d.src == id && !d.inFlight)) ∧ (∀ e ∈ sk.owed, e ∈ sk'.owed) ∧ sk'.st = sk.st ∧
      (sk.st ≠ .failed → ∀ d ∈ sk.ring, d.src = id → d.inFlight = false → ∃ e ∈ sk'.owed, e.seg = d.seg) ∧
      ∀ e ∈ sk'.owed, e ∈ sk.owed ∨ ∃ d ∈ sk.ring, d.src = id ∧ d.inFlight = false ∧ d.seg = e.seg ∧
        e.record = { origin := .revoked, attempts := d.attempts }) ∨
    (sk'.st = .failed ∧ sk'.reason = .owedOverflow ∧ sk'.ring = []) := by
  obtain ⟨-, st, reason, ring, -⟩ | ⟨eq, old, named, new⟩ := h
  · exact .inr ⟨st, reason, ring⟩
  · refine .inl ⟨by rw [eq], old, by rw [eq], fun writes d hd src pending => ?_, fun e he => (new e he).imp_right ?_⟩
    · exact named writes d hd (by simp [src, pending])
    · rintro ⟨d, hd, named', seg, record⟩
      simp only [Bool.and_eq_true, beq_iff_eq, Bool.not_eq_true'] at named'
      exact ⟨d, hd, named'.1, named'.2, seg, record⟩

/-- Settles O39: each loss of a ring by the operation that makes it. -/
theorem ringsLoseDescriptors : Obligations.RingsLoseDescriptors := by
  unfold Obligations.RingsLoseDescriptors
  refine ⟨fun k s => ⟨fun h => h.elim overrun_room overrun_flying, fun older d newer => overrun_full⟩,
    fun k d o older newer s ring first writes => ?_, fun d => rfl, fun k g n o s => ?_, fun id s => ?_, fun k s => ?_⟩
  · have erased : s.sockets[k].ring.erase d = older ++ newer := by
      rw [ring, List.erase_append_right _ first, List.erase_cons_head]
    have apart := (revoke_works k d o s (by rw [ring]; simp)).apart
    refine ⟨revoke_only k d o s, apart.job, apart.port, apart.repair, fun room => ?_, revoke_full writes⟩
    rw [revoke_room writes room]
    refine ⟨?_, fun j other => ?_, ?_⟩
    · rw [reportOccupancy, updSocket_slot, updSocket_slot, updSlot_same]
    · rw [reportOccupancy, updSocket_slot, updSocket_slot, updSlot_other other]
    · rw [reportOccupancy_socket, updSocket_same, updSlot_sockets, erased]
  · obtain ⟨failed, full, room⟩ := addOwed_spec k g n o s
    exact ⟨failed, full, room, fun rise => ⟨insertOwed_ascending _ _ rise, insertOwed_iff _ _ rise⟩⟩
  · obtain ⟨kept, lost⟩ := revokeSlot_spec id s
    have apart := (takeBack_works id s).apart
    have slot : (takeBack id s).slot id = ((revokeSlot id s).slot id).freed := updSlot_same ..
    have sockets : (takeBack id s).sockets = (revokeSlot id s).sockets := updSlot_sockets ..
    dsimp only
    rw [slot, sockets]
    exact ⟨rfl, rfl, rfl, rfl, (kept id).buf, (kept id).masterRead, (kept id).toSend, apart.job, apart.port, apart.repair,
      fun k => (lost k).takenBack⟩
  · obtain ⟨⟨c, socket⟩, -⟩ := emptyRing_socket k s
    obtain ⟨kept, pending, live, between, other⟩ := emptyRing_spec k s
    have apart := (emptyRing_works k s).apart
    have only := emptyRing_only k s
    refine ⟨by rw [socket]; rfl, by rw [socket]; rfl, by rw [socket]; rfl, by rw [socket]; rfl, by rw [socket]; rfl,
      by rw [socket]; rfl, by rw [socket]; rfl, only, apart.job, apart.port, apart.repair,
      fun id => ⟨pending id, (kept id).buf⟩, live, between, other, fun r => ⟨(failSocket_spec k r s).1, fun writes => ?_⟩⟩
    dsimp only
    rw [failSocket_eq writes]
    refine ⟨?_, ?_, ?_, ?_, ?_, ?_, ?_, ?_, ?_, ?_, ?_, ?_, ?_, rfl, fun j ne => (updSocket_other ne ..).trans (only j ne),
      apart.job, apart.port⟩
    all_goals rw [updSocket_same]
    all_goals (try rw [socket]; rfl)

end Sys2Proof.Machine
end

section
/-! SUPPORT. The judgement of a stream (spec/10_sockets.md, R163, R164): the bytes that have changed, the verdict, and what a
corrupt stream makes of its slot (R79). -/
namespace Sys2Proof.Machine
open Sys2Proof.Safety

/-! ### Changed bytes in a held parcel (R102, log entry 10) -/

/-- One changed byte of a buffer, as a slice of it sees the change. -/
theorem slice_write {m : Memory} (form : Memory.wf m) (x : Nat) (v : Byte) (a n : Nat) :
    Memory.slice (Sparse.write (w := 8) m x v) a n =
      if a ≤ x then (m.slice a n).set (x - a) v else m.slice a n := by
  rw [Memory.slice_eq _ a n (Sparse.write_wf m x v form), Memory.slice_eq m a n form]
  have read (b : Nat) : Memory.read (Sparse.write (w := 8) m x v) b = if b = x then v else m.read b :=
    Sparse.read_write m x b v form
  refine List.ext_getElem (by split_ifs <;> simp) fun i hi hi' => ?_
  simp only [List.getElem_map, List.getElem_range', one_mul, read]
  split_ifs with eq le le
  · rw [List.getElem_set, if_pos (by omega)]
  · omega
  · rw [List.getElem_set, if_neg (by omega)]
    simp
  · simp

/-- A parcel's payload with the changed bytes is the payload of the changed buffer. -/
theorem upsetPayload_slice (p : Fin 8) (upsets : List (Nat × Byte)) :
    ∀ {m : Memory}, Memory.wf m → upsetPayload p upsets (m.slice (p.val * 4096) 4096) =
      (m.patchBytes (upsets.filter fun u => decide (u.1 < 32768))).slice (p.val * 4096) 4096 := by
  induction upsets with
  | nil => exact fun _ => rfl
  | cons u upsets ih =>
    intro m form
    have head : upsetPayload p (u :: upsets) (m.slice (p.val * 4096) 4096) = upsetPayload p upsets
        (if p.val * 4096 ≤ u.1 then (m.slice (p.val * 4096) 4096).set (u.1 - p.val * 4096) u.2
          else m.slice (p.val * 4096) 4096) := rfl
    rw [head]
    by_cases inside : u.1 < 32768
    · rw [List.filter_cons_of_pos (p := fun u : Nat × Byte => decide (u.1 < 32768)) (decide_eq_true inside),
        ← slice_write form]
      exact ih (Sparse.write_wf m u.1 u.2 form)
    · have length : (m.slice (p.val * 4096) 4096).length = 4096 := by
        rw [Memory.slice_eq m _ _ form]
        simp
      rw [List.filter_cons_of_neg (p := fun u : Nat × Byte => decide (u.1 < 32768)) (by simpa using inside),
        List.set_eq_of_length_le (by omega), ite_self]
      exact ih form

theorem upsetHeld_tx (id : SlotId) (g : Nat) (upsets : List (Nat × Byte)) (s : State) :
    (upsetHeld id g upsets s).port = { s.port with tx := (upsetHeld id g upsets s).port.tx } := rfl

theorem upsetHeld_free {id : SlotId} {g : Nat} {upsets : List (Nat × Byte)} {s : State} (h : s.port.tx = .free) :
    (upsetHeld id g upsets s).port = s.port := by
  have tx : (upsetHeld id g upsets s).port.tx = s.port.tx := by simp only [upsetHeld, updPort_port, h]
  rw [upsetHeld_tx, tx]

theorem upsetHeld_holding {id : SlotId} {g : Nat} {upsets : List (Nat × Byte)} {s : State} {h : HeldFrame} {phase : TxPhase}
    (held : s.port.tx = .holding h phase) :
    (upsetHeld id g upsets s).port = { s.port with tx := .holding (h.upset id g upsets) phase } := by
  have tx : (upsetHeld id g upsets s).port.tx = .holding (h.upset id g upsets) phase := by
    simp only [upsetHeld, updPort_port, held]
  rw [upsetHeld_tx, tx]

theorem upset_other {id : SlotId} {g : Nat} {upsets : List (Nat × Byte)} {h : HeldFrame}
    (other : ∀ src b, h.source = some (src, b) → ¬ (src = id ∧ b.seg.toNat = g)) : h.upset id g upsets = h := by
  unfold HeldFrame.upset
  split
  · rename_i src b source
    exact if_neg (other src b source)
  · rfl

theorem upset_source {id : SlotId} {upsets : List (Nat × Byte)} {h : HeldFrame} {b : ParcelBody}
    (source : h.source = some (id, b)) : h.upset id b.seg.toNat upsets =
      { h with frame := { h.frame with body := .parcel { b with payload := upsetPayload b.parcel upsets b.payload } } } := by
  simp only [HeldFrame.upset, source, and_self, if_true]

/-- A held frame that does not change leaves the port as it was. -/
theorem upsetHeld_same {id : SlotId} {g : Nat} {upsets : List (Nat × Byte)} {s : State} {h : HeldFrame} {phase : TxPhase}
    (held : s.port.tx = .holding h phase) (other : ∀ src b, h.source = some (src, b) → ¬ (src = id ∧ b.seg.toNat = g)) :
    (upsetHeld id g upsets s).port = s.port := by
  rw [upsetHeld_holding held, upset_other other, ← held]

/-! ### Corruption (R79, R90) -/

theorem damageReport_frame (g : Nat) (s : State) : NeedFrame g s (damageReport g s) ∧ (damageReport g s).port = s.port := by
  cases entry : s.need g with
  | none =>
    rw [damageReport_absent entry]
    obtain ⟨frame, port, -⟩ := gapReport_frame g 0xFF s
    exact ⟨frame, port⟩
  | some e =>
    by_cases taken : s.job.st.working = true ∧ g ∉ s.repair.exhausted ∧ s.win.base ≤ g ∧ g < s.win.base + 16
    · rw [damageReport_fills entry taken]
      exact ⟨updNeed_frame g _ s, rfl⟩
    · rw [damageReport_ignored (by rw [entry]; simp) taken]
      exact ⟨.refl g s, rfl⟩

section Corruption

variable {i : Fin 16} {r : Fin 2} {g : Nat} {s : State}

theorem corruption_whole (st : (s.slot (.win i)).st = .whole) (seg : (s.slot (.win i)).seg = some g) :
    corruption (.win i) g s = damageReport g (dropAnswer g (updSlot (.win i)
      (fun sl => { sl with st := .damaged, mask := 0, timer := some (4 * Config.ms) }) s)) := by
  simp only [corruption, Slot.holds, seg, beq_self_eq_true, if_true, st]
  rfl

theorem corruption_retired (st : (s.slot (.win i)).st = .retired) (seg : (s.slot (.win i)).seg = some g) :
    corruption (.win i) g s = takeBack (.win i) s := by
  simp only [corruption, Slot.holds, seg, beq_self_eq_true, if_true, st]

theorem corruption_recall (st : (s.slot (.rslot r)).st = .whole) (seg : (s.slot (.rslot r)).seg = some g) :
    corruption (.rslot r) g s = takeBack (.rslot r) (dropRecallParcels r s) := by
  simp only [corruption, Slot.holds, seg, beq_self_eq_true, if_true, st]

/-- A corrupt WHOLE window slot is DAMAGED: its answer entry goes and the damage is reported (R79, R90, R102). -/
theorem corruption_whole_spec (st : (s.slot (.win i)).st = .whole) (seg : (s.slot (.win i)).seg = some g) :
    let u := corruption (.win i) g s
    u.slot (.win i) = { s.slot (.win i) with st := .damaged, mask := 0, timer := some (4 * Config.ms) } ∧
      u.answer g = none ∧ u.port = { s.port with class5 := s.port.class5.filter fun x => x != g } ∧
      ∃ v, u = damageReport g v ∧ v.repair.needs = s.repair.needs ∧ v.repair.exhausted = s.repair.exhausted ∧
        v.job = s.job ∧ v.win.base = s.win.base := by
  intro u
  have eq : u = _ := corruption_whole st seg
  obtain ⟨frame, port⟩ := damageReport_frame g (dropAnswer g (updSlot (.win i)
    (fun sl => { sl with st := .damaged, mask := 0, timer := some (4 * Config.ms) }) s))
  rw [eq]
  refine ⟨?_, ?_, port, _, rfl, rfl, rfl, rfl, rfl⟩
  · rw [slot_of_win frame.win]
    exact updSlot_same (.win i) (fun sl => { sl with st := .damaged, mask := 0, timer := some (4 * Config.ms) }) s
  · rw [State.answer, frame.answers]
    exact dropAnswer_answer_same g _

theorem takeBack_freed (id : SlotId) (s : State) :
    ((takeBack id s).slot id).st = .free ∧ ((takeBack id s).slot id).seg = none ∧
      ((takeBack id s).slot id).toSend = (s.slot id).toSend := by
  have freed : (takeBack id s).slot id = Slot.freed ((revokeSlot id s).slot id) := updSlot_same ..
  rw [freed]
  exact ⟨rfl, rfl, ((revokeSlot_spec id s).1 id).toSend⟩

theorem corruption_recall_spec (st : (s.slot (.rslot r)).st = .whole) (seg : (s.slot (.rslot r)).seg = some g) :
    let u := corruption (.rslot r) g s
    (u.slot (.rslot r)).st = .free ∧ (u.slot (.rslot r)).seg = none ∧ (u.slot (.rslot r)).toSend = 0 ∧
      u.port.class7 = s.port.class7.filter fun x => x.1 != r := by
  intro u
  have eq : u = _ := corruption_recall st seg
  obtain ⟨freed, empty, toSend⟩ := takeBack_freed (.rslot r) (dropRecallParcels r s)
  rw [eq, (takeBack_works (.rslot r) (dropRecallParcels r s)).apart.port]
  exact ⟨freed, empty, toSend.trans (congrArg Slot.toSend (updSlot_same (.rslot r) (fun sl => { sl with toSend := 0 }) s)), rfl⟩

end Corruption

/-- A corruption is one of three things: damage to a WHOLE window slot, a slot taken back, or nothing. -/
theorem corruption_cases (id : SlotId) (g : Nat) (s : State) :
    (∃ f : Slot → Slot, corruption id g s = damageReport g (dropAnswer g (updSlot id f s))) ∨
      (∃ t : State, t.sockets = s.sockets ∧ t.job = s.job ∧ corruption id g s = takeBack id t) ∨ corruption id g s = s := by
  unfold corruption
  dsimp only
  split_ifs
  · cases id with
    | win i =>
      dsimp only
      split
      · exact .inl ⟨_, rfl⟩
      · exact .inr (.inl ⟨s, rfl, rfl, rfl⟩)
      all_goals exact .inr (.inr rfl)
    | rslot r =>
      dsimp only
      split
      · exact .inr (.inl ⟨dropRecallParcels r s, rfl, rfl, rfl⟩)
      all_goals exact .inr (.inr rfl)
  · exact .inr (.inr rfl)

theorem corruption_job (id : SlotId) (g : Nat) (s : State) : (corruption id g s).job = s.job := by
  obtain ⟨f, eq⟩ | ⟨t, -, job, eq⟩ | eq := corruption_cases id g s
  · rw [eq, (damageReport_frame g _).1.job]
    exact updSlot_job id f s
  · rw [eq, (takeBack_works id t).apart.job, job]
  · rw [eq]

/-! ### The write goes on (R115, R164) -/

/-- The attempt of a descriptor write with its verdict and its number; the write may have been detached. -/
def Streamed (v : Verdict) (n : Nat) (sk : Socket) : Prop :=
  ∃ c, sk.cmd = some c ∧ c.verdict = some v ∧ c.attempt = n ∧ c.portReset = false ∧
    ∃ seg src x, c.purpose = .descriptor seg src x

section Streamed

variable {v : Verdict} {n : Nat}

theorem Streamed.command {sk sk' : Socket} (h : Streamed v n sk) (cmd : sk'.cmd = sk.cmd) : Streamed v n sk' := by
  unfold Streamed
  rw [cmd]
  exact h

theorem emptyRing_streamed {k : Fin 8} {s : State} (h : Streamed v n s.sockets[k]) :
    Streamed v n (emptyRing k s).sockets[k] := by
  obtain ⟨c, cmd, verdict, attempt, live, seg, src, x, purpose⟩ := h
  obtain ⟨-, -, detached, -⟩ := emptyRing_spec k s
  exact ⟨_, (detached c seg src x cmd purpose live).1, verdict, attempt, live, seg, src, true, rfl⟩

theorem failSocket_streamed {k : Fin 8} {r : Reason} {s : State} (h : Streamed v n s.sockets[k]) :
    Streamed v n (failSocket k r s).sockets[k] := by
  by_cases failed : s.sockets[k].st = .failed
  · rwa [(failSocket_spec k r s).1 failed]
  · rw [failSocket_eq failed, updSocket_same]
    exact (emptyRing_streamed h).command rfl

theorem addOwed_streamed {k : Fin 8} {g m : Nat} {o : Origin} {s : State} (h : Streamed v n s.sockets[k]) :
    Streamed v n (addOwed k g o m s).sockets[k] := by
  unfold addOwed
  split_ifs
  · exact h
  · exact failSocket_streamed h
  · rw [updSocket_same]
    exact h.command rfl

theorem revoke_streamed {k : Fin 8} {d : Descriptor} {o : Origin} {s : State} (h : Streamed v n s.sockets[k]) :
    Streamed v n (revoke k d o s).sockets[k] := by
  unfold revoke
  dsimp only
  rw [reportOccupancy_socket]
  refine Streamed.command (addOwed_streamed ?_) rfl
  rw [updSlot_sockets, updSocket_same]
  exact h.command rfl

theorem takeBack_streamed {id : SlotId} {k : Fin 8} {s : State} (h : Streamed v n s.sockets[k]) :
    Streamed v n (takeBack id s).sockets[k] := by
  have sockets : (takeBack id s).sockets = (revokeSlot id s).sockets := updSlot_sockets ..
  rw [sockets]
  refine forSockets_inv (P := fun t => Streamed v n t.sockets[k]) _ (fun j t ht => ?_) s h
  refine forEach_inv (P := fun t => Streamed v n t.sockets[k]) _ _ (fun d u hu => ?_) t ht
  refine doIf_inv (P := fun t => Streamed v n t.sockets[k]) _ _ u (fun hu => ?_) hu
  by_cases same : k = j
  · rw [← same]
    exact revoke_streamed hu
  · rw [revoke_only j d _ u k same]
    exact hu

theorem corruption_streamed {id : SlotId} {g : Nat} {k : Fin 8} {s : State} (h : Streamed v n s.sockets[k]) :
    Streamed v n (corruption id g s).sockets[k] := by
  obtain ⟨f, eq⟩ | ⟨t, sockets, -, eq⟩ | eq := corruption_cases id g s
  · rw [eq, damageReport_sockets]
    exact (congrArg (fun x : Vector Socket 8 => Streamed v n x[k]) (updSlot_sockets id f s)).mpr h
  · rw [eq]
    refine takeBack_streamed ?_
    rwa [sockets]
  · rwa [eq]

end Streamed

/-! ### LAST_BYTE_STREAMED -/

section LastByte

variable {k : Fin 8} {s : State} {c : Command} {seg : Nat} {src : SlotId} {x : Bool}

theorem exec_lastByteStreamed (up : s.ident.memTest = false) (upsets : List (Nat × Byte)) :
    exec (.lastByteStreamed k upsets) s = .next (settle s.settled (lastByteStreamed k upsets s)) :=
  congrArg Host.Outcome.next (act_up up)

theorem lastByteStreamed_eq (cmd : s.sockets[k].cmd = some c) (attempt : c.portReset = false)
    (purpose : c.purpose = .descriptor seg src x) (upsets : List (Nat × Byte)) :
    lastByteStreamed k upsets s = if c.verdict.isSome = true then s
      else judgeStream k (upsetHeld src seg upsets (upsetSlot src upsets s)) := by
  simp only [lastByteStreamed, attempt_some cmd attempt, purpose]

/-- The station with the verdict of the stream noted. -/
def noteVerdict (k : Fin 8) (src : SlotId) (c : Command) (s : State) : State :=
  updSocket k (fun sk => { sk with cmd := some { c with verdict := some (s.streamed src c) } }) s

theorem judgeStream_eq (cmd : s.sockets[k].cmd = some c) (attempt : c.portReset = false)
    (purpose : c.purpose = .descriptor seg src x) (unjudged : c.verdict = none) :
    judgeStream k s = if (s.streamed src c).clean = true then noteVerdict k src c s
      else corruption src seg (noteVerdict k src c s) := by
  obtain ⟨⟩ := c
  cases purpose
  cases unjudged
  simp only [judgeStream, attempt_some cmd attempt]
  rfl

theorem judgeStream_judged (cmd : s.sockets[k].cmd = some c) (attempt : c.portReset = false)
    (purpose : c.purpose = .descriptor seg src x) (judged : c.verdict.isSome = true) : judgeStream k s = s := by
  simp only [judgeStream, attempt_some cmd attempt, purpose, judged, if_true]

end LastByte

/-- The station as the last byte finds it: the changed bytes stored and carried by a held parcel. -/
def upsetStation (src : SlotId) (seg : Nat) (upsets : List (Nat × Byte)) (s : State) : State :=
  upsetHeld src seg upsets (upsetSlot src upsets s)

theorem upsetStation_slot (src : SlotId) (seg : Nat) (upsets : List (Nat × Byte)) (s : State) :
    (upsetStation src seg upsets s).slot src =
      { s.slot src with buf := (s.slot src).buf.patchBytes (upsets.filter fun u => decide (u.1 < 32768)) } := updSlot_same ..

theorem upsetStation_slot_other {src j : SlotId} (other : j ≠ src) (seg : Nat) (upsets : List (Nat × Byte)) (s : State) :
    (upsetStation src seg upsets s).slot j = s.slot j := updSlot_other other ..

theorem upsetStation_frame (src : SlotId) (seg : Nat) (upsets : List (Nat × Byte)) (s : State) :
    let t := upsetStation src seg upsets s
    t.sockets = s.sockets ∧ t.job = s.job ∧ t.repair = s.repair ∧ t.pacing = s.pacing ∧ t.win.base = s.win.base ∧
      t.port = (upsetHeld src seg upsets s).port ∧ t.port.class5 = s.port.class5 ∧ t.port.class7 = s.port.class7 := by
  cases src <;> exact ⟨rfl, rfl, rfl, rfl, rfl, rfl, rfl, rfl⟩

/-- Settles O43: the verdict noted, then the corruption of the slot by its state; the held parcel by its source. -/
theorem lastByteIsJudged : Obligations.LastByteIsJudged := by
  unfold Obligations.LastByteIsJudged
  constructor
  · intro k upsets s c seg src detached up cmd attempt purpose sl judged amended
    refine ⟨fun unjudged => ⟨judgeStream k (upsetStation src seg upsets s), ?_, ?_⟩, fun judged => ?_⟩
    · rw [exec_lastByteStreamed up, lastByteStreamed_eq cmd attempt purpose, unjudged]
      rfl
    · have slot : (upsetStation src seg upsets s).slot src = sl := upsetStation_slot src seg upsets s
      have verdict : (upsetStation src seg upsets s).streamed src c = judged := by rw [State.streamed, slot]
      have sound : judged.clean = true ↔ check sl.bytes = c.reference := beq_iff_eq
      obtain ⟨sockets, job, repair, pacing, base, port, class5, class7⟩ := upsetStation_frame src seg upsets s
      have others {j : SlotId} (other : j ≠ src) := upsetStation_slot_other other seg upsets s
      clear_value judged sl
      change _ = amended at port
      clear_value amended
      generalize upsetStation src seg upsets s = v at *
      have eq := judgeStream_eq (sockets ▸ cmd) attempt purpose unjudged
      have noted : (noteVerdict k src c v).sockets[k] = { s.sockets[k] with cmd := some { c with verdict := some judged } } := by
        rw [← verdict, ← sockets]
        exact updSocket_same ..
      rw [verdict] at eq
      have noteOthers (j : Fin 8) (other : j ≠ k) : (noteVerdict k src c v).sockets[j] = s.sockets[j] := by
        rw [← sockets]
        exact updSocket_other other ..
      have slots (j : SlotId) : (noteVerdict k src c v).slot j = v.slot j := updSocket_slot ..
      obtain ⟨win', port', job', repair', pacing'⟩ : (noteVerdict k src c v).win = v.win ∧
          (noteVerdict k src c v).port = v.port ∧ (noteVerdict k src c v).job = v.job ∧
          (noteVerdict k src c v).repair = v.repair ∧ (noteVerdict k src c v).pacing = v.pacing := ⟨rfl, rfl, rfl, rfl, rfl⟩
      generalize noteVerdict k src c v = w at *
      have streamed : Streamed judged c.attempt w.sockets[k] := by
        rw [noted]
        exact ⟨_, rfl, rfl, rfl, attempt, seg, src, detached, purpose⟩
      have whatever : Streamed judged c.attempt (judgeStream k v).sockets[k] ∧ (judgeStream k v).job = s.job ∧
          ∀ j, ((judgeStream k v).slot j).buf = (v.slot j).buf := by
        rw [eq]
        split_ifs
        · exact ⟨streamed, job'.trans job, fun j => congrArg Slot.buf (slots j)⟩
        · exact ⟨corruption_streamed streamed, (corruption_job ..).trans (job'.trans job),
            fun j => ((corruption_does ..).memory.1 j).trans (congrArg Slot.buf (slots j))⟩
      obtain ⟨⟨c', held, found, number, -⟩, jobKept, buffers⟩ := whatever
      have corrupt (dirty : check sl.bytes ≠ c.reference) : judgeStream k v = corruption src seg w := by
        rw [eq, if_neg (fun clean => dirty (sound.1 clean))]
      rw [← slot, ← slots] at corrupt ⊢
      refine ⟨⟨c', held, found, number⟩, jobKept, fun j other => ?_, ?_, fun clean => ?_, fun dirty i src' st holds => ?_,
        fun dirty i src' st holds => ?_, fun dirty r src' st holds => ?_⟩
      · rw [buffers, others other]
      · rw [buffers, slots]
      · rw [slots, slot] at clean
        rw [eq, if_pos (sound.2 clean), noted, port', port]
        exact ⟨rfl, noteOthers, rfl, fun j other => (slots j).trans (others other), repair'.trans repair, rfl,
          pacing'.trans pacing⟩
      · subst src'
        obtain ⟨whole, answer, port'', z, eq', needs, exhausted, job'', base'⟩ := corruption_whole_spec st holds
        rw [corrupt dirty]
        refine ⟨whole, answer, ?_, z, eq', ?_, ?_, ?_, ?_⟩
        · rw [port'', port', class5, port]
        · rw [needs, repair', repair]
        · rw [exhausted, repair', repair]
        · rw [job'', job', job]
        · rw [base', win', base]
      · subst src'
        rw [corrupt dirty, corruption_retired st holds]
        obtain ⟨freed, empty, -⟩ := takeBack_freed (.win i) w
        exact ⟨freed, empty⟩
      · subst src'
        obtain ⟨freed, empty, toSend, sends⟩ := corruption_recall_spec st holds
        rw [corrupt dirty]
        exact ⟨freed, empty, toSend, by rw [sends, port', class7]⟩
    · rw [exec_lastByteStreamed up, lastByteStreamed_eq cmd attempt purpose, if_pos judged]
  · intro id seg upsets s
    refine ⟨upsetHeld_free, fun h phase held => ⟨fun none' => ?_, fun src b source other => ?_, fun b source mine => ?_⟩⟩
    · exact upsetHeld_same held fun src b source => by rw [none'] at source; cases source
    · refine upsetHeld_same held fun src' b' source' => ?_
      rw [source] at source'
      cases source'
      exact other
    · subst mine
      refine ⟨{ b with payload := upsetPayload b.parcel upsets b.payload }, ?_, rfl, fun storage fixed => ?_⟩
      · rw [upsetHeld_holding held, upset_source source]
      · show upsetPayload b.parcel upsets b.payload = _
        rw [fixed, upsetSlot, updSlot_same]
        exact upsetPayload_slice b.parcel upsets (storage.1 id).1

end Sys2Proof.Machine
end

section
/-! SUPPORT. Moving on, the offer at the entry of REPAYING, and the verify passes (spec/10_sockets.md R146, R147,
spec/11_verification.md R184 to R186). -/
namespace Sys2Proof.Machine
open Sys2Proof.Safety

/-! ### The slots offered at the entry of REPAYING (R117) -/

theorem mem_allSlots (id : SlotId) : id ∈ allSlots := by
  cases id with
  | win i => exact List.mem_append_left _ (List.mem_map_of_mem (by revert i; decide))
  | rslot r => exact List.mem_append_right _ (List.mem_map_of_mem (by revert r; decide))

theorem holdsIn_iff {sl : Slot} {g : Nat} {st : SlotState} : sl.holdsIn g st = true ↔ sl.seg = some g ∧ sl.st = st := by
  simp [Slot.holdsIn]

/-- A slot that holds a segment for the offer. -/
theorem offers_iff {s : State} {g : Nat} {id : SlotId} :
    ((s.slot id).holdsIn g .whole || (!id.isRecall && (s.slot id).holdsIn g .retired)) = true ↔
      (s.slot id).seg = some g ∧ ((s.slot id).st = .whole ∨ ((∃ i, id = .win i) ∧ (s.slot id).st = .retired)) := by
  have window : id.isRecall = false ↔ ∃ i, id = .win i := by cases id <;> simp [SlotId.isRecall]
  simp only [Bool.or_eq_true, Bool.and_eq_true, Bool.not_eq_true', holdsIn_iff, window]
  tauto

theorem offering_eq_none {s : State} {g : Nat} (h : s.offering g = none) (id : SlotId) :
    ¬ ((s.slot id).seg = some g ∧ ((s.slot id).st = .whole ∨ ((∃ i, id = .win i) ∧ (s.slot id).st = .retired))) :=
  fun holds => List.find?_eq_none.1 h id (mem_allSlots id) (offers_iff.2 holds)

theorem offering_eq_some {s : State} {g : Nat} {id : SlotId} (h : s.offering g = some id) :
    (s.slot id).seg = some g ∧ ((s.slot id).st = .whole ∨ ((∃ i, id = .win i) ∧ (s.slot id).st = .retired)) :=
  offers_iff.1 (List.find?_some (p := fun id =>
    (s.slot id).holdsIn g .whole || (!id.isRecall && (s.slot id).holdsIn g .retired)) h)

/-- What a slot offers depends on its segment and its state. -/
theorem offering_congr {s t : State} (h : ∀ id, (t.slot id).seg = (s.slot id).seg ∧ (t.slot id).st = (s.slot id).st)
    (g : Nat) : t.offering g = s.offering g := by
  unfold State.offering Slot.holdsIn
  congr 1
  funext id
  rw [(h id).1, (h id).2]

/-- At most eighteen distinct segments are offered, each by a slot of its own. -/
theorem offered_le (s : State) {l : List Nat} (distinct : l.Nodup) : (l.filterMap s.offering).length ≤ 18 := by
  have slots : (l.filterMap s.offering).Nodup := distinct.filterMap fun g g' id h h' => by
    have e := (offering_eq_some h).1.symm.trans (offering_eq_some h').1
    exact Option.some.inj e
  exact (List.subperm_of_subset slots fun id _ => mem_allSlots id).length_le

/-! ### The offer itself -/

/-- The descriptors of the owed entries that a slot holds. -/
def State.repayments (s : State) (l : List OwedEntry) : List Descriptor :=
  l.filterMap fun e => (s.offering e.seg).map fun id => { seg := e.seg, src := id, inFlight := false, owed := some e.record }

theorem repayments_skip {s : State} {e : OwedEntry} (none' : s.offering e.seg = none) (l : List OwedEntry) :
    s.repayments (l ++ [e]) = s.repayments l := by
  simp [State.repayments, none']

theorem repayments_gain {s : State} {e : OwedEntry} {id : SlotId} (offered : s.offering e.seg = some id)
    (l : List OwedEntry) : s.repayments (l ++ [e]) =
      s.repayments l ++ [{ seg := e.seg, src := id, inFlight := false, owed := some e.record }] := by
  simp [State.repayments, offered]

/-- Where the offer stands once the entries `done` have been offered, with `rest` to come. -/
structure Repaid (k : Fin 8) (s : State) (done rest : List OwedEntry) (t : State) : Prop where
  socket : t.sockets[k] =
    { s.sockets[k] with
      ring := s.repayments done, owed := (done.filter fun e => (s.offering e.seg).isNone) ++ rest
      lag := t.sockets[k].lag, tie := t.sockets[k].tie }
  others : ∀ j : Fin 8, j ≠ k → t.sockets[j] = s.sockets[j]
  job : t.job = s.job
  port : t.port = s.port
  repair : t.repair = s.repair
  slot : ∀ id : SlotId, t.slot id =
    { s.slot id with pending := (s.slot id).pending + (done.filter fun e => s.offering e.seg == some id).length }

theorem Repaid.offering {k : Fin 8} {s t : State} {done rest : List OwedEntry} (h : Repaid k s done rest t) (g : Nat) :
    t.offering g = s.offering g := offering_congr (fun id => by rw [h.slot id]; exact ⟨rfl, rfl⟩) g

theorem repayments_length_lt {s : State} {done rest : List OwedEntry} {e : OwedEntry} {id : SlotId}
    (distinct : ((done ++ e :: rest).map (·.seg)).Nodup) (offered : s.offering e.seg = some id) :
    (s.repayments done).length < 18 := by
  have eq : (s.repayments done).length = ((done.map (·.seg)).filterMap s.offering).length := by
    rw [State.repayments, List.filterMap_map]
    induction done with
    | nil => rfl
    | cons x done ih =>
      have rest := ih (List.nodup_cons.1 distinct).2
      cases o : s.offering x.seg with
      | none => simpa [List.filterMap_cons, o] using rest
      | some id => simpa [List.filterMap_cons, o] using rest
  have le : ((((done ++ [e]).map (·.seg))).filterMap s.offering).length ≤ 18 := by
    refine offered_le s (distinct.sublist (List.Sublist.map _ ?_))
    simp
  rw [List.map_append, List.filterMap_append, List.length_append] at le
  simp only [List.map_cons, List.map_nil, List.filterMap_cons, offered, List.filterMap_nil, List.length_singleton] at le
  omega

/-- One entry that no slot holds. -/
theorem Repaid.skip {k : Fin 8} {s t : State} {done rest : List OwedEntry} {e : OwedEntry}
    (h : Repaid k s done (e :: rest) t) (none' : s.offering e.seg = none) : Repaid k s (done ++ [e]) rest t := by
  refine ⟨?_, h.others, h.job, h.port, h.repair, fun id => ?_⟩
  · have kept : (done ++ [e]).filter (fun e => (s.offering e.seg).isNone) =
        done.filter (fun e => (s.offering e.seg).isNone) ++ [e] := by simp [none']
    rw [repayments_skip none', kept, List.append_assoc]
    exact h.socket
  · rw [List.filter_append]
    simpa [none'] using h.slot id

/-- One entry that a slot holds is queued (R107). -/
theorem Repaid.gain {k : Fin 8} {s t : State} {done rest : List OwedEntry} {e : OwedEntry} {id : SlotId}
    (h : Repaid k s done (e :: rest) t) (distinct : ((done ++ e :: rest).map (·.seg)).Nodup)
    (offered : s.offering e.seg = some id) : Repaid k s (done ++ [e]) rest (gainDescriptor k id e.seg t) := by
  obtain ⟨apart, -⟩ := gainDescriptor_frame k id e.seg t
  have before : ∀ x ∈ done, x.seg ≠ e.seg := fun x hx same => by
    rw [List.map_append, List.map_cons, List.nodup_append] at distinct
    exact distinct.2.2 _ (List.mem_map_of_mem hx) _ List.mem_cons_self same
  have after : ∀ x ∈ rest, x.seg ≠ e.seg := fun x hx same => by
    rw [List.map_append, List.map_cons, List.nodup_append] at distinct
    exact (List.nodup_cons.1 distinct.2.1).1 (same ▸ List.mem_map_of_mem hx)
  have owed : t.sockets[k].owed = (done.filter fun e => (s.offering e.seg).isNone) ++ e :: rest := by rw [h.socket]
  have record : (t.sockets[k].owed.find? fun x => x.seg == e.seg) = some e := by
    rw [owed, List.find?_append, List.find?_eq_none.2, Option.none_or, List.find?_cons, beq_self_eq_true]
    exact fun x hx => by simpa using before x (List.mem_filter.1 hx).1
  have left : (t.sockets[k].owed.filter fun x => x.seg != e.seg) =
      (done.filter fun e => (s.offering e.seg).isNone) ++ rest := by
    rw [owed, List.filter_append, List.filter_cons]
    simp only [bne_self_eq_false, Bool.false_eq_true, if_false]
    congr 1
    · exact List.filter_eq_self.2 fun x hx => by simpa using before x (List.mem_filter.1 hx).1
    · exact List.filter_eq_self.2 fun x hx => by simpa using after x hx
  have ring : t.sockets[k].ring = s.repayments done := by rw [h.socket]
  refine ⟨?_, fun j other => (gainDescriptor_other k id e.seg t other).trans (h.others j other), apart.job.trans h.job,
    apart.port.trans h.port, apart.repair.trans h.repair, fun j => ?_⟩
  · have dropped : (done ++ [e]).filter (fun e => (s.offering e.seg).isNone) =
        done.filter (fun e => (s.offering e.seg).isNone) := by simp [offered]
    rw [gainDescriptor_socket, record, left, ring, repayments_gain offered, dropped]
    have before := h.socket
    generalize t.sockets[k] = sk at before ⊢
    rw [before]
    rfl
  · rw [List.filter_append, List.length_append]
    by_cases same : j = id
    · subst same
      rw [gainDescriptor_slot, h.slot]
      simp [offered, Nat.add_assoc]
    · have ne : ¬ id = j := Ne.symm same
      rw [gainDescriptor_slot_other k id e.seg t same, h.slot]
      simp [offered, ne]

theorem offerTo_repaying {k : Fin 8} {s : State} {id : SlotId} {e : OwedEntry} (st : s.sockets[k].st = .repaying)
    (owed : e ∈ s.sockets[k].owed) (room : s.sockets[k].ring.length < 18) :
    offerTo id e.seg k s = gainDescriptor k id e.seg s := by
  have wants : s.sockets[k].wants id e.seg = true := by
    cases id with
    | win i => exact wants_window_iff.2 (.inr ⟨.inr (.inr st), e, owed, rfl⟩)
    | rslot r => exact wants_recall_iff.2 ⟨.inr st, e, owed, rfl⟩
  rw [offerTo, wants, doIf_true, queueDescriptor_room room (by rw [st]; decide), if_neg (by rw [st]; decide)]

/-- The offers of one entry after another. -/
theorem Repaid.all {k : Fin 8} {s : State} (st : s.sockets[k].st = .repaying) (f : Nat → State → State)
    (skips : ∀ g t, t.offering g = none → f g t = t)
    (offers : ∀ g t id, t.offering g = some id → f g t = offerTo id g k t) (rest : List OwedEntry) :
    ∀ {done : List OwedEntry} {t : State}, Repaid k s done rest t → ((done ++ rest).map (·.seg)).Nodup →
      Repaid k s (done ++ rest) [] (forEach (rest.map (·.seg)) f t) := by
  induction rest with
  | nil =>
    intro done t h distinct
    rw [List.append_nil]
    exact h
  | cons e rest ih =>
    intro done t h distinct
    have next : Repaid k s (done ++ [e]) rest (f e.seg t) := by
      cases offered : s.offering e.seg with
      | none =>
        rw [skips e.seg t ((h.offering e.seg).trans offered)]
        exact h.skip offered
      | some id =>
        have ring : t.sockets[k].ring = s.repayments done := by rw [h.socket]
        rw [offers e.seg t id ((h.offering e.seg).trans offered), offerTo_repaying]
        · exact h.gain distinct offered
        · rw [h.socket, st]
        · rw [h.socket]
          simp
        · rw [ring]
          exact repayments_length_lt distinct offered
    rw [List.append_cons] at distinct ⊢
    exact ih next distinct

/-- A socket with an empty ring enters REPAYING. -/
theorem enterRepaying_repaid {k : Fin 8} {s : State} (empty : s.sockets[k].ring = [])
    (distinct : (s.sockets[k].owed.map (·.seg)).Nodup) :
    Repaid k (setState k .repaying .none s) s.sockets[k].owed [] (enterRepaying k s) := by
  have socket : (setState k .repaying .none s).sockets[k] = { s.sockets[k] with st := .repaying, reason := .none } :=
    updSocket_same ..
  have owed : (setState k .repaying .none s).sockets[k].owed = s.sockets[k].owed := by rw [socket]
  unfold enterRepaying
  dsimp only
  rw [owed]
  refine Repaid.all (by rw [socket]) _ (fun g t none' => by rw [none']) (fun g t id offered => by rw [offered]) _
    (done := []) ⟨?_, fun _ _ => rfl, rfl, rfl, rfl, fun id => rfl⟩ distinct
  rw [socket]
  show ({ s.sockets[k] with st := .repaying, reason := .none } : Socket) = { s.sockets[k] with
    st := .repaying, reason := .none, ring := [] }
  rw [← empty]

/-! ### Passes and moving on (R146, R147, R184, R186) -/

section Passes

variable {k : Fin 8} {s : State}

theorem nameNext_some {i g : Nat} (cursor : s.sockets[k].cursor = some i) (named : s.sockets[k].passList[i]? = some g) :
    nameNext k s = issue k (.verify g) s := by
  simp only [nameNext, cursor, Option.bind_some, named]

theorem nameNext_none {i : Nat} (cursor : s.sockets[k].cursor = some i) (past : s.sockets[k].passList[i]? = none) :
    nameNext k s = endPass k s := by
  simp only [nameNext, cursor, Option.bind_some, past]

theorem endPass_done (clean : s.sockets[k].owed = []) : endPass k s = updSocket k (fun sk =>
    { sk with st := .done, reason := .none, passList := [], cursor := none }) s := by
  refine (if_pos clean).trans ?_
  rw [setState, updSocket_updSocket]

theorem endPass_repays (owes : s.sockets[k].owed ≠ []) (more : s.sockets[k].passCount < 3) : endPass k s =
    enterRepaying k (updSocket k (fun sk => { sk with passList := [], cursor := none }) s) :=
  (if_neg owes).trans (if_pos more)

theorem endPass_fails (owes : s.sockets[k].owed ≠ []) (last : 3 ≤ s.sockets[k].passCount) : endPass k s =
    failSocket k .verifyLimit (updSocket k (fun sk => { sk with passList := [], cursor := none }) s) :=
  (if_neg owes).trans (if_neg (Nat.not_lt.2 last))

theorem beginPass_eq : beginPass k s = nameNext k (updSocket k (fun sk =>
    { sk with
      st := .verifying, reason := .none, passCount := sk.passCount + 1
      passList := if sk.passCount = 0 then List.range s.imageSize else sk.recheck
      recheck := [], cursor := some 0 }) s) := by
  unfold beginPass
  dsimp only
  rw [setState, updSocket_updSocket]

theorem finishWriting_off (off : s.verifyOn = false) :
    finishWriting k s = updSocket k (fun sk => { sk with st := .done, reason := .none }) s := by
  rw [finishWriting, off]
  rfl

/-- Whether a socket may move on at all. -/
def Still (k : Fin 8) (s : State) : Prop :=
  s.job.st.working = true ∧ s.sockets[k].ring = [] ∧ s.sockets[k].cmd = none ∧ s.sockets[k].exit = none

theorem moveOn_held (held : ¬ Still k s) : moveOn k s = s := if_neg held

theorem moveOn_writing (still : Still k s) (st : s.sockets[k].st = .enrolled ∨ s.sockets[k].st = .copying) : moveOn k s =
    if s.win.base = s.imageSize then
      if s.sockets[k].owed = [] then finishWriting k s else enterRepaying k s
    else s := (if_pos still).trans (if_pos (enrolledOrCopying_iff.2 st))

theorem moveOn_other (still : Still k s) (st : ¬ (s.sockets[k].st = .enrolled ∨ s.sockets[k].st = .copying)) :
    moveOn k s = if s.sockets[k].st = .repaying ∧ s.sockets[k].owed = [] then finishWriting k s else s :=
  (if_pos still).trans (if_neg fun h => st (enrolledOrCopying_iff.1 h))

/-- With nothing owed a socket that has written or repaid everything finishes writing. -/
theorem moveOn_finishes (still : Still k s) (clean : s.sockets[k].owed = [])
    (ends : ((s.sockets[k].st = .enrolled ∨ s.sockets[k].st = .copying) ∧ s.win.base = s.imageSize) ∨
      s.sockets[k].st = .repaying) : moveOn k s = finishWriting k s := by
  obtain ⟨writing, base⟩ | repaying := ends
  · rw [moveOn_writing still writing, if_pos base, if_pos clean]
  · rw [moveOn_other still (by simp only [repaying]; decide), if_pos ⟨repaying, clean⟩]

theorem moveOn_stays (h : ¬ Still k s ∨ ¬ (((s.sockets[k].st = .enrolled ∨ s.sockets[k].st = .copying) ∧
    s.win.base = s.imageSize) ∨ (s.sockets[k].st = .repaying ∧ s.sockets[k].owed = []))) : moveOn k s = s := by
  by_cases still : Still k s
  · obtain ⟨unwritten, unrepaid⟩ := not_or.1 (h.resolve_left (not_not_intro still))
    by_cases writing : s.sockets[k].st = .enrolled ∨ s.sockets[k].st = .copying
    · rw [moveOn_writing still writing, if_neg fun base => unwritten ⟨writing, base⟩]
    · rw [moveOn_other still writing, if_neg unrepaid]
  · exact moveOn_held still

/-- A pass that has something to read. -/
theorem beginPass_reads {first : Nat} {rest : List Nat}
    (list : (if s.sockets[k].passCount = 0 then List.range s.imageSize else s.sockets[k].recheck) = first :: rest) :
    beginPass k s = updSocket k (fun sk =>
      { sk with st := .verifying, reason := .none, passCount := sk.passCount + 1, passList := first :: rest, recheck := []
                cursor := some 0, cmd := some (Command.first (.verify first)) }) s := by
  rw [beginPass_eq, nameNext_some (i := 0) (g := first) (by rw [updSocket_same]) (by rw [updSocket_same, list]; rfl), issue,
    updSocket_updSocket]
  exact updSocket_congr (by rw [list])

/-- A pass with nothing to read ends at once. -/
theorem beginPass_empty (clean : s.sockets[k].owed = [])
    (list : (if s.sockets[k].passCount = 0 then List.range s.imageSize else s.sockets[k].recheck) = []) :
    beginPass k s = updSocket k (fun sk =>
      { sk with st := .done, reason := .none, passCount := sk.passCount + 1, passList := [], recheck := []
                cursor := none }) s := by
  rw [beginPass_eq, nameNext_none (i := 0) (by rw [updSocket_same]) (by rw [updSocket_same, list]; rfl),
    endPass_done (by rw [updSocket_same]; exact clean), updSocket_updSocket]

end Passes

/-- Settles O48: the cases of moving on, and the offer at the entry of REPAYING entry by entry. -/
theorem socketsMoveOn : Obligations.SocketsMoveOn := by
  unfold Obligations.SocketsMoveOn
  refine ⟨fun k s => ⟨moveOn_stays, fun still written owes => ?_, fun still clean ends => ?_⟩, fun k s empty capacity => ?_⟩
  · rw [moveOn_writing still written.1, if_pos written.2, if_neg owes]
  · have eq := moveOn_finishes still clean ends
    refine ⟨fun off => eq.trans (finishWriting_off off), fun on first rest list => ?_, fun on list => ?_⟩
    · exact eq.trans ((if_pos on).trans ((beginPass_reads list).trans (by rw [list])))
    · exact eq.trans ((if_pos on).trans (beginPass_empty clean list))
  · have distinct : (s.sockets[k].owed.map (·.seg)).Nodup := (capacity.1 k).2.2.imp fun h => Nat.ne_of_lt h
    have repaid := enterRepaying_repaid empty distinct
    have socket : (setState k .repaying .none s).sockets[k] = { s.sockets[k] with st := .repaying, reason := .none } :=
      updSocket_same ..
    have result := repaid.socket
    rw [socket] at result
    exact ⟨fun g => offering_eq_none, fun g id => offering_eq_some, congrArg Socket.st result, congrArg Socket.reason result,
      (congrArg Socket.cmd result).trans rfl, (congrArg Socket.written result).trans rfl, (congrArg Socket.recheck result).trans rfl,
      (congrArg Socket.expect result).trans rfl, (congrArg Socket.passCount result).trans rfl, congrArg Socket.ring result,
      (congrArg Socket.owed result).trans (List.append_nil _),
      fun j other => (repaid.others j other).trans (updSocket_other other ..), repaid.job, repaid.port, repaid.repair,
      repaid.slot⟩

end Sys2Proof.Machine
end

section
/-! SUPPORT. Verify reads (spec/11_verification.md, R185, R186). -/
namespace Sys2Proof.Machine
open Sys2Proof.Safety

/-- A READ SEGMENT of the right length is taken as it is. -/
theorem readData_exact {data : List Byte} (length : data.length = 32768) : readData data = data := by
  have full : Config.segmentBytes = 32768 := rfl
  rw [readData, exactBytes, full, List.take_of_length_le length.le, length, Nat.sub_self, List.replicate_zero,
    List.append_nil]

section Verify

variable {k : Fin 8} {g : Nat} {data : List Byte} {s : State}

theorem readEnds_verify {c : Command} (purpose : c.purpose = .verify g) (exit : s.sockets[k].exit = none) :
    readEnds k (some data) c s = verifyGood k g (readData data) s := by
  have counts : s.sockets[k].discards c = false := discards_false exit (by rw [purpose]; rfl)
  unfold readEnds
  rw [purpose]
  exact if_neg (Bool.eq_false_iff.1 counts)

/-- What a socket owes once a verify read has been judged. -/
def Socket.owedAfter (sk : Socket) (g : Nat) (good : Bool) : List OwedEntry :=
  if good then sk.owed else insertOwed { seg := g, record := { origin := .verifyMismatch, attempts := 0 } } sk.owed

theorem verifyGood_eq (st : s.sockets[k].st = .verifying) (room : s.sockets[k].owed.length < 32) :
    verifyGood k g data s = nameNext k (updSocket k (fun sk =>
      { sk with
        cmd := none, owed := sk.owedAfter g (s.matchesCopy k g data), cursor := sk.cursor.map (· + 1) }) s) := by
  have socket : (clearCommand k s).sockets[k] = { s.sockets[k] with cmd := none } := updSocket_same ..
  have same : (clearCommand k s).matchesCopy k g data = s.matchesCopy k g data := by
    unfold State.matchesCopy Socket.expected
    rw [socket]
    rfl
  have judged : (if s.matchesCopy k g data then clearCommand k s
      else addOwed k g .verifyMismatch 0 (clearCommand k s)) =
        updSocket k (fun sk => { sk with cmd := none, owed := sk.owedAfter g (s.matchesCopy k g data) }) s := by
    rw [(addOwed_spec k g 0 .verifyMismatch _).2.2 (by rw [socket, st]; decide) (by rw [socket]; exact room), clearCommand,
      updSocket_updSocket]
    cases s.matchesCopy k g data <;> rfl
  unfold verifyGood
  dsimp only
  rw [same, judged]
  refine (if_pos ?_).trans ?_
  · rw [updSocket_same, st]
  · rw [updSocket_updSocket]

theorem ascending_nodup {l : List Nat} (h : ascending l) : l.Nodup := List.Pairwise.imp (fun h => Nat.ne_of_lt h) h

theorem owedAfter_ascending {sk : Socket} (h : ascending (sk.owed.map (·.seg))) (good : Bool) :
    ascending ((sk.owedAfter g good).map (·.seg)) := by
  unfold Socket.owedAfter
  split_ifs
  · exact h
  · exact insertOwed_ascending _ _ h

theorem owedAfter_false {sk : Socket} (new : sk.owes g = false) :
    ∃ e ∈ sk.owedAfter g false, e.seg = g ∧ e.record = { origin := .verifyMismatch, attempts := 0 } := by
  refine ⟨{ seg := g, record := { origin := .verifyMismatch, attempts := 0 } }, ?_, rfl, rfl⟩
  have none' : ∀ x ∈ sk.owed, x.seg ≠ g := fun x hx same =>
    Bool.eq_false_iff.1 new (owes_iff.2 ⟨x, hx, same⟩)
  exact (insertOwed_perm none').mem_iff.2 List.mem_cons_self

theorem owedAfter_ne_nil {sk : Socket} {good : Bool} (h : good = false ∨ sk.owed ≠ []) : sk.owedAfter g good ≠ [] := by
  unfold Socket.owedAfter
  split_ifs with match'
  · obtain bad | owes := h
    · rw [bad] at match'
      cases match'
    · exact owes
  · cases sk.owed with
    | nil => exact List.cons_ne_nil _ _
    | cons x l =>
      rw [insertOwed]
      split_ifs <;> exact List.cons_ne_nil _ _

end Verify

/-- Settles O47: the owed list after the judgement, then the next name of the pass or its end. -/
theorem verifyReadIsJudged : Obligations.VerifyReadIsJudged := by
  unfold Obligations.VerifyReadIsJudged
  intro k data s c g i up length cmd attempt purpose exit st cursor room new capacity wrong
  have judged : wrong ↔ s.matchesCopy k g data = false := by
    show ¬ _ ↔ _
    unfold State.matchesCopy
    cases s.sockets[k].expected g <;> simp
  clear_value wrong
  have rise := (capacity.1 k).2.2
  refine ⟨verifyGood k g data s, ?_, ?_⟩
  · rw [exec_readSegmentComplete up cmd attempt, readEnds_verify purpose exit, readData_exact length]
  rw [verifyGood_eq st room]
  generalize s.matchesCopy k g data = good at judged ⊢
  generalize here : updSocket k (fun sk =>
    { sk with cmd := none, owed := sk.owedAfter g good, cursor := sk.cursor.map (· + 1) }) s = t
  have socket : t.sockets[k] =
      { s.sockets[k] with cmd := none, owed := s.sockets[k].owedAfter g good, cursor := some (i + 1) } := by
    rw [← here, updSocket_same, cursor]
    rfl
  obtain ⟨win, job, port⟩ : t.win = s.win ∧ t.job = s.job ∧ t.port = s.port := by rw [← here]; exact ⟨rfl, rfl, rfl⟩
  have tCursor : t.sockets[k].cursor = some (i + 1) := by rw [socket]
  have tList : t.sockets[k].passList = s.sockets[k].passList := by rw [socket]
  have tOwed : t.sockets[k].owed = s.sockets[k].owedAfter g good := by rw [socket]
  have tCount : t.sockets[k].passCount = s.sockets[k].passCount := by rw [socket]
  refine ⟨fun next named => ?_, fun past fits clean => ?_, fun past owes more empty => ?_, fun past owes last => ?_⟩
  · rw [nameNext_some tCursor (by rw [tList]; exact named), issue]
    have named : (updSocket k (fun sk => { sk with cmd := some (Command.first (.verify next)) }) t).sockets[k] =
        { t.sockets[k] with cmd := some (Command.first (.verify next)) } := updSocket_same ..
    rw [named]
    refine ⟨?_, rfl, tCursor, fun fits => ?_, fun bad => ?_, win, job, port⟩
    · rw [socket]
      exact st
    · have fine : good = true := by simpa using fun bad => fits (judged.2 bad)
      exact tOwed.trans (by rw [fine]; rfl)
    · obtain ⟨e, mem, seg, record⟩ := owedAfter_false new
      exact ⟨e, by rw [judged.1 bad] at tOwed; exact tOwed ▸ mem, seg, record⟩
  · have fine : good = true := by simpa using fun bad => fits (judged.2 bad)
    rw [nameNext_none tCursor (by rw [tList]; exact past),
      endPass_done (by rw [tOwed, fine]; exact clean), updSocket_same, socket]
    exact ⟨rfl, rfl⟩
  · have owing : t.sockets[k].owed ≠ [] := by
      rw [tOwed]
      exact owedAfter_ne_nil (owes.imp_left judged.1)
    rw [nameNext_none tCursor (by rw [tList]; exact past), endPass_repays owing (by rw [tCount]; exact more)]
    have repaid := enterRepaying_repaid (k := k) (s := updSocket k (fun sk => { sk with passList := [], cursor := none }) t)
      (by rw [updSocket_same, socket]; exact empty)
      (by rw [updSocket_same, socket]; exact ascending_nodup (owedAfter_ascending rise good))
    refine (congrArg Socket.st repaid.socket).trans ?_
    show (setState k .repaying .none _).sockets[k].st = _
    rw [setState, updSocket_same]
  · have owing : t.sockets[k].owed ≠ [] := by
      rw [tOwed]
      exact owedAfter_ne_nil (owes.imp_left judged.1)
    rw [nameNext_none tCursor (by rw [tList]; exact past), endPass_fails owing (by rw [tCount]; exact last)]
    obtain ⟨-, c, failed⟩ := (failSocket_spec k .verifyLimit
      (updSocket k (fun sk => { sk with passList := [], cursor := none }) t)).2 (by rw [updSocket_same, socket, st]; decide)
    rw [failed]
    exact ⟨rfl, rfl, rfl⟩

end Sys2Proof.Machine
end

section
/-! SUPPORT. What work on rings and claims makes of one slot (R63, R83): its counts change, and a slot whose last claim goes
becomes FREE. -/
namespace Sys2Proof.Machine
open Sys2Proof.Safety

/-! ### Claims on one slot -/

/-- A slot that becomes FREE with its last claim. -/
def Slot.Frees (ofRecall : Bool) (sl : Slot) : Prop :=
  sl.st = .retired ∨ (sl.st = .whole ∧ ofRecall = true ∧ sl.toSend = 0)

/-- Claims go and none come, and the last claim of a RETIRED slot stays. -/
def Slot.Shrinks (sl sl' : Slot) : Prop :=
  sl'.pending ≤ sl.pending ∧ sl'.inFlight ≤ sl.inFlight ∧ (sl.st = .retired → sl.unclaimed = false → sl'.unclaimed = false)

/-- One slot after changes of claims: only its counts have changed, or it is FREE. With `strict`, claims only go, and a
RETIRED slot that was claimed and is RETIRED still is claimed still. -/
def Slot.Claimed (ofRecall strict : Bool) (sl sl' : Slot) : Prop :=
  (sl' = { sl with pending := sl'.pending, inFlight := sl'.inFlight } ∧ (strict = true → sl.Shrinks sl')) ∨
    (sl.Frees ofRecall ∧ sl' = { sl.freed with pending := sl'.pending, inFlight := sl'.inFlight })

namespace Slot.Claimed

variable {ofRecall strict : Bool} {a b c : Slot}

theorem refl (ofRecall strict : Bool) (sl : Slot) : sl.Claimed ofRecall strict sl :=
  .inl ⟨rfl, fun _ => ⟨Nat.le_refl _, Nat.le_refl _, fun _ claimed => claimed⟩⟩

theorem trans (h : a.Claimed ofRecall strict b) (g : b.Claimed ofRecall strict c) : a.Claimed ofRecall strict c := by
  obtain ⟨eq, held⟩ | ⟨frees, eq⟩ := h
  · have st : b.st = a.st := by rw [eq]
    have toSend : b.toSend = a.toSend := by rw [eq]
    obtain ⟨eq', held'⟩ | ⟨frees', eq'⟩ := g
    · refine .inl ⟨by rw [eq', eq], fun s => ?_⟩
      obtain ⟨pending, inFlight, last⟩ := held s
      obtain ⟨pending', inFlight', last'⟩ := held' s
      exact ⟨pending'.trans pending, inFlight'.trans inFlight, fun r u => last' (st.trans r) (last r u)⟩
    · refine .inr ⟨?_, by rw [eq', eq]; rfl⟩
      rwa [Slot.Frees, st, toSend] at frees'
  · have st : b.st = .free := by rw [eq]; rfl
    obtain ⟨eq', -⟩ | ⟨frees', -⟩ := g
    · exact .inr ⟨frees, by rw [eq', eq]⟩
    · rw [Slot.Frees, st] at frees'
      exact absurd frees' (by simp)

theorem weaken (h : a.Claimed ofRecall true b) (strict : Bool) : a.Claimed ofRecall strict b :=
  h.imp_left fun ⟨eq, held⟩ => ⟨eq, fun _ => held rfl⟩

/-- A slot that no loss of a claim frees has only its counts changed. -/
theorem counts (h : a.Claimed ofRecall strict b) (kept : ¬ a.Frees ofRecall) :
    b = { a with pending := b.pending, inFlight := b.inFlight } :=
  h.elim And.left fun g => absurd g.1 kept

end Slot.Claimed

/-- The settling of a slot's claims. -/
theorem settleClaims_claimed (ofRecall strict : Bool) (sl : Slot) : sl.Claimed ofRecall strict (sl.settleClaims ofRecall) := by
  rw [Slot.settleClaims_eq]
  split_ifs with h
  · refine .inr ⟨?_, rfl⟩
    exact h.1.symm.imp_right fun ⟨ofRecall, toSend, st⟩ => ⟨st, ofRecall, toSend⟩
  · exact .refl ..

/-- Fewer claims and their settling. -/
theorem recount_claimed (ofRecall strict : Bool) (sl : Slot) {p q : Nat} (fewer : p ≤ sl.pending) (fewer' : q ≤ sl.inFlight) :
    sl.Claimed ofRecall strict (Slot.settleClaims ofRecall { sl with pending := p, inFlight := q }) := by
  rw [Slot.settleClaims_eq]
  split_ifs with h
  · refine .inr ⟨?_, rfl⟩
    exact h.1.symm.imp_right fun ⟨ofRecall, toSend, st⟩ => ⟨st, ofRecall, toSend⟩
  · refine .inl ⟨rfl, fun _ => ⟨fewer, fewer', fun retired _ => ?_⟩⟩
    have some' : ¬ (p = 0 ∧ q = 0) := fun none' => h ⟨.inr retired, none'⟩
    simpa [Slot.unclaimed] using some'

/-- One slot of the station, before and after. -/
def ClaimsAt (id : SlotId) (strict : Bool) (s t : State) : Prop :=
  (s.slot id).Claimed id.isRecall strict (t.slot id)

namespace ClaimsAt

variable {id : SlotId} {strict : Bool} {s t u : State}

theorem refl (id : SlotId) (strict : Bool) (s : State) : ClaimsAt id strict s s := Slot.Claimed.refl ..
theorem trans (h : ClaimsAt id strict s t) (g : ClaimsAt id strict t u) : ClaimsAt id strict s u := Slot.Claimed.trans h g
theorem after (g : ClaimsAt id strict t u) (h : ClaimsAt id strict s t) : ClaimsAt id strict s u := h.trans g

theorem same (h : t.slot id = s.slot id) : ClaimsAt id strict s t := by
  unfold ClaimsAt
  rw [h]
  exact .refl ..

theorem each {α : Type} (l : List α) (f : α → State → State) (h : ∀ a s, ClaimsAt id strict s (f a s)) (s : State) :
    ClaimsAt id strict s (forEach l f s) := forEach_keeps (.refl id strict) .trans l f h s

theorem when (c : Bool) (f : State → State) (s : State) (h : ClaimsAt id strict s (f s)) :
    ClaimsAt id strict s (doIf c f s) := doIf_inv c f s (fun _ => h) (.refl id strict s)

theorem socket (k : Fin 8) (f : Socket → Socket) (s : State) : ClaimsAt id strict s (updSocket k f s) :=
  same (updSocket_slot ..)

end ClaimsAt

/-! ### The operations -/

section Operations

variable (id : SlotId) (strict : Bool)

theorem settleSlot_claims (j : SlotId) (s : State) : ClaimsAt id strict s (settleSlot j s) := by
  by_cases same : id = j
  · rw [← same, ClaimsAt, settleSlot_same]
    exact settleClaims_claimed ..
  · exact .same (settleSlot_other same s)

/-- Fewer claims on a slot followed by their settling. -/
theorem recount_claims (j : SlotId) (p q : Slot → Nat) (s : State) (fewer : ∀ sl, p sl ≤ sl.pending)
    (fewer' : ∀ sl, q sl ≤ sl.inFlight) : ClaimsAt id strict s
    (settleSlot j (updSlot j (fun sl => { sl with pending := p sl, inFlight := q sl }) s)) := by
  by_cases same : id = j
  · rw [← same, ClaimsAt, settleSlot_same, updSlot_same]
    exact recount_claimed _ _ _ (fewer _) (fewer' _)
  · refine .same ((settleSlot_other same _).trans (updSlot_other same ..))

theorem unclaimSlot_claims (j : SlotId) (s : State) : ClaimsAt id strict s (unclaimSlot j s) :=
  recount_claims id strict j (fun sl => sl.pending - 1) (fun sl => sl.inFlight) s (fun _ => Nat.sub_le ..) fun _ => Nat.le_refl _

theorem endWrite_claims (j : SlotId) (s : State) : ClaimsAt id strict s (endWrite j s) :=
  recount_claims id strict j (fun sl => sl.pending) (fun sl => sl.inFlight - 1) s (fun _ => Nat.le_refl _) fun _ => Nat.sub_le ..

theorem reportOccupancy_claims (k : Fin 8) (s : State) : ClaimsAt id strict s (reportOccupancy k s) := .socket ..

theorem detachWrite_claims (k : Fin 8) (s : State) : ClaimsAt id strict s (detachWrite k s) := by
  obtain ⟨-, -, live, between, other⟩ := detachWrite_spec k s
  by_cases write : ∃ c seg src x, s.sockets[k].cmd = some c ∧ c.purpose = .descriptor seg src x
  · obtain ⟨c, seg, src, x, cmd, purpose⟩ := write
    cases reset : c.portReset with
    | false =>
      rw [live c seg src x cmd purpose reset]
      exact .socket ..
    | true =>
      rw [between c seg src x cmd purpose reset, abandonWrite_eq k s cmd purpose]
      exact (endWrite_claims id strict src _).after (.socket ..)
  · rw [other fun c seg src x cmd purpose => write ⟨c, seg, src, x, cmd, purpose⟩]
    exact .refl ..

theorem emptyRing_claims (k : Fin 8) (s : State) : ClaimsAt id strict s (emptyRing k s) := by
  unfold emptyRing
  dsimp only
  exact (reportOccupancy_claims id strict k _).after ((detachWrite_claims id strict k _).after
    (.trans (.socket k (fun sk => { sk with ring := [] }) s)
      (.each _ _ (fun (d : Descriptor) t => unclaimSlot_claims id strict d.src t) _)))

theorem failSocket_claims (k : Fin 8) (r : Reason) (s : State) : ClaimsAt id strict s (failSocket k r s) := by
  by_cases failed : s.sockets[k].st = .failed
  · rw [(failSocket_spec k r s).1 failed]
    exact .refl ..
  · rw [failSocket_eq failed]
    exact .after (.socket ..) (emptyRing_claims id strict k s)

theorem addOwed_claims (k : Fin 8) (g : Nat) (o : Origin) (n : Nat) (s : State) :
    ClaimsAt id strict s (addOwed k g o n s) := by
  unfold addOwed
  split_ifs
  · exact .refl ..
  · exact failSocket_claims ..
  · exact .socket ..

theorem oweLacking_claims (g : Nat) (o : Origin) (s : State) : ClaimsAt id strict s (oweLacking g o s) :=
  .each _ _ (fun k t => .when _ _ t (addOwed_claims id strict k g o 0 t)) s

/-- A revocation takes one claim, without settling the slot's claims. -/
theorem revoke_claims (k : Fin 8) (d : Descriptor) (o : Origin) (s : State) (other : strict = true → id ≠ d.src) :
    ClaimsAt id strict s (revoke k d o s) := by
  have less (t : State) : ClaimsAt id strict t (updSlot d.src (fun sl => { sl with pending := sl.pending - 1 }) t) := by
    by_cases same : id = d.src
    · rw [← same, ClaimsAt, updSlot_same]
      exact .inl ⟨rfl, fun strict => absurd same (other strict)⟩
    · exact .same (updSlot_other same ..)
  unfold revoke
  dsimp only
  refine (reportOccupancy_claims id strict k _).after ((addOwed_claims id strict k _ _ _ _).after (.after (less _) ?_))
  exact .socket ..

theorem revokeSlot_claims (j : SlotId) (s : State) (other : strict = true → id ≠ j) :
    ClaimsAt id strict s (revokeSlot j s) := by
  refine ClaimsAt.each _ _ (fun k t => ?_) s
  have named : ∀ d ∈ t.sockets[k].ring.filter (fun d => d.src == j && !d.inFlight), d.src = j := fun d hd => by
    have test := (List.mem_filter.1 hd).2
    rw [Bool.and_eq_true, beq_iff_eq] at test
    exact test.1
  generalize t.sockets[k].ring.filter (fun d => d.src == j && !d.inFlight) = l at named
  induction l generalizing t with
  | nil => exact .refl ..
  | cons d l ih =>
    refine ClaimsAt.trans ?_ (ih _ fun e he => named e (List.mem_cons_of_mem _ he))
    exact .when _ _ t (revoke_claims id strict k d _ t fun strict => by rw [named d List.mem_cons_self]; exact other strict)

/-- A slot taken back leaves the other slots but for their claims. -/
theorem takeBack_claims {j : SlotId} (other : id ≠ j) (s : State) : ClaimsAt id strict s (takeBack j s) :=
  .after (.same (updSlot_other other ..)) (revokeSlot_claims id strict j s fun _ => other)

theorem overrun_claims (k : Fin 8) (s : State) : ClaimsAt id false s (overrun k s) := by
  unfold overrun
  split_ifs
  · split
    · exact (settleSlot_claims id false _ _).after (revoke_claims id false k _ _ s (by simp))
    · exact .refl ..
  · exact .refl ..

theorem recounted_claims (j : SlotId) (p q : Slot → Nat) (s : State) :
    ClaimsAt id false s (updSlot j (fun sl => { sl with pending := p sl, inFlight := q sl }) s) := by
  by_cases same : id = j
  · rw [← same, ClaimsAt, updSlot_same]
    exact .inl ⟨rfl, by simp⟩
  · exact .same (updSlot_other same ..)

theorem takeDescriptor_claims (k : Fin 8) (s : State) : ClaimsAt id false s (takeDescriptor k s) := by
  unfold takeDescriptor
  split_ifs
  · split
    · exact (reportOccupancy_claims ..).after (.after (.socket ..)
        (recounted_claims id _ (fun sl => sl.pending - 1) (fun sl => sl.inFlight + 1) s))
    · exact .refl ..
  · exact .refl ..

theorem gainDescriptor_claims (k : Fin 8) (j : SlotId) (g : Nat) (s : State) :
    ClaimsAt id false s (gainDescriptor k j g s) :=
  (reportOccupancy_claims ..).after (.after
    (recounted_claims id j (fun sl => sl.pending + 1) (fun sl => sl.inFlight) _) (.socket ..))

theorem queueDescriptor_claims (k : Fin 8) (j : SlotId) (g : Nat) (s : State) :
    ClaimsAt id false s (queueDescriptor k j g s) := by
  have first := overrun_claims id k s
  by_cases shut : (overrun k s).sockets[k].st = .failed ∨ 18 ≤ (overrun k s).sockets[k].ring.length
  · rw [queueDescriptor_refused shut]
    exact first
  obtain ⟨writes, room⟩ := not_or.1 shut
  rw [queueDescriptor_overrun (Nat.not_le.1 room), queueDescriptor_room (Nat.not_le.1 room) writes]
  refine first.trans ?_
  split_ifs
  · exact (takeDescriptor_claims id k _).after (.after (.socket ..) (gainDescriptor_claims id k j g _))
  · exact gainDescriptor_claims id k j g _

/-- An offer changes claims only. -/
theorem offer_claims (j : SlotId) (g : Nat) (s : State) : ClaimsAt id false s (offer j g s) :=
  (settleSlot_claims id false j _).after
    (.each _ _ (fun k t => .when _ _ t (queueDescriptor_claims id k j g t)) s)

end Operations

/-- A window slot that is offered while WHOLE has only its counts changed. -/
theorem offer_whole {i : Fin 16} {g : Nat} {s : State} (st : (s.slot (.win i)).st = .whole) :
    ∃ p q, (offer (.win i) g s).slot (.win i) = { s.slot (.win i) with pending := p, inFlight := q } :=
  ⟨_, _, (offer_claims (.win i) (.win i) g s).counts (by rw [Slot.Frees, st]; simp [SlotId.isRecall])⟩

/-- So has a recall slot with recall parcels to send. -/
theorem offer_sending {r : Fin 2} {g : Nat} {s : State} (st : (s.slot (.rslot r)).st = .whole)
    (sends : (s.slot (.rslot r)).toSend ≠ 0) :
    ∃ p q, (offer (.rslot r) g s).slot (.rslot r) = { s.slot (.rslot r) with pending := p, inFlight := q } :=
  ⟨_, _, (offer_claims (.rslot r) (.rslot r) g s).counts (by rw [Slot.Frees, st]; simp [sends])⟩

end Sys2Proof.Machine
end

section
/-! SUPPORT. Parcels at their slots, completion of slots, and the slots' timers (spec/05_segment_window.md, R75 to R82). -/
namespace Sys2Proof.Machine
open Sys2Proof.Safety

/-! ### Changes of slots and of the window -/

/-- A change of one slot by the slot it is made on. -/
theorem updSlot_congr {id : SlotId} {f g : Slot → Slot} {s : State} (h : f (s.slot id) = g (s.slot id)) :
    updSlot id f s = updSlot id g s := by
  cases id with
  | win i =>
    have at' : f s.win.slots[i] = g s.win.slots[i] := h
    simp only [updSlot, updWin, at']
  | rslot r =>
    have at' : f s.win.recalls[r] = g s.win.recalls[r] := h
    simp only [updSlot, updWin, at']

/-- A change of the window that leaves its slots. -/
theorem updWin_slot {f : Window → Window} {s : State} (slots : (f s.win).slots = s.win.slots)
    (recalls : (f s.win).recalls = s.win.recalls) (id : SlotId) : (updWin f s).slot id = s.slot id := by
  cases id with
  | win i => exact congrArg (fun v : Vector Slot 16 => v[i]) slots
  | rslot r => exact congrArg (fun v : Vector Slot 2 => v[r]) recalls

theorem holds_iff {sl : Slot} {g : Nat} : sl.holds g = true ↔ sl.seg = some g := beq_iff_eq

theorem takeBack_slot (id : SlotId) (s : State) : (takeBack id s).slot id = ((revokeSlot id s).slot id).freed :=
  updSlot_same ..

theorem takeBack_buf (id : SlotId) (s : State) : ((takeBack id s).slot id).buf = (s.slot id).buf := by
  rw [← ((revokeSlot_spec id s).1 id).buf, takeBack_slot]
  rfl

/-! ### The placing of a parcel (R75) -/

section Placing

variable {g : Nat} {b : ParcelBody} {s : State}

theorem placeParcel_refused (held : (s.recallHolding g).isSome = true) : placeParcel g b s = (.ignored, s) := if_pos held

theorem placeParcel_free (open' : s.recallHolding g = none) (st : (s.slot (.win (winOf g))).st = .free) :
    placeParcel g b s = if (s.slot (.win (winOf g))).usable = true then
      (.placed, updSlot (.win (winOf g)) (Slot.take g b Config.gapSpan) s) else (.discarded, s) := by
  simp only [placeParcel, open', Option.isSome_none, Bool.false_eq_true, if_false, st]

theorem placeParcel_retired (open' : s.recallHolding g = none) (st : (s.slot (.win (winOf g))).st = .retired) :
    placeParcel g b s = if ((takeBack (.win (winOf g)) s).slot (.win (winOf g))).usable = true then
      (.placed, updSlot (.win (winOf g)) (Slot.take g b Config.gapSpan) (takeBack (.win (winOf g)) s))
      else (.discarded, takeBack (.win (winOf g)) s) := by
  simp only [placeParcel, open', Option.isSome_none, Bool.false_eq_true, if_false, st]

theorem placeParcel_further (open' : s.recallHolding g = none) (seg : (s.slot (.win (winOf g))).seg = some g)
    (st : (s.slot (.win (winOf g))).st = .filling ∨
      ((s.slot (.win (winOf g))).st = .damaged ∧ (s.slot (.win (winOf g))).inFlight = 0)) :
    placeParcel g b s = if hasParcel (s.slot (.win (winOf g))).mask b.parcel = true then (.ignored, s)
      else (.placed, updSlot (.win (winOf g)) (fun sl => { sl.addParcel b with timer := some Config.gapSpan }) s) := by
  obtain st | ⟨st, idle⟩ := st
  · simp only [placeParcel, open', Option.isSome_none, Bool.false_eq_true, if_false, st, holds_iff.2 seg, if_true]
  · simp only [placeParcel, open', Option.isSome_none, Bool.false_eq_true, if_false, st, holds_iff.2 seg, if_true, if_pos idle]

theorem placeParcel_draining (open' : s.recallHolding g = none) (seg : (s.slot (.win (winOf g))).seg = some g)
    (st : (s.slot (.win (winOf g))).st = .damaged) (busy : (s.slot (.win (winOf g))).inFlight ≠ 0) :
    placeParcel g b s = (.discarded, s) := by
  simp only [placeParcel, open', Option.isSome_none, Bool.false_eq_true, if_false, st, holds_iff.2 seg, if_true, if_neg busy]

theorem placeParcel_whole (open' : s.recallHolding g = none) (st : (s.slot (.win (winOf g))).st = .whole) :
    placeParcel g b s = (.ignored, s) := by
  simp only [placeParcel, open', Option.isSome_none, Bool.false_eq_true, if_false, st]

end Placing

/-- Settles O28: the table row by row. -/
theorem placingTable : Obligations.PlacingTable := by
  unfold Obligations.PlacingTable
  refine ⟨fun sl => usable_iff, fun g b s => ⟨fun r seg => ?_, fun open' => ⟨fun st usable => ?_, fun st usable => ?_,
    fun st => ?_, fun st seg => ⟨fun new => ?_, fun old => ?_⟩, fun st seg busy => ?_, fun st => ?_⟩⟩⟩
  · have held : (s.recallHolding g).isSome = true := by
      rw [Option.isSome_iff_ne_none]
      exact fun none' => recallHolding_eq_none_iff.1 none' r seg
    rw [placeParcel_refused held]
    exact ⟨rfl, rfl⟩
  · rw [placeParcel_free open' st, if_pos usable]
    refine ⟨rfl, ?_⟩
    dsimp only
    exact updSlot_congr rfl
  · rw [placeParcel_free open' st, if_neg (Bool.eq_false_iff.1 usable)]
    exact ⟨rfl, rfl⟩
  · have eq := placeParcel_retired (b := b) open' st
    have back := takeBack_slot (.win (winOf g)) s
    have backBuf := takeBack_buf (.win (winOf g)) s
    dsimp only
    refine ⟨congrArg Slot.st back, congrArg Slot.seg back, backBuf, fun unusable => ?_, fun usable => ?_⟩
    · rw [eq, if_neg (Bool.eq_false_iff.1 unusable)]
      exact ⟨rfl, rfl⟩
    · rw [eq, if_pos usable]
      dsimp only
      rw [updSlot_same]
      exact ⟨rfl, rfl, rfl, rfl, rfl,
        congrArg (fun m : Memory => m.store (b.parcel.val * 4096) (payloadData b.payload)) backBuf⟩
  · rw [placeParcel_further open' seg st, if_neg (Bool.eq_false_iff.1 new)]
    refine ⟨rfl, ?_⟩
    dsimp only
    exact updSlot_congr rfl
  · rw [placeParcel_further open' seg st, if_pos old]
    exact ⟨rfl, rfl⟩
  · rw [placeParcel_draining open' seg st (Nat.ne_of_gt busy)]
    exact ⟨rfl, rfl⟩
  · rw [placeParcel_whole open' st]
    exact ⟨rfl, rfl⟩

/-! ### RECALL-flagged parcels (R81, R82) -/

theorem held_eq_false_iff {s : State} {g : Nat} : s.held g = false ↔ ∀ id : SlotId, (s.slot id).seg ≠ some g := by
  rw [State.held, List.any_eq_false]
  exact ⟨fun h id seg => h id (mem_allSlots id) (holds_iff.2 seg), fun h id _ held => h id (holds_iff.1 held)⟩

theorem anyOwes_iff {s : State} {g : Nat} :
    (allSockets.any fun k => s.sockets[k].owes g) = true ↔ ∃ k : Fin 8, s.sockets[k].owes g = true := by
  rw [List.any_eq_true]
  exact ⟨fun ⟨k, _, owes⟩ => ⟨k, owes⟩, fun ⟨k, owes⟩ => ⟨k, mem_allSockets k, owes⟩⟩

section Recall

variable {g : Nat} {b : ParcelBody} {s : State}

theorem placeRecall_retired (seg : (s.slot (.win (winOf g))).seg = some g) (st : (s.slot (.win (winOf g))).st = .retired) :
    placeRecall g b s = offer (.win (winOf g)) g s := if_pos (holdsIn_iff.2 ⟨seg, st⟩)

theorem placeRecall_gathering {r : Fin 2}
    (other : ¬ ((s.slot (.win (winOf g))).seg = some g ∧ (s.slot (.win (winOf g))).st = .retired))
    (held : s.recallHolding g = some r) : placeRecall g b s =
      if ((s.slot (.rslot r)).st = .filling ∨ (s.slot (.rslot r)).st = .damaged) ∧
          hasParcel (s.slot (.rslot r)).mask b.parcel = false ∧ (s.slot (.rslot r)).inFlight = 0 then
        completeRecall r g (updSlot (.rslot r) (Slot.addParcel b) s) else s := by
  refine (if_neg (mt holdsIn_iff.1 other)).trans ?_
  simp only [held]

theorem placeRecall_opening (other : ¬ ((s.slot (.win (winOf g))).seg = some g ∧ (s.slot (.win (winOf g))).st = .retired))
    (unheld : s.recallHolding g = none)
    (wanted : (∀ id : SlotId, (s.slot id).seg ≠ some g) ∧ ∃ k : Fin 8, s.sockets[k].owes g = true) {r : Fin 2}
    (usable : s.usableRecall = some r) :
    placeRecall g b s = updSlot (.rslot r) (Slot.take g b Config.recallSpan) s := by
  refine (if_neg (mt holdsIn_iff.1 other)).trans ?_
  simp only [unheld]
  refine (if_pos ⟨held_eq_false_iff.2 wanted.1, anyOwes_iff.2 wanted.2⟩).trans ?_
  simp only [usable]

theorem placeRecall_ignored (other : ¬ ((s.slot (.win (winOf g))).seg = some g ∧ (s.slot (.win (winOf g))).st = .retired))
    (unheld : s.recallHolding g = none)
    (none' : ¬ ((∀ id : SlotId, (s.slot id).seg ≠ some g) ∧ ∃ k : Fin 8, s.sockets[k].owes g = true) ∨
      s.usableRecall = none) : placeRecall g b s = s := by
  refine (if_neg (mt holdsIn_iff.1 other)).trans ?_
  simp only [unheld]
  split_ifs with wanted
  · obtain unwanted | none' := none'
    · exact absurd ⟨held_eq_false_iff.1 wanted.1, anyOwes_iff.1 wanted.2⟩ unwanted
    · simp only [none']
  · rfl

theorem completeRecall_short {r : Fin 2} (short : (s.slot (.rslot r)).mask ≠ 0xFF) : completeRecall r g s = s :=
  if_neg short

theorem completeRecall_good {r : Fin 2} (full : (s.slot (.rslot r)).mask = 0xFF)
    (good : check (s.slot (.rslot r)).bytes = (s.slot (.rslot r)).check) : completeRecall r g s =
      offer (.rslot r) g (updWin (fun w => { w with checkTable := Sparse.write w.checkTable g (s.slot (.rslot r)).check })
        (updSlot (.rslot r) (fun sl => { sl with st := .whole, timer := none }) s)) :=
  (if_pos full).trans (if_pos good)

theorem completeRecall_bad {r : Fin 2} (full : (s.slot (.rslot r)).mask = 0xFF)
    (bad : check (s.slot (.rslot r)).bytes ≠ (s.slot (.rslot r)).check) : completeRecall r g s =
      updSlot (.rslot r) (fun sl => { sl with st := .damaged, mask := 0, timer := some Config.recallSpan }) s :=
  (if_pos full).trans (if_neg bad)

end Recall

section Arrival

variable {sender : Byte} {job : Word16} {b : ParcelBody} {endFirst : Bool} {s : State}

theorem exec_parcelArrivalWindow (up : s.ident.memTest = false) :
    exec (.parcelArrivalWindow sender job b endFirst) s = .next (takeHandoff .segmentWindow sender job (.parcel b)
      (settle s.settled (if s.job.source = true then sourceParcel job b s else sinkParcel sender job b endFirst s))) :=
  congrArg Host.Outcome.next (actOnArrival_up up)

theorem sourceParcel_recall (flag : b.isRecall = true) : sourceParcel job b s = s :=
  if_neg fun h => by rw [flag] at h; exact absurd h.2.2.1 (by decide)

end Arrival

/-- A slot made WHOLE, with its entry of the check table (R78). -/
theorem madeWhole (id : SlotId) (g : Nat) (f : Slot → Slot) (v : Word32) (s : State) :
    let u := updWin (fun w => { w with checkTable := Sparse.write w.checkTable g v }) (updSlot id f s)
    u.slot id = f (s.slot id) ∧ (∀ j, j ≠ id → u.slot j = s.slot j) ∧
      (Sparse.wf s.win.checkTable → ∀ x, u.win.checkTable.read x = if x = g then v else s.win.checkTable.read x) ∧
      u.sockets = s.sockets ∧ u.job = s.job ∧ u.port = s.port ∧ u.repair = s.repair ∧ u.win.base = s.win.base := by
  have table : (updSlot id f s).win.checkTable = s.win.checkTable := updSlot_checkTable ..
  refine ⟨(updWin_slot rfl rfl id).trans (updSlot_same ..), fun j other => (updWin_slot rfl rfl j).trans
    (updSlot_other other ..), fun form x => ?_, updSlot_sockets .., ?_, ?_, ?_, ?_⟩
  · show Sparse.read (Sparse.write (updSlot id f s).win.checkTable g v) x = _
    rw [table]
    exact Sparse.read_write _ _ _ _ form
  all_goals cases id <;> rfl

/-- Settles O31: the first case that applies, the completion by mask and check, and nothing at the source. -/
theorem recallParcels_settled : Obligations.RecallParcels := by
  unfold Obligations.RecallParcels
  refine ⟨fun g b s => ⟨fun ⟨seg, st⟩ => placeRecall_retired seg st, fun other r held => ⟨fun takes => ?_, fun no => ?_⟩,
    fun other unheld => ⟨fun r wanted usable => ?_, placeRecall_ignored other unheld⟩⟩,
    fun g s => ⟨fun r => recallHolding_seg, recallHolding_eq_none_iff.1, fun r => usableRecall_eq_some_iff.1,
      usableRecall_eq_none_iff.1⟩,
    fun r g s => ⟨completeRecall_short, fun full good => ?_, fun full bad => ?_⟩, fun sender job b endFirst s up source flag => ?_⟩
  · rw [placeRecall_gathering other held, if_pos takes]
    exact congrArg (completeRecall r g) (updSlot_congr rfl)
  · rw [placeRecall_gathering other held, if_neg no]
  · exact placeRecall_opening other unheld wanted usable
  · exact ⟨_, completeRecall_good full good, madeWhole (.rslot r) g _ _ s⟩
  · exact (completeRecall_bad full bad).trans (updSlot_congr rfl)
  · rw [exec_parcelArrivalWindow up, if_pos source, sourceParcel_recall flag]

/-! ### Window slots: completion and timers (R76, R77) -/

section Complete

variable {g : Nat} {s : State}

theorem completeSlot_short (short : (s.slot (.win (winOf g))).mask ≠ 0xFF) : completeSlot g s = s := if_neg short

theorem completeSlot_good (full : (s.slot (.win (winOf g))).mask = 0xFF)
    (good : check (s.slot (.win (winOf g))).bytes = (s.slot (.win (winOf g))).check) : completeSlot g s =
      offer (.win (winOf g)) g (segmentWhole g
        (updWin (fun w => { w with checkTable := Sparse.write w.checkTable g (s.slot (.win (winOf g))).check })
          (updSlot (.win (winOf g)) (fun sl => { sl with st := .whole, timer := none }) s))) :=
  (if_pos full).trans (if_pos good)

theorem completeSlot_bad (full : (s.slot (.win (winOf g))).mask = 0xFF)
    (bad : check (s.slot (.win (winOf g))).bytes ≠ (s.slot (.win (winOf g))).check) : completeSlot g s =
      damageReport g (updSlot (.win (winOf g))
        (fun sl => { sl with st := .damaged, mask := 0, timer := some Config.gapSpan }) s) :=
  (if_pos full).trans (if_neg bad)

end Complete

/-- What the repair unit drops for a segment that is WHOLE. -/
theorem segmentWhole_spec (g : Nat) (s : State) :
    let u := segmentWhole g s
    u.win = s.win ∧ u.sockets = s.sockets ∧ u.repair.needs = s.repair.needs.filter (fun e => e.seg != g) ∧
      u.repair.exhausted = s.repair.exhausted.filter (fun x => x != g) ∧ u.repair.answers = s.repair.answers ∧
      u.port = { s.port with class4 := s.port.class4.filter fun x => x != g } ∧ u.job = s.job :=
  ⟨rfl, rfl, rfl, rfl, rfl, rfl, rfl⟩

section Timers

variable {s : State}

theorem exec_gapTimerExpiry {i : Fin 16} {g : Nat} (up : s.ident.memTest = false) (runs : (s.slot (.win i)).timer.isSome)
    (seg : (s.slot (.win i)).seg = some g) : exec (.gapTimerExpiry i) s = .next (judgeHold (gapReport g
      (~~~ (s.slot (.win i)).mask) (updSlot (.win i) (fun sl => { sl with timer := none }) s))) := by
  obtain ⟨t, timer⟩ := Option.isSome_iff_exists.1 runs
  refine congrArg Host.Outcome.next ((whenUp_up up).trans ?_)
  simp only [timer, seg]

theorem exec_gapTimerExpiry_idle {i : Fin 16} (up : s.ident.memTest = false)
    (idle : (s.slot (.win i)).timer = none ∨ (s.slot (.win i)).seg = none) : exec (.gapTimerExpiry i) s = .next s := by
  refine congrArg Host.Outcome.next ((whenUp_up up).trans ?_)
  obtain timer | seg := idle
  · simp only [timer]
  · cases timer : (s.slot (.win i)).timer <;> simp only [timer, seg]

theorem exec_recallSlotTimerExpiry (up : s.ident.memTest = false) (r : Fin 2) : exec (.recallSlotTimerExpiry r) s = .next
    (if (s.slot (.rslot r)).timer.isSome ∧ ((s.slot (.rslot r)).st = .filling ∨ (s.slot (.rslot r)).st = .damaged) then
      updSlot (.rslot r) Slot.freed s else s) := by
  refine congrArg Host.Outcome.next ((whenUp_up up).trans ?_)
  refine if_congr ?_ rfl rfl
  simp only [Bool.and_eq_true, Bool.or_eq_true, beq_iff_eq]

end Timers

/-- Settles O32: the completion by mask and check, then each timer. -/
theorem slotsCompleteAndExpire : Obligations.SlotsCompleteAndExpire := by
  unfold Obligations.SlotsCompleteAndExpire
  refine ⟨fun g s => ⟨completeSlot_short, fun full good form => ?_, fun full bad => ?_⟩, fun s up =>
    ⟨fun i g => exec_gapTimerExpiry up, fun i => exec_gapTimerExpiry_idle up, exec_recallSlotTimerExpiry up⟩⟩
  · obtain ⟨slot, -, table, sockets, job, port, repair, -⟩ := madeWhole (.win (winOf g)) g
      (fun sl => { sl with st := .whole, timer := none }) (s.slot (.win (winOf g))).check s
    have eq := completeSlot_good full good
    generalize updWin _ (updSlot (.win (winOf g)) _ s) = u at eq slot table sockets job port repair
    obtain ⟨win', sockets', needs, exhausted, answers, port', job'⟩ := segmentWhole_spec g u
    generalize segmentWhole g u = v at eq win' sockets' needs exhausted answers port' job'
    have slot' : v.slot (.win (winOf g)) = u.slot (.win (winOf g)) := slot_of_win win' _
    obtain ⟨p, q, offered⟩ := offer_whole (i := winOf g) (g := g) (s := v) (by rw [slot', slot])
    rw [slot', slot] at offered
    rw [eq, offered, (offer_works (.win (winOf g)) g v).apart.checkTable, win']
    refine ⟨rfl, rfl, rfl, table form, v, rfl, sockets'.trans sockets, ?_, ?_, ?_, ?_, job'.trans job⟩
    · rw [needs, repair]
    · rw [exhausted, repair]
    · rw [answers, repair]
    · rw [port', port]
  · rw [completeSlot_bad full bad, updSlot_congr (g := fun _ => { s.slot (.win (winOf g)) with
      st := .damaged, mask := 0, timer := some (4 * Config.ms) }) rfl]
    refine ⟨?_, rfl⟩
    rw [slot_of_win (damageReport_frame g _).1.win, updSlot_same]

end Sys2Proof.Machine
end

section
/-! SUPPORT. The base of the window and the opening of segments (spec/05_segment_window.md, R65 to R67, R70, R71). -/
namespace Sys2Proof.Machine
open Sys2Proof.Safety

/-! ### The candidate base (R65) -/

/-- The low marks of the same-job entries. -/
def State.lowMarks (s : State) : List Nat :=
  allStations.filterMap fun x => if s.sameJob (s.entry x) then (s.entry x).lowMark else none

theorem mem_lowMarks {s : State} {m : Nat} :
    m ∈ s.lowMarks ↔ ∃ x : Fin 32, s.sameJob (s.entry x) = true ∧ (s.entry x).lowMark = some m := by
  simp only [State.lowMarks, List.mem_filterMap, mem_allStations, true_and, Option.ite_none_right_eq_some]

theorem candidateBase_spec (s : State) :
    (∀ m ∈ s.lowMarks, s.candidateBase ≤ m) ∧ (s.candidateBase = s.sendMark ∨ s.candidateBase ∈ s.lowMarks) := by
  have eq : s.candidateBase = min (s.lowMarks.min?.getD s.sendMark) s.sendMark := rfl
  cases least : s.lowMarks.min? with
  | none =>
    rw [List.min?_eq_none_iff] at least
    rw [eq, least]
    exact ⟨fun m hm => absurd hm List.not_mem_nil, .inl (Nat.min_self _)⟩
  | some n =>
    obtain ⟨mem, le⟩ := List.min?_eq_some_iff.1 least
    rw [least, Option.getD_some] at eq
    rw [eq]
    refine ⟨fun m hm => (Nat.min_le_left _ _).trans (le m hm), ?_⟩
    obtain h | h := Nat.le_total n s.sendMark
    · rw [Nat.min_eq_left h]
      exact .inr mem
    · rw [Nat.min_eq_right h]
      exact .inl rfl

section Judge

variable {s : State}

theorem judgeBase_same (h : ¬ (s.job.source = true ∧ s.job.st.sourced = true ∧ s.win.base < s.candidateBase)) :
    judgeBase s = s := if_neg h

/-- The judged base, whether it rises or not. -/
theorem judgeBase_base (source : s.job.source = true) (sourced : s.job.st.sourced = true) :
    (judgeBase s).win.base = max s.win.base s.candidateBase := by
  by_cases rises : s.win.base < s.candidateBase
  · rw [(judgeBase_rises ⟨source, sourced, rises⟩).1, Nat.max_eq_right (Nat.le_of_lt rises)]
  · rw [judgeBase_same fun h => rises h.2.2, Nat.max_eq_left (Nat.le_of_not_lt rises)]

/-- Judging the base to the end moves no send mark, and takes the base at most to it. -/
theorem settleBase_marks (s : State) : (settleBase s).sendMark = s.sendMark ∧ s.win.base ≤ (settleBase s).win.base ∧
    (settleBase s).win.base ≤ max s.win.base s.sendMark := by
  induction n : s.sendMark - s.win.base using Nat.strongRecOn generalizing s with
  | _ n ih =>
    by_cases rises : s.job.source ∧ s.job.st.sourced ∧ s.win.base < s.candidateBase
    · have le := candidateBase_le s
      obtain ⟨base, mark⟩ := judgeBase_rises rises
      have lt := rises.2.2
      obtain ⟨marks, up, bound⟩ := ih _ (by omega) (judgeBase s) rfl
      rw [settleBase_again]
      refine ⟨marks.trans mark, by omega, ?_⟩
      omega
    · rw [settleBase_same rises]
      exact ⟨rfl, Nat.le_refl _, Nat.le_max_left _ _⟩

theorem adoptBase_adopts {b : Nat} (sourced : s.job.st.sourced = true) (rises : s.win.base < b) (inside : b ≤ s.imageSize) :
    adoptBase b s = baseRise b (closeEnrollment s) := if_pos ⟨sourced, rises, inside⟩

theorem adoptBase_same {b : Nat} (h : s.job.st.sourced = false ∨ b ≤ s.win.base ∨ s.imageSize < b) : adoptBase b s = s := by
  refine if_neg ?_
  rintro ⟨sourced, rises, inside⟩
  obtain h | h | h := h
  · rw [h] at sourced
    cases sourced
  · omega
  · omega

end Judge

/-- Settles O22: the candidate as a minimum, and the judgement repeated until no candidate is larger. -/
theorem baseFollowsTheLowMarks : Obligations.BaseFollowsTheLowMarks := by
  unfold Obligations.BaseFollowsTheLowMarks
  refine ⟨fun b s => ⟨sourced_iff, fun source sourced rises => if_pos ⟨source, sourced_iff.2 sourced, rises⟩,
      fun h => judgeBase_same fun ⟨source, sourced, rises⟩ => h ⟨source, sourced_iff.1 sourced, rises⟩,
      fun sourced => adoptBase_adopts (sourced_iff.2 sourced), fun e => sameJob_iff⟩,
    fun s => ⟨candidateBase_le s, fun x m same mark => (candidateBase_spec s).1 m (mem_lowMarks.2 ⟨x, same, mark⟩),
      (candidateBase_spec s).2.imp_right mem_lowMarks.1, judgeBase_base,
      fun low => judgeBase_same fun h => Nat.not_lt.2 low h.2.2⟩,
    fun s => ?_, fun b s => ⟨fun sourced rises inside => ?_, adoptBase_same⟩⟩
  · refine ⟨settleBase_again s, fun same => settleBase_same fun rises => ?_, fun source sourced => ?_, settleBase_marks s⟩
    · have base := (judgeBase_rises rises).1
      rw [same] at base
      exact absurd rises.2.2 (by omega)
    · exact Nat.le_of_not_lt fun rises => settleBase_done s ⟨source, sourced, rises⟩
  · rw [adoptBase_adopts sourced rises inside]
    exact (baseRise_marks b _).1

/-! ### A base that stays below N -/

/-- A rise to a base below N leaves the job. -/
theorem baseRise_below {b : Nat} {s : State} (below : b ≠ s.imageSize) :
    baseRise b s = passBase b s ∧ (passBase b s).job = s.job ∧ (passBase b s).win.next = s.win.next ∧
      (passBase b s).port.class6 = s.port.class6 := by
  have apart := (passBase_works b s).apart
  have job : (passBase b s).job = s.job := apart.job
  refine ⟨?_, job, apart.next, (congrArg Port.class6 apart.port).trans rfl⟩
  rw [baseRise, beq_false_of_ne below, doIf_false]

theorem settleBase_below (s : State) (below : s.sendMark < s.imageSize) : (settleBase s).job = s.job ∧
    (settleBase s).win.next = s.win.next ∧ (settleBase s).port.class6 = s.port.class6 := by
  induction n : s.sendMark - s.win.base using Nat.strongRecOn generalizing s with
  | _ n ih =>
    by_cases rises : s.job.source ∧ s.job.st.sourced ∧ s.win.base < s.candidateBase
    · have le := candidateBase_le s
      obtain ⟨base, mark⟩ := judgeBase_rises rises
      obtain ⟨eq, job, next, class6⟩ := baseRise_below (b := s.candidateBase) (s := s) (by omega)
      have judged : judgeBase s = passBase s.candidateBase s := (if_pos rises).trans eq
      rw [← judged] at job next class6
      have size : (judgeBase s).imageSize = s.imageSize := by rw [State.imageSize, job]; rfl
      have lt := rises.2.2
      obtain ⟨job', next', class6'⟩ := ih _ (by omega) (judgeBase s) (by omega) rfl
      rw [settleBase_again]
      exact ⟨job'.trans job, next'.trans next, class6'.trans class6⟩
    · rw [settleBase_same rises]
      exact ⟨rfl, rfl, rfl⟩

theorem ownRequests_frame (s : State) : ∃ q, ownRequests s = { s with rv := { s.rv with queue := q } } := by
  by_cases asks : s.job.source = true ∧ (s.job.st = .copying ∨ s.job.st = .closing)
  · exact ⟨_, ownRequests_eq asks⟩
  · exact ⟨s.rv.queue, ownRequests_none asks⟩

/-- The judgements at the end of a step of the source, outside CLOSING, while parcels below N wait to be sent. -/
theorem settle_below {s : State} (b : Bool) (source : s.job.source = true) (st : s.job.st ≠ .closing)
    (below : s.sendMark < s.imageSize) : (settle b s).job = s.job ∧ (settle b s).win.next = s.win.next ∧
      (settle b s).port.class6 = s.port.class6 := by
  obtain ⟨job, next, class6⟩ := settleBase_below s below
  have moved := (Works.sockets moveOn moveOn_works (settleBase s)).apart
  obtain ⟨q, asked⟩ := ownRequests_frame (forSockets moveOn (settleBase s))
  obtain ⟨r, withdrawn, -⟩ := withdrawRequest_frame (ownRequests (forSockets moveOn (settleBase s)))
  unfold settle
  generalize forSockets moveOn (settleBase s) = t at moved asked withdrawn ⊢
  generalize hv : withdrawRequest (ownRequests t) = v at withdrawn ⊢
  rw [asked] at withdrawn
  have vJob : v.job = s.job := by rw [withdrawn]; exact moved.job.trans job
  have vNext : v.win.next = s.win.next := by rw [withdrawn]; exact moved.next.trans next
  have vPort : v.port.class6 = s.port.class6 := by
    rw [withdrawn]
    exact (congrArg Port.class6 moved.port).trans class6
  have goesOn : judgeFinish b v = v := if_neg fun due => by
    obtain ⟨-, closing, -⟩ | ⟨sink, -⟩ := (judgeFinish_due_iff b v).1 due
    · exact st (vJob ▸ closing)
    · rw [vJob, source] at sink
      cases sink
  obtain ⟨h, x, held⟩ := judgeHold_frame v
  rw [goesOn, held]
  exact ⟨vJob, vNext, vPort⟩

/-! ### Opening a segment (R70, R71) -/

theorem sendMark_le {s : State} {x : Nat × Fin 8} (waits : x ∈ s.port.class6) : s.sendMark ≤ x.1 := by
  unfold State.sendMark
  have mem : x.1 ∈ s.port.class6.map (·.1) ++ s.port.tx.newData.toList := List.mem_append_left _ (List.mem_map_of_mem waits)
  cases least : (s.port.class6.map (·.1) ++ s.port.tx.newData.toList).min? with
  | none =>
    rw [List.min?_eq_none_iff] at least
    rw [least] at mem
    exact absurd mem List.not_mem_nil
  | some n => exact (List.min?_eq_some_iff.1 least).2 _ mem

theorem mayOpen_iff {s : State} : s.mayOpen = true ↔ s.job.source = true ∧ (s.job.st = .enrolling ∨ s.job.st = .copying) ∧
    s.job.settleTimer = none ∧ s.win.next < s.imageSize ∧ s.win.next < s.win.base + 16 ∧ s.holdSeen = false ∧
    (s.slot (.win (winOf s.win.next))).st = .whole ∧ (s.slot (.win (winOf s.win.next))).seg = some s.win.next := by
  simp only [State.mayOpen, Bool.and_eq_true, Bool.or_eq_true, beq_iff_eq, Option.isNone_iff_eq_none, decide_eq_true_eq,
    Bool.not_eq_true', holdsIn_iff, and_assoc,
    and_comm (a := (s.slot (.win (winOf s.win.next))).seg = some s.win.next)]
  exact Iff.rfl

theorem exec_segmentOpen {endFirst : Bool} {s : State} (up : s.ident.memTest = false) :
    exec (.segmentOpen endFirst) s = .next (settle s.settled (doIf s.mayOpen (openSegment endFirst) s)) :=
  congrArg Host.Outcome.next (act_up up)

/-- The parcels of the next segment in class 6, and `next` risen. -/
def placeNext (s : State) : State :=
  updWin (fun w => { w with next := w.next + 1 })
    (updPort (fun p => { p with class6 := p.class6 ++ newDataParcels s.win.next }) s)

/-- The next segment offered, and a segment time ended, in either order. -/
def tellNext (endFirst : Bool) (s : State) : State :=
  if endFirst then offer (.win (winOf s.win.next)) s.win.next (segmentTimeEnd (placeNext s))
  else segmentTimeEnd (offer (.win (winOf s.win.next)) s.win.next (placeNext s))

theorem tellNext_apart (endFirst : Bool) (s : State) : Apart (placeNext s) (tellNext endFirst s) := by
  unfold tellNext
  split_ifs
  · exact ((segmentTimeEnd_works (placeNext s)).andThen (offer_works _ _ _)).apart
  · exact ((offer_works _ _ (placeNext s)).andThen (segmentTimeEnd_works _)).apart

theorem openSegment_eq (endFirst : Bool) (s : State) : openSegment endFirst s =
    if s.win.next = 0 then closeEnrollment (tellNext endFirst s) else tellNext endFirst s := by
  unfold openSegment tellNext placeNext doIf
  dsimp only
  exact if_congr beq_iff_eq rfl rfl

section Close

variable {s : State}

/-- The walk that closes enrollment at the sockets. -/
def closeSockets : State → State := forSockets fun k t => doIf (t.sockets[k].st == .preparing) (giveExit k .waiting) t

theorem closeEnrollment_enrolling (st : s.job.st = .enrolling) :
    closeEnrollment s = closeSockets (updJob (fun j => { j with st := .copying, enrollment := .closed }) s) := if_pos st

theorem closeEnrollment_orphaned (st : s.job.st = .orphaned) (former : s.job.former = some .enrolling) : closeEnrollment s =
    closeSockets (updJob (fun j => { j with former := some .copying, enrollment := .closed }) s) :=
  (if_neg (by rw [st]; decide)).trans (if_pos ⟨st, former⟩)

theorem closeEnrollment_closed (h : ¬ (s.job.st = .enrolling ∨ (s.job.st = .orphaned ∧ s.job.former = some .enrolling))) :
    closeEnrollment s = s := by
  obtain ⟨enrolling, orphaned⟩ := not_or.1 h
  exact (if_neg enrolling).trans (if_neg orphaned)

theorem closeSockets_apart (s : State) : Apart s (closeSockets s) := (closeSockets_works s).apart

/-- Closing enrollment changes nothing but the job record and the sockets. -/
theorem closeEnrollment_frame (s : State) : (closeEnrollment s).port = s.port ∧ (closeEnrollment s).repair = s.repair ∧
    (closeEnrollment s).rv = s.rv ∧ (closeEnrollment s).win.base = s.win.base ∧ (closeEnrollment s).win.next = s.win.next ∧
    (closeEnrollment s).win.readMark = s.win.readMark ∧ (closeEnrollment s).win.highestNew = s.win.highestNew ∧
    (closeEnrollment s).win.checkTable = s.win.checkTable ∧ (closeEnrollment s).roster = s.roster := by
  obtain ⟨f, works⟩ := closeEnrollment_works s
  have a := works.apart
  exact ⟨a.port, a.repair, a.rv, a.base, a.next, a.readMark, a.highestNew, a.checkTable, a.roster⟩

theorem closeEnrollment_enrolling_job (st : s.job.st = .enrolling) :
    (closeEnrollment s).job = { s.job with st := .copying, enrollment := .closed } := by
  rw [closeEnrollment_enrolling st, (closeSockets_apart _).job]
  rfl

theorem closeEnrollment_orphaned_job (st : s.job.st = .orphaned) (former : s.job.former = some .enrolling) :
    (closeEnrollment s).job = { s.job with former := some .copying, enrollment := .closed } := by
  rw [closeEnrollment_orphaned st former, (closeSockets_apart _).job]
  rfl

end Close

/-- What the opening of the next segment leaves outside sockets, slots and job. -/
theorem openSegment_frame (endFirst : Bool) (s : State) :
    let u := openSegment endFirst s
    u.port = (placeNext s).port ∧ u.repair = s.repair ∧ u.rv = s.rv ∧ u.win.base = s.win.base ∧
      u.win.next = s.win.next + 1 ∧ u.win.readMark = s.win.readMark ∧ u.win.checkTable = s.win.checkTable := by
  have told := tellNext_apart endFirst s
  rw [openSegment_eq]
  split_ifs
  · obtain ⟨port, repair, rv, base, next, readMark, -, table, -⟩ := closeEnrollment_frame (tellNext endFirst s)
    exact ⟨port.trans told.port, repair.trans told.repair, rv.trans told.rv, base.trans told.base,
      next.trans told.next, readMark.trans told.readMark, table.trans told.checkTable⟩
  · exact ⟨told.port, told.repair, told.rv, told.base, told.next, told.readMark, told.checkTable⟩

/-- The opening of segment 0 closes enrollment; no other opening changes the job (R49). -/
theorem openSegment_job (endFirst : Bool) {s : State} (st : s.job.st = .enrolling ∨ s.job.st = .copying) :
    (openSegment endFirst s).job =
      if s.win.next = 0 ∧ s.job.st = .enrolling then { s.job with st := .copying, enrollment := .closed } else s.job := by
  have job : (tellNext endFirst s).job = s.job := (tellNext_apart endFirst s).job
  rw [openSegment_eq]
  obtain enrolling | copying := st
  · by_cases first : s.win.next = 0
    · rw [if_pos first, if_pos ⟨first, enrolling⟩, closeEnrollment_enrolling_job (by rw [job, enrolling]), job]
    · rw [if_neg first, if_neg fun h => first h.1, job]
  · have shut : closeEnrollment (tellNext endFirst s) = tellNext endFirst s :=
      closeEnrollment_closed (by rw [job, copying]; simp)
    rw [shut, ite_self, job, if_neg (by rw [copying]; simp)]

/-- Settles O24: the state told of the opening, and the judgements, which cannot raise the base to N. -/
theorem segmentOpens : Obligations.SegmentOpens := by
  unfold Obligations.SegmentOpens
  intro endFirst s up seg open70 placed told u t
  refine ⟨fun opens => ?_, fun shut => ?_⟩
  · have told' : told = tellNext endFirst s := rfl
    have opened : u = openSegment endFirst s := by
      rw [openSegment_eq, ← told']
    have placed' : placed.port = (placeNext s).port := rfl
    have settled : t = settle s.settled u := rfl
    clear_value t u told
    obtain ⟨port, repair, rv, base, next, readMark, table⟩ := openSegment_frame endFirst s
    have may := mayOpen_iff.2 opens
    obtain ⟨source, st, -, inside, -⟩ := opens
    have job := openSegment_job endFirst st
    rw [← opened] at port repair rv base next readMark table job
    have kept : u.job.source = true ∧ u.job.st ≠ .closing ∧ u.imageSize = s.imageSize := by
      rw [State.imageSize, job]
      split_ifs
      · exact ⟨source, by simp, rfl⟩
      · exact ⟨source, fun closing => by rw [closing] at st; simp at st, rfl⟩
    obtain ⟨uSource, uSt, size⟩ := kept
    have below : u.sendMark < u.imageSize := by
      rw [size]
      refine Nat.lt_of_le_of_lt (sendMark_le (x := (s.win.next, 0)) ?_) inside
      rw [port]
      exact List.mem_append_right _ (List.mem_cons_self)
    obtain ⟨tJob, tNext, tClass6⟩ := settle_below s.settled uSource uSt below
    rw [← settled] at tJob tNext tClass6
    refine ⟨?_, tNext.trans next, ?_, port.trans placed'.symm, base, readMark, table, repair, rv, by rw [tJob, uSource],
      fun first enrolling => ?_, fun later => ?_⟩
    · rw [exec_segmentOpen up, may, doIf_true, settled, opened]
    · rw [tClass6, port, placed']
    · rw [tJob, job, if_pos ⟨first, enrolling⟩]
      exact ⟨rfl, rfl⟩
    · rw [tJob, job, if_neg fun h => later h.1]
      exact ⟨rfl, rfl⟩
  · rw [exec_segmentOpen up, Bool.eq_false_iff.2 (mt mayOpen_iff.1 shut), doIf_false]

end Sys2Proof.Machine
end

section
/-! SUPPORT. Master reads: their issue and the slots they fill (spec/05_segment_window.md R68, R69, spec/06_recall_slots.md R83,
R179, R180). -/
namespace Sys2Proof.Machine
open Sys2Proof.Safety

/-! ### The read-ahead read (R68) -/

section ReadAhead

variable {s : State}

theorem readAheadDue_iff : s.readAheadDue = true ↔ s.job.source = true ∧ s.job.st.sourced = true ∧
    s.win.readMark < s.imageSize ∧ s.win.readMark < s.win.base + 16 ∧ s.sockets[s.masterSocket].st = .master ∧
    s.sockets[s.masterSocket].cmd = none := by
  simp only [State.readAheadDue, Bool.and_eq_true, beq_iff_eq, decide_eq_true_eq, and_assoc]
  exact Iff.rfl

theorem readAhead_idle (h : s.readAheadDue = false) : readAhead s = s := if_neg (Bool.eq_false_iff.1 h)

theorem readAhead_usable (due : s.readAheadDue = true) (usable : (s.slot (.win (winOf s.win.readMark))).usable = true) :
    readAhead s = issueReadAhead s := by
  have free : (s.slot (.win (winOf s.win.readMark))).st ≠ .retired := by
    rw [(usable_iff.1 usable).1]
    decide
  refine (if_pos due).trans ?_
  dsimp only
  rw [if_neg free, if_pos usable]

theorem readAhead_retired (due : s.readAheadDue = true) (st : (s.slot (.win (winOf s.win.readMark))).st = .retired) :
    readAhead s =
      if ((takeBack (.win (winOf s.win.readMark)) s).slot (.win (winOf s.win.readMark))).usable = true then
        issueReadAhead (takeBack (.win (winOf s.win.readMark)) s) else takeBack (.win (winOf s.win.readMark)) s := by
  refine (if_pos due).trans ?_
  dsimp only
  rw [if_pos st]

theorem readAhead_held (due : s.readAheadDue = true) (unusable : (s.slot (.win (winOf s.win.readMark))).usable = false)
    (st : (s.slot (.win (winOf s.win.readMark))).st ≠ .retired) : readAhead s = s := by
  refine (if_pos due).trans ?_
  dsimp only
  rw [if_neg st, if_neg (Bool.eq_false_iff.1 unusable)]

theorem exec_readAheadRead (up : s.ident.memTest = false) :
    exec .readAheadRead s = .next (settle s.settled (readAhead s)) := congrArg Host.Outcome.next (act_up up)

theorem issueReadAhead_spec {m : Fin 8} {g : Nat} (master : s.masterSocket = m) (mark : s.win.readMark = g) :
    (issueReadAhead s).win.readMark = g + 1 ∧
      (issueReadAhead s).slot (.win (winOf g)) = { s.slot (.win (winOf g)) with
        st := .reading, seg := some g, mask := 0, masterRead := true, timer := none } ∧
      (∀ j, j ≠ .win (winOf g) → (issueReadAhead s).slot j = s.slot j) ∧
      (issueReadAhead s).win.base = s.win.base ∧ (issueReadAhead s).win.next = s.win.next ∧
      (issueReadAhead s).sockets[m] =
        { s.sockets[m] with cmd := some (Command.first (.master g (.win (winOf g)))) } ∧
      (∀ j : Fin 8, j ≠ m → (issueReadAhead s).sockets[j] = s.sockets[j]) ∧ (issueReadAhead s).job = s.job ∧
      (issueReadAhead s).port = s.port ∧ (issueReadAhead s).repair = s.repair := by
  subst master mark
  have slots (j : SlotId) : (issueReadAhead s).slot j =
      (updSlot (.win (winOf s.win.readMark)) (Slot.reads .reading s.win.readMark) s).slot j := by cases j <;> rfl
  exact ⟨rfl, (slots _).trans (updSlot_same ..), fun j other => (slots j).trans (updSlot_other other ..), rfl, rfl,
    updSocket_same .., fun j other => updSocket_other other .., rfl, rfl, rfl⟩

/-- When a slot taken back is usable at once. -/
theorem takeBack_usable_iff (id : SlotId) (s : State) : ((takeBack id s).slot id).usable = true ↔
    ((takeBack id s).slot id).inFlight = 0 ∧ (s.slot id).masterRead = false ∧ (s.slot id).toSend = 0 := by
  have kept := (revokeSlot_spec id s).1 id
  rw [usable_iff, takeBack_slot, Slot.freed]
  simp only [true_and, kept.masterRead, kept.toSend]

theorem readAheadPossible_iff : s.readAheadPossible = true ↔ s.readAheadDue = true ∧
    ((s.slot (.win (winOf s.win.readMark))).usable = true ∨
      ((s.slot (.win (winOf s.win.readMark))).st = .retired ∧ (s.slot (.win (winOf s.win.readMark))).inFlight = 0)) := by
  simp only [State.readAheadPossible, Bool.and_eq_true, Bool.or_eq_true, beq_iff_eq]

/-! ### The recall read (R179) -/

theorem exec_recallReadIssue (up : s.ident.memTest = false) :
    exec .recallReadIssue s = .next (settle s.settled (recallRead s)) := congrArg Host.Outcome.next (act_up up)

theorem find?_append_cons {α : Type} {p : α → Bool} {before after : List α} {a : α} (none' : ∀ x ∈ before, p x = false)
    (found : p a = true) : (before ++ a :: after).find? p = some a := by
  rw [List.find?_append, List.find?_eq_none.2 fun x hx => by simp [none' x hx], Option.none_or,
    List.find?_cons_of_pos found]

theorem recallReadDue_some {g : Nat} {r : Fin 2} (source : s.job.source = true) (st : s.job.st.recalling = true)
    (master : s.sockets[s.masterSocket].st = .master) (idle : s.sockets[s.masterSocket].cmd = none)
    (first : s.readAheadPossible = false) (next : s.rv.queue.find? (fun x => !s.held x) = some g)
    (usable : s.usableRecall = some r) : s.recallReadDue = some (g, r) := by
  refine (if_pos ⟨source, st, master, idle, first⟩).trans ?_
  simp only [next, usable]

theorem recallRead_due {g : Nat} {r : Fin 2} (due : s.recallReadDue = some (g, r)) : recallRead s =
    issue s.masterSocket (.master g (.rslot r)) (updSlot (.rslot r) (Slot.reads .filling g)
      (updRv (fun v => { v with queue := v.queue.filter fun x => x != g }) s)) := by
  simp only [recallRead, due]
  rfl

end ReadAhead

/-- Settles O25: the read-ahead read by the state of its slot, and the recall read that is due. -/
theorem masterReadsAreIssued : Obligations.MasterReadsAreIssued := by
  unfold Obligations.MasterReadsAreIssued
  refine ⟨fun s up => ⟨fun due usable => ⟨issueReadAhead s, ?_, issueReadAhead_spec rfl rfl⟩,
    fun due st => ⟨takeBack_usable_iff _ s, fun usable => ⟨issueReadAhead (takeBack (.win (winOf s.win.readMark)) s), ?_, ?_⟩,
      fun unusable => ?_⟩, fun held => ?_, ?_, fun sl => usable_iff⟩,
    fun s g r before after up source st master idle first queue held unheld usable lower => ?_⟩
  · rw [exec_readAheadRead up, readAhead_usable (readAheadDue_iff.2 due) usable]
  · rw [exec_readAheadRead up, readAhead_retired (readAheadDue_iff.2 due) st, if_pos usable]
  · have apart := (takeBack_works (.win (winOf s.win.readMark)) s).apart
    have master : (takeBack (.win (winOf s.win.readMark)) s).masterSocket = s.masterSocket := by
      rw [State.masterSocket, apart.job]
      rfl
    obtain ⟨readMark, slot, others, base, next, socket, sockets, job, port, repair⟩ :=
      issueReadAhead_spec master apart.readMark
    exact ⟨readMark, slot, others, base.trans apart.base, next.trans apart.next, socket, sockets, job.trans apart.job,
      port.trans apart.port, repair.trans apart.repair⟩
  · rw [exec_readAheadRead up, readAhead_retired (readAheadDue_iff.2 due) st, if_neg (Bool.eq_false_iff.1 unusable)]
  · have same : readAhead s = s := by
      by_cases due : s.readAheadDue = true
      · obtain ⟨unusable, st⟩ := held.resolve_left (not_not_intro (readAheadDue_iff.1 due))
        exact readAhead_held due unusable st
      · exact readAhead_idle (by simpa using due)
    rw [exec_readAheadRead up, same]
  · rw [readAheadPossible_iff, readAheadDue_iff]
  · have next : s.rv.queue.find? (fun x => !s.held x) = some g := by
      rw [queue]
      exact find?_append_cons (fun x hx => by rw [held x hx]; rfl) (by rw [unheld]; rfl)
    have due := recallReadDue_some source (recalling_iff.2 st) master idle first next (usableRecall_eq_some_iff.2 ⟨usable, lower⟩)
    refine ⟨recallRead s, exec_recallReadIssue up, ?_⟩
    rw [recallRead_due due]
    refine ⟨rfl, ?_, fun j other => ?_, ?_, fun j other => ?_, rfl, rfl⟩
    · rw [issue, updSocket_slot, updSlot_same]
      rfl
    · rw [issue, updSocket_slot, updSlot_other other]
      cases j <;> rfl
    · rw [issue, updSocket_same]
    · rw [issue, updSocket_other other, updSlot_sockets]
      rfl

/-! ### The data of a good read (R69, R180) -/

section Fill

variable {k : Fin 8} {g : Nat} {dst : SlotId} {data : List Byte} {s : State}

theorem readEnds_master {c : Command} (purpose : c.purpose = .master g dst) (exit : s.sockets[k].exit = none) :
    readEnds k (some data) c s = masterReadGood g dst (readData data) (clearCommand k s) := by
  have counts : s.sockets[k].discards c = false := discards_false exit (by rw [purpose]; rfl)
  unfold readEnds
  rw [purpose]
  exact if_neg (Bool.eq_false_iff.1 counts)

/-- A slot filled with the data of a read, and the data's check in the check table. -/
def fillSlot (g : Nat) (dst : SlotId) (data : List Byte) (s : State) : State :=
  updWin (fun w => { w with checkTable := Sparse.write w.checkTable g (check data) }) (updSlot dst (Slot.filled data) s)

/-- A recall slot filled, its eight parcels in class 7. -/
def fillRecall (g : Nat) (r : Fin 2) (data : List Byte) (s : State) : State :=
  updPort (fun p => { p with class7 := p.class7 ++ recallParcels r })
    (updSlot (.rslot r) (fun sl => { sl with toSend := 8 }) (fillSlot g (.rslot r) data s))

theorem masterReadGood_win {i : Fin 16} (reads : (s.slot (.win i)).masterRead = true)
    (st : (s.slot (.win i)).st = .reading ∨ (s.slot (.win i)).st = .filling) (seg : (s.slot (.win i)).seg = some g) :
    masterReadGood g (.win i) data s = fillSlot g (.win i) data s := if_pos ⟨reads, st, holds_iff.2 seg⟩

theorem masterReadGood_rslot {r : Fin 2} (reads : (s.slot (.rslot r)).masterRead = true)
    (st : (s.slot (.rslot r)).st = .reading ∨ (s.slot (.rslot r)).st = .filling) (seg : (s.slot (.rslot r)).seg = some g) :
    masterReadGood g (.rslot r) data s = offer (.rslot r) g (fillRecall g r data s) := if_pos ⟨reads, st, holds_iff.2 seg⟩

/-- A buffer filled with a whole segment reads as that segment. -/
theorem read_filled {m : Memory} (form : ∀ c ∈ m, c.1 < 32768) (length : data.length = 32768) (a : Nat) :
    (m.store 0 data).read a = data.getD a 0 := by
  rw [Memory.read_store]
  split_ifs with inside
  · rw [Nat.sub_zero]
  · have beyond : 32768 ≤ a := by omega
    rw [List.getD_eq_default _ _ (by omega)]
    refine Memory.read_none m a (List.any_eq_false.2 fun c hc => ?_)
    have lt := form c hc
    simp only [beq_iff_eq]
    omega

theorem clearCommand_frame (k : Fin 8) (s : State) :
    (clearCommand k s).sockets[k] = { s.sockets[k] with cmd := none } ∧
      (∀ j : Fin 8, j ≠ k → (clearCommand k s).sockets[j] = s.sockets[j]) ∧
      (∀ id, (clearCommand k s).slot id = s.slot id) :=
  ⟨updSocket_same .., fun _ other => updSocket_other other .., fun id => updSocket_slot k _ s id⟩

end Fill

/-- Settles O26: the slot filled, and for a recall read its parcels and the offer, which changes claims only. -/
theorem masterReadsFillTheirSlots : Obligations.MasterReadsFillTheirSlots := by
  unfold Obligations.MasterReadsFillTheirSlots
  constructor
  · intro k data s c g i up length cmd attempt purpose exit reads st seg storage
    obtain ⟨socket, sockets, slots⟩ := clearCommand_frame k s
    obtain ⟨slot, others, table, sockets', job, port, repair, -⟩ := madeWhole (.win i) g (Slot.filled data) (check data)
      (clearCommand k s)
    rw [slots] at slot
    refine ⟨fillSlot g (.win i) data (clearCommand k s), ?_, ?_⟩
    · rw [exec_readSegmentComplete up cmd attempt, readEnds_master purpose exit, readData_exact length,
        masterReadGood_win (by rw [slots]; exact reads) (by rw [slots]; exact .inl st) (by rw [slots]; exact seg)]
    have eq : fillSlot g (.win i) data (clearCommand k s) = updWin
      (fun w => { w with checkTable := Sparse.write w.checkTable g (check data) })
      (updSlot (.win i) (Slot.filled data) (clearCommand k s)) := rfl
    rw [← eq] at slot others table sockets' job port repair
    generalize fillSlot g (.win i) data (clearCommand k s) = u at slot others table sockets' job port repair
    rw [slot, sockets']
    exact ⟨rfl, seg, rfl, rfl, rfl, read_filled (storage.1 (.win i)).2 length, fun j other => (others j other).trans (slots j),
      table storage.2.1, socket, sockets, job, port, repair⟩
  · intro k data s c g r up length cmd attempt purpose exit reads st seg storage
    obtain ⟨socket, sockets, slots⟩ := clearCommand_frame k s
    obtain ⟨slot, others, table, sockets', -⟩ := madeWhole (.rslot r) g (Slot.filled data) (check data) (clearCommand k s)
    rw [slots] at slot
    have vSlot : (fillRecall g r data (clearCommand k s)).slot (.rslot r) =
        { Slot.filled data (s.slot (.rslot r)) with toSend := 8 } := by
      have eq : (fillRecall g r data (clearCommand k s)).slot (.rslot r) =
        (updSlot (.rslot r) (fun sl => { sl with toSend := 8 }) (fillSlot g (.rslot r) data (clearCommand k s))).slot
          (.rslot r) := rfl
      rw [eq, updSlot_same]
      exact congrArg (fun sl : Slot => { sl with toSend := 8 }) slot
    have vOthers (j : SlotId) (other : j ≠ .rslot r) : (fillRecall g r data (clearCommand k s)).slot j = s.slot j := by
      have eq : (fillRecall g r data (clearCommand k s)).slot j =
        (updSlot (.rslot r) (fun sl => { sl with toSend := 8 }) (fillSlot g (.rslot r) data (clearCommand k s))).slot j := by
        cases j <;> rfl
      rw [eq, updSlot_other other]
      exact (others j other).trans (slots j)
    obtain ⟨p, q, offered⟩ := offer_sending (g := g) (s := fillRecall g r data (clearCommand k s)) (r := r)
      (by rw [vSlot]; rfl) (by rw [vSlot]; exact Nat.succ_ne_zero 7)
    have apart := (offer_works (.rslot r) g (fillRecall g r data (clearCommand k s))).apart
    refine ⟨offer (.rslot r) g (fillRecall g r data (clearCommand k s)), fillRecall g r data (clearCommand k s), ?_, rfl, ?_⟩
    · rw [exec_readSegmentComplete up cmd attempt, readEnds_master purpose exit, readData_exact length,
        masterReadGood_rslot (by rw [slots]; exact reads) (by rw [slots]; exact .inr st) (by rw [slots]; exact seg)]
    have bytes := read_filled (m := (s.slot (.rslot r)).buf) (storage.1 (.rslot r)).2 length
    rw [offered, vSlot, apart.checkTable, apart.port, apart.job, apart.repair]
    exact ⟨rfl, bytes, vOthers, socket, sockets, rfl, rfl, rfl, rfl, rfl, rfl, rfl, rfl, rfl, rfl, rfl,
      rfl, rfl, seg, rfl, rfl, bytes, rfl, rfl, rfl, table storage.2.1, rfl, rfl⟩

end Sys2Proof.Machine
end

section
/-! SUPPORT. Attempts that end in error (spec/10_sockets.md, R111, R139, R143, R148, R149). -/
namespace Sys2Proof.Machine
open Sys2Proof.Safety

section Errors

variable {k : Fin 8} {c : Command} {s : State}

theorem attemptError_retries (more : c.attempt < 4) : attemptError k c s = retry k s := if_pos more
theorem attemptError_fails (last : 4 ≤ c.attempt) : attemptError k c s = commandFailed k c.purpose false s :=
  if_neg (Nat.not_lt.2 last)

theorem readEnds_error {purpose : Purpose} (eq : c.purpose = purpose)
    (reads : (∃ g, purpose = .verify g) ∨ ∃ g dst, purpose = .master g dst) (exit : s.sockets[k].exit = none) :
    readEnds k none c s = attemptError k c s := by
  have counts : ¬ s.sockets[k].discards c = true := by
    rw [discards_false exit (by obtain ⟨g, h⟩ | ⟨g, dst, h⟩ := reads <;> rw [eq, h] <;> rfl)]
    decide
  obtain ⟨g, h⟩ | ⟨g, dst, h⟩ := reads <;> (simp only [readEnds, eq, h]; exact if_neg counts)

theorem writeEnds_error (writes : c.purpose = .blanking ∨ ∃ g src, c.purpose = .descriptor g src false)
    (exit : s.sockets[k].exit = none) : writeEnds k false c s = attemptError k c s := by
  have counts : ¬ s.sockets[k].discards c = true := by
    rw [discards_false exit (by obtain h | ⟨g, src, h⟩ := writes <;> rw [h] <;> rfl)]
    decide
  obtain h | ⟨g, src, h⟩ := writes
  · rw [writeEnds_blanking h, if_neg counts, if_neg (by decide)]
  · rw [writeEnds_descriptor h, if_neg counts, if_neg (by decide)]

/-- The next attempt of a read. -/
theorem retry_read (cmd : s.sockets[k].cmd = some c)
    (reads : (∃ g, c.purpose = .verify g) ∨ ∃ g dst, c.purpose = .master g dst) : retry k s =
      updSocket k (fun sk => { sk with cmd := some { Command.first c.purpose with attempt := c.attempt + 1 } }) s := by
  obtain ⟨g, h⟩ | ⟨g, dst, h⟩ := reads <;> simp only [retry, cmd, h]

/-- Emptying an empty ring at an idle engine changes no slot. -/
theorem emptyRing_still (ring : s.sockets[k].ring = []) (idle : s.sockets[k].cmd = none) :
    (emptyRing k s).win = s.win := by
  have cmd : (updSocket k (fun sk => { sk with ring := [] }) s).sockets[k].cmd = none := by rw [updSocket_same]; exact idle
  obtain ⟨-, -, -, -, other⟩ := detachWrite_spec k (updSocket k (fun sk => { sk with ring := [] }) s)
  unfold emptyRing
  dsimp only
  rw [ring]
  show (detachWrite k (updSocket k (fun sk => { sk with ring := [] }) s)).win = s.win
  rw [other fun d seg src x held => by rw [cmd] at held; cases held]
  rfl

/-- A socket without a command that fails. -/
theorem failSocket_still (idle : s.sockets[k].cmd = none) (writes : s.sockets[k].st ≠ .failed) (r : Reason) :
    (failSocket k r s).sockets[k].st = .failed ∧ (failSocket k r s).sockets[k].reason = r ∧
      (failSocket k r s).sockets[k].cmd = none ∧ (failSocket k r s).sockets[k].ring = [] ∧
      (failSocket k r s).sockets[k].owed = [] ∧ (failSocket k r s).sockets[k].recheck = [] ∧
      (failSocket k r s).sockets[k].expect = [] ∧ (failSocket k r s).sockets[k].passList = [] ∧
      (failSocket k r s).sockets[k].passCount = 0 ∧ (failSocket k r s).sockets[k].cursor = none ∧
      (failSocket k r s).sockets[k].written = s.sockets[k].written ∧
      (s.sockets[k].ring = [] → (failSocket k r s).win = s.win) := by
  rw [failSocket_idle idle writes]
  refine ⟨rfl, rfl, rfl, rfl, rfl, rfl, rfl, rfl, rfl, rfl, rfl, fun ring => ?_⟩
  rw [failSocket_eq writes]
  exact emptyRing_still ring idle

/-- A read or a write whose fourth attempt ends in error, once its command is gone, fails the socket. -/
theorem failCleared_apart (r : Reason) : Apart s (failSocket k r (clearCommand k s)) ∧
    (failSocket k r (clearCommand k s)).pacing = s.pacing ∧
    ∀ j : Fin 8, j ≠ k → (failSocket k r (clearCommand k s)).sockets[j] = s.sockets[j] :=
  ⟨(updSocket_apart k _ s).trans (failSocket_works k r _).apart, failSocket_pacing ..,
    (failSocket_only k r _).after (clearCommand_only k s)⟩

end Errors

/-- The master read whose fourth attempt ends in error: the two outcomes by the number of the attempt. -/
theorem masterRead_error {k : Fin 8} {s : State} {c : Command} {g : Nat} {dst : SlotId} {n : Word16}
    (up : s.ident.memTest = false) (cmd : s.sockets[k].cmd = some c) (attempt : c.portReset = false)
    (purpose : c.purpose = .master g dst) (exit : s.sockets[k].exit = none) (source : s.job.source = true)
    (sourced : s.job.st.sourced = true) (number : s.job.number = some n) (last : 4 ≤ c.attempt) :
    ∃ t, exec (.readSegmentComplete k none) s = .next t ∧ t.job.st = .cancelled ∧ tornDown t ∧
      t.port.cancels = s.port.cancels ++ [{ job := n, reason := 3 }] := by
  have apart : Apart s (endMasterRead dst (clearCommand k s)) :=
    (updSocket_apart k _ s).trans (endMasterRead_works dst (clearCommand k s)).apart
  have step := exec_readSegmentComplete up cmd attempt none
  rw [readEnds_error purpose (.inr ⟨g, dst, rfl⟩) exit, attemptError_fails last, purpose] at step
  rw [← apart.job] at source sourced number
  obtain ⟨cancelled, down, torn, cancels, -⟩ := masterFailure_source (r := reasonReadError) source sourced number
  refine ⟨masterFailure reasonReadError (endMasterRead dst (clearCommand k s)), ?_, cancelled, down, ?_⟩
  · rw [step, commandFailed, settle_tornDown down torn]
  · rw [cancels, apart.port]
    rfl

/-- Settles O27: the purposes of the reads and of the writes, each by the number of the attempt. -/
theorem readAndWriteErrorsRetryThenFail : Obligations.ReadAndWriteErrorsRetryThenFail := by
  unfold Obligations.ReadAndWriteErrorsRetryThenFail
  refine ⟨fun k s c g dst n up cmd attempt purpose exit source sourced number =>
      ⟨masterRead_error up cmd attempt purpose exit source sourced number, fun more => ?_⟩,
    fun k s c g up cmd attempt purpose exit writes => ⟨fun more => ?_, fun last => ?_⟩,
    fun k s c up cmd attempt exit writes purpose => ⟨fun more => ?_, fun last => ?_, fun blanking => ?_⟩⟩
  · refine ⟨retry k s, ?_, ?_⟩
    · rw [exec_readSegmentComplete up cmd attempt, readEnds_error purpose (.inr ⟨g, dst, rfl⟩) exit, attemptError_retries more]
    · rw [retry_read cmd (.inr ⟨g, dst, purpose⟩)]
      exact ⟨updSocket_same .., fun j other => updSocket_other other .., rfl, rfl, rfl⟩
  · refine ⟨retry k s, ?_, ?_⟩
    · rw [exec_readSegmentComplete up cmd attempt, readEnds_error purpose (.inl ⟨g, rfl⟩) exit, attemptError_retries more]
    · rw [retry_read cmd (.inl ⟨g, purpose⟩), purpose]
      exact ⟨updSocket_same .., fun j other => updSocket_other other .., rfl, rfl, rfl, rfl, rfl, rfl⟩
  · refine ⟨failSocket k .writeError (clearCommand k s), ?_, ?_⟩
    · rw [exec_readSegmentComplete up cmd attempt, readEnds_error purpose (.inl ⟨g, rfl⟩) exit, attemptError_fails last,
        purpose]
      rfl
    · have cleared : (clearCommand k s).sockets[k] = { s.sockets[k] with cmd := none } := updSocket_same ..
      obtain ⟨st, reason, cmd', ring, owed, recheck, expect, list, count, cursor, written, win⟩ :=
        failSocket_still (k := k) (s := clearCommand k s) (by rw [cleared]) (by rw [cleared]; exact writes) .writeError
      obtain ⟨apart, pacing, others⟩ := failCleared_apart (k := k) (s := s) .writeError
      exact ⟨st, reason, cmd', ring, owed, recheck, expect, list, count, cursor, written.trans (by rw [cleared]), others,
        fun empty => win (by rw [cleared]; exact empty), apart.job, apart.port, apart.repair, apart.rv, pacing⟩
  · obtain ⟨c', eq, same, number, off, -⟩ := retry_eq cmd (purpose.imp_right .inl)
    refine ⟨retry k s, c', ?_, ?_⟩
    · rw [exec_writeSegmentComplete up cmd attempt, writeEnds_error purpose exit, attemptError_retries more]
    · rw [eq]
      exact ⟨updSocket_same .., same, number, off, fun j other => updSocket_other other .., rfl, rfl, rfl⟩
  · have step := exec_writeSegmentComplete up cmd attempt false
    rw [writeEnds_error purpose exit, attemptError_fails last] at step
    refine ⟨_, step, ?_⟩
    obtain blanking | ⟨g, src, write⟩ := purpose
    · have cleared : (clearCommand k s).sockets[k] = { s.sockets[k] with cmd := none } := updSocket_same ..
      obtain ⟨st, reason, -, ring, owed, -, expect, -, -, -, written, -⟩ :=
        failSocket_still (k := k) (s := clearCommand k s) (by rw [cleared]) (by rw [cleared]; exact writes) .prepareError
      obtain ⟨apart, -, others⟩ := failCleared_apart (k := k) (s := s) .prepareError
      rw [blanking, if_pos rfl]
      exact ⟨st, reason, ring, owed, expect, written.trans (by rw [cleared]), others, apart.job, apart.port⟩
    · obtain ⟨m, t, back⟩ := handBack_socket k g src s
      obtain ⟨st, reason, -, ring, owed, -, expect, -, -, -, written, -⟩ :=
        failSocket_still (k := k) (s := handBack k g src s) (by rw [back]) (by rw [back]; exact writes) .writeError
      have apart := (handBack_touches k g src s).spec.1.trans (failSocket_works k .writeError _).apart
      rw [write, if_neg (by simp)]
      exact ⟨st, reason, ring, owed, expect, written.trans (by rw [back]), endWriteError_only k g src .writeError s, apart.job,
        apart.port⟩
  · refine ⟨setState k .enrolled .none (clearCommand k s), ?_, ?_⟩
    · have counts := discards_false (sk := s.sockets[k]) (c := c) exit (by rw [blanking]; rfl)
      rw [exec_writeSegmentComplete up cmd attempt, writeEnds_blanking blanking, if_neg (Bool.eq_false_iff.1 counts),
        if_pos rfl]
    · rw [setState, clearCommand, updSocket_updSocket]
      exact ⟨updSocket_same .., fun j other => updSocket_other other .., rfl, rfl, rfl⟩

end Sys2Proof.Machine
end

section
/-! SUPPORT. Parcels at the window of a sink: the close of enrollment, the placing and the gap reports
(spec/05_segment_window.md, R49, R72 to R75, R88). -/
namespace Sys2Proof.Machine
open Sys2Proof.Safety

/-! ### The close of enrollment at the sockets (R49, R143, R150) -/

/-- What the close of enrollment makes of one socket. -/
structure ClosedAs (sk sk' : Socket) : Prop where
  other : sk.st ≠ .preparing → sk' = sk
  idle : sk.st = .preparing → sk.cmd = none → sk' = { sk with st := .waiting, reason := .none, exit := none }
  writing : sk.st = .preparing → ∀ c, sk.cmd = some c → sk' =
    if c.portReset = true then { sk with st := .waiting, reason := .none, exit := none, cmd := none }
    else { sk with exit := some .waiting }

theorem giveExit_closed {k : Fin 8} {s : State} :
    ClosedAs s.sockets[k] (doIf (s.sockets[k].st == .preparing) (giveExit k .waiting) s).sockets[k] := by
  constructor
  · intro other
    rw [beq_false_of_ne other, doIf_false]
  · intro preparing idle
    rw [beq_iff_eq.2 preparing, doIf_true, giveExit_idle idle, takeTarget_waiting, updSocket_same]
  · intro preparing c cmd
    rw [beq_iff_eq.2 preparing, doIf_true, giveExit_some cmd]
    split_ifs
    · rw [takeTarget_waiting, updSocket_same, abandonCommand_socket]
    · rw [updSocket_same]

theorem takeTarget_waiting_pacing (k : Fin 8) (s : State) : (takeTarget k .waiting s).pacing = s.pacing := by
  rw [takeTarget_waiting]
  rfl

theorem giveExit_waiting_pacing (k : Fin 8) (s : State) : (giveExit k .waiting s).pacing = s.pacing := by
  cases cmd : s.sockets[k].cmd with
  | none => rw [giveExit_idle cmd, takeTarget_waiting_pacing]
  | some c =>
    rw [giveExit_some cmd]
    split_ifs
    · rw [takeTarget_waiting_pacing, abandonCommand_pacing]
    · rfl

theorem closeSockets_closed (s : State) (k : Fin 8) : ClosedAs s.sockets[k] (closeSockets s).sockets[k] := by
  refine (forSockets_each (I := fun _ => True) (Q := fun j sk => ClosedAs s.sockets[j] sk) _ s
    (fun j t => Only.when _ _ t (giveExit_only j .waiting t)) (fun _ _ _ => trivial) (fun j t _ same => ?_) trivial).2 k
  rw [← same]
  exact giveExit_closed

theorem closeSockets_pacing (s : State) : (closeSockets s).pacing = s.pacing :=
  forSockets_inv (P := fun t => t.pacing = s.pacing) _
    (fun k t ht => doIf_inv (P := fun u => u.pacing = s.pacing) _ _ t (fun hu => (giveExit_waiting_pacing k t).trans hu) ht)
    s rfl

/-- Whether enrollment is open at the station, an orphan's former state too. -/
def EnrollmentOpen (j : Job) : Prop := j.st = .enrolling ∨ (j.st = .orphaned ∧ j.former = some .enrolling)

section CloseEnrollment

variable {s : State}

/-- Closing an open enrollment, as a change of the job record before the walk over the sockets. -/
theorem closeEnrollment_open (h : EnrollmentOpen s.job) : ∃ f : Job → Job, closeEnrollment s = closeSockets (updJob f s) ∧
    (f s.job).body = s.job.body ∧ ((f s.job).st = .orphaned ↔ s.job.st = .orphaned) := by
  obtain enrolling | ⟨orphaned, former⟩ := h
  · exact ⟨_, closeEnrollment_enrolling enrolling, rfl, by simp [enrolling]⟩
  · exact ⟨_, closeEnrollment_orphaned orphaned former, rfl, Iff.rfl⟩

theorem closeEnrollment_pacing (s : State) : (closeEnrollment s).pacing = s.pacing := by
  by_cases h : EnrollmentOpen s.job
  · obtain ⟨f, eq, -⟩ := closeEnrollment_open h
    rw [eq, closeSockets_pacing]
    rfl
  · rw [closeEnrollment_closed h]

theorem closeEnrollment_socket_other {k : Fin 8} (other : s.sockets[k].st ≠ .preparing) :
    (closeEnrollment s).sockets[k] = s.sockets[k] := by
  by_cases h : EnrollmentOpen s.job
  · obtain ⟨f, eq, -⟩ := closeEnrollment_open h
    rw [eq]
    exact (closeSockets_closed (updJob f s) k).other other
  · rw [closeEnrollment_closed h]

theorem closeEnrollment_socket_open (h : EnrollmentOpen s.job) (k : Fin 8) :
    ClosedAs s.sockets[k] (closeEnrollment s).sockets[k] := by
  obtain ⟨f, eq, -⟩ := closeEnrollment_open h
  rw [eq]
  exact closeSockets_closed (updJob f s) k

/-- The close keeps the parameters of the job, and an orphan an orphan. -/
theorem closeEnrollment_job_kept (s : State) : (closeEnrollment s).job.body = s.job.body ∧
    ((closeEnrollment s).job.st = .orphaned ↔ s.job.st = .orphaned) := by
  by_cases h : EnrollmentOpen s.job
  · obtain ⟨f, eq, body, st⟩ := closeEnrollment_open h
    rw [eq, (closeSockets_apart _).job]
    exact ⟨body, st⟩
  · rw [closeEnrollment_closed h]
    exact ⟨rfl, Iff.rfl⟩

end CloseEnrollment

/-! ### The parcel at a sink (R73) -/

section Sink

variable {sender : Byte} {job : Word16} {b : ParcelBody} {endFirst : Bool} {s : State}

theorem raisesNew_iff : s.raisesNew b = true ↔
    b.isRepair = false ∧ b.isRecall = false ∧ ∀ h, s.win.highestNew = some h → h < b.seg.toNat := by
  unfold State.raisesNew
  cases s.win.highestNew <;> simp [and_assoc]

/-- A parcel of another job, or outside a job. -/
theorem sinkParcel_other (h : s.job.number ≠ some job ∨ s.job.st.working = false) : sinkParcel sender job b endFirst s = s := by
  refine if_neg ?_
  rintro ⟨current, working⟩
  obtain h | h := h
  · exact h (beq_iff_eq.1 current)
  · rw [h] at working
    cases working

/-- A parcel that goes no further than the close of enrollment. -/
def ShutOut (sender : Byte) (b : ParcelBody) (s : State) : Prop :=
  (s.job.st = .orphaned ∧ s.isSource sender = true) ∨ s.imageSize ≤ b.seg.toNat

theorem sinkParcel_eq (number : s.job.number = some job) (working : s.job.st.working = true) :
    sinkParcel sender job b endFirst s =
      if ((closeEnrollment s).job.st = .orphaned ∧ (closeEnrollment s).isSource sender = true) ∨
          (closeEnrollment s).imageSize ≤ b.seg.toNat then closeEnrollment s
      else if (closeEnrollment s).raisesNew b = true then
        if endFirst = true then judgeParcel sender b (segmentTimeEnd
          (updWin (fun w => { w with highestNew := some b.seg.toNat }) (closeEnrollment s)))
        else segmentTimeEnd (judgeParcel sender b
          (updWin (fun w => { w with highestNew := some b.seg.toNat }) (closeEnrollment s)))
      else judgeParcel sender b (closeEnrollment s) := by
  refine (if_pos ⟨beq_iff_eq.2 number, working⟩).trans ?_
  dsimp only

theorem shutOut_close : (((closeEnrollment s).job.st = .orphaned ∧ (closeEnrollment s).isSource sender = true) ∨
    (closeEnrollment s).imageSize ≤ b.seg.toNat) ↔ ShutOut sender b s := by
  obtain ⟨body, st⟩ := closeEnrollment_job_kept s
  have source : (closeEnrollment s).isSource sender = s.isSource sender := by
    unfold State.isSource
    rw [body]
  have size : (closeEnrollment s).imageSize = s.imageSize := by
    unfold State.imageSize
    rw [body]
  rw [source, size, st]
  exact Iff.rfl

theorem raisesNew_close : (closeEnrollment s).raisesNew b = true ↔
    b.isRepair = false ∧ b.isRecall = false ∧ ∀ h, s.win.highestNew = some h → h < b.seg.toNat := by
  obtain ⟨-, -, -, -, -, -, highest, -⟩ := closeEnrollment_frame s
  rw [raisesNew_iff, highest]

theorem sinkParcel_shut (number : s.job.number = some job) (working : s.job.st.working = true) (shut : ShutOut sender b s) :
    sinkParcel sender job b endFirst s = closeEnrollment s := by
  rw [sinkParcel_eq number working, if_pos (shutOut_close.2 shut)]

theorem sinkParcel_old (number : s.job.number = some job) (working : s.job.st.working = true)
    (shut : ¬ ShutOut sender b s)
    (old : ¬ (b.isRepair = false ∧ b.isRecall = false ∧ ∀ h, s.win.highestNew = some h → h < b.seg.toNat)) :
    sinkParcel sender job b endFirst s = judgeParcel sender b (closeEnrollment s) := by
  rw [sinkParcel_eq number working, if_neg (mt shutOut_close.1 shut), if_neg (mt raisesNew_close.1 old)]

theorem sinkParcel_new (number : s.job.number = some job) (working : s.job.st.working = true)
    (shut : ¬ ShutOut sender b s)
    (new : b.isRepair = false ∧ b.isRecall = false ∧ ∀ h, s.win.highestNew = some h → h < b.seg.toNat) :
    sinkParcel sender job b endFirst s = if endFirst = true then judgeParcel sender b (segmentTimeEnd
        (updWin (fun w => { w with highestNew := some b.seg.toNat }) (closeEnrollment s)))
      else segmentTimeEnd (judgeParcel sender b
        (updWin (fun w => { w with highestNew := some b.seg.toNat }) (closeEnrollment s))) := by
  rw [sinkParcel_eq number working, if_neg (mt shutOut_close.1 shut), if_pos (raisesNew_close.2 new)]

theorem exec_parcelArrivalWindow_sink (up : s.ident.memTest = false) (sink : s.job.source = false) :
    exec (.parcelArrivalWindow sender job b endFirst) s = .next (takeHandoff .segmentWindow sender job (.parcel b)
      (settle s.settled (sinkParcel sender job b endFirst s))) := by
  rw [exec_parcelArrivalWindow up, if_neg (by rw [sink]; decide)]

end Sink

/-! ### A parcel handled (R74, R75, R88) -/

section Handled

variable {sender : Byte} {b : ParcelBody} {s : State}

/-- The station once the source's base, if the parcel is the source's, has been adopted (R66). -/
def heedBase (sender : Byte) (b : ParcelBody) (s : State) : State :=
  if s.isSource sender = true then adoptBase b.base.toNat s else s

theorem judgeParcel_recall (flag : b.isRecall = true) :
    judgeParcel sender b s = placeRecall b.seg.toNat b (heedBase sender b s) := if_pos flag

theorem judgeParcel_outside (flag : b.isRecall = false) (outside : b.seg.toNat < (heedBase sender b s).win.base ∨
    (heedBase sender b s).win.base + 16 ≤ b.seg.toNat) : judgeParcel sender b s = heedBase sender b s :=
  (if_neg (by rw [flag]; decide)).trans (if_pos outside)

theorem judgeParcel_inside (flag : b.isRecall = false) (above : (heedBase sender b s).win.base ≤ b.seg.toNat)
    (below : b.seg.toNat < (heedBase sender b s).win.base + 16) : judgeParcel sender b s =
      if b.isRepair then (takeParcel b.seg.toNat b (heedBase sender b s)).2
      else gapReports b.seg.toNat b.parcel (takeParcel b.seg.toNat b (heedBase sender b s)).1
        (takeParcel b.seg.toNat b (heedBase sender b s)).2 := by
  have inside : ¬ (b.seg.toNat < (heedBase sender b s).win.base ∨
    (heedBase sender b s).win.base + Config.windowSlots ≤ b.seg.toNat) :=
    fun h => h.elim (Nat.not_lt.2 above) (Nat.not_le.2 below)
  exact (if_neg (by rw [flag]; decide)).trans (if_neg inside)

theorem takeParcel_placed {g : Nat} (placed : (placeParcel g b s).1 = .placed) : takeParcel g b s =
    (.placed, completeSlot g (parcelPlaced g b.parcel (placeParcel g b s).2)) := by
  unfold takeParcel
  generalize placeParcel g b s = out at placed
  obtain ⟨out, t⟩ := out
  cases placed
  rfl

theorem takeParcel_other {g : Nat} (other : (placeParcel g b s).1 ≠ .placed) : takeParcel g b s = placeParcel g b s := by
  unfold takeParcel
  generalize placeParcel g b s = out at other
  obtain ⟨out, t⟩ := out
  cases out
  case placed => exact absurd rfl other
  all_goals rfl

end Handled

/-! ### The parcels reported missing (R88) -/

theorem hasParcel_or_bit (m : Byte) (p q : Fin 8) : hasParcel (m ||| parcelBit p) q = (hasParcel m q || decide (q = p)) := by
  have bit : hasParcel (parcelBit p) q = decide (q = p) := by
    rw [Bool.eq_iff_iff, hasParcel_parcelBit, decide_eq_true_eq]
  rw [← bit]
  exact BitVec.getLsbD_or

theorem hasParcel_fold (t : Fin 8 → Bool) (q : Fin 8) (l : List (Fin 8)) (m : Byte) :
    hasParcel (l.foldl (fun m p => if t p then m ||| parcelBit p else m) m) q = (hasParcel m q || (l.contains q && t q)) := by
  induction l generalizing m with
  | nil => simp
  | cons p l ih =>
    rw [List.foldl_cons, ih]
    by_cases same : q = p
    · subst same
      cases h : t q <;> simp [hasParcel_or_bit]
    · cases h : t p <;> simp [hasParcel_or_bit, same]

theorem hasParcel_maskOf (t : Fin 8 → Bool) (q : Fin 8) : hasParcel (maskOf t) q = t q := by
  have mem : allParcels.contains q = true := by
    revert q
    decide
  rw [maskOf, hasParcel_fold, mem]
  simp [hasParcel]

theorem missingBefore_iff (g : Nat) (p q : Fin 8) (out : Placing) (s : State) :
    hasParcel (s.missingBefore g p out) q = true ↔
      if out = .discarded then q ≤ p
      else ((s.slot (.win (winOf g))).st = .filling ∨ (s.slot (.win (winOf g))).st = .damaged) ∧
        (s.slot (.win (winOf g))).seg = some g ∧ q < p ∧ hasParcel (s.slot (.win (winOf g))).mask q = false := by
  have test : ((s.slot (.win (winOf g))).holdsIn g .filling || (s.slot (.win (winOf g))).holdsIn g .damaged) = true ↔
      ((s.slot (.win (winOf g))).st = .filling ∨ (s.slot (.win (winOf g))).st = .damaged) ∧
        (s.slot (.win (winOf g))).seg = some g := by
    rw [Bool.or_eq_true, holdsIn_iff, holdsIn_iff]
    tauto
  unfold State.missingBefore
  dsimp only
  split_ifs with discarded waits
  · rw [hasParcel_maskOf, decide_eq_true_eq]
  · obtain ⟨st, seg⟩ := test.1 waits
    rw [hasParcel_maskOf, Bool.and_eq_true, decide_eq_true_eq, Bool.not_eq_true']
    exact ⟨fun ⟨lt, new⟩ => ⟨st, seg, lt, new⟩, fun ⟨_, _, lt, new⟩ => ⟨lt, new⟩⟩
  · refine iff_of_false (by simp [hasParcel]) fun h => waits (test.2 ⟨h.1, h.2.1⟩)

theorem missingOf_eq (g : Nat) (s : State) : s.missingOf g =
    if (s.slot (.win (winOf g))).seg ≠ some g then 0xFF
    else if (s.slot (.win (winOf g))).st = .filling ∨ (s.slot (.win (winOf g))).st = .damaged then
      ~~~ (s.slot (.win (winOf g))).mask else 0 := by
  unfold State.missingOf
  dsimp only
  by_cases seg : (s.slot (.win (winOf g))).seg = some g
  · rw [if_pos (holds_iff.2 seg), if_neg (not_not_intro seg)]
    cases st : (s.slot (.win (winOf g))).st <;> simp
  · rw [if_neg (mt holds_iff.1 seg), if_pos seg]
    rfl

theorem gapReports_eq (g : Nat) (p : Fin 8) (out : Placing) (s : State) : gapReports g p out s =
    (List.range' s.win.base (g - s.win.base)).foldl (fun u x => gapReport x (u.missingOf x) u)
      (gapReport g (s.missingBefore g p out) s) := by
  have base : (gapReport g (s.missingBefore g p out) s).win.base = s.win.base := by rw [(gapReport_frame g _ s).1.win]
  unfold gapReports
  dsimp only
  rw [base]
  rfl

/-- Settles O30: the parcel at the window by whether it is shut out and whether it raises the highest new index. -/
theorem parcelsAtASink : Obligations.ParcelsAtASink := by
  unfold Obligations.ParcelsAtASink
  refine ⟨fun sender job b endFirst s up sink number working => ?_, fun s => ?_,
    fun sender b s => ⟨judgeParcel_recall, judgeParcel_outside, judgeParcel_inside⟩,
    fun g b p out s => ⟨takeParcel_placed, takeParcel_other, gapReports_eq g p out s,
      fun q => missingBefore_iff g p q out s, missingOf_eq g s⟩⟩
  · have step := exec_parcelArrivalWindow_sink (sender := sender) (job := job) (b := b) (endFirst := endFirst) up sink
    intro seg c raised handled shut raises
    refine ⟨fun h => ?_, fun h old => ?_, fun h new first => ?_, fun h new last => ?_⟩
    · exact step.trans (by rw [sinkParcel_shut number working h])
    · exact step.trans (by rw [sinkParcel_old number working h old])
    · exact step.trans (by rw [sinkParcel_new number working h new, if_pos first]; rfl)
    · exact step.trans (by rw [sinkParcel_new number working h new, if_neg (by rw [last]; decide)]; rfl)
  · obtain ⟨port, repair, rv, base, -, -, highest, -⟩ := closeEnrollment_frame s
    exact ⟨closeEnrollment_closed, closeEnrollment_enrolling_job, closeEnrollment_orphaned_job, port, repair, rv,
      closeEnrollment_pacing s, base, highest, fun k => ⟨closeEnrollment_socket_other,
        fun opened => (closeEnrollment_socket_open opened k).idle, fun opened => (closeEnrollment_socket_open opened k).writing⟩⟩

end Sys2Proof.Machine
end

section
/-! SUPPORT. A first parcel at a free slot of a sink, and the parcels that the window ignores (spec/05_segment_window.md, R62,
R72 to R75). -/
namespace Sys2Proof.Machine
open Sys2Proof.Safety

/-! ### Reports to the repair unit leave the window and the job -/

theorem parcelPlaced_frame (g : Nat) (p : Fin 8) (s : State) :
    (parcelPlaced g p s).win = s.win ∧ (parcelPlaced g p s).job = s.job := by
  cases entry : s.need g with
  | none =>
    rw [parcelPlaced_absent p entry]
    exact ⟨rfl, rfl⟩
  | some e =>
    by_cases last : e.missing &&& ~~~ parcelBit p = 0
    · rw [parcelPlaced_last entry last]
      exact ⟨(dropNeed_frame g s).win, (dropNeed_frame g s).job⟩
    · rw [parcelPlaced_more entry last]
      exact ⟨rfl, rfl⟩

theorem gapReports_frame (g : Nat) (p : Fin 8) (out : Placing) (s : State) :
    (gapReports g p out s).win = s.win ∧ (gapReports g p out s).job = s.job := by
  refine forEach_inv (P := fun t => t.win = s.win ∧ t.job = s.job) _ _ (fun x t ⟨win, job⟩ => ?_) _ ?_
  · have frame := (gapReport_frame x (t.missingOf x) t).1
    exact ⟨frame.win.trans win, frame.job.trans job⟩
  · have frame := (gapReport_frame g (s.missingBefore g p out) s).1
    exact ⟨frame.win, frame.job⟩

/-! ### A first parcel (R75) -/

theorem parcelBit_ne_full (p : Fin 8) : parcelBit p ≠ 0xFF := by
  revert p
  decide

section First

variable {sender : Byte} {b : ParcelBody} {s : State}

theorem heedBase_same (h : s.isSource sender = false ∨ b.base.toNat ≤ s.win.base) : heedBase sender b s = s := by
  unfold heedBase
  split_ifs with source
  · refine adoptBase_same (.inr (.inl (h.resolve_left ?_)))
    rw [source]
    decide
  · rfl

/-- A parcel that opens a free slot of the window. -/
theorem takeParcel_first {g : Nat} (open' : s.recallHolding g = none) (usable : (s.slot (.win (winOf g))).usable = true) :
    (takeParcel g b s).2.win = (updSlot (.win (winOf g)) (Slot.take g b Config.gapSpan) s).win ∧
      (takeParcel g b s).2.job = s.job := by
  have placed := placeParcel_free (b := b) open' (usable_iff.1 usable).1
  rw [if_pos usable] at placed
  obtain ⟨win, job⟩ := parcelPlaced_frame g b.parcel (updSlot (.win (winOf g)) (Slot.take g b Config.gapSpan) s)
  have short : completeSlot g (parcelPlaced g b.parcel (updSlot (.win (winOf g)) (Slot.take g b Config.gapSpan) s)) =
      parcelPlaced g b.parcel (updSlot (.win (winOf g)) (Slot.take g b Config.gapSpan) s) := by
    refine completeSlot_short ?_
    rw [slot_of_win win, updSlot_same]
    exact parcelBit_ne_full b.parcel
  rw [takeParcel_placed (by rw [placed]), placed]
  dsimp only
  rw [short]
  exact ⟨win, job.trans (updSlot_job ..)⟩

theorem judgeParcel_first (flag : b.isRecall = false) (above : s.win.base ≤ b.seg.toNat) (below : b.seg.toNat < s.win.base + 16)
    (unheeded : s.isSource sender = false ∨ b.base.toNat ≤ s.win.base)
    (usable : (s.slot (.win (winOf b.seg.toNat))).usable = true) (open' : s.recallHolding b.seg.toNat = none) :
    (judgeParcel sender b s).win =
        (updSlot (.win (winOf b.seg.toNat)) (Slot.take b.seg.toNat b Config.gapSpan) s).win ∧
      (judgeParcel sender b s).job = s.job := by
  have same := heedBase_same unheeded
  obtain ⟨win, job⟩ := takeParcel_first (b := b) open' usable
  rw [judgeParcel_inside flag (by rw [same]; exact above) (by rw [same]; exact below), same]
  split_ifs
  · exact ⟨win, job⟩
  · obtain ⟨win', job'⟩ := gapReports_frame b.seg.toNat b.parcel (takeParcel b.seg.toNat b s).1 (takeParcel b.seg.toNat b s).2
    exact ⟨win'.trans win, job'.trans job⟩

end First

/-- A window and a job record before a parcel that is the first of its slot: those of `s`, but for the highest new index. -/
structure Beforehand (s v : State) : Prop where
  slot : ∀ id, v.slot id = s.slot id
  base : v.win.base = s.win.base
  job : v.job = s.job
  roster : v.roster = s.roster

/-- After that parcel. -/
structure FirstPlaced (b : ParcelBody) (s u : State) : Prop where
  slot : u.slot (.win (winOf b.seg.toNat)) = Slot.take b.seg.toNat b Config.gapSpan (s.slot (.win (winOf b.seg.toNat)))
  others : ∀ j, j ≠ .win (winOf b.seg.toNat) → u.slot j = s.slot j
  base : u.win.base = s.win.base
  job : u.job = s.job
  roster : u.roster = s.roster

theorem Beforehand.raised {s : State} (n : Nat) : Beforehand s (updWin (fun w => { w with highestNew := some n }) s) :=
  ⟨fun id => updWin_slot rfl rfl id, rfl, rfl, rfl⟩

theorem Beforehand.timed {s v : State} (h : Beforehand s v) : Beforehand s (segmentTimeEnd v) := by
  obtain ⟨-, win, apart⟩ := segmentTimeEnd_frame v
  exact ⟨fun id => (slot_of_win win id).trans (h.slot id), apart.base.trans h.base, apart.job.trans h.job,
    apart.roster.trans h.roster⟩

theorem FirstPlaced.timed {b : ParcelBody} {s u : State} (h : FirstPlaced b s u) : FirstPlaced b s (segmentTimeEnd u) := by
  obtain ⟨-, win, apart⟩ := segmentTimeEnd_frame u
  exact ⟨(slot_of_win win _).trans h.slot, fun j other => (slot_of_win win j).trans (h.others j other),
    apart.base.trans h.base, apart.job.trans h.job, apart.roster.trans h.roster⟩

section FirstParcel

variable {sender : Byte} {job : Word16} {b : ParcelBody} {endFirst : Bool} {s : State}

theorem judgeParcel_placed {v : State} (before : Beforehand s v) (flag : b.isRecall = false)
    (above : s.win.base ≤ b.seg.toNat) (below : b.seg.toNat < s.win.base + 16)
    (unheeded : s.isSource sender = false ∨ b.base.toNat ≤ s.win.base)
    (usable : (s.slot (.win (winOf b.seg.toNat))).usable = true) (open' : s.recallHolding b.seg.toNat = none) :
    FirstPlaced b s (judgeParcel sender b v) ∧ (judgeParcel sender b v).win.highestNew = v.win.highestNew := by
  have source : v.isSource sender = s.isSource sender := by
    unfold State.isSource
    rw [before.job]
  have unheld : v.recallHolding b.seg.toNat = none := by
    rw [recallHolding_eq_none_iff] at open' ⊢
    exact fun r => by rw [before.slot]; exact open' r
  obtain ⟨win, job⟩ := judgeParcel_first (sender := sender) (b := b) (s := v) flag (by rw [before.base]; exact above)
    (by rw [before.base]; exact below) (by rw [source, before.base]; exact unheeded) (by rw [before.slot]; exact usable) unheld
  have roster : (judgeParcel sender b v).roster = v.roster := congrArg Outer.roster (judgeParcel_stores sender b v).outer
  refine ⟨⟨?_, fun j other => ?_, ?_, job.trans before.job, roster.trans before.roster⟩, ?_⟩
  · rw [slot_of_win win, updSlot_same, before.slot]
  · rw [slot_of_win win, updSlot_other other, before.slot]
  · rw [win, updSlot_base, before.base]
  · rw [win, updSlot_highestNew]

/-- The parcel at a sink in COPYING or CLOSING, whatever it does to the highest new index. -/
theorem sinkParcel_first (number : s.job.number = some job) (st : s.job.st = .copying ∨ s.job.st = .closing)
    (inImage : b.seg.toNat < s.imageSize) (flag : b.isRecall = false) (above : s.win.base ≤ b.seg.toNat)
    (below : b.seg.toNat < s.win.base + 16) (unheeded : s.isSource sender = false ∨ b.base.toNat ≤ s.win.base)
    (usable : (s.slot (.win (winOf b.seg.toNat))).usable = true) (open' : s.recallHolding b.seg.toNat = none) :
    FirstPlaced b s (sinkParcel sender job b endFirst s) ∧
      (b.isRepair = true → (sinkParcel sender job b endFirst s).win.highestNew = s.win.highestNew) := by
  have working : s.job.st.working = true := by obtain st | st := st <;> rw [st] <;> rfl
  have closed : closeEnrollment s = s := closeEnrollment_closed (by obtain st | st := st <;> simp [st])
  have shut : ¬ ShutOut sender b s := by
    rintro (⟨orphaned, -⟩ | beyond)
    · rw [orphaned] at st
      simp at st
    · omega
  by_cases new : b.isRepair = false ∧ b.isRecall = false ∧ ∀ h, s.win.highestNew = some h → h < b.seg.toNat
  · rw [sinkParcel_new number working shut new, closed]
    refine ⟨?_, fun repair => by rw [new.1] at repair; cases repair⟩
    split_ifs
    · exact (judgeParcel_placed (Beforehand.raised b.seg.toNat).timed flag above below unheeded usable open').1
    · exact (judgeParcel_placed (Beforehand.raised b.seg.toNat) flag above below unheeded usable open').1.timed
  · rw [sinkParcel_old number working shut new, closed]
    obtain ⟨placed, highest⟩ := judgeParcel_placed (sender := sender) (b := b) (v := s)
      ⟨fun _ => rfl, rfl, rfl, rfl⟩ flag above below unheeded usable open'
    exact ⟨placed, fun _ => highest⟩

theorem payloadData_exact {data : List Byte} (length : data.length = 4096) : payloadData data = data := by
  have full : Config.parcelBytes = 4096 := rfl
  rw [payloadData, exactBytes, full, List.take_of_length_le length.le, length, Nat.sub_self, List.replicate_zero,
    List.append_nil]

theorem sourceParcel_ignored (h : ¬ ((s.slot (.win (winOf b.seg.toNat))).st = .damaged ∧
    (s.slot (.win (winOf b.seg.toNat))).seg = some b.seg.toNat ∧ (s.slot (.win (winOf b.seg.toNat))).inFlight = 0)) :
    sourceParcel job b s = s := by
  refine if_neg ?_
  rintro ⟨-, -, -, -, -, holds, idle⟩
  obtain ⟨seg, st⟩ := holdsIn_iff.1 holds
  exact h ⟨st, seg, idle⟩

end FirstParcel

/-- Settles O29: a first parcel placed, whose bytes no judgement of the step changes; and the parcels that are ignored. -/
theorem parcelsAtTheWindow : Obligations.ParcelsAtTheWindow := by
  unfold Obligations.ParcelsAtTheWindow
  refine ⟨fun sender job b endFirst s up sink number st inImage flag above below unheeded usable open' length => ?_,
    fun sender job b endFirst s up => ⟨fun sink other => ?_, fun sink orphaned former source => ?_,
      fun sink st beyond => ?_, fun source other => ?_⟩⟩
  · obtain ⟨placed, highest⟩ := sinkParcel_first (endFirst := endFirst) number st inImage flag above below unheeded usable open'
    have step := exec_parcelArrivalWindow_sink (sender := sender) (job := job) (b := b) (endFirst := endFirst) up sink
    generalize sinkParcel sender job b endFirst s = u at placed highest step
    refine ⟨u, _, step, rfl, ?_⟩
    have buffer (j : SlotId) : ((takeHandoff .segmentWindow sender job (.parcel b) (settle s.settled u)).slot j).buf =
        (u.slot j).buf := (settle_does s.settled u).memory.1 j
    refine ⟨by rw [placed.slot]; rfl, by rw [placed.slot]; rfl, by rw [placed.slot]; rfl, by rw [placed.slot]; rfl,
      by rw [placed.slot]; rfl, placed.others, placed.base, placed.job, placed.roster, highest, fun a => ?_, fun j a other => ?_⟩
    · rw [buffer, placed.slot, Slot.take, payloadData_exact length]
      refine (Memory.read_store ..).trans ?_
      rw [length]
      rfl
    · rw [buffer, placed.others j other]
  · rw [exec_parcelArrivalWindow_sink up sink, sinkParcel_other other]
  · have shut : sinkParcel sender job b endFirst s = s := by
      by_cases number : s.job.number = some job
      · rw [sinkParcel_shut number (by rw [orphaned]; rfl) (.inl ⟨orphaned, source⟩),
          closeEnrollment_closed (by rw [orphaned]; simpa using former)]
      · exact sinkParcel_other (.inl number)
    rw [exec_parcelArrivalWindow_sink up sink, shut]
  · have shut : sinkParcel sender job b endFirst s = s := by
      by_cases number : s.job.number = some job
      · rw [sinkParcel_shut number (by obtain st | st := st <;> rw [st] <;> rfl) (.inr beyond),
          closeEnrollment_closed (by obtain st | st := st <;> simp [st])]
      · exact sinkParcel_other (.inl number)
    rw [exec_parcelArrivalWindow_sink up sink, shut]
  · rw [exec_parcelArrivalWindow up, if_pos source, sourceParcel_ignored other]

end Sys2Proof.Machine
end

section
/-! SUPPORT. The segments that a rise of the base passes: their slots, the descriptors that name them, and what the sockets come
to owe (spec/05_segment_window.md, R67). -/
namespace Sys2Proof.Machine
open Sys2Proof.Safety

/-! ### One slot passed -/

section PassSlot

variable {b g : Nat} {i : Fin 16} {s : State}

theorem passSlot_above (seg : (s.slot (.win i)).seg = some g) (above : b ≤ g) : passSlot b i s = s := by
  simp only [passSlot, seg, if_neg (Nat.not_lt.2 above)]

theorem passSlot_whole (seg : (s.slot (.win i)).seg = some g) (below : g < b) (st : (s.slot (.win i)).st = .whole) :
    passSlot b i s = updSlot (.win i) (fun sl => if sl.unclaimed then sl.freed else { sl with st := .retired }) s := by
  simp only [passSlot, seg, if_pos below, st]

theorem passSlot_filling (seg : (s.slot (.win i)).seg = some g) (below : g < b) (st : (s.slot (.win i)).st = .filling) :
    passSlot b i s = updSlot (.win i) Slot.freed s := by
  simp only [passSlot, seg, if_pos below, st]

theorem passSlot_damaged (seg : (s.slot (.win i)).seg = some g) (below : g < b) (st : (s.slot (.win i)).st = .damaged) :
    passSlot b i s = takeBack (.win i) s := by
  simp only [passSlot, seg, if_pos below, st]

/-- A slot that is neither WHOLE, FILLING nor DAMAGED is left. -/
theorem passSlot_left (b : Nat) (whole : (s.slot (.win i)).st ≠ .whole) (filling : (s.slot (.win i)).st ≠ .filling)
    (damaged : (s.slot (.win i)).st ≠ .damaged) : passSlot b i s = s := by
  unfold passSlot
  extract_lets sl
  repeat' split
  · exact absurd ‹_› whole
  · exact absurd ‹_› filling
  · exact absurd ‹_› damaged
  all_goals rfl

theorem unclaimed_iff {sl : Slot} : sl.unclaimed = true ↔ sl.pending = 0 ∧ sl.inFlight = 0 := by
  simp [Slot.unclaimed]

/-- A DAMAGED slot of a segment below `b`: the base takes it back. -/
def Slot.passedDamaged (b : Nat) (sl : Slot) : Bool := sl.st == .damaged && sl.seg.any (fun g => decide (g < b))

theorem passedDamaged_iff {sl : Slot} : sl.passedDamaged b = true ↔ sl.st = .damaged ∧ ∃ g, sl.seg = some g ∧ g < b := by
  simp [Slot.passedDamaged, Option.any_eq_true]

theorem passSlot_takesBack (h : (s.slot (.win i)).passedDamaged b = true) : passSlot b i s = takeBack (.win i) s := by
  obtain ⟨st, g, seg, below⟩ := passedDamaged_iff.1 h
  exact passSlot_damaged seg below st

/-- Any other slot changes alone. -/
theorem passSlot_alone (h : (s.slot (.win i)).passedDamaged b = false) :
    (passSlot b i s).sockets = s.sockets ∧ ∀ id, id ≠ .win i → (passSlot b i s).slot id = s.slot id := by
  have changed (f : Slot → Slot) : (updSlot (.win i) f s).sockets = s.sockets ∧
      ∀ id, id ≠ .win i → (updSlot (.win i) f s).slot id = s.slot id :=
    ⟨updSlot_sockets .., fun id other => updSlot_other other ..⟩
  unfold passSlot
  extract_lets sl
  split
  next g seg =>
    split_ifs with below
    · split
      next => exact changed _
      next => exact changed _
      next st => exact absurd (passedDamaged_iff.2 ⟨st, g, seg, below⟩) (Bool.eq_false_iff.1 h)
      all_goals exact ⟨rfl, fun _ _ => rfl⟩
    · exact ⟨rfl, fun _ _ => rfl⟩
  next => exact ⟨rfl, fun _ _ => rfl⟩

/-- The passing of one slot leaves the claims of the others to shrink. -/
theorem passSlot_claims {id : SlotId} (strict : Bool) (b : Nat) (other : id ≠ .win i) (s : State) :
    ClaimsAt id strict s (passSlot b i s) := by
  cases h : (s.slot (.win i)).passedDamaged b with
  | true =>
    rw [passSlot_takesBack h]
    exact takeBack_claims id strict other s
  | false =>
    exact .same ((passSlot_alone h).2 id other)

/-- What the passing of its segment makes of a slot (R67). -/
theorem passSlot_slot (seg : (s.slot (.win i)).seg = some g) :
    let sl := s.slot (.win i)
    let after := (passSlot b i s).slot (.win i)
    (b ≤ g → passSlot b i s = s) ∧
      (g < b → sl.st = .whole → sl.pending = 0 → sl.inFlight = 0 → after.st = .free ∧ after.seg = none) ∧
      (g < b → sl.st = .whole → ¬ (sl.pending = 0 ∧ sl.inFlight = 0) → after = { sl with st := .retired }) ∧
      (g < b → sl.st = .filling → after = { sl with st := .free, seg := none, mask := 0, timer := none }) ∧
      (g < b → sl.st = .damaged → after.st = .free ∧ after.seg = none ∧ after.mask = 0 ∧ after.timer = none) ∧
      (sl.st = .retired ∨ sl.st = .reading → passSlot b i s = s) := by
  refine ⟨passSlot_above seg, fun below st pending inFlight => ?_, fun below st claimed => ?_, fun below st => ?_,
    fun below st => ?_, fun st => ?_⟩
  · rw [passSlot_whole seg below st, updSlot_same, if_pos (unclaimed_iff.2 ⟨pending, inFlight⟩)]
    exact ⟨rfl, rfl⟩
  · rw [passSlot_whole seg below st, updSlot_same, if_neg (mt unclaimed_iff.1 claimed)]
  · rw [passSlot_filling seg below st, updSlot_same]
    rfl
  · rw [passSlot_damaged seg below st, takeBack_slot]
    exact ⟨rfl, rfl, rfl, rfl⟩
  · obtain st | st := st
    all_goals exact passSlot_left b (by rw [st]; decide) (by rw [st]; decide) (by rw [st]; decide)

end PassSlot

/-! ### The slots of the window -/

theorem passSlots_claims {id : SlotId} (strict : Bool) (b : Nat) (l : List (Fin 16))
    (other : ∀ i ∈ l, id ≠ .win i) (s : State) :
    ClaimsAt id strict s (forEach l (passSlot b) s) := by
  induction l generalizing s with
  | nil => exact .refl ..
  | cons i l ih =>
    exact (passSlot_claims strict b (other i List.mem_cons_self) s).trans
      (ih (fun j hj => other j (List.mem_cons_of_mem _ hj)) _)

theorem forEach_cons {α : Type} (a : α) (l : List α) (f : α → State → State) (s : State) :
    forEach (a :: l) f s = forEach l f (f a s) := rfl

theorem forEach_append {α : Type} (l m : List α) (f : α → State → State) (s : State) :
    forEach (l ++ m) f s = forEach m f (forEach l f s) := List.foldl_append

/-- The slots below the base `b`, once the base has risen and the repair unit knows. -/
def passSlots (b : Nat) (s : State) : State :=
  forEach allWinSlots (passSlot b) (passRepair b (updWin (fun w => { w with base := b }) s))

theorem passBase_eq (b : Nat) (s : State) : passBase b s =
    forEach (List.range' s.win.base (b - s.win.base)) (fun g => oweLacking g .windowMissed) (passSlots b s) := rfl

theorem allWinSlots_nodup : allWinSlots.Nodup := by decide

theorem mem_allWinSlots (i : Fin 16) : i ∈ allWinSlots := by
  revert i
  decide

/-- One slot of the window while the base rises: claims go, its own passing, and claims go. -/
theorem passBase_slot (b : Nat) (s : State) (i : Fin 16) :
    ∃ t : State, ClaimsAt (.win i) true s t ∧ ClaimsAt (.win i) true (passSlot b i t) (passBase b s) := by
  obtain ⟨l, m, split'⟩ := List.mem_iff_append.1 (mem_allWinSlots i)
  have nodup := allWinSlots_nodup
  rw [split', List.nodup_middle, List.nodup_cons, List.mem_append, not_or] at nodup
  obtain ⟨⟨before, after⟩, -⟩ := nodup
  have other {l : List (Fin 16)} (h : i ∉ l) : ∀ j ∈ l, SlotId.win i ≠ .win j := fun j hj eq => by
    cases eq
    exact h hj
  refine ⟨_, .trans (.same ?_)
    (passSlots_claims true b l (other before) (passRepair b (updWin (fun w => { w with base := b }) s))), ?_⟩
  · rfl
  · rw [passBase_eq, passSlots, split', forEach_append]
    exact .trans (passSlots_claims true b m (other after) _) (.each _ _ (fun g t => oweLacking_claims _ _ g _ t) _)

/-- What a rise of the base makes of a slot. -/
theorem passBase_kept {b g : Nat} {s : State} {i : Fin 16} (seg : (s.slot (.win i)).seg = some g) :
    let before := s.slot (.win i)
    let after := (passBase b s).slot (.win i)
    (b ≤ g → before.st ≠ .retired → after.st = before.st ∧ after.seg = before.seg ∧ after.mask = before.mask) ∧
      (g < b → before.st = .filling ∨ before.st = .damaged →
        after.st = .free ∧ after.seg = none ∧ after.mask = 0 ∧ after.timer = none) ∧
      (g < b → before.st = .whole → before.pending = 0 → before.inFlight = 0 → after.st = .free ∧ after.seg = none) ∧
      (g < b → before.st = .whole → (after.st = .free ∧ after.seg = none) ∨
        (after.st = .retired ∧ after.seg = some g ∧ ¬ (after.pending = 0 ∧ after.inFlight = 0))) := by
  obtain ⟨t, first, last⟩ := passBase_slot b s i
  intro before after
  have kept : before.st ≠ .retired → t.slot (.win i) = { before with
      pending := (t.slot (.win i)).pending, inFlight := (t.slot (.win i)).inFlight } ∧
      before.Shrinks (t.slot (.win i)) := fun st => by
    obtain ⟨eq, fewer⟩ | ⟨frees, -⟩ := first
    · exact ⟨eq, fewer rfl⟩
    · exact absurd frees (by simpa [Slot.Frees, SlotId.isRecall] using st)
  have left (h : ((passSlot b i t).slot (.win i)).st ≠ .retired) : after = { (passSlot b i t).slot (.win i) with
      pending := after.pending, inFlight := after.inFlight } :=
    last.counts (by simpa [Slot.Frees, SlotId.isRecall] using h)
  have free (h : ((passSlot b i t).slot (.win i)).st = .free) (none' : ((passSlot b i t).slot (.win i)).seg = none) :
      after.st = .free ∧ after.seg = none := by
    rw [left (by simp [h])]
    exact ⟨h, none'⟩
  have now (st : before.st ≠ .retired) : (t.slot (.win i)).st = before.st ∧ (t.slot (.win i)).seg = some g := by
    rw [(kept st).1]
    exact ⟨rfl, seg⟩
  refine ⟨fun above st => ?_, fun below st => ?_, fun below st pending inFlight => ?_, fun below st => ?_⟩
  · obtain ⟨state, holds⟩ := now st
    have same := passSlot_above holds above
    rw [same] at left
    rw [left (by rwa [state]), (kept st).1]
    exact ⟨rfl, rfl, rfl⟩
  · have st' : before.st ≠ .retired := by
      obtain st | st := st
      all_goals rw [st]; decide
    obtain ⟨state, holds⟩ := now st'
    have ⟨st1, seg1, mask1, timer1⟩ : let mid := (passSlot b i t).slot (.win i)
        mid.st = .free ∧ mid.seg = none ∧ mid.mask = 0 ∧ mid.timer = none := by
      obtain ⟨-, -, -, filling, damaged, -⟩ := passSlot_slot (b := b) holds
      obtain st | st := st
      · dsimp only
        rw [filling below (state.trans st)]
        exact ⟨rfl, rfl, rfl, rfl⟩
      · exact damaged below (state.trans st)
    rw [left (by rw [st1]; decide)]
    exact ⟨st1, seg1, mask1, timer1⟩
  · obtain ⟨state, holds⟩ := now (by rw [st]; decide)
    obtain ⟨-, fewer, fewer', -⟩ := kept (by rw [st]; decide)
    obtain ⟨freed, none'⟩ := (passSlot_slot (b := b) holds).2.1 below (state.trans st) (by omega) (by omega)
    exact free freed none'
  · obtain ⟨state, holds⟩ := now (by rw [st]; decide)
    obtain ⟨-, whole, claimed, -⟩ := passSlot_slot (b := b) holds
    by_cases none' : (t.slot (.win i)).pending = 0 ∧ (t.slot (.win i)).inFlight = 0
    · obtain ⟨freed, none''⟩ := whole below (state.trans st) none'.1 none'.2
      exact .inl (free freed none'')
    have mid := claimed below (state.trans st) none'
    obtain ⟨eq, fewer⟩ | ⟨-, eq⟩ := last
    · obtain ⟨-, -, held⟩ := fewer rfl
      refine .inr ⟨?_, ?_, fun zero => ?_⟩
      · rw [show after = _ from eq, mid]
      · rw [show after = _ from eq, mid]
        exact holds
      · have claims : ((passSlot b i t).slot (.win i)).unclaimed = false := by
          rw [mid, Bool.eq_false_iff]
          exact mt unclaimed_iff.1 none'
        exact Bool.eq_false_iff.1 (held (by rw [mid]) claims) (unclaimed_iff.2 zero)
    · refine .inl ?_
      rw [show after = _ from eq]
      exact ⟨rfl, rfl⟩

/-! ### The descriptors of the slots taken back -/

theorem LostBy.none {P : Descriptor → Bool} {M : OwedEntry → Prop} {sk : Socket} (none' : ∀ d ∈ sk.ring, P d = false) :
    LostBy P M sk sk := by
  refine .inr ⟨?_, fun _ h => h, fun _ d hd hP => ?_, fun _ h => .inl h⟩
  · rw [filter_none (List.filter_eq_nil_iff.2 fun d hd => Bool.eq_false_iff.1 (none' d hd))]
  · rw [none' d hd] at hP
    cases hP

/-- Losses of descriptors, one after the other. -/
theorem LostBy.trans {P Q : Descriptor → Bool} {a b c : Socket} (h : LostBy P (RevokedFrom P a) a b)
    (g : LostBy Q (RevokedFrom Q b) b c) :
    LostBy (fun d => P d || Q d) (RevokedFrom (fun d => P d || Q d) a) a c := by
  obtain ⟨writes, st, reason, ring, written⟩ | ⟨eq, old, named, new⟩ := h
  · obtain ⟨writes', -⟩ | ⟨eq', -⟩ := g
    · exact absurd st writes'
    · rw [eq']
      refine .inl ⟨writes, st, reason, ?_, written⟩
      rw [ring]
      rfl
  · have stb : b.st = a.st := by rw [eq]
    have ring : b.ring = a.ring.filter (fun d => !P d) := by rw [eq]
    have written : b.written = a.written := by rw [eq]
    obtain ⟨writes', st', reason', ring', written'⟩ | ⟨eq', old', named', new'⟩ := g
    · exact .inl ⟨stb ▸ writes', st', reason', ring', written'.trans written⟩
    refine .inr ⟨?_, fun e he => old' e (old e he), fun writes d hd hPQ => ?_, fun e he => ?_⟩
    · rw [ring, List.filter_filter] at eq'
      simp only [Bool.not_or, Bool.and_comm (!P _)]
      rw [eq', eq]
    · cases hP : P d with
      | true =>
        obtain ⟨e, he, seg⟩ := named writes d hd hP
        exact ⟨e, old' e he, seg⟩
      | false =>
        have hQ : Q d = true := (Bool.or_eq_true_iff.1 hPQ).resolve_left (Bool.eq_false_iff.1 hP)
        exact named' (stb ▸ writes) d (ring ▸ List.mem_filter.2 ⟨hd, by rw [hP]; rfl⟩) hQ
    · obtain mem | ⟨d, hd, hQ, seg, record⟩ := new' e he
      · exact (new e mem).imp_right fun ⟨d, hd, hP, rest⟩ => ⟨d, hd, Bool.or_eq_true_iff.2 (.inl hP), rest⟩
      · rw [ring] at hd
        exact .inr ⟨d, (List.mem_filter.1 hd).1, Bool.or_eq_true_iff.2 (.inr hQ), seg, record⟩

/-- A pending descriptor of a slot, out of a list of them, that the base takes back. -/
def takenBack (b : Nat) (s : State) (l : List (Fin 16)) (d : Descriptor) : Bool :=
  l.any (fun i => d.src == .win i && (s.slot (.win i)).passedDamaged b) && !d.inFlight

theorem takenBack_iff {b : Nat} {s : State} {l : List (Fin 16)} {d : Descriptor} : takenBack b s l d = true ↔
    (∃ i ∈ l, d.src = .win i ∧ (s.slot (.win i)).passedDamaged b = true) ∧ d.inFlight = false := by
  simp [takenBack, List.any_eq_true]

theorem takenBack_cons (b : Nat) (s : State) (i : Fin 16) (l : List (Fin 16)) (d : Descriptor) :
    takenBack b s (i :: l) d = (takenBack b s [i] d || takenBack b s l d) := by
  simp only [takenBack, List.any_cons, List.any_nil, Bool.or_false]
  rw [Bool.and_or_distrib_right]

/-- Slots that stay DAMAGED slots of passed segments, or stay none, take the same descriptors back. -/
theorem takenBack_congr {b : Nat} {s t : State} {l : List (Fin 16)}
    (same : ∀ i ∈ l, (t.slot (.win i)).passedDamaged b = (s.slot (.win i)).passedDamaged b) :
    takenBack b t l = takenBack b s l := by
  funext d
  unfold takenBack
  congr 1
  rw [Bool.eq_iff_iff, List.any_eq_true, List.any_eq_true]
  exact exists_congr fun i => and_congr_right fun hi => by rw [same i hi]

/-- Claims that go make no slot DAMAGED and end no DAMAGED slot. -/
theorem Slot.Claimed.passedDamaged {ofRecall strict : Bool} {sl sl' : Slot} (h : sl.Claimed ofRecall strict sl') (b : Nat) :
    sl'.passedDamaged b = sl.passedDamaged b := by
  obtain ⟨eq, -⟩ | ⟨frees, eq⟩ := h
  · rw [eq]
    rfl
  · have other : sl.st ≠ .damaged := by
      obtain st | ⟨st, -⟩ := frees
      all_goals rw [st]; decide
    rw [eq]
    exact (beq_false_of_ne other ▸ Bool.false_and _ : (sl.st == .damaged && _) = false).symm

theorem passSlot_socket (b : Nat) (i : Fin 16) (s : State) (k : Fin 8) :
    LostBy (takenBack b s [i]) (RevokedFrom (takenBack b s [i]) s.sockets[k]) s.sockets[k] (passSlot b i s).sockets[k] := by
  have test (d : Descriptor) : takenBack b s [i] d =
      (d.src == .win i && (s.slot (.win i)).passedDamaged b && !d.inFlight) := by
    simp [takenBack]
  cases h : (s.slot (.win i)).passedDamaged b with
  | true =>
    have same : takenBack b s [i] = fun d => d.src == .win i && !d.inFlight := by
      funext d
      rw [test, h, Bool.and_true]
    have sockets : (passSlot b i s).sockets = (revokeSlot (.win i) s).sockets := by
      rw [passSlot_takesBack h]
      exact updSlot_sockets ..
    rw [same, sockets]
    exact (revokeSlot_spec (.win i) s).2 k
  | false =>
    rw [(passSlot_alone h).1]
    exact .none fun d _ => by rw [test, h, Bool.and_false, Bool.false_and]

theorem passEach_socket (b : Nat) (l : List (Fin 16)) (nodup : l.Nodup) (s : State) (k : Fin 8) :
    LostBy (takenBack b s l) (RevokedFrom (takenBack b s l) s.sockets[k]) s.sockets[k]
      (forEach l (passSlot b) s).sockets[k] := by
  induction l generalizing s with
  | nil => exact .none fun d _ => rfl
  | cons i l ih =>
    obtain ⟨fresh, nodup⟩ := List.nodup_cons.1 nodup
    have rest := ih nodup (passSlot b i s)
    have same : takenBack b (passSlot b i s) l = takenBack b s l := takenBack_congr fun j hj =>
      (passSlot_claims false b (by rintro ⟨⟩; exact fresh hj) s).passedDamaged b
    rw [same] at rest
    have both : takenBack b s (i :: l) = fun d => takenBack b s [i] d || takenBack b s l d := funext (takenBack_cons b s i l)
    rw [both]
    exact (passSlot_socket b i s k).trans rest

/-- The descriptors that the passing of the slots takes from a socket. -/
theorem passSlots_socket (b : Nat) (s : State) (k : Fin 8) :
    LostBy (takenBack b s allWinSlots) (RevokedFrom (takenBack b s allWinSlots) s.sockets[k]) s.sockets[k]
      (passSlots b s).sockets[k] :=
  passEach_socket b allWinSlots allWinSlots_nodup (passRepair b (updWin (fun w => { w with base := b }) s)) k

/-! ### The segments missed -/

/-- The owed entry of a segment that the base has passed (R67). -/
def OwedEntry.missed (g : Nat) : OwedEntry := { seg := g, record := { origin := .windowMissed, attempts := 0 } }

/-- The segments of `l` that an ENROLLED or COPYING socket lacks: it owes them, or it has failed on a full owed list. -/
def Socket.Missed (l : List Nat) (sk sk' : Socket) : Prop :=
  (sk.st ≠ .failed ∧ sk'.st = .failed ∧ sk'.reason = .owedOverflow ∧ sk'.written = sk.written) ∨
    (sk' = { sk with owed := sk'.owed } ∧ (∀ e ∈ sk.owed, e ∈ sk'.owed) ∧
      (∀ g ∈ l, sk.st.enrolledOrCopying = true → sk.lacks g = true → .missed g ∈ sk'.owed) ∧
      ∀ e ∈ sk'.owed, e ∈ sk.owed ∨
        (e.seg ∈ l ∧ sk.st.enrolledOrCopying = true ∧ sk.lacks e.seg = true ∧ e = .missed e.seg))

theorem enrolledOrCopying_writes {sk : Socket} (h : sk.st.enrolledOrCopying = true) : sk.st ≠ .failed := fun failed => by
  rw [failed] at h
  exact absurd h (by decide)

theorem oweMissed_socket (l : List Nat) (nodup : l.Nodup) (s : State) (k : Fin 8) :
    Socket.Missed l s.sockets[k] (forEach l (fun g => oweLacking g .windowMissed) s).sockets[k] := by
  induction l generalizing s with
  | nil => exact .inr ⟨rfl, fun _ h => h, fun _ h => absurd h List.not_mem_nil, fun _ h => .inl h⟩
  | cons a l ih =>
    obtain ⟨fresh, nodup⟩ := List.nodup_cons.1 nodup
    have rest := ih nodup (oweLacking a .windowMissed s)
    obtain ⟨plain, owing⟩ := oweLacking_spec a .windowMissed s k
    rw [forEach_cons]
    revert rest plain owing
    generalize (forEach l (fun g => oweLacking g .windowMissed) (oweLacking a .windowMissed s)).sockets[k] = sk'
    generalize (oweLacking a .windowMissed s).sockets[k] = mid
    generalize s.sockets[k] = sk
    intro rest plain owing
    cases lacking : sk.st.enrolledOrCopying && sk.lacks a with
    | false =>
      rw [plain lacking] at rest
      obtain failed | ⟨eq, old, named, new⟩ := rest
      · exact .inl failed
      refine .inr ⟨eq, old, fun g hg enrolled lacks => ?_, fun e he => ?_⟩
      · obtain rfl | hg := List.mem_cons.1 hg
        · rw [enrolled, lacks] at lacking
          cases lacking
        · exact named g hg enrolled lacks
      · exact (new e he).imp_right fun ⟨mem, rest⟩ => ⟨List.mem_cons_of_mem _ mem, rest⟩
    | true =>
      obtain ⟨enrolled, lacks⟩ := Bool.and_eq_true .. ▸ lacking
      have writes := enrolledOrCopying_writes enrolled
      obtain ⟨short, long⟩ := owing lacking
      obtain room | full := Nat.lt_or_ge sk.owed.length Config.owedSize
      · have mem (e : OwedEntry) : e ∈ mid.owed ↔ e = .missed a ∨ e ∈ sk.owed := by
          rw [short room]
          exact (insertOwed_perm (lacks_iff.1 lacks).2.2).mem_iff.trans List.mem_cons
        have still {g : Nat} : mid.lacks g = true ↔ sk.lacks g = true ∧ g ≠ a := by
          have owed : (∀ e ∈ mid.owed, e.seg ≠ g) ↔ a ≠ g ∧ ∀ e ∈ sk.owed, e.seg ≠ g := by
            simp only [mem, forall_eq_or_imp]
            rfl
          rw [lacks_iff, lacks_iff, owed, short room]
          constructor
          · rintro ⟨written, ring, ne, owes⟩
            exact ⟨⟨written, ring, owes⟩, ne.symm⟩
          · rintro ⟨⟨written, ring, owes⟩, ne⟩
            exact ⟨written, ring, ne.symm, owes⟩
        have st : mid.st = sk.st := by rw [short room]
        have written : mid.written = sk.written := by rw [short room]
        obtain ⟨writes', failed, reason, written'⟩ | ⟨eq, old, named, new⟩ := rest
        · exact .inl ⟨writes, failed, reason, written'.trans written⟩
        rw [st] at named new
        refine .inr ⟨?_, fun e he => old e ((mem e).2 (.inr he)), fun g hg enrolled lacks => ?_, fun e he => ?_⟩
        · rw [short room] at eq
          exact eq
        · obtain rfl | later := List.mem_cons.1 hg
          · exact old _ ((mem _).2 (.inl rfl))
          · exact named g later enrolled (still.2 ⟨lacks, by rintro rfl; exact fresh later⟩)
        · obtain he | ⟨hg, enrolled', lacks', eq⟩ := new e he
          · obtain rfl | he := (mem e).1 he
            · exact .inr ⟨List.mem_cons_self, enrolled, lacks, rfl⟩
            · exact .inl he
          · exact .inr ⟨List.mem_cons_of_mem _ hg, enrolled', (still.1 lacks').1, eq⟩
      · obtain ⟨st, reason, -, -, written⟩ := long full
        refine .inl ⟨writes, ?_⟩
        obtain ⟨writes', -⟩ | ⟨eq, -⟩ := rest
        · exact absurd st writes'
        · rw [eq]
          exact ⟨st, reason, written⟩

/-- A loss of descriptors leaves the segments that a socket lacks: what leaves the ring is owed. -/
theorem LostBy.lacks_iff {P : Descriptor → Bool} {sk sk' : Socket} (h : LostBy P (RevokedFrom P sk) sk sk')
    (writes : sk'.st ≠ .failed) (g : Nat) : sk'.lacks g = true ↔ sk.lacks g = true := by
  obtain ⟨-, failed, -⟩ | ⟨eq, old, named, new⟩ := h
  · exact absurd failed writes
  have writes' : sk.st ≠ .failed := by rwa [eq] at writes
  have written : sk'.written = sk.written := by rw [eq]
  have ring : sk'.ring = sk.ring.filter (fun d => !P d) := by rw [eq]
  rw [Machine.lacks_iff, Machine.lacks_iff, written, ring]
  constructor
  · rintro ⟨unwritten, ring, owed⟩
    refine ⟨unwritten, fun d hd seg => ?_, fun e he => owed e (old e he)⟩
    cases hP : P d with
    | true =>
      obtain ⟨e, he, same⟩ := named writes' d hd hP
      exact owed e he (same.trans seg)
    | false => exact ring d (List.mem_filter.2 ⟨hd, by rw [hP]; rfl⟩) seg
  · rintro ⟨unwritten, ring, owed⟩
    refine ⟨unwritten, fun d hd => ring d (List.mem_filter.1 hd).1, fun e he seg => ?_⟩
    obtain he | ⟨d, hd, -, same, -⟩ := new e he
    · exact owed e he seg
    · exact ring d hd (same.trans seg)

/-! ### The rise (R67) -/

/-- What a rise of the base makes of a socket: the descriptors taken back, then the segments missed. -/
theorem passBase_socket (b : Nat) (s : State) (k : Fin 8) :
    ∃ mid : Socket, LostBy (takenBack b s allWinSlots) (RevokedFrom (takenBack b s allWinSlots) s.sockets[k]) s.sockets[k] mid ∧
      Socket.Missed (List.range' s.win.base (b - s.win.base)) mid (passBase b s).sockets[k] :=
  ⟨_, passSlots_socket b s k, oweMissed_socket _ List.nodup_range' (passSlots b s) k⟩

/-- The rise moves nothing outside slots and sockets but base, repair unit and the port's classes 4 and 5. -/
theorem passBase_frame (b : Nat) (s : State) :
    let t := passBase b s
    t.win.base = b ∧ t.win.next = s.win.next ∧ t.win.checkTable = s.win.checkTable ∧
      t.repair.needs = s.repair.needs.filter (fun e => decide (b ≤ e.seg)) ∧
      t.repair.exhausted = s.repair.exhausted.filter (fun g => decide (b ≤ g)) ∧
      t.repair.answers = s.repair.answers.filter (fun e => decide (b ≤ e.seg)) ∧
      t.port = { s.port with class4 := s.port.class4.filter (fun g => decide (b ≤ g))
                             class5 := s.port.class5.filter (fun g => decide (b ≤ g)) } ∧
      t.rv = s.rv ∧ t.roster = s.roster ∧ t.ident = s.ident ∧ t.job = s.job := by
  have apart := (passBase_works b s).apart
  intro t
  exact ⟨apart.base, apart.next, apart.checkTable, (congrArg Repair.needs apart.repair).trans rfl,
    (congrArg Repair.exhausted apart.repair).trans rfl, (congrArg Repair.answers apart.repair).trans rfl,
    apart.port.trans rfl, apart.rv, apart.roster, apart.ident, apart.job⟩

/-- A rise to N is reported: the job moves on, then each socket in turn. -/
theorem baseRise_reached {b : Nat} {s : State} (reached : b = s.imageSize) :
    baseRise b s = moveOn 7 (moveOn 6 (moveOn 5 (moveOn 4 (moveOn 3 (moveOn 2 (moveOn 1 (moveOn 0
      (closeJob (passBase b s))))))))) := by
  rw [baseRise, beq_iff_eq.2 reached, doIf_true]
  rfl

theorem closeJob_eq (s : State) : closeJob s = { s with
    job := if s.job.st = .copying then { s.job with st := .closing }
    else if s.job.st = .orphaned ∧ s.job.former = some .copying then { s.job with former := some .closing }
    else s.job } := by
  unfold closeJob
  split_ifs
  all_goals rfl

/-- Settles O23: the slots and the sockets as the walk over the window and the missed segments leave them. -/
theorem baseRisePassesSegments : Obligations.BaseRisePassesSegments := by
  unfold Obligations.BaseRisePassesSegments
  refine ⟨fun b i s seg holds => passSlot_slot holds, fun b s rises => ?_⟩
  intro t reached passed
  obtain ⟨base, next, checkTable, needs, exhausted, answers, port, rv, roster, ident, job⟩ := passBase_frame b s
  have reached' : reached = closeJob t := by
    rw [closeJob_eq, job]
  refine ⟨fun below => (baseRise_below below).1, fun at' => by rw [reached']; exact baseRise_reached at', base, next, checkTable,
    needs, exhausted, answers, port, rv, roster, ident, job, fun i seg holds => passBase_kept holds, fun k => ?_⟩
  have test (d : Descriptor) : takenBack b s allWinSlots d = true ↔ d.inFlight = false ∧ passed d.src := by
    rw [takenBack_iff, and_comm]
    refine and_congr_right fun _ => exists_congr fun i => ?_
    simp only [mem_allWinSlots, true_and, passedDamaged_iff]
    constructor
    · rintro ⟨src, st, g, seg, below⟩
      exact ⟨g, src, by rwa [src], by rwa [src], below⟩
    · rintro ⟨g, src, st, seg, below⟩
      rw [src] at st seg
      exact ⟨src, st, g, seg, below⟩
  obtain ⟨mid, lost, owed⟩ := passBase_socket b s k
  have after : t.sockets[k] = (passBase b s).sockets[k] := rfl
  clear_value t passed
  intro sk missed
  have range (g : Nat) : g ∈ List.range' s.win.base (b - s.win.base) ↔ s.win.base ≤ g ∧ g < b := by
    rw [List.mem_range'_1]
    omega
  rw [← after] at owed
  have lacks := lost.lacks_iff
  obtain ⟨writes, failed, reason, -, written⟩ | ⟨eq, old, named, new⟩ := lost
  · obtain ⟨writes', -⟩ | ⟨eq', -⟩ := owed
    · exact absurd failed writes'
    · have st : t.sockets[k].st = .failed := by rw [eq']; exact failed
      refine ⟨.inr ⟨st, by rw [eq']; exact reason⟩, by rw [eq']; exact written, fun h => absurd st h⟩
  have midSt : mid.st = sk.st := by rw [eq]
  have midWritten : mid.written = sk.written := by rw [eq]
  obtain ⟨-, failed, reason, written⟩ | ⟨eq', old', named', new'⟩ := owed
  · exact ⟨.inr ⟨failed, reason⟩, written.trans midWritten, fun h => absurd failed h⟩
  have st : t.sockets[k].st = sk.st := by rw [eq', eq]
  have ring : t.sockets[k].ring = sk.ring.filter (fun d => !takenBack b s allWinSlots d) := by rw [eq', eq]
  refine ⟨.inl ⟨st, by rw [eq', eq]⟩, by rw [eq', eq], fun writes => ⟨by rw [eq', eq], by rw [eq', eq],
    by rw [eq', eq], by rw [eq', eq],
    ?_, fun d => ?_, fun g ⟨above, below, enrolled, lacking⟩ => ?_, fun d hd pending taken => ?_, fun e he => old' e (old e he),
    fun e he => ?_⟩⟩
  · rw [ring]
    exact List.filter_sublist
  · rw [ring, List.mem_filter, ← test, Bool.not_eq_true']
    exact and_congr_right fun _ => Bool.not_eq_true _ ▸ Iff.rfl
  · exact ⟨_, named' g ((range g).2 ⟨above, below⟩) (by rwa [midSt]) ((lacks (by rwa [midSt, ← st]) g).2 lacking), rfl, rfl⟩
  · obtain ⟨e, he, seg⟩ := named (st ▸ writes) d hd ((test d).2 ⟨pending, taken⟩)
    exact owes_iff.2 ⟨e, old' e he, seg⟩
  · obtain he | ⟨inRange, enrolled, lacking, same⟩ := new' e he
    · refine (new e he).imp_right fun ⟨d, hd, taken, seg, record⟩ => .inr ⟨d, hd, ?_, ?_, seg, record⟩
      · exact ((test d).1 taken).1
      · exact ((test d).1 taken).2
    · obtain ⟨above, below⟩ := (range _).1 inRange
      refine .inr (.inl ⟨⟨above, below, by rwa [← midSt], (lacks (by rwa [midSt, ← st]) _).1 lacking⟩, ?_⟩)
      rw [same]
      rfl

end Sys2Proof.Machine
end

section
/-! SUPPORT. The good end of a descriptor write: the descriptor handed back, what the completion records, and the next descriptor
taken (spec/10_sockets.md, R110, R145; spec/13_verify.md, R165 to R167, R183). -/
namespace Sys2Proof.Machine
open Sys2Proof.Safety

/-! ### Patched segments and the room for expectations (R165, R167) -/

theorem isPatched_iff {s : State} {g : Nat} : s.isPatched g = true ↔ ∃ p ∈ s.patches, p.seg.toNat = g := by
  simp [State.isPatched]

theorem patchedCount_spec (s : State) :
    ∃ l : List Nat, l.Nodup ∧ (∀ g, g ∈ l ↔ s.isPatched g = true) ∧ s.patchedCount = l.length := by
  refine ⟨(s.patches.map fun p => p.seg.toNat).dedup, List.nodup_dedup _, fun g => ?_, rfl⟩
  rw [List.mem_dedup, List.mem_map, isPatched_iff]

theorem expectRoom_iff {s : State} {k : Fin 8} {g : Nat} : s.expectRoom k g = true ↔
    (∃ e ∈ s.sockets[k].expect, e.seg = g) ∨ s.isPatched g = true ∨
      (s.sockets[k].expect.filter fun e => !s.isPatched e.seg).length < 16 - s.patchedCount := by
  rw [State.expectRoom, Bool.or_eq_true, Bool.or_eq_true, decide_eq_true_iff, or_assoc, Socket.expected, List.find?_isSome]
  simp only [beq_iff_eq]
  exact Iff.rfl

theorem verifyOn_iff {s : State} : s.verifyOn = true ↔ ∃ b, s.job.body = some b ∧ b.verify = 1 := by
  unfold State.verifyOn
  cases s.job.body <;> simp

theorem mem_insertExpect (e : ExpectEntry) (l : List ExpectEntry) : e ∈ insertExpect e l := by
  induction l with
  | nil => exact List.mem_cons_self
  | cons x l ih =>
    unfold insertExpect
    split_ifs
    · exact List.mem_cons_self
    · exact List.mem_cons_self
    · exact List.mem_cons_of_mem _ ih

/-! ### The descriptor taken next (R109) -/

/-- What a ring holds, but for which descriptor is in flight. -/
def Socket.entries (sk : Socket) : List (Nat × SlotId × Option OwedRecord) := sk.ring.map fun d => (d.seg, d.src, d.owed)

theorem map_replace {α β : Type} [BEq α] [LawfulBEq α] {f : α → β} {a b : α} (same : f b = f a) (l : List α) :
    (l.replace a b).map f = l.map f := by
  induction l with
  | nil => rfl
  | cons x l ih =>
    rw [List.replace_cons]
    split
    next h =>
      rw [beq_iff_eq] at h
      rw [List.map_cons, List.map_cons, same, h]
    next => rw [List.map_cons, List.map_cons, ih]

/-- An idle engine after the taking of a descriptor: the ring holds what it held, and a command is the write of a descriptor,
which is a claim more of the slot it names. -/
structure NextTaken (k : Fin 8) (s t : State) : Prop where
  entries : t.sockets[k].entries = s.sockets[k].entries
  socket : t.sockets[k] = { s.sockets[k] with
    ring := t.sockets[k].ring, cmd := t.sockets[k].cmd, lag := t.sockets[k].lag, tie := t.sockets[k].tie }
  idle : t.sockets[k].cmd = none → ∀ id, (t.slot id).inFlight = (s.slot id).inFlight
  busy : ∀ c, t.sockets[k].cmd = some c → ∃ g next, c.purpose = .descriptor g next false ∧ c.attempt = 1 ∧
    ∀ id, (t.slot id).inFlight = (s.slot id).inFlight + if next = id then 1 else 0

theorem takeDescriptor_nextTaken {k : Fin 8} {s : State} (none' : s.sockets[k].cmd = none) :
    NextTaken k s (takeDescriptor k s) := by
  have same (h : takeDescriptor k s = s) : NextTaken k s (takeDescriptor k s) := by
    rw [h]
    exact ⟨rfl, rfl, fun _ _ => rfl, fun c cmd => absurd (none'.symm.trans cmd) nofun⟩
  by_cases idle : (s.sockets[k].st = .copying ∨ s.sockets[k].st = .repaying) ∧ s.sockets[k].cmd = none ∧ s.sockets[k].exit = none
  · cases next : s.nextReady k with
    | none => exact same (takeDescriptor_none next)
    | some d =>
      have eq := takeDescriptor_some idle next
      have socket : (takeDescriptor k s).sockets[k] = Socket.lagBy (Monitor.report
          (s.sockets[k].ring.replace d { d with inFlight := true }).length)
          { s.sockets[k] with
            ring := s.sockets[k].ring.replace d { d with inFlight := true }
            cmd := some (s.writeCommand k d.seg d.src) } := by
        rw [eq, reportOccupancy_socket, updSocket_same, startWrite_sockets]
      have slot (id : SlotId) : (takeDescriptor k s).slot id = (startWrite d.src s).slot id := by
        rw [eq, reportOccupancy, updSocket_slot, updSocket_slot]
      have cmd : (takeDescriptor k s).sockets[k].cmd = some (s.writeCommand k d.seg d.src) := by rw [socket]; rfl
      refine ⟨?_, by rw [socket]; rfl, fun none' => absurd (none'.symm.trans cmd) nofun, fun c held => ?_⟩
      · rw [socket]
        exact map_replace (f := fun d : Descriptor => (d.seg, d.src, d.owed)) (a := d) (b := { d with inFlight := true }) rfl _
      · obtain rfl := Option.some.inj (held.symm.trans cmd)
        refine ⟨d.seg, d.src, rfl, rfl, fun id => ?_⟩
        rw [slot, startWrite]
        by_cases mine : d.src = id
        · rw [if_pos mine, ← mine, updSlot_same]
        · rw [if_neg mine, updSlot_other (Ne.symm mine)]
          rfl
  · exact same (takeDescriptor_busy idle)

/-! ### The end of the write (R110) -/

theorem writeGood_judged {k : Fin 8} {s : State} {c : Command} {seg : Nat} {src : SlotId} {x : Bool} {v : Verdict}
    (cmd : s.sockets[k].cmd = some c) (attempt : c.portReset = false) (purpose : c.purpose = .descriptor seg src x)
    (verdict : c.verdict = some v) : writeGood k s = endWritten k seg src v s := by
  have judged : judgeStream k s = s := judgeStream_judged cmd attempt purpose (by rw [verdict]; rfl)
  obtain ⟨⟩ := c
  cases purpose
  cases verdict
  simp only [writeGood, judged, cmd]

/-- A good completion of a write that counts. -/
theorem exec_writeSegmentGood {k : Fin 8} {s : State} {c : Command} {seg : Nat} {src : SlotId} {v : Verdict}
    (up : s.ident.memTest = false) (cmd : s.sockets[k].cmd = some c) (attempt : c.portReset = false)
    (purpose : c.purpose = .descriptor seg src false) (verdict : c.verdict = some v) (exit : s.sockets[k].exit = none) :
    exec (.writeSegmentComplete k true) s = .next (settle s.settled (endWritten k seg src v s)) := by
  have counts : s.sockets[k].discards c = false := discards_false exit (by rw [purpose]; rfl)
  rw [exec_writeSegmentComplete up cmd attempt, writeEnds_descriptor purpose, if_neg (Bool.eq_false_iff.1 counts), if_pos rfl,
    writeGood_judged cmd attempt purpose verdict]

theorem handBack_inFlight (k : Fin 8) (seg : Nat) (src : SlotId) (s : State) :
    ((handBack k seg src s).slot src).inFlight = (s.slot src).inFlight - 1 := by
  have slot : (handBack k seg src s).slot src = (endWrite src (updSocket k (fun sk =>
      { sk with cmd := none, ring := sk.ring.filter fun d => !(d.inFlight && d.seg == seg) }) s)).slot src := updSocket_slot ..
  rw [slot, endWrite, (settleSlot_counts _ _ _).2, updSlot_same, updSocket_slot]

/-- The lists of a socket after a write of `seg` has ended. -/
def Socket.recorded (seg : Nat) (expect : List ExpectEntry) (recheck : List Nat) (owed : List OwedEntry) (sk : Socket) : Socket :=
  { sk with written := insertSeg seg sk.written, expect := expect, recheck := recheck, owed := owed }

/-- A write of `seg` from `src` ended at socket `k`, with the lists it leaves. -/
structure EndedWith (k : Fin 8) (seg : Nat) (src : SlotId) (expect : List ExpectEntry) (recheck : List Nat)
    (owed : List OwedEntry) (s t : State) : Prop where
  entries : t.sockets[k].ring.map (fun d => (d.seg, d.src, d.owed)) =
    (s.sockets[k].ring.filter fun d => !(d.inFlight && d.seg == seg)).map fun d => (d.seg, d.src, d.owed)
  st : t.sockets[k].st = s.sockets[k].st
  written : t.sockets[k].written = insertSeg seg s.sockets[k].written
  expects : t.sockets[k].expect = expect
  rechecks : t.sockets[k].recheck = recheck
  owes : t.sockets[k].owed = owed
  idle : t.sockets[k].cmd = none → (t.slot src).inFlight = (s.slot src).inFlight - 1
  busy : ∀ c, t.sockets[k].cmd = some c → ∃ g next, c.purpose = .descriptor g next false ∧ c.attempt = 1 ∧
    (t.slot src).inFlight = (s.slot src).inFlight - 1 + if next = src then 1 else 0

/-- What the end of a write leaves beyond its socket. -/
structure WriteFrame (k : Fin 8) (s t : State) : Prop where
  others : ∀ j : Fin 8, j ≠ k → t.sockets[j] = s.sockets[j]
  job : t.job = s.job
  port : t.port = s.port
  repair : t.repair = s.repair
  base : t.win.base = s.win.base
  checkTable : t.win.checkTable = s.win.checkTable

theorem WriteFrame.trans {k : Fin 8} {s t u : State} (h : WriteFrame k s t) (g : WriteFrame k t u) : WriteFrame k s u :=
  ⟨fun j other => (g.others j other).trans (h.others j other), g.job.trans h.job, g.port.trans h.port,
    g.repair.trans h.repair, g.base.trans h.base, g.checkTable.trans h.checkTable⟩

theorem WriteFrame.of {k : Fin 8} {s t : State} (apart : Apart s t) (only : Only k s t) : WriteFrame k s t :=
  ⟨only, apart.job, apart.port, apart.repair, apart.base, apart.checkTable⟩

theorem handBack_frame (k : Fin 8) (seg : Nat) (src : SlotId) (s : State) : WriteFrame k s (handBack k seg src s) := by
  obtain ⟨apart, -, -, only⟩ := (handBack_touches k seg src s).spec
  exact .of apart only

theorem updSocket_writeFrame (k : Fin 8) (f : Socket → Socket) (s : State) : WriteFrame k s (updSocket k f s) :=
  ⟨fun _ other => updSocket_other other f s, rfl, rfl, rfl, rfl, rfl⟩

theorem takeDescriptor_frame (k : Fin 8) (s : State) : WriteFrame k s (takeDescriptor k s) :=
  .of (takeDescriptor_works k s).apart (takeDescriptor_only k s)

/-- A record that is a change of the socket's lists, and the next descriptor. -/
theorem takeDescriptor_recorded (k : Fin 8) (seg : Nat) (src : SlotId) (expect : List ExpectEntry) (recheck : List Nat)
    (owed : List OwedEntry) (s : State) :
    let t := takeDescriptor k (updSocket k (Socket.recorded seg expect recheck owed) (handBack k seg src s))
    EndedWith k seg src expect recheck owed s t ∧ WriteFrame k s t := by
  intro t
  have frame : WriteFrame k s t :=
    ((handBack_frame k seg src s).trans (updSocket_writeFrame k _ _)).trans (takeDescriptor_frame k _)
  obtain ⟨m, tie, back⟩ := handBack_socket k seg src s
  have count := handBack_inFlight k seg src s
  have now : (updSocket k (Socket.recorded seg expect recheck owed) (handBack k seg src s)).sockets[k] =
      Socket.recorded seg expect recheck owed (handBack k seg src s).sockets[k] := updSocket_same ..
  have slot : (updSocket k (Socket.recorded seg expect recheck owed) (handBack k seg src s)).slot src =
      (handBack k seg src s).slot src := updSocket_slot ..
  rw [back] at now
  obtain ⟨entries, socket, idle, busy⟩ :
      NextTaken k (updSocket k (Socket.recorded seg expect recheck owed) (handBack k seg src s)) t :=
    takeDescriptor_nextTaken (by rw [now]; rfl)
  rw [now] at entries socket
  clear_value t
  refine ⟨⟨entries, ?_, ?_, ?_, ?_, ?_, fun none' => ?_, fun c cmd => ?_⟩, frame⟩
  · rw [socket]; rfl
  · rw [socket]; rfl
  · rw [socket]; rfl
  · rw [socket]; rfl
  · rw [socket]; rfl
  · rw [idle none', slot, count]
  · obtain ⟨g, next, purpose, attempt, counts⟩ := busy c cmd
    exact ⟨g, next, purpose, attempt, by rw [counts, slot, count]⟩

/-! ### What the completion records (R166, R167, R183) -/

section Records

variable {k : Fin 8} {seg : Nat} {src : SlotId} {v : Verdict} {s : State}

/-- The recheck list with a segment verified or to be verified. -/
def State.rechecked (s : State) (k : Fin 8) (seg : Nat) : List Nat :=
  if s.verifyOn = true ∧ s.sockets[k].st = .repaying then insertSeg seg s.sockets[k].recheck else s.sockets[k].recheck

theorem mem_rechecked {g : Nat} : g ∈ s.rechecked k seg ↔
    g ∈ s.sockets[k].recheck ∨ (g = seg ∧ s.verifyOn = true ∧ s.sockets[k].st = .repaying) := by
  unfold State.rechecked
  split_ifs with h
  · rw [insertSeg_iff, or_comm, and_iff_left h]
  · rw [or_iff_left fun ⟨_, h'⟩ => h h']

/-- The owed entry of a segment written corrupt (R167). -/
def OwedEntry.poisoned (g n : Nat) : OwedEntry := { seg := g, record := { origin := .poisoned, attempts := n } }

/-- The expectation list after a clean write. -/
def State.expecting (s : State) (k : Fin 8) (seg : Nat) (patched : Word32) : List ExpectEntry :=
  if s.isPatched seg = true then insertExpect { seg := seg, check := patched, poisoned := false } s.sockets[k].expect
  else s.sockets[k].expect.filter fun e => e.seg != seg

/-- The station when the descriptor is back and the mark set. -/
def markWritten (k : Fin 8) (seg : Nat) (src : SlotId) (s : State) : State :=
  updSocket k (fun sk => { sk with written := insertSeg seg sk.written }) (handBack k seg src s)

theorem markWritten_spec (k : Fin 8) (seg : Nat) (src : SlotId) (s : State) :
    (markWritten k seg src s).patches = s.patches ∧ (markWritten k seg src s).verifyOn = s.verifyOn ∧
      ∃ m t, (markWritten k seg src s).sockets[k] = { s.sockets[k] with
        cmd := none, ring := s.sockets[k].ring.filter (fun d => !(d.inFlight && d.seg == seg)),
        written := insertSeg seg s.sockets[k].written, lag := m, tie := t } := by
  obtain ⟨apart, -⟩ := (handBack_touches k seg src s).spec
  obtain ⟨m, t, back⟩ := handBack_socket k seg src s
  refine ⟨apart.patches, ?_, m, t, ?_⟩
  · have job : (markWritten k seg src s).job = s.job := apart.job
    rw [State.verifyOn, job]
    rfl
  · rw [markWritten, updSocket_same, back]

/-- An expectation list and the recheck that goes with it. -/
theorem addRecheck_expect (l : List ExpectEntry) : addRecheck k seg (updSocket k (fun sk => { sk with expect := l }) s) =
    updSocket k (fun sk => { sk with expect := l, recheck := s.rechecked k seg }) s := by
  have st : (updSocket k (fun sk => { sk with expect := l }) s).sockets[k].st = s.sockets[k].st := by rw [updSocket_same]
  have verifyOn : (updSocket k (fun sk => { sk with expect := l }) s).verifyOn = s.verifyOn := rfl
  unfold addRecheck State.rechecked
  rw [st, verifyOn]
  split_ifs
  · rw [updSocket_updSocket]
    exact updSocket_congr rfl
  · exact updSocket_congr rfl

theorem recordWritten_eq (k : Fin 8) (seg : Nat) (patched : Word32) (s : State) : recordWritten k seg patched s =
    updSocket k (fun sk => { sk with expect := s.expecting k seg patched, recheck := s.rechecked k seg }) s := by
  rw [recordWritten, ← addRecheck_expect, State.expecting]
  refine congrArg (addRecheck k seg) ?_
  split_ifs
  all_goals exact updSocket_congr rfl

theorem recordPoisoned_expected (n : Nat) (on : s.verifyOn = true) (room : s.expectRoom k seg = true) :
    recordPoisoned k seg n s = updSocket k (fun sk => { sk with
      expect := insertExpect { seg := seg, check := 0, poisoned := true } s.sockets[k].expect,
      recheck := s.rechecked k seg }) s := by
  rw [recordPoisoned, if_pos ⟨on, room⟩, ← addRecheck_expect]
  exact congrArg (addRecheck k seg) (updSocket_congr rfl)

theorem recordPoisoned_owed (n : Nat) (h : s.verifyOn = false ∨ s.expectRoom k seg = false) :
    recordPoisoned k seg n s = addOwed k seg .poisoned n (dropExpect k seg s) := by
  refine if_neg fun ⟨on, room⟩ => ?_
  obtain off | full := h
  · exact absurd (off.symm.trans on) nofun
  · exact absurd (full.symm.trans room) nofun

/-- Lists changed once the mark is set. -/
theorem markWritten_lists (E : List ExpectEntry) (R : List Nat) (O : List OwedEntry) :
    updSocket k (fun sk => { sk with expect := E, recheck := R, owed := O }) (markWritten k seg src s) =
      updSocket k (Socket.recorded seg E R O) (handBack k seg src s) := by
  rw [markWritten, updSocket_updSocket]
  rfl

theorem markWritten_rechecked : (markWritten k seg src s).rechecked k seg = s.rechecked k seg := by
  obtain ⟨-, verifyOn, m, t, socket⟩ := markWritten_spec k seg src s
  rw [State.rechecked, verifyOn, socket]
  rfl

theorem markWritten_expecting (patched : Word32) :
    (markWritten k seg src s).expecting k seg patched = s.expecting k seg patched := by
  obtain ⟨patches, -, m, t, socket⟩ := markWritten_spec k seg src s
  rw [State.expecting, State.isPatched, patches, socket]
  rfl

theorem markWritten_expectRoom : (markWritten k seg src s).expectRoom k seg = s.expectRoom k seg := by
  obtain ⟨patches, -, m, t, socket⟩ := markWritten_spec k seg src s
  simp only [State.expectRoom, State.isPatched, State.patchedCount, patches, socket]
  rfl

/-- A clean write ends. -/
theorem endWritten_clean (clean : v.clean = true) :
    EndedWith k seg src (s.expecting k seg v.patched) (s.rechecked k seg) s.sockets[k].owed s (endWritten k seg src v s) ∧
      WriteFrame k s (endWritten k seg src v s) := by
  obtain ⟨-, -, m, t, socket⟩ := markWritten_spec k seg src s
  have eq : endWritten k seg src v s = takeDescriptor k (recordWritten k seg v.patched (markWritten k seg src s)) :=
    congrArg (takeDescriptor k) (if_pos clean)
  rw [eq, recordWritten_eq, markWritten_expecting, markWritten_rechecked]
  have lists : updSocket k (fun sk => { sk with expect := s.expecting k seg v.patched, recheck := s.rechecked k seg })
      (markWritten k seg src s) = updSocket k (fun sk => { sk with
        expect := s.expecting k seg v.patched, recheck := s.rechecked k seg, owed := s.sockets[k].owed })
          (markWritten k seg src s) := updSocket_congr (by rw [socket])
  rw [lists, markWritten_lists]
  exact takeDescriptor_recorded ..

theorem endWritten_corrupt (corrupt : v.clean = false) : endWritten k seg src v s =
    takeDescriptor k (recordPoisoned k seg (s.sockets[k].flightAttempts seg) (markWritten k seg src s)) :=
  congrArg (takeDescriptor k) (if_neg (Bool.eq_false_iff.1 corrupt))

/-- A corrupt write with its expectation ends. -/
theorem endWritten_expected (corrupt : v.clean = false) (on : s.verifyOn = true) (room : s.expectRoom k seg = true) :
    EndedWith k seg src (insertExpect { seg := seg, check := 0, poisoned := true } s.sockets[k].expect) (s.rechecked k seg)
        s.sockets[k].owed s (endWritten k seg src v s) ∧
      WriteFrame k s (endWritten k seg src v s) := by
  obtain ⟨-, verifyOn, m, t, socket⟩ := markWritten_spec k seg src s
  rw [endWritten_corrupt corrupt, recordPoisoned_expected _ (verifyOn.trans on) (markWritten_expectRoom.trans room),
    markWritten_rechecked]
  have lists : updSocket k (fun sk => { sk with
      expect := insertExpect { seg := seg, check := 0, poisoned := true } (markWritten k seg src s).sockets[k].expect,
      recheck := s.rechecked k seg }) (markWritten k seg src s) = updSocket k (fun sk => { sk with
        expect := insertExpect { seg := seg, check := 0, poisoned := true } s.sockets[k].expect,
        recheck := s.rechecked k seg, owed := s.sockets[k].owed }) (markWritten k seg src s) :=
    updSocket_congr (by rw [socket])
  rw [lists, markWritten_lists]
  exact takeDescriptor_recorded ..

/-- A corrupt write without an expectation ends: the segment is owed again. -/
theorem endWritten_owed (corrupt : v.clean = false) (h : s.verifyOn = false ∨ s.expectRoom k seg = false)
    (writes : s.sockets[k].st ≠ .failed) (room : s.sockets[k].owed.length < Config.owedSize) :
    EndedWith k seg src (s.sockets[k].expect.filter fun e => e.seg != seg) s.sockets[k].recheck
        (insertOwed (.poisoned seg (s.sockets[k].flightAttempts seg)) s.sockets[k].owed) s (endWritten k seg src v s) ∧
      WriteFrame k s (endWritten k seg src v s) := by
  obtain ⟨-, verifyOn, m, t, socket⟩ := markWritten_spec k seg src s
  have dropped : (dropExpect k seg (markWritten k seg src s)).sockets[k] =
      { (markWritten k seg src s).sockets[k] with
        expect := (markWritten k seg src s).sockets[k].expect.filter fun e => e.seg != seg } := updSocket_same ..
  have ended := takeDescriptor_recorded k seg src (s.sockets[k].expect.filter fun e => e.seg != seg) s.sockets[k].recheck
    (insertOwed (.poisoned seg (s.sockets[k].flightAttempts seg)) s.sockets[k].owed) s
  rw [endWritten_corrupt corrupt, recordPoisoned_owed _ (by rwa [verifyOn, markWritten_expectRoom]),
    (addOwed_spec k seg _ .poisoned _).2.2 (by rw [dropped, socket]; exact writes) (by rw [dropped, socket]; exact room),
    dropExpect, updSocket_updSocket]
  have lists : updSocket k (fun sk => { sk with
      expect := sk.expect.filter fun e => e.seg != seg,
      owed := insertOwed (.poisoned seg (s.sockets[k].flightAttempts seg)) sk.owed }) (markWritten k seg src s) =
      updSocket k (fun sk => { sk with
        expect := s.sockets[k].expect.filter fun e => e.seg != seg,
        recheck := s.sockets[k].recheck,
        owed := insertOwed (.poisoned seg (s.sockets[k].flightAttempts seg)) s.sockets[k].owed })
          (markWritten k seg src s) := updSocket_congr (by rw [socket])
  rw [← markWritten_lists, ← lists] at ended
  exact ended

/-- A corrupt write that cannot be owed fails its socket. -/
theorem endWritten_full (corrupt : v.clean = false) (h : s.verifyOn = false ∨ s.expectRoom k seg = false)
    (writes : s.sockets[k].st ≠ .failed) (full : Config.owedSize ≤ s.sockets[k].owed.length) :
    let t := endWritten k seg src v s
    t.sockets[k].st = .failed ∧ t.sockets[k].reason = .owedOverflow ∧
      t.sockets[k].written = insertSeg seg s.sockets[k].written ∧ WriteFrame k s t := by
  obtain ⟨-, verifyOn, m, t, socket⟩ := markWritten_spec k seg src s
  have dropped : (dropExpect k seg (markWritten k seg src s)).sockets[k] =
      { (markWritten k seg src s).sockets[k] with
        expect := (markWritten k seg src s).sockets[k].expect.filter fun e => e.seg != seg } := updSocket_same ..
  have writes' : (dropExpect k seg (markWritten k seg src s)).sockets[k].st ≠ .failed := by
    rw [dropped, socket]
    exact writes
  have full' : Config.owedSize ≤ (dropExpect k seg (markWritten k seg src s)).sockets[k].owed.length := by
    rw [dropped, socket]
    exact full
  obtain ⟨-, c, failed⟩ := (failSocket_spec k .owedOverflow _).2 writes'
  have st : (failSocket k .owedOverflow (dropExpect k seg (markWritten k seg src s))).sockets[k].st = .failed := by
    rw [failed]
  have eq : endWritten k seg src v s = failSocket k .owedOverflow (dropExpect k seg (markWritten k seg src s)) := by
    rw [endWritten_corrupt corrupt, recordPoisoned_owed _ (by rwa [verifyOn, markWritten_expectRoom]),
      (addOwed_spec k seg _ .poisoned _).2.1 writes' full', takeDescriptor_busy]
    rw [st]
    simp
  have frame : WriteFrame k s (failSocket k .owedOverflow (dropExpect k seg (markWritten k seg src s))) :=
    ((handBack_frame k seg src s).trans (updSocket_writeFrame k _ _)).trans ((updSocket_writeFrame k _ _).trans
      (.of (failSocket_works k .owedOverflow _).apart (failSocket_only k .owedOverflow _)))
  dsimp only
  rw [eq]
  refine ⟨st, by rw [failed], ?_, frame⟩
  rw [failed, dropped, socket]
  rfl

end Records

/-- Settles O40: the record of the completion between the descriptor handed back and the next one taken. -/
theorem goodWritesEndWrittenOrPoisoned : Obligations.GoodWritesEndWrittenOrPoisoned := by
  unfold Obligations.GoodWritesEndWrittenOrPoisoned
  refine ⟨fun k seg s => ⟨isPatched_iff, patchedCount_spec s, expectRoom_iff, verifyOn_iff⟩, ?_⟩
  intro k s c seg src v up cmd attempt purpose verdict exit left kept handedBack rechecked
  have run := exec_writeSegmentGood up cmd attempt purpose verdict exit
  have back {E : List ExpectEntry} {R : List Nat} {O : List OwedEntry} {t : State} (h : EndedWith k seg src E R O s t) :
      handedBack t := ⟨h.entries, h.idle, h.busy⟩
  have again {E : List ExpectEntry} {O : List OwedEntry} {t : State} (h : EndedWith k seg src E (s.rechecked k seg) O s t) :
      rechecked t := fun g => by rw [h.rechecks, mem_rechecked]
  have marked {t : State} (h : t.sockets[k].written = insertSeg seg s.sockets[k].written) (g : Nat) :
      g ∈ t.sockets[k].written ↔ g = seg ∨ g ∈ s.sockets[k].written := by rw [h, insertSeg_iff]
  clear_value handedBack rechecked
  refine ⟨fun clean => ?_, fun corrupt st owes => ?_⟩
  · obtain ⟨ended, frame⟩ := endWritten_clean (k := k) (seg := seg) (src := src) (s := s) clean
    refine ⟨_, run, back ended, again ended, marked ended.written, ended.owes, ended.st, ?_, fun patched => ?_,
      fun plain e he => ?_, frame.others, frame.job, frame.port, frame.repair, frame.base, frame.checkTable⟩
    · have length := congrArg List.length ended.entries
      rw [List.length_map, List.length_map] at length
      rw [length]
      exact List.length_filter_le ..
    · refine ⟨{ seg := seg, check := v.patched, poisoned := false }, ?_, rfl, rfl, rfl⟩
      rw [ended.expects, State.expecting, if_pos patched]
      exact mem_insertExpect ..
    · rw [ended.expects, State.expecting, if_neg (Bool.eq_false_iff.1 plain), List.mem_filter, bne_iff_ne] at he
      exact he.2
  · have writes : s.sockets[k].st ≠ .failed := by
      obtain st | st := st
      all_goals rw [st]; decide
    by_cases h : s.verifyOn = true ∧ s.expectRoom k seg = true
    · obtain ⟨ended, frame⟩ := endWritten_expected (src := src) corrupt h.1 h.2
      have not' : ¬ (s.verifyOn = false ∨ s.expectRoom k seg = false) := by simp [h.1, h.2]
      refine ⟨_, run, marked ended.written, frame.others, frame.job, frame.port, frame.repair,
        fun _ _ => ⟨back ended, again ended, ended.owes, _, ended.expects ▸ mem_insertExpect .., rfl, rfl⟩,
        fun h => absurd h not', fun h => absurd h not'⟩
    · have h' : s.verifyOn = false ∨ s.expectRoom k seg = false := by
        rwa [not_and_or, Bool.not_eq_true, Bool.not_eq_true] at h
      obtain room | full := Nat.lt_or_ge s.sockets[k].owed.length Config.owedSize
      · obtain ⟨ended, frame⟩ := endWritten_owed (src := src) corrupt h' writes room
        refine ⟨_, run, marked ended.written, frame.others, frame.job, frame.port, frame.repair,
          fun on room => absurd ⟨on, room⟩ h, fun _ _ => ⟨back ended, ended.rechecks,
            .poisoned seg (s.sockets[k].flightAttempts seg), ?_, rfl, rfl, rfl⟩,
          fun _ full => absurd room (Nat.not_lt.2 full)⟩
        rw [ended.owes, (insertOwed_perm fun e he same => Bool.eq_false_iff.1 owes (owes_iff.2 ⟨e, he, same⟩)).mem_iff]
        exact List.mem_cons_self
      · obtain ⟨st, reason, written, frame⟩ := endWritten_full (src := src) corrupt h' writes full
        exact ⟨_, run, marked written, frame.others, frame.job, frame.port, frame.repair,
          fun on room => absurd ⟨on, room⟩ h, fun _ room => absurd room (Nat.not_lt.2 full), fun _ _ => ⟨st, reason⟩⟩

end Sys2Proof.Machine
end

section
/-! SUPPORT. The adoption of a job: the exits taken first, the blocks at their adoption values, the READY sockets placed, and the
end of the step (spec/03_jobs.md, R45, R46). -/
namespace Sys2Proof.Machine
open Sys2Proof.Safety

/-! ### The exit-bound sockets (R151) -/

/-- A socket outside a job once it has taken its exit target, if it has one; its lists stand aside. -/
def Socket.relieved (sk : Socket) : Socket :=
  match sk.exit with
  | none => sk
  | some .ready => { sk with exit := none, cmd := none, st := .ready, reason := .none }
  | some .waiting => { sk with exit := none, cmd := none, st := .waiting, reason := .none }
  | some .sourceLost =>
    if sk.st = .failed then { sk with exit := none, cmd := none }
    else { sk with exit := none, cmd := none, st := .failed, reason := .sourceLost }

section Relieved

variable {sk : Socket}

theorem relieved_unbound (h : sk.exit = none) : sk.relieved = sk := by simp only [Socket.relieved, h]

theorem relieved_ready (h : sk.exit = some .ready) :
    sk.relieved = { sk with exit := none, cmd := none, st := .ready, reason := .none } := by simp only [Socket.relieved, h]

theorem relieved_waiting (h : sk.exit = some .waiting) :
    sk.relieved = { sk with exit := none, cmd := none, st := .waiting, reason := .none } := by simp only [Socket.relieved, h]

theorem relieved_failed (h : sk.exit = some .sourceLost) (failed : sk.st = .failed) :
    sk.relieved = { sk with exit := none, cmd := none } := by simp only [Socket.relieved, h, if_pos failed]

theorem relieved_sourceLost (h : sk.exit = some .sourceLost) (writes : sk.st ≠ .failed) :
    sk.relieved = { sk with exit := none, cmd := none, st := .failed, reason := .sourceLost } := by
  simp only [Socket.relieved, h, if_neg writes]

/-- What the taking of an exit leaves. -/
theorem relieved_kept (sk : Socket) : sk.relieved.written = sk.written ∧ sk.relieved.capacity = sk.capacity ∧
    sk.relieved.exit = none ∧ (sk.exit.isSome → sk.relieved.cmd = none) := by
  cases h : sk.exit with
  | none => exact ⟨by rw [relieved_unbound h], by rw [relieved_unbound h], by rw [relieved_unbound h, h], nofun⟩
  | some x =>
    cases x with
    | ready => rw [relieved_ready h]; exact ⟨rfl, rfl, rfl, fun _ => rfl⟩
    | waiting => rw [relieved_waiting h]; exact ⟨rfl, rfl, rfl, fun _ => rfl⟩
    | sourceLost =>
      by_cases failed : sk.st = .failed
      · rw [relieved_failed h failed]; exact ⟨rfl, rfl, rfl, fun _ => rfl⟩
      · rw [relieved_sourceLost h failed]; exact ⟨rfl, rfl, rfl, fun _ => rfl⟩

end Relieved

section Exits

variable {k : Fin 8} {s : State}

theorem endDiscarded_eq {x : ExitTarget} (h : s.sockets[k].exit = some x) :
    endDiscarded k s = takeTarget k x (abandonCommand k s) := by
  simp only [endDiscarded, h]

theorem takeTarget_sourceLost (k : Fin 8) (s : State) : takeTarget k .sourceLost s =
    failSocket k .sourceLost (updSocket k (fun sk => { sk with exit := none }) s) := rfl

theorem outside_iff {j : JobState} : j.working = false ↔ j = .idle ∨ j = .finished ∨ j = .cancelled := by
  cases j <;> simp [JobState.working]

theorem takeTarget_pacing (k : Fin 8) (x : ExitTarget) (s : State) : (takeTarget k x s).pacing = s.pacing := by
  cases x with
  | waiting => rw [takeTarget_waiting, updSocket_pacing]
  | ready => rw [takeTarget_ready, updSocket_pacing]
  | sourceLost => rw [takeTarget_sourceLost, failSocket_pacing, updSocket_pacing]

theorem endDiscarded_pacing (k : Fin 8) (s : State) : (endDiscarded k s).pacing = s.pacing := by
  cases h : s.sockets[k].exit with
  | none =>
    have same : endDiscarded k s = abandonCommand k s := by simp only [endDiscarded, h]
    rw [same, abandonCommand_pacing]
  | some x => rw [endDiscarded_eq h, takeTarget_pacing, abandonCommand_pacing]

/-- The socket of an exit taken outside a job, as the adoption finds it. -/
theorem endDiscarded_relieved (b : JobBody) (outside : s.job.st.working = false) (bound : s.sockets[k].exit.isSome = true) :
    (endDiscarded k s).sockets[k].adopted b = s.sockets[k].relieved.adopted b := by
  have job : (abandonCommand k s).job = s.job := (abandonCommand_works k s).apart.job
  have socket := abandonCommand_socket k s
  have placed (sk : Socket) (n : Nat) : sk.placed s.job.st n = { sk with st := .ready, reason := .none } :=
    placed_outside (outside_iff.1 outside)
  obtain ⟨x, h⟩ := Option.isSome_iff_exists.1 bound
  rw [endDiscarded_eq h]
  cases x with
  | ready => rw [takeTarget_ready, updSocket_same, socket, job, placed, relieved_ready h]
  | waiting => rw [takeTarget_waiting, updSocket_same, socket, relieved_waiting h]
  | sourceLost =>
    have now : (updSocket k (fun sk => { sk with exit := none }) (abandonCommand k s)).sockets[k] =
        { s.sockets[k] with cmd := none, exit := none } := by rw [updSocket_same, socket]
    rw [takeTarget_sourceLost]
    by_cases failed : s.sockets[k].st = .failed
    · rw [failSocket, if_pos (by rw [now]; exact failed), now, relieved_failed h failed]
    · rw [failSocket_idle (by rw [now]) (by rw [now]; exact failed), now, relieved_sourceLost h failed]
      rfl

end Exits

/-- The exit-bound sockets take their targets. -/
def takeExits (s : State) : State := forSockets (fun k t => doIf t.sockets[k].exit.isSome (endDiscarded k) t) s

theorem takeExits_spec (b : JobBody) {s : State} (outside : s.job.st.working = false) :
    (takeExits s).pacing = s.pacing ∧
      ∀ k : Fin 8, (takeExits s).sockets[k].adopted b = s.sockets[k].relieved.adopted b := by
  have spec : ((takeExits s).job = s.job ∧ (takeExits s).pacing = s.pacing) ∧
      ∀ k : Fin 8, (takeExits s).sockets[k].adopted b = s.sockets[k].relieved.adopted b := by
    refine forSockets_each (I := fun t => t.job = s.job ∧ t.pacing = s.pacing)
      (Q := fun k sk => sk.adopted b = s.sockets[k].relieved.adopted b)
      (fun k t => doIf t.sockets[k].exit.isSome (endDiscarded k) t) s
      (fun k t => .when _ _ _ (endDiscarded_only k t)) (fun k t h => ?_) (fun k t h e => ?_) ⟨rfl, rfl⟩
    · refine doIf_inv (P := fun u => u.job = s.job ∧ u.pacing = s.pacing) _ _ t (fun h => ?_) h
      exact ⟨(endDiscarded_works k t).apart.job.trans h.1, (endDiscarded_pacing k t).trans h.2⟩
    · rw [← e]
      cases bound : t.sockets[k].exit.isSome with
      | true => exact endDiscarded_relieved b (by rw [h.1]; exact outside) bound
      | false =>
        rw [doIf_false, relieved_unbound (Option.isNone_iff_eq_none.1 (by rw [← Option.not_isSome, bound]; rfl))]
  exact ⟨spec.1.2, spec.2⟩

theorem takeExits_works (s : State) : Works s (takeExits s) :=
  .sockets _ (fun k t => .when _ _ t (endDiscarded_works k t)) s

/-! ### The blocks at their adoption values (R45) -/

/-- The sockets at their adoption values. -/
def adoptSockets (b : JobBody) (s : State) : State := forSockets (fun k => updSocket k (Socket.adopted b)) (takeExits s)

theorem adoptSockets_works (b : JobBody) (s : State) : Works s (adoptSockets b s) :=
  .after (.sockets _ (adopted_works b) _) (takeExits_works s)

/-- The other blocks at their adoption values. -/
def setBlocks (job : Word16) (b : JobBody) (s : State) : State :=
  updPort Port.jobEnded (updRv (fun _ => Recall.reset) (adoptRecord job b
    (updWin Window.jobEnded (updRepair (fun _ => Repair.empty) s))))

theorem adoptBlocks_blocks (job : Word16) (b : JobBody) (s : State) :
    adoptBlocks job b s = setBlocks job b (adoptSockets b s) := rfl

theorem jobEnded_slot (s : State) (id : SlotId) : (updWin Window.jobEnded s).slot id = (s.slot id).jobEnded := by
  cases id with
  | win i => exact Vector.getElem_map ..
  | rslot r => exact Vector.getElem_map ..

theorem setBlocks_slot (job : Word16) (b : JobBody) (s : State) (id : SlotId) :
    (setBlocks job b s).slot id = (s.slot id).jobEnded := by
  have blocks : (setBlocks job b s).slot id = (updWin Window.jobEnded s).slot id := by cases id <;> rfl
  rw [blocks, jobEnded_slot]

/-- The blocks of a station that has adopted a job (R45). -/
structure Adopted (job : Word16) (b : JobBody) (s t : State) : Prop where
  number : t.job.number = some job
  body : t.job.body = some b
  digest : t.job.digest = some b.digest
  lastAdopted : t.job.lastAdopted = some job
  refusal : t.job.refusal = none
  former : t.job.former = none
  confirmed : t.job.confirmed = false
  enrollment : t.job.enrollment = if b.enrollClosed = 0 then .opened else .closed
  patches : t.patches = patchTable b
  window : t.win.base = 0 ∧ t.win.next = 0 ∧ t.win.readMark = 0 ∧ t.win.highestNew = none ∧
    t.win.checkTable = s.win.checkTable
  slots : ∀ id : SlotId, (t.slot id).st = .free ∧ (t.slot id).seg = none ∧ (t.slot id).mask = 0 ∧
    (t.slot id).timer = none ∧ (t.slot id).pending = 0 ∧ (t.slot id).toSend = 0 ∧ (t.slot id).buf = (s.slot id).buf
  repair : t.repair = Repair.empty
  rv : t.rv = Recall.reset
  classes : t.port.jobRepeat = false ∧ t.port.class4 = [] ∧ t.port.class5 = [] ∧ t.port.class6 = [] ∧ t.port.class7 = []
  written : ∀ k : Fin 8, t.sockets[k].written = s.sockets[k].written.filter fun i => decide (b.imageSize.toNat ≤ i)

section Blocks

variable {job : Word16} {b : JobBody} {s : State}

theorem adoptSockets_socket (outside : s.job.st.working = false) (k : Fin 8) :
    (adoptSockets b s).sockets[k] = s.sockets[k].relieved.adopted b := by
  rw [adoptSockets, forSockets_updSocket_socket]
  exact (takeExits_spec b outside).2 k

theorem adoptSockets_pacing (outside : s.job.st.working = false) : (adoptSockets b s).pacing = s.pacing := by
  rw [adoptSockets, forSockets_updSocket State.pacing (Socket.adopted b) (fun _ _ => rfl)]
  exact (takeExits_spec b outside).1

theorem adoptBlocks_socket (outside : s.job.st.working = false) (k : Fin 8) :
    (adoptBlocks job b s).sockets[k] = s.sockets[k].relieved.adopted b := by
  rw [adoptBlocks_blocks, ← adoptSockets_socket outside]
  generalize adoptSockets b s = u
  rfl

theorem adoptBlocks_pacing (outside : s.job.st.working = false) :
    (adoptBlocks job b s).pacing = { s.pacing with loss := lossOf b } := by
  rw [adoptBlocks_blocks, ← adoptSockets_pacing (b := b) outside]
  generalize adoptSockets b s = u
  rfl

theorem adoptBlocks_job : (adoptBlocks job b s).job = Job.adopted job b s.job := by
  rw [adoptBlocks_blocks, ← (adoptSockets_works b s).apart.job]
  generalize adoptSockets b s = u
  rfl

theorem adoptBlocks_port : (adoptBlocks job b s).port = s.port.jobEnded := by
  rw [adoptBlocks_blocks, ← (adoptSockets_works b s).apart.port]
  generalize adoptSockets b s = u
  rfl

theorem adoptBlocks_ident : (adoptBlocks job b s).ident = s.ident ∧ (adoptBlocks job b s).roster = s.roster := by
  rw [adoptBlocks_blocks, ← (adoptSockets_works b s).apart.ident, ← (adoptSockets_works b s).apart.roster]
  generalize adoptSockets b s = u
  exact ⟨rfl, rfl⟩

theorem adoptBlocks_slot (id : SlotId) :
    (adoptBlocks job b s).slot id = ((adoptSockets b s).slot id).jobEnded := by
  rw [adoptBlocks_blocks, setBlocks_slot]

theorem setBlocks_adopted {u : State} (table : u.win.checkTable = s.win.checkTable)
    (buffers : ∀ id, (u.slot id).buf = (s.slot id).buf)
    (marks : ∀ k : Fin 8, u.sockets[k].written = s.sockets[k].written.filter fun i => decide (b.imageSize.toNat ≤ i)) :
    Adopted job b s (setBlocks job b u) := by
  refine ⟨rfl, rfl, rfl, rfl, rfl, rfl, rfl, rfl, rfl, ⟨rfl, rfl, rfl, rfl, table⟩, fun id => ?_, rfl, rfl,
    ⟨rfl, rfl, rfl, rfl, rfl⟩, marks⟩
  rw [setBlocks_slot]
  exact ⟨rfl, rfl, rfl, rfl, rfl, rfl, buffers id⟩

theorem adoptBlocks_adopted (outside : s.job.st.working = false) : Adopted job b s (adoptBlocks job b s) := by
  rw [adoptBlocks_blocks]
  refine setBlocks_adopted (adoptSockets_works b s).apart.checkTable (adoptSockets_works b s).does.memory.1 fun k => ?_
  rw [adoptSockets_socket outside, ← (relieved_kept s.sockets[k]).1]
  rfl

end Blocks

namespace Adopted

variable {job : Word16} {b : JobBody} {s t u : State}

/-- Work on sockets that leaves the marks. -/
theorem sockets (h : Adopted job b s t) {v : Vector Socket 8} (eq : u = { t with sockets := v })
    (marks : ∀ k : Fin 8, v[k].written = t.sockets[k].written) : Adopted job b s u := by
  subst eq
  exact ⟨h.number, h.body, h.digest, h.lastAdopted, h.refusal, h.former, h.confirmed, h.enrollment, h.patches, h.window, h.slots,
    h.repair, h.rv, h.classes, fun k => (marks k).trans (h.written k)⟩

/-- The role, the state and the timers of the job record may change. -/
theorem record (h : Adopted job b s t) (f : Job → Job) (same : ∀ j : Job, (f j).number = j.number ∧ (f j).body = j.body ∧
    (f j).digest = j.digest ∧ (f j).lastAdopted = j.lastAdopted ∧ (f j).refusal = j.refusal ∧ (f j).former = j.former ∧
    (f j).confirmed = j.confirmed ∧ (f j).enrollment = j.enrollment) : Adopted job b s (updJob f t) := by
  obtain ⟨number, body, digest, lastAdopted, refusal, former, confirmed, enrollment⟩ := same t.job
  exact ⟨number.trans h.number, body.trans h.body, digest.trans h.digest, lastAdopted.trans h.lastAdopted,
    refusal.trans h.refusal, former.trans h.former, confirmed.trans h.confirmed, enrollment.trans h.enrollment, h.patches, h.window,
    h.slots, h.repair, h.rv, h.classes, h.written⟩

theorem pacing (h : Adopted job b s t) (p : Pacing) : Adopted job b s { t with pacing := p } :=
  ⟨h.number, h.body, h.digest, h.lastAdopted, h.refusal, h.former, h.confirmed, h.enrollment, h.patches, h.window, h.slots,
    h.repair, h.rv, h.classes, h.written⟩

/-- The port but for its classes 3 to 7. -/
theorem port (h : Adopted job b s t) (f : Port → Port) (same : (f t.port).jobRepeat = t.port.jobRepeat ∧
    (f t.port).class4 = t.port.class4 ∧ (f t.port).class5 = t.port.class5 ∧ (f t.port).class6 = t.port.class6 ∧
    (f t.port).class7 = t.port.class7) : Adopted job b s (updPort f t) := by
  obtain ⟨c3, c4, c5, c6, c7⟩ := same
  obtain ⟨h3, h4, h5, h6, h7⟩ := h.classes
  exact ⟨h.number, h.body, h.digest, h.lastAdopted, h.refusal, h.former, h.confirmed, h.enrollment, h.patches, h.window, h.slots,
    h.repair, h.rv, ⟨c3.trans h3, c4.trans h4, c5.trans h5, c6.trans h6, c7.trans h7⟩, h.written⟩

/-- The end of the job keeps what adoption has stored. -/
theorem ended (h : Adopted job b s t) (st : JobState) (x : ExitTarget) (outside : st.working = false)
    (hx : x.makes.1.inJob = false) (hn : x ≠ .waiting) (holds : t.job.st ≠ .idle) :
    Adopted job b s (exitSockets x (teardown (Job.ended st) t)) := by
  obtain ⟨down, torn, record, port, table⟩ := endJob_torn (Job.ended st) x t outside ⟨rfl, rfl, rfl, rfl, rfl⟩ hx hn
  obtain ⟨-, -, -, -, -, repair, rv, -, base, next, readMark, highestNew, classes, slots, -⟩ := down
  have does : Does t (exitSockets x (teardown (Job.ended st) t)) := endJob_does _ t (fun i => absurd i holds) outside rfl x
  have marks := endJob_marks (Job.ended st) x t
  have patches : (exitSockets x (teardown (Job.ended st) t)).patches = t.patches := by
    obtain ⟨u, works, eq⟩ := teardown_eq (Job.ended st) t
    refine (exitSockets_works x _ (teardown_recheck _ t)).apart.patches.trans ?_
    rw [eq]
    exact works.apart.patches.trans rfl
  refine ⟨?_, ?_, ?_, ?_, ?_, ?_, ?_, ?_, patches.trans h.patches,
    ⟨base, next, readMark, highestNew, table.trans h.window.2.2.2.2⟩, fun id => ?_, repair, rv, classes,
    fun k => (marks k).trans (h.written k)⟩
  · rw [record]; exact h.number
  · rw [record]; exact h.body
  · rw [record]; exact h.digest
  · rw [record]; exact h.lastAdopted
  · rw [record]; exact h.refusal
  · rw [record]; rfl
  · rw [record]; exact h.confirmed
  · rw [record]; exact h.enrollment
  · obtain ⟨st, seg, mask, timer, pending, toSend⟩ := slots id
    exact ⟨st, seg, mask, timer, pending, toSend, (does.memory.1 id).trans (h.slots id).2.2.2.2.2.2⟩

end Adopted

end Sys2Proof.Machine
end

section
/-! SUPPORT. The end of an adoption: the READY sockets placed, the sockets that move on, the HOLD output (spec/03_jobs.md, R45;
spec/08_pacing.md, R131 to R133). -/
namespace Sys2Proof.Machine
open Sys2Proof.Safety

/-! ### The READY sockets (R45) -/

/-- The job state that a JOB frame starts with (R45). -/
def startState (b : JobBody) : JobState := if b.enrollClosed = 0 then .enrolling else .copying

/-- A socket once the READY ones are placed. -/
def Socket.enrolled (b : JobBody) (sk : Socket) : Socket :=
  if sk.st = .ready then sk.placed (startState b) b.imageSize.toNat else sk

section Enrolled

variable {b : JobBody} {sk : Socket}

theorem enrolled_other (st : sk.st ≠ .ready) : sk.enrolled b = sk := if_neg st

theorem enrolled_fits (st : sk.st = .ready) (opened : b.enrollClosed = 0)
    (fits : b.imageSize.toNat * 64 ≤ sk.capacity.getD 0) : sk.enrolled b =
      { sk with st := .preparing, reason := .none, cmd := some (Command.first .blanking) } := by
  rw [Socket.enrolled, if_pos st, startState, if_pos opened, placed_fits fits]

theorem enrolled_small (st : sk.st = .ready) (opened : b.enrollClosed = 0)
    (small : ¬ b.imageSize.toNat * 64 ≤ sk.capacity.getD 0) : sk.enrolled b =
      { sk with st := .rejected, reason := .tooSmall } := by
  rw [Socket.enrolled, if_pos st, startState, if_pos opened, placed_small small]

theorem enrolled_late (st : sk.st = .ready) (closed : b.enrollClosed ≠ 0) : sk.enrolled b =
    { sk with st := .waiting, reason := .none } := by
  rw [Socket.enrolled, if_pos st, startState, if_neg closed, placed_late (.inl rfl)]

theorem placed_lists (st : JobState) (n : Nat) (sk : Socket) :
    (sk.placed st n).written = sk.written ∧ (sk.placed st n).owed = sk.owed := by
  unfold Socket.placed
  repeat' split
  all_goals exact ⟨rfl, rfl⟩

theorem enrolled_lists (b : JobBody) (sk : Socket) :
    (sk.enrolled b).written = sk.written ∧ (sk.enrolled b).owed = sk.owed := by
  rw [Socket.enrolled]
  split_ifs
  · exact placed_lists ..
  · exact ⟨rfl, rfl⟩

end Enrolled

/-- Only the sockets have changed. -/
def SocketsAlone (s t : State) : Prop := ∃ v, t = { s with sockets := v }

theorem SocketsAlone.refl (s : State) : SocketsAlone s s := ⟨s.sockets, rfl⟩

theorem SocketsAlone.trans {s t u : State} (h : SocketsAlone s t) (g : SocketsAlone t u) : SocketsAlone s u := by
  obtain ⟨v, rfl⟩ := h
  obtain ⟨w, rfl⟩ := g
  exact ⟨w, rfl⟩

theorem SocketsAlone.socket (k : Fin 8) (f : Socket → Socket) (s : State) : SocketsAlone s (updSocket k f s) := ⟨_, rfl⟩

theorem SocketsAlone.frame {s t : State} (h : SocketsAlone s t) : t.win = s.win ∧ t.job = s.job ∧ t.rv = s.rv ∧ t.port = s.port ∧
    t.pacing = s.pacing ∧ t.ident = s.ident ∧ t.roster = s.roster := by
  obtain ⟨v, rfl⟩ := h
  exact ⟨rfl, rfl, rfl, rfl, rfl, rfl, rfl⟩

theorem enrollReady_spec {b : JobBody} {s : State} (st : s.job.st = startState b) (size : s.imageSize = b.imageSize.toNat) :
    SocketsAlone s (enrollReady s) ∧ ∀ k : Fin 8, (enrollReady s).sockets[k] = s.sockets[k].enrolled b := by
  refine forSockets_each (I := SocketsAlone s) (Q := fun k sk => sk = s.sockets[k].enrolled b)
    (fun k t => doIf (t.sockets[k].st == .ready) (placeReady k) t) s (fun k t => .when _ _ _ ?_) (fun k t h => ?_)
    (fun k t h e => ?_) (.refl s)
  · rw [placeReady_eq]
    exact .socket k _ t
  · refine doIf_inv (P := SocketsAlone s) _ _ t (fun h => h.trans ?_) h
    rw [placeReady_eq]
    exact .socket k _ t
  · obtain ⟨v, rfl⟩ := h
    rw [← e]
    by_cases ready : v[k].st = .ready
    · rw [show (({ s with sockets := v } : State).sockets[k].st == .ready) = true from beq_iff_eq.2 ready, doIf_true, placeReady_eq,
        updSocket_same, Socket.enrolled, if_pos ready, ← st, ← size]
      rfl
    · rw [show (({ s with sockets := v } : State).sockets[k].st == .ready) = false from beq_false_of_ne ready, doIf_false,
        enrolled_other ready]

/-! ### Moving on at the start of a job (R146, R147) -/

/-- A socket that owes nothing, with the base below N: only one in REPAYING moves on. -/
theorem moveOn_fresh {k : Fin 8} {s : State} (clean : s.sockets[k].owed = []) (base : s.win.base ≠ s.imageSize) :
    moveOn k s = s ∨ (s.sockets[k].st = .repaying ∧ ∃ f : Socket → Socket, moveOn k s = updSocket k f s ∧
      (f s.sockets[k]).written = s.sockets[k].written ∧ (f s.sockets[k]).owed = s.sockets[k].owed) := by
  by_cases ends : Still k s ∧ s.sockets[k].st = .repaying
  · obtain ⟨still, repaying⟩ := ends
    refine .inr ⟨repaying, ?_⟩
    rw [moveOn_finishes still clean (.inr repaying)]
    cases on : s.verifyOn with
    | false => exact ⟨_, finishWriting_off on, rfl, rfl⟩
    | true =>
      rw [finishWriting, on, if_pos rfl]
      cases list : (if s.sockets[k].passCount = 0 then List.range s.imageSize else s.sockets[k].recheck) with
      | nil => exact ⟨_, beginPass_empty clean list, rfl, rfl⟩
      | cons first rest => exact ⟨_, beginPass_reads list, rfl, rfl⟩
  · refine .inl (moveOn_stays ?_)
    by_cases still : Still k s
    · refine .inr ?_
      rintro (⟨-, at'⟩ | ⟨repaying, -⟩)
      · exact base at'
      · exact ends ⟨still, repaying⟩
    · exact .inl still

/-- The sockets as the end of the step finds them. -/
theorem moveAll_fresh {s : State} (clean : ∀ k : Fin 8, s.sockets[k].owed = []) (base : s.win.base ≠ s.imageSize) :
    SocketsAlone s (forSockets moveOn s) ∧ ∀ k : Fin 8, (forSockets moveOn s).sockets[k].written = s.sockets[k].written ∧
      (s.sockets[k].st ≠ .repaying → (forSockets moveOn s).sockets[k] = s.sockets[k]) := by
  have step (k : Fin 8) (t : State) (h : SocketsAlone s t ∧ ∀ k : Fin 8, t.sockets[k].owed = []) :
      moveOn k t = t ∨ (t.sockets[k].st = .repaying ∧ ∃ f : Socket → Socket, moveOn k t = updSocket k f t ∧
        (f t.sockets[k]).written = t.sockets[k].written ∧ (f t.sockets[k]).owed = t.sockets[k].owed) := by
    obtain ⟨⟨v, rfl⟩, owed⟩ := h
    exact moveOn_fresh (owed k) base
  have spec : (SocketsAlone s (forSockets moveOn s) ∧ ∀ k : Fin 8, (forSockets moveOn s).sockets[k].owed = []) ∧
      ∀ k : Fin 8, (forSockets moveOn s).sockets[k].written = s.sockets[k].written ∧
        (s.sockets[k].st ≠ .repaying → (forSockets moveOn s).sockets[k] = s.sockets[k]) := by
    refine forSockets_each (I := fun t => SocketsAlone s t ∧ ∀ k : Fin 8, t.sockets[k].owed = [])
      (Q := fun k sk => sk.written = s.sockets[k].written ∧ (s.sockets[k].st ≠ .repaying → sk = s.sockets[k]))
      moveOn s moveOn_only (fun k t h => ?_) (fun k t h e => ?_) ⟨.refl s, clean⟩
    · obtain same | ⟨-, f, eq, -, owed⟩ := step k t h
      · rwa [same]
      · rw [eq]
        refine ⟨h.1.trans (.socket k f t), fun j => ?_⟩
        by_cases mine : j = k
        · rw [mine, updSocket_same, owed]
          exact h.2 k
        · rw [updSocket_other mine]
          exact h.2 j
    · obtain same | ⟨repaying, f, eq, written, -⟩ := step k t h
      · rw [same, e]
        exact ⟨rfl, fun _ => rfl⟩
      · rw [eq, updSocket_same, written, e]
        refine ⟨rfl, fun st => absurd ?_ st⟩
        rw [← e]
        exact repaying
  exact ⟨spec.1.1, spec.2⟩

/-! ### The end of the step -/

/-- With the window at its start no own request is queued. -/
theorem ownRequests_start {s : State} (base : s.win.base = 0) : ownRequests s = s := by
  unfold ownRequests
  split_ifs
  · refine forEach_inv (P := fun t => t = s) _ _ (fun g t h => ?_) s rfl
    rw [h]
    exact if_neg fun below => absurd below.1 (by omega)
  · rfl

theorem withdrawRequest_idle {s : State} (idle : s.rv.request = .idle) : withdrawRequest s = s :=
  if_neg fun h => by simp [idle] at h

/-- The end of the step of an adoption. -/
theorem settle_enrolled {job : Word16} {b : JobBody} {s t : State} (h : Adopted job b s t) (image : b.imageSize.toNat ≠ 0)
    (st : t.job.st = startState b) (clean : ∀ k : Fin 8, t.sockets[k].owed = [])
    (start : t.job.source = true → t.sendMark = 0) (before : Bool) :
    ∃ v : State, settle before (enrollReady t) = judgeHold (judgeFinish before v) ∧ SocketsAlone t v ∧
      ∀ k : Fin 8, v.sockets[k].written = t.sockets[k].written ∧
        ((t.sockets[k].enrolled b).st ≠ .repaying → v.sockets[k] = t.sockets[k].enrolled b) := by
  have size : t.imageSize = b.imageSize.toNat := by simp only [State.imageSize, h.body]
  obtain ⟨alone, sockets⟩ := enrollReady_spec st size
  have lists (k : Fin 8) : (enrollReady t).sockets[k].written = t.sockets[k].written ∧
      (enrollReady t).sockets[k].owed = t.sockets[k].owed := by
    rw [sockets]
    exact enrolled_lists ..
  obtain ⟨base, next, -⟩ := h.window
  have rv := h.rv
  obtain ⟨win, record, rv', port, -⟩ := alone.frame
  have before' : ¬ ((enrollReady t).job.source = true ∧ (enrollReady t).job.st.sourced = true ∧
      (enrollReady t).win.base < (enrollReady t).candidateBase) := by
    rintro ⟨source, -, rises⟩
    have le := candidateBase_le (enrollReady t)
    have mark : (enrollReady t).sendMark = t.sendMark := by rw [State.sendMark, port, win, State.sendMark]
    have zero := start (by rw [← record]; exact source)
    omega
  have size' : (enrollReady t).imageSize = b.imageSize.toNat := by
    rw [← size, State.imageSize, record]
    rfl
  obtain ⟨moved, final⟩ := moveAll_fresh (s := enrollReady t) (fun k => ((lists k).2).trans (clean k))
    (by rw [win, base, size']; exact Ne.symm image)
  refine ⟨forSockets moveOn (enrollReady t), ?_, alone.trans moved, fun k => ?_⟩
  · obtain ⟨win', -, rv'', -⟩ := moved.frame
    rw [settle, settleBase_same before', ownRequests_start (by rw [win', win, base]),
      withdrawRequest_idle (by rw [rv'', rv', rv]; rfl)]
  · obtain ⟨written, same⟩ := final k
    refine ⟨written.trans (lists k).1, fun st => ?_⟩
    rw [← sockets] at st ⊢
    exact same st

/-- The HOLD output of a station in ACTIVE with no loss (R131, R132). -/
theorem judgeHold_lossless {s : State} (active : s.ident.mode = .active) (loss : s.pacing.loss.cond = false) :
    (judgeHold s).pacing.loss = s.pacing.loss ∧
      (s.job.st = .enrolling → (∃ k : Fin 8, s.sockets[k].st = .preparing) → s.pacing.hold = .released →
        (judgeHold s).pacing.hold = .asserted ∧ (judgeHold s).pacing.holdTimer = some (2000 * Config.ms)) ∧
      (¬ (s.job.st = .enrolling ∧ ∃ k : Fin 8, s.sockets[k].st = .preparing) →
        (judgeHold s).pacing.hold = .released ∧ (judgeHold s).pacing.holdTimer = none) := by
  refine ⟨(judgeHold_pacing s).1, fun enrolling preparing released => ?_, fun none' => ?_⟩
  · rw [judgeHold_asserts (holdDemand_iff.2 ⟨active, .inl ⟨enrolling, preparing⟩⟩) released]
    exact ⟨rfl, rfl⟩
  · rw [judgeHold_releases]
    · exact ⟨rfl, rfl⟩
    · refine Bool.eq_false_iff.2 fun demand => ?_
      obtain ⟨-, cause | lossy⟩ := holdDemand_iff.1 demand
      · exact none' cause
      · exact absurd (loss.symm.trans lossy) nofun

end Sys2Proof.Machine
end

section
/-! SUPPORT. A valid JOB frame adopted at a sink and at the source (spec/03_jobs.md, R45, R46, R52). -/
namespace Sys2Proof.Machine
open Sys2Proof.Safety

theorem judgeJob_imageSize {job : Word16} {b : JobBody} (valid : judgeJob job b = none) : b.imageSize.toNat ≠ 0 := fun zero => by
  rw [judgeJob_eq, if_pos (.inl zero)] at valid
  cases valid

namespace Adopted

variable {job : Word16} {b : JobBody} {s t : State}

theorem alone (h : Adopted job b s t) {u : State} (alone : SocketsAlone t u)
    (marks : ∀ k : Fin 8, u.sockets[k].written = t.sockets[k].written) : Adopted job b s u := by
  obtain ⟨v, rfl⟩ := alone
  exact h.sockets rfl marks

theorem judgeHold (h : Adopted job b s t) : Adopted job b s (judgeHold t) := by
  obtain ⟨o, timer, eq⟩ := judgeHold_frame t
  rw [eq]
  exact h.pacing _

theorem takeHandoff (h : Adopted job b s t) (o : Owner) (x : Byte) (j : Word16) (f : FrameBody) :
    Adopted job b s (takeHandoff o x j f t) := h.port _ ⟨rfl, rfl, rfl, rfl, rfl⟩

end Adopted

/-- A socket at the end of the step, by its state at the adoption of the blocks. -/
theorem enrolled_cases {b : JobBody} {sk after : Socket} (h : (sk.enrolled b).st ≠ .repaying → after = sk.enrolled b) :
    (sk.st ≠ .ready → sk.st ≠ .repaying → after = sk) ∧
      (sk.st = .ready →
        (b.enrollClosed = 0 → b.imageSize.toNat * 64 ≤ sk.capacity.getD 0 →
          after = { sk with st := .preparing, reason := .none, cmd := some (Command.first .blanking) }) ∧
        (b.enrollClosed = 0 → ¬ b.imageSize.toNat * 64 ≤ sk.capacity.getD 0 →
          after = { sk with st := .rejected, reason := .tooSmall }) ∧
        (b.enrollClosed ≠ 0 → after = { sk with st := .waiting, reason := .none })) := by
  refine ⟨fun unready st => ?_, fun ready => ⟨fun opened fits => ?_, fun opened small => ?_, fun closed => ?_⟩⟩
  · rw [enrolled_other unready] at h
    exact h st
  · rw [enrolled_fits ready opened fits] at h
    exact h (by simp)
  · rw [enrolled_small ready opened small] at h
    exact h (by simp)
  · rw [enrolled_late ready closed] at h
    exact h (by simp)

/-! ### At a sink -/

section Sink

variable {job : Word16} {b : JobBody} {s : State}

/-- The station when its blocks are adopted at a sink. -/
def adoptSink (job : Word16) (b : JobBody) (s : State) : State :=
  updJob (fun j => { j with orphanTimer := some Config.orphanSpan }) (adoptBlocks job b s)

theorem adopt_sink (other : b.srcStation.toNat ≠ s.ident.station.toNat) :
    adopt job b s = enrollReady (adoptSink job b s) := by
  have other' : ¬ b.srcStation.toNat = (adoptBlocks job b s).ident.station.toNat := by
    rw [adoptBlocks_ident.1]
    exact other
  unfold adopt
  exact if_neg other'

theorem adoptSink_spec (outside : s.job.st.working = false) : Adopted job b s (adoptSink job b s) ∧
    (adoptSink job b s).job = { Job.adopted job b s.job with orphanTimer := some Config.orphanSpan } ∧
    (adoptSink job b s).pacing = { s.pacing with loss := lossOf b } ∧ (adoptSink job b s).ident = s.ident ∧
    (adoptSink job b s).roster = s.roster ∧ (adoptSink job b s).port.cancels = s.port.cancels ∧
    ∀ k : Fin 8, (adoptSink job b s).sockets[k] = s.sockets[k].relieved.adopted b := by
  have adopted := adoptBlocks_adopted (job := job) (b := b) outside
  have record := adoptBlocks_job (job := job) (b := b) (s := s)
  have pacing := adoptBlocks_pacing (job := job) (b := b) outside
  have ident := adoptBlocks_ident (job := job) (b := b) (s := s)
  have port := adoptBlocks_port (job := job) (b := b) (s := s)
  have sockets := adoptBlocks_socket (job := job) (b := b) outside
  unfold adoptSink
  generalize adoptBlocks job b s = u at *
  refine ⟨adopted.record _ fun _ => ⟨rfl, rfl, rfl, rfl, rfl, rfl, rfl, rfl⟩, ?_, pacing, ident.1, ident.2, ?_, sockets⟩
  · rw [← record]
    rfl
  · exact (congrArg Port.cancels port).trans rfl

/-- The station as the finishing check of the step finds it. -/
theorem settle_sink (outside : s.job.st.working = false) (valid : judgeJob job b = none)
    (other : b.srcStation.toNat ≠ s.ident.station.toNat) (before : Bool) :
    ∃ v : State, settle before (adopt job b s) = judgeHold (judgeFinish before v) ∧ SocketsAlone (adoptSink job b s) v ∧
      ∀ k : Fin 8, v.sockets[k].written = (adoptSink job b s).sockets[k].written ∧
        (((s.sockets[k].relieved.adopted b).enrolled b).st ≠ .repaying →
          v.sockets[k] = (s.sockets[k].relieved.adopted b).enrolled b) := by
  obtain ⟨adopted, record, -, -, -, -, sockets⟩ := adoptSink_spec (job := job) (b := b) outside
  obtain ⟨v, eq, alone, final⟩ := settle_enrolled adopted (judgeJob_imageSize valid) (by rw [record]; rfl)
    (fun k => by rw [sockets]; rfl) (fun source => by rw [record] at source; cases source) before
  refine ⟨v, by rw [adopt_sink other, eq], alone, fun k => ?_⟩
  obtain ⟨written, same⟩ := final k
  rw [sockets] at same
  exact ⟨written, same⟩

/-- The source's entry shows this job FINISHED where the finishing check holds at a sink that has just adopted it. -/
theorem sinkDone_entry {v : State} {x : Fin 32} {before : Bool} (adopted : Adopted job b s v) (sink : v.job.source = false)
    (station : b.srcStation.toNat = x.val) (other : x ≠ v.own)
    (due : v.sourceDone = true ∨ (v.settled ≠ before ∧ v.sinkDone = true)) :
    v.roster[x].st = .present ∧ v.roster[x].job = job ∧ v.roster[x].digest = b.digest ∧ v.roster[x].jobState = 4 := by
  obtain ⟨source, -⟩ | ⟨-, -, -, -, b', x', body, station', same, code⟩ := (judgeFinish_due_iff before v).1 due
  · exact absurd (sink.symm.trans source) nofun
  · obtain rfl : b = b' := Option.some.inj (adopted.body.symm.trans body)
    obtain rfl : x = x' := Fin.ext (station.symm.trans station')
    have entry : v.entry x = v.roster[x] := if_neg other
    rw [entry] at same code
    obtain ⟨present, number, digest⟩ := sameJob_iff.1 same
    exact ⟨present, (Option.some.inj (adopted.number.symm.trans number)).symm,
      (Option.some.inj (adopted.digest.symm.trans digest)).symm, code⟩

/-- The end of the step, whether the job ends with it or not. -/
theorem judgeFinish_sink {v : State} (before : Bool) (adopted : Adopted job b s v) (sink : v.job.source = false)
    (working : v.job.st.working = true) (cancels : v.port.cancels = s.port.cancels) :
    Adopted job b s (judgeFinish before v) ∧ (judgeFinish before v).job.source = false ∧
      (judgeFinish before v).port.cancels = s.port.cancels := by
  unfold judgeFinish
  split_ifs
  · obtain ⟨-, -, record, -⟩ := enterFinished_torn v
    refine ⟨adopted.ended .finished .sourceLost rfl rfl (by decide) (not_idle working), ?_,
      (enterFinished_cancels v).trans cancels⟩
    rw [record]
    rfl
  · exact ⟨adopted, sink, cancels⟩

theorem startState_working (b : JobBody) : (startState b).working = true := by
  unfold startState
  split_ifs
  all_goals rfl

end Sink

/-- Settles O17: the blocks adopted, the READY sockets placed, and a finishing check that only a FINISHED source makes hold. -/
theorem validJobIsAdoptedAtASink : Obligations.ValidJobIsAdoptedAtASink := by
  unfold Obligations.ValidJobIsAdoptedAtASink
  intro sender job b s x up active free valid station notOwn monitor emptied fits
  obtain ⟨judged, outside⟩ := takeJob_judged (b := b) free
  have other : b.srcStation.toNat ≠ s.ident.station.toNat := fun same =>
    notOwn (Fin.ext (station.symm.trans same))
  have taken : takeJob job b s = adopt job b s := by rw [judged, judgeAdoption, valid]
  obtain ⟨v, settled, alone, sockets⟩ := settle_sink outside valid other s.settled
  obtain ⟨start, record, pacing, ident, roster, cancels, -⟩ := adoptSink_spec (job := job) (b := b) outside
  obtain ⟨-, record', -, port', pacing', ident', roster'⟩ := alone.frame
  have adopted : Adopted job b s v := start.alone alone fun k => (sockets k).1
  have jobEq : v.job = { Job.adopted job b s.job with orphanTimer := some Config.orphanSpan } := record'.trans record
  have jobState : v.job.st = startState b := by rw [jobEq]; rfl
  obtain ⟨final, sink, cancels'⟩ := judgeFinish_sink s.settled adopted (by rw [jobEq]; rfl)
    (by rw [jobState]; exact startState_working b) ((congrArg Port.cancels port').trans cancels)
  refine ⟨_, exec_jobArrival_active up active, ?_⟩
  rw [taken, settled]
  have whole := final.judgeHold.takeHandoff .jobController sender job (.job b)
  obtain ⟨base, next, readMark, highestNew, table⟩ := whole.window
  obtain ⟨jobRepeat, class4, class5, class6, class7⟩ := whole.classes
  have held : (judgeHold (judgeFinish s.settled v)).job.source = false ∧
      (judgeHold (judgeFinish s.settled v)).port.cancels = s.port.cancels := by
    obtain ⟨o, timer, eq⟩ := judgeHold_frame (judgeFinish s.settled v)
    rw [eq]
    exact ⟨sink, cancels'⟩
  refine ⟨whole.number, whole.body, whole.digest, whole.lastAdopted, whole.refusal, held.1, whole.patches ▸ patchTable_perm b,
    whole.patches ▸ patchTable_strict valid, base, next, readMark, highestNew, table, whole.slots, whole.repair, whole.rv,
    held.2, jobRepeat, class4, class5, class6, class7, whole.written, fun unfinished => ?_⟩
  have kept : judgeFinish s.settled v = v := if_neg fun due => unfinished (by
    have own : v.own = s.own := by rw [State.own, ident', ident, State.own]
    have entry := sinkDone_entry adopted (by rw [jobEq]; rfl) station (own ▸ notOwn) due
    rwa [roster', roster] at entry)
  have lossless : v.pacing = { s.pacing with loss := lossOf b } := pacing'.trans pacing
  obtain ⟨loss, asserts, releases⟩ := judgeHold_lossless (s := v) (by rw [ident', ident, active]) (by rw [lossless]; rfl)
  obtain ⟨o, timer, eq⟩ := judgeHold_frame v
  have same : (judgeHold v).job = v.job ∧ (judgeHold v).sockets = v.sockets := by
    rw [eq]
    exact ⟨rfl, rfl⟩
  rw [kept, takeHandoff_job, takeHandoff_sockets, takeHandoff_pacing, same.1, same.2]
  have result (k : Fin 8) := (sockets k).2
  refine ⟨jobState, by rw [jobEq]; rfl, by rw [jobEq]; rfl, by rw [jobEq]; rfl, fun k unbound calm => ?_, fun k bound => ?_,
    ?_, ?_, releases⟩
  · have cases' := enrolled_cases (result k)
    rw [relieved_unbound unbound] at cases'
    obtain ⟨other, ready⟩ := cases'
    refine ⟨fun unready => other unready fun repaying => ?_, fun st => (ready st).1, fun st => (ready st).2.1,
      fun st => (ready st).2.2⟩
    have st : s.sockets[k].st = .repaying := repaying
    rw [st] at calm
    cases calm
  · have cases' := enrolled_cases (result k)
    rw [relieved_ready bound] at cases'
    obtain ⟨large, small, late⟩ := cases'.2 rfl
    have exit : v.sockets[k].exit = none := by
      by_cases opened : b.enrollClosed = 0
      · by_cases size : fits k
        · rw [large opened size]; rfl
        · rw [small opened size]; rfl
      · rw [late opened]; rfl
    refine ⟨exit, fun opened size => ?_, fun opened size => ?_, fun closed => ?_⟩
    · rw [large opened size]; exact ⟨rfl, rfl⟩
    · rw [small opened size]; exact ⟨rfl, rfl⟩
    · rw [late closed]
  · rw [loss, lossless]
    rfl
  · rw [lossless] at asserts
    exact asserts

end Sys2Proof.Machine
end

section
/-! SUPPORT. A valid JOB frame adopted at the source it names (spec/03_jobs.md, R45, R46, R52). -/
namespace Sys2Proof.Machine
open Sys2Proof.Safety

/-! ### Master read flags (R69, R151) -/

/-- No master read flag is set. -/
structure FlagsFall (s t : State) : Prop where
  off : ∀ id, (s.slot id).masterRead = false → (t.slot id).masterRead = false

namespace FlagsFall

variable {s t u : State}

theorem refl (s : State) : FlagsFall s s := ⟨fun _ h => h⟩
theorem trans (h : FlagsFall s t) (g : FlagsFall t u) : FlagsFall s u := ⟨fun id f => g.off id (h.off id f)⟩
theorem after (g : FlagsFall t u) (h : FlagsFall s t) : FlagsFall s u := h.trans g
theorem kept (h : SlotsKept s t) : FlagsFall s t := ⟨fun id f => (h id).masterRead.trans f⟩
theorem socket (k : Fin 8) (f : Socket → Socket) (s : State) : FlagsFall s (updSocket k f s) :=
  ⟨fun id h => by rwa [updSocket_slot]⟩

theorem each (f : Fin 8 → State → State) (h : ∀ k s, FlagsFall s (f k s)) (s : State) : FlagsFall s (forSockets f s) :=
  forEach_keeps refl trans allSockets f h s

end FlagsFall

theorem endMasterRead_flag (dst : SlotId) (s : State) : ((endMasterRead dst s).slot dst).masterRead = false := by
  rw [endMasterRead_slot]
  split_ifs
  all_goals rfl

theorem endMasterRead_flags (dst : SlotId) (s : State) : FlagsFall s (endMasterRead dst s) := by
  refine ⟨fun id h => ?_⟩
  by_cases same : id = dst
  · rw [same]
    exact endMasterRead_flag dst s
  · have other : (endMasterRead dst s).slot id = s.slot id := updSlot_other same ..
    rw [other, h]

theorem endWrite_flags (src : SlotId) (s : State) : FlagsFall s (endWrite src s) :=
  .after (.kept (settleSlot_kept src _)) (.kept (updSlot_kept src _ s ⟨rfl, rfl, rfl, fun _ => rfl⟩))

theorem abandonCommand_flags (k : Fin 8) (s : State) : FlagsFall s (abandonCommand k s) := by
  by_cases write : ∃ c seg src x, s.sockets[k].cmd = some c ∧ c.purpose = .descriptor seg src x
  · obtain ⟨c, seg, src, x, cmd, purpose⟩ := write
    rw [abandonWrite_eq k s cmd purpose]
    exact .after (endWrite_flags src _) (.socket ..)
  by_cases read : ∃ c seg dst, s.sockets[k].cmd = some c ∧ c.purpose = .master seg dst
  · obtain ⟨c, seg, dst, cmd, purpose⟩ := read
    rw [abandonRead_eq cmd purpose]
    exact .after (endMasterRead_flags dst _) (.socket ..)
  · rw [abandonOther_eq fun c cmd => ⟨fun seg src x p => write ⟨c, seg, src, x, cmd, p⟩,
      fun seg dst p => read ⟨c, seg, dst, cmd, p⟩⟩]
    exact .socket ..

theorem failSocket_flags (k : Fin 8) (r : Reason) (s : State) : FlagsFall s (failSocket k r s) := by
  by_cases failed : s.sockets[k].st = .failed
  · rw [(failSocket_spec k r s).1 failed]
    exact .refl s
  · exact .kept ((failSocket_spec k r s).2 failed).1

theorem takeTarget_flags (k : Fin 8) (x : ExitTarget) (s : State) : FlagsFall s (takeTarget k x s) := by
  cases x with
  | waiting => rw [takeTarget_waiting]; exact .socket ..
  | ready => rw [takeTarget_ready]; exact .socket ..
  | sourceLost => rw [takeTarget_sourceLost]; exact .after (failSocket_flags ..) (.socket ..)

theorem endDiscarded_flags (k : Fin 8) (s : State) : FlagsFall s (endDiscarded k s) := by
  cases h : s.sockets[k].exit with
  | none =>
    have same : endDiscarded k s = abandonCommand k s := by simp only [endDiscarded, h]
    rw [same]
    exact abandonCommand_flags k s
  | some x =>
    rw [endDiscarded_eq h]
    exact .after (takeTarget_flags ..) (abandonCommand_flags k s)

theorem giveExit_flags (k : Fin 8) (x : ExitTarget) (s : State) : FlagsFall s (giveExit k x s) := by
  cases cmd : s.sockets[k].cmd with
  | none =>
    rw [giveExit_idle cmd]
    exact takeTarget_flags ..
  | some c =>
    rw [giveExit_some cmd]
    split_ifs
    · exact .after (takeTarget_flags ..) (abandonCommand_flags k s)
    · exact .socket ..

theorem teardown_blocks (f : Job → Job) (s : State) : teardown f s =
    updPort Port.jobEnded (updRv (fun _ => Recall.reset) (updWin Window.jobEnded (updRepair (fun _ => Repair.empty)
      (forSockets (fun k => updSocket k Socket.jobEnded)
        (forSockets emptyRing (updPacing (fun _ => Pacing.reset) (updJob f s))))))) := rfl

/-- The end of a job sets no flag. -/
theorem endJob_flags (f : Job → Job) (x : ExitTarget) (s : State) : FlagsFall s (exitSockets x (teardown f s)) := by
  have exits (t : State) : FlagsFall t (exitSockets x t) := by
    refine .each _ (fun k u => ?_) t
    repeat' split
    · exact giveExit_flags ..
    · exact giveExit_flags ..
    · exact .socket ..
    · exact .refl u
  have rings : FlagsFall s (forSockets (fun k => updSocket k Socket.jobEnded)
      (forSockets emptyRing (updPacing (fun _ => Pacing.reset) (updJob f s)))) :=
    .after (.each _ (fun k u => .socket ..) _)
      (.after (.each _ (fun k u => .kept (emptyRing_spec k u).1) _) (.kept fun id => .refl _))
  refine .after (exits _) ?_
  rw [teardown_blocks]
  refine rings.trans ?_
  generalize forSockets (fun k => updSocket k Socket.jobEnded) _ = u
  refine ⟨fun id h => ?_⟩
  have slot : (updPort Port.jobEnded (updRv (fun _ => Recall.reset) (updWin Window.jobEnded
      (updRepair (fun _ => Repair.empty) u)))).slot id = (updWin Window.jobEnded u).slot id := by cases id <;> rfl
  rw [slot, jobEnded_slot]
  exact h

/-- The end of a master read with its result discarded clears the flag (R69). -/
theorem endDiscarded_flag {s : State} {j : Fin 8} {c : Command} {seg : Nat} {dst : SlotId}
    (bound : s.sockets[j].exit.isSome = true) (cmd : s.sockets[j].cmd = some c) (purpose : c.purpose = .master seg dst) :
    ((endDiscarded j s).slot dst).masterRead = false := by
  obtain ⟨x, h⟩ := Option.isSome_iff_exists.1 bound
  rw [endDiscarded_eq h]
  refine (takeTarget_flags j x _).off dst ?_
  rw [abandonRead_eq cmd purpose]
  exact endMasterRead_flag ..

theorem adopted_exit (b : JobBody) (sk : Socket) : (sk.adopted b).exit = sk.exit := rfl

theorem takeExits_exit (b : JobBody) {s : State} (outside : s.job.st.working = false) (k : Fin 8) :
    (takeExits s).sockets[k].exit = none := by
  rw [← adopted_exit b, (takeExits_spec b outside).2 k, adopted_exit]
  exact (relieved_kept s.sockets[k]).2.2.1

/-- The master reads that the taking of exits abandons leave no flag. -/
theorem takeExits_flag (b : JobBody) {s : State} (outside : s.job.st.working = false) {j : Fin 8} {c : Command}
    {seg : Nat} {dst : SlotId} (bound : s.sockets[j].exit.isSome = true) (cmd : s.sockets[j].cmd = some c)
    (purpose : c.purpose = .master seg dst) :
    ((takeExits s).slot dst).masterRead = false := by
  have step (k : Fin 8) (t : State) (h : t.sockets[j] = s.sockets[j] ∨ (t.slot dst).masterRead = false) :
      let u := doIf t.sockets[k].exit.isSome (endDiscarded k) t
      u.sockets[j] = s.sockets[j] ∨ (u.slot dst).masterRead = false := by
    refine doIf_inv (P := fun u => u.sockets[j] = s.sockets[j] ∨ (u.slot dst).masterRead = false) _ _ t (fun h => ?_) h
    obtain same | off := h
    · by_cases mine : k = j
      · subst mine
        rw [← same] at bound cmd
        exact .inr (endDiscarded_flag bound cmd purpose)
      · exact .inl ((endDiscarded_only k t j (Ne.symm mine)).trans same)
    · exact .inr ((endDiscarded_flags k t).off dst off)
  obtain same | off := forSockets_inv (P := fun u => u.sockets[j] = s.sockets[j] ∨ (u.slot dst).masterRead = false)
    (fun k t => doIf t.sockets[k].exit.isSome (endDiscarded k) t) step s (.inl rfl)
  · have exit := takeExits_exit b outside j
    rw [takeExits, same] at exit
    rw [exit] at bound
    cases bound
  · exact off

/-- So does the adoption of the blocks. -/
theorem adoptBlocks_flag {job : Word16} (b : JobBody) {s : State} (outside : s.job.st.working = false) {j : Fin 8} {c : Command}
    {seg : Nat} {dst : SlotId} (bound : s.sockets[j].exit.isSome = true) (cmd : s.sockets[j].cmd = some c)
    (purpose : c.purpose = .master seg dst) : ((adoptBlocks job b s).slot dst).masterRead = false := by
  rw [adoptBlocks_slot]
  have sockets : FlagsFall (takeExits s) (adoptSockets b s) := .each _ (fun k u => .socket k _ u) _
  exact sockets.off dst (takeExits_flag b outside bound cmd purpose)

/-! ### The sockets of the source -/

section Sockets

variable {b : JobBody} {sk : Socket}

/-- A socket emptied at adoption, its exit gone and the command of an exit with it (R45, R151). -/
def Socket.emptied (b : JobBody) (sk : Socket) : Socket :=
  { sk.adopted b with exit := none, cmd := if sk.exit.isSome then none else sk.cmd }

theorem relieved_adopted (b : JobBody) (sk : Socket) :
    sk.relieved.adopted b = { sk.emptied b with st := sk.relieved.st, reason := sk.relieved.reason } := by
  obtain ⟨st, reason, capacity, cmd, attachTimer, exit, ring, written, tie, lag, owed, recheck, passCount, passList, cursor,
    expect⟩ := sk
  cases exit with
  | none => rfl
  | some x =>
    cases x with
    | ready => rfl
    | waiting => rfl
    | sourceLost => cases st <;> rfl

theorem relieved_st_ready_iff : sk.relieved.st = .ready ↔ (sk.exit = none ∧ sk.st = .ready) ∨ sk.exit = some .ready := by
  cases h : sk.exit with
  | none => simp [relieved_unbound h]
  | some x =>
    cases x with
    | ready => simp [relieved_ready h]
    | waiting => simp [relieved_waiting h]
    | sourceLost =>
      by_cases failed : sk.st = .failed
      · simp [relieved_failed h failed, failed]
      · simp [relieved_sourceLost h failed]

/-- An exit leads to READY, WAITING or FAILED. -/
theorem relieved_bound (bound : sk.exit.isSome = true) :
    sk.relieved.st = .ready ∨ sk.relieved.st = .waiting ∨ sk.relieved.st = .failed := by
  obtain ⟨x, h⟩ := Option.isSome_iff_exists.1 bound
  cases x with
  | ready => exact .inl (by rw [relieved_ready h])
  | waiting => exact .inr (.inl (by rw [relieved_waiting h]))
  | sourceLost =>
    by_cases failed : sk.st = .failed
    · exact .inr (.inr (by rw [relieved_failed h failed]; exact failed))
    · exact .inr (.inr (by rw [relieved_sourceLost h failed]))

end Sockets

end Sys2Proof.Machine
end

section
/-! SUPPORT. The source's own adoption: the MASTER socket taken, or the job CANCELLED with its copies to send (spec/03_jobs.md,
R46, R52). -/
namespace Sys2Proof.Machine
open Sys2Proof.Safety

/-! ### The sockets of a job cancelled as it is adopted -/

/-- A command that is no write of a descriptor. -/
def Socket.unwriting (sk : Socket) : Prop := ∀ c seg src x, sk.cmd = some c → c.purpose ≠ .descriptor seg src x

theorem teardown_socket (f : Job → Job) (s : State) (k : Fin 8) :
    ∃ c, (teardown f s).sockets[k] = { s.sockets[k].jobEnded with ring := [], cmd := c } ∧
      (s.sockets[k].unwriting → c = s.sockets[k].cmd) := by
  have rings := (forSockets_each (I := fun _ => True) (Q := fun k sk => ∃ c,
      sk.jobEnded = { s.sockets[k].jobEnded with ring := [], cmd := c } ∧ (s.sockets[k].unwriting → c = s.sockets[k].cmd))
    emptyRing (updPacing (fun _ => Pacing.reset) (updJob f s)) emptyRing_only (fun _ _ _ => trivial)
    (fun k t _ e => ?_) trivial).2 k
  · rw [teardown_blocks]
    rw [← forSockets_updSocket_socket Socket.jobEnded] at rings
    generalize forSockets (fun k => updSocket k Socket.jobEnded) _ = u at rings ⊢
    exact rings
  · obtain ⟨⟨c, eq⟩, -⟩ := emptyRing_socket k t
    obtain ⟨-, -, -, -, same⟩ := emptyRing_spec k t
    have e' : t.sockets[k] = s.sockets[k] := e
    rw [e'] at eq same
    refine ⟨c, by rw [eq]; rfl, fun unwriting => ?_⟩
    have cmd := same unwriting
    rw [eq] at cmd
    exact cmd

theorem exitSockets_calm (x : ExitTarget) (s : State) (k : Fin 8) (calm : s.sockets[k].st.inJob = false)
    (other : s.sockets[k].st ≠ .master) : (exitSockets x s).sockets[k] =
      if s.sockets[k].st = .waiting then { s.sockets[k] with st := .ready, reason := .none } else s.sockets[k] := by
  refine (forSockets_each (I := fun _ => True) (Q := fun k sk => s.sockets[k].st.inJob = false → s.sockets[k].st ≠ .master →
    sk = if s.sockets[k].st = .waiting then { s.sockets[k] with st := .ready, reason := .none } else s.sockets[k]) _ s
    (fun k t => ?_) (fun _ _ _ => trivial) (fun k t _ e calm other => ?_) trivial).2 k calm other
  · repeat' split
    · exact giveExit_only k _ t
    · exact giveExit_only k _ t
    · exact setState_only k _ _ t
    · exact .none k t
  · rw [← e] at calm other ⊢
    rw [if_neg (Bool.eq_false_iff.1 calm), if_neg other]
    split_ifs
    · exact setState_socket ..
    · rfl

/-- A socket that is neither in the job nor MASTER, after a CANCEL. -/
theorem enterCancelled_socket (s : State) (k : Fin 8) (calm : s.sockets[k].st.inJob = false)
    (other : s.sockets[k].st ≠ .master) :
    let after := (enterCancelled s).sockets[k]
    after = { s.sockets[k].jobEnded with
      ring := [], cmd := after.cmd
      st := if s.sockets[k].st = .waiting then .ready else s.sockets[k].st
      reason := if s.sockets[k].st = .waiting then .none else s.sockets[k].reason } ∧
      (s.sockets[k].unwriting → after.cmd = s.sockets[k].cmd) := by
  obtain ⟨c, torn, cmd⟩ := teardown_socket (Job.ended .cancelled) s k
  have st : (teardown (Job.ended .cancelled) s).sockets[k].st = s.sockets[k].st := by rw [torn]; rfl
  have exits := exitSockets_calm .ready (teardown (Job.ended .cancelled) s) k (by rw [st]; exact calm) (by rw [st]; exact other)
  rw [st, torn] at exits
  have after : (enterCancelled s).sockets[k] = _ := exits
  intro after'
  have eq : after' = _ := after
  rw [eq]
  split_ifs
  · exact ⟨rfl, cmd⟩
  · exact ⟨rfl, cmd⟩

/-- What a CANCEL makes of an adopted socket. -/
def Socket.CancelledFrom (sk after : Socket) : Prop := sk.st.inJob = false → sk.st ≠ .master →
  after = { sk.jobEnded with
    ring := [], cmd := after.cmd
    st := if sk.st = .waiting then .ready else sk.st
    reason := if sk.st = .waiting then .none else sk.reason } ∧
  (sk.unwriting → after.cmd = sk.cmd)

/-- The socket of a job cancelled as it is adopted, by its state and its exit before (R46, R151). -/
theorem adopted_cancelled {b : JobBody} {sk after : Socket} (h : (sk.relieved.adopted b).CancelledFrom after) :
    let left : Socket := { sk.emptied b with tie := .none, lag := Monitor.idle, cmd := after.cmd }
    (sk.exit.isSome → after.cmd = none) ∧
      (sk.unwriting → sk.exit = none → sk.st.inJob = false → sk.st ≠ .master → after.cmd = sk.cmd) ∧
      (sk.exit = none → sk.st.inJob = false → sk.st ≠ .master → sk.st ≠ .waiting → after = left) ∧
      (sk.exit = some .ready ∨ sk.exit = some .waiting ∨ (sk.exit = none ∧ sk.st = .waiting) →
        after = { left with st := .ready, reason := .none }) ∧
      (sk.exit = some .sourceLost → sk.st ≠ .failed → after = { left with st := .failed, reason := .sourceLost }) := by
  rw [relieved_adopted] at h
  refine ⟨fun bound => ?_, fun unwriting unbound calm other => ?_, fun unbound calm other still => ?_, fun frees => ?_,
    fun bound writes => ?_⟩
  · have cmd : ({ sk.emptied b with st := sk.relieved.st, reason := sk.relieved.reason } : Socket).cmd = none := if_pos bound
    have st := relieved_bound bound
    refine ((h ?_ ?_).2 fun c seg src x held => absurd (cmd.symm.trans held) nofun).trans cmd
    · obtain st | st | st := st
      all_goals exact (congrArg SocketState.inJob st).trans rfl
    · obtain st | st | st := st
      all_goals exact fun master => absurd (st.symm.trans master) nofun
  · rw [relieved_unbound unbound] at h
    have cmd : (sk.emptied b).cmd = sk.cmd := if_neg (by rw [unbound]; simp)
    refine ((h calm other).2 fun c seg src x held => unwriting c seg src x (cmd.symm.trans held)).trans cmd
  · rw [relieved_unbound unbound] at h
    have eq := (h calm other).1
    rw [if_neg still, if_neg still] at eq
    exact eq
  · have waits : sk.relieved.st = .waiting ∨ (sk.relieved.st = .ready ∧ sk.relieved.reason = .none) := by
      obtain bound | bound | ⟨unbound, st⟩ := frees
      · exact .inr (by rw [relieved_ready bound]; exact ⟨rfl, rfl⟩)
      · exact .inl (by rw [relieved_waiting bound])
      · exact .inl (by rw [relieved_unbound unbound, st])
    generalize sk.relieved.st = st at h waits
    generalize sk.relieved.reason = reason at h waits
    obtain rfl | ⟨rfl, rfl⟩ := waits
    · exact (h rfl (by simp)).1
    · exact (h rfl (by simp)).1
  · rw [relieved_sourceLost bound writes] at h
    exact (h rfl (by simp)).1

/-! ### The two ends of the source's adoption (R46) -/

/-- A CANCEL started keeps what adoption has stored. -/
theorem Adopted.startCancel {job : Word16} {b : JobBody} {s t : State} (h : Adopted job b s t) (r : Byte) :
    Adopted job b s (startCancel r t) := by
  rw [startCancel_eq h.number]
  have cancelled := h.record
    (fun j => { j with cancel := some { copy := { job := job, reason := r }, left := 2, timer := some Config.tb } })
    fun _ => ⟨rfl, rfl, rfl, rfl, rfl, rfl, rfl, rfl⟩
  exact cancelled.port (fun p => { p with cancels := p.cancels ++ [{ job := job, reason := r }] }) ⟨rfl, rfl, rfl, rfl, rfl⟩

section Source

variable {job : Word16} {b : JobBody} {s : State} {k : Fin 8}

/-- The station when its blocks are adopted and socket `k` is MASTER. -/
def adoptSource (job : Word16) (b : JobBody) (k : Fin 8) (s : State) : State :=
  setState k .master .none (updJob (fun j =>
    { j with source := true, settleTimer := some Config.settleSpan, repeatTimer := some Config.repeatSpan }) (adoptBlocks job b s))

theorem adoptBlocks_master (outside : s.job.st.working = false) (socket : b.srcSocket.toNat = k.val) :
    (adoptBlocks job b s).masterSocket = k := by
  have body := (adoptBlocks_adopted (job := job) (b := b) outside).body
  simp only [State.masterSocket, body, socket]
  exact Fin.ext (Nat.mod_eq_of_lt k.isLt)

/-- The named socket is READY, or bound for it, and large enough. -/
theorem adoptBlocks_takes_iff (outside : s.job.st.working = false) :
    ((adoptBlocks job b s).sockets[k].st = .ready ∧ (adoptBlocks job b s).sockets[k].fits b.imageSize.toNat = true) ↔
      (((s.sockets[k].exit = none ∧ s.sockets[k].st = .ready) ∨ s.sockets[k].exit = some .ready) ∧
        b.imageSize.toNat * 64 ≤ s.sockets[k].capacity.getD 0) := by
  have capacity : (s.sockets[k].relieved.adopted b).capacity = s.sockets[k].capacity := (relieved_kept s.sockets[k]).2.1
  rw [adoptBlocks_socket outside, fits_iff, capacity, ← relieved_st_ready_iff]
  rfl

theorem adopt_source (outside : s.job.st.working = false) (station : b.srcStation.toNat = s.ident.station.toNat)
    (socket : b.srcSocket.toNat = k.val) : adopt job b s =
      if (adoptBlocks job b s).sockets[k].st = .ready ∧ (adoptBlocks job b s).sockets[k].fits b.imageSize.toNat = true then
        enrollReady (adoptSource job b k s)
      else startCancel reasonNotReady (enterCancelled (adoptBlocks job b s)) := by
  have station' : b.srcStation.toNat = (adoptBlocks job b s).ident.station.toNat := by
    rw [adoptBlocks_ident.1]
    exact station
  have master := adoptBlocks_master (job := job) outside socket
  unfold adopt
  dsimp only
  rw [if_pos station']
  subst master
  rfl

/-- No new-data frame stays in hand past the end of a job. -/
theorem jobEnded_newData (tx : Transmitter) : tx.jobEnded.newData = none := by
  cases tx with
  | free => rfl
  | holding h ph =>
    obtain ⟨frame, tag, attempts⟩ := h
    cases tag <;> rfl

theorem adoptSource_spec (outside : s.job.st.working = false) : Adopted job b s (adoptSource job b k s) ∧
    (adoptSource job b k s).job = { Job.adopted job b s.job with
      source := true, settleTimer := some Config.settleSpan, repeatTimer := some Config.repeatSpan } ∧
    (adoptSource job b k s).pacing = { s.pacing with loss := lossOf b } ∧ (adoptSource job b k s).ident = s.ident ∧
    (adoptSource job b k s).port = s.port.jobEnded ∧
    (∀ id, (adoptSource job b k s).slot id = (adoptBlocks job b s).slot id) ∧
    (adoptSource job b k s).sockets[k] = { s.sockets[k].relieved.adopted b with st := .master, reason := .none } ∧
    ∀ j : Fin 8, j ≠ k → (adoptSource job b k s).sockets[j] = s.sockets[j].relieved.adopted b := by
  have adopted := adoptBlocks_adopted (job := job) (b := b) outside
  have record := adoptBlocks_job (job := job) (b := b) (s := s)
  have pacing := adoptBlocks_pacing (job := job) (b := b) outside
  have ident := (adoptBlocks_ident (job := job) (b := b) (s := s)).1
  have port := adoptBlocks_port (job := job) (b := b) (s := s)
  have sockets := adoptBlocks_socket (job := job) (b := b) outside
  unfold adoptSource
  generalize adoptBlocks job b s = u at *
  have roled := adopted.record (fun j =>
    { j with source := true, settleTimer := some Config.settleSpan, repeatTimer := some Config.repeatSpan })
    fun _ => ⟨rfl, rfl, rfl, rfl, rfl, rfl, rfl, rfl⟩
  refine ⟨roled.alone (.socket k _ _) fun j => ?_, ?_, pacing, ident, port, fun id => updSocket_slot .., ?_, fun j other => ?_⟩
  · by_cases mine : j = k
    · rw [mine, setState_socket]
    · rw [setState_only k _ _ _ j mine]
  · rw [← record]
    rfl
  · rw [setState_socket, ← sockets]
    rfl
  · rw [setState_only k _ _ _ j other, ← sockets]
    rfl

/-- The end of the step at the new source: no check is due. -/
theorem settle_source (outside : s.job.st.working = false) (valid : judgeJob job b = none) (before : Bool) :
    ∃ v : State, settle before (enrollReady (adoptSource job b k s)) = judgeHold v ∧ SocketsAlone (adoptSource job b k s) v ∧
      ∀ j : Fin 8, v.sockets[j].written = (adoptSource job b k s).sockets[j].written ∧
        (((adoptSource job b k s).sockets[j].enrolled b).st ≠ .repaying →
          v.sockets[j] = (adoptSource job b k s).sockets[j].enrolled b) := by
  obtain ⟨adopted, record, -, -, port, -, master, others⟩ := adoptSource_spec (job := job) (b := b) (k := k) outside
  have clean (j : Fin 8) : (adoptSource job b k s).sockets[j].owed = [] := by
    by_cases mine : j = k
    · rw [mine, master]
      rfl
    · rw [others j mine]
      rfl
  have mark : (adoptSource job b k s).sendMark = 0 := by
    rw [State.sendMark, port, adopted.window.2.1]
    have none' : s.port.jobEnded.tx.newData = none := jobEnded_newData s.port.tx
    rw [none']
    rfl
  obtain ⟨v, eq, alone, final⟩ := settle_enrolled adopted (judgeJob_imageSize valid) (by rw [record]; rfl) clean
    (fun _ => mark) before
  have record' := alone.frame.2.1.trans record
  have same : judgeFinish before v = v := by
    refine if_neg fun due => ?_
    obtain ⟨-, closing, -⟩ | ⟨sink, -⟩ := (judgeFinish_due_iff before v).1 due
    · rw [record'] at closing
      have st : startState b = .closing := closing
      unfold startState at st
      split_ifs at st
    · rw [record'] at sink
      cases sink
  exact ⟨v, by rw [eq, same], alone, final⟩

end Source

/-- Settles O18: the MASTER socket taken and the others placed, or the CANCEL and the sockets it leaves. -/
theorem validJobIsAdoptedAtTheSource : Obligations.ValidJobIsAdoptedAtTheSource := by
  unfold Obligations.ValidJobIsAdoptedAtTheSource
  intro sender job b s k up active free valid station socket monitor tie lag emptied fits ready still
  obtain ⟨judged, outside⟩ := takeJob_judged (b := b) free
  have taken : takeJob job b s = adopt job b s := by rw [judged, judgeAdoption, valid]
  have takes := adoptBlocks_takes_iff (job := job) (b := b) (s := s) (k := k) outside
  have source := adopt_source (job := job) (b := b) outside station socket
  have flags {j : Fin 8} {c : Command} {seg : Nat} {dst : SlotId} (bound : s.sockets[j].exit.isSome = true)
      (cmd : s.sockets[j].cmd = some c) (purpose : c.purpose = .master seg dst) :=
    adoptBlocks_flag (job := job) b outside bound cmd purpose
  have shape (j : Fin 8) : s.sockets[j].emptied b = emptied j tie lag := rfl
  rw [exec_jobArrival_active up active, taken, source]
  by_cases role : ready k ∧ fits k
  · rw [if_pos (takes.2 role)]
    obtain ⟨v, settled, alone, sockets⟩ := settle_source (k := k) outside valid s.settled
    obtain ⟨start, record, pacing, ident, port, slots, master, others⟩ := adoptSource_spec (job := job) (b := b) (k := k) outside
    obtain ⟨win', record', -, port', pacing', ident', -⟩ := alone.frame
    have adopted : Adopted job b s v := start.alone alone fun j => (sockets j).1
    have whole := adopted.judgeHold.takeHandoff .jobController sender job (.job b)
    obtain ⟨base, next, readMark, highestNew, table⟩ := whole.window
    obtain ⟨jobRepeat, class4, class5, class6, class7⟩ := whole.classes
    have lossless : v.pacing = { s.pacing with loss := lossOf b } := pacing'.trans pacing
    obtain ⟨loss, asserts, releases⟩ := judgeHold_lossless (s := v) (by rw [ident', ident, active]) (by rw [lossless]; rfl)
    have jobEq : v.job = { Job.adopted job b s.job with
      source := true, settleTimer := some Config.settleSpan, repeatTimer := some Config.repeatSpan } := record'.trans record
    have same : (judgeHold v).job = v.job ∧ (judgeHold v).sockets = v.sockets ∧ (judgeHold v).win = v.win ∧
        (judgeHold v).port = v.port := by
      obtain ⟨o, timer, eq⟩ := judgeHold_frame v
      rw [eq]
      exact ⟨rfl, rfl, rfl, rfl⟩
    obtain ⟨sameJob, sameSockets, sameWin, samePort⟩ := same
    refine ⟨_, rfl, ?_⟩
    rw [settled]
    refine ⟨⟨whole.number, whole.body, whole.digest, whole.lastAdopted, whole.refusal, whole.former, whole.confirmed, ?_,
      whole.enrollment⟩, ⟨whole.patches ▸ patchTable_perm b, whole.patches ▸ patchTable_strict valid⟩,
      ⟨base, next, readMark, highestNew, table⟩, whole.slots, fun j c seg dst bound cmd purpose => ?_,
      ⟨whole.repair, whole.rv, jobRepeat, class4, class5, class6, class7⟩, whole.written, fun _ => ?_,
      fun h => absurd role h⟩
    · rw [takeHandoff_job, sameJob, jobEq]
      rfl
    · have slot : (takeHandoff .jobController sender job (.job b) (judgeHold v)).slot dst =
          (adoptSource job b k s).slot dst := by
        cases dst <;> simp only [State.slot, takeHandoff_win, sameWin, win']
      rw [slot, slots]
      exact flags bound cmd purpose
    · rw [takeHandoff_job, takeHandoff_sockets, takeHandoff_pacing, takeHandoff_cancels, sameJob, sameSockets, samePort]
      refine ⟨by rw [jobEq], by rw [jobEq]; rfl, by rw [jobEq]; rfl, by rw [jobEq]; rfl, by rw [jobEq]; rfl,
        by rw [port', port]; rfl, ?_, fun j other => ?_, by rw [loss, lossless]; rfl, by rw [lossless] at asserts; exact asserts,
        releases⟩
      · have done' := (enrolled_cases (sockets k).2).1
        rw [master] at done'
        rw [done' (by simp) (by simp), relieved_adopted]
        rfl
      · have placed := enrolled_cases (sockets j).2
        rw [others j other, relieved_adopted, shape] at placed
        obtain ⟨rests, goes⟩ := placed
        refine ⟨fun ⟨unbound, calm, unready⟩ => ?_, fun up => (goes (relieved_st_ready_iff.2 up)).1,
          fun up => (goes (relieved_st_ready_iff.2 up)).2.1, fun up => (goes (relieved_st_ready_iff.2 up)).2.2,
          fun bound => ?_, fun bound writes => ?_⟩
        · rw [relieved_unbound unbound] at rests
          refine rests unready fun repaying => ?_
          have st : s.sockets[j].st = .repaying := repaying
          rw [st] at calm
          cases calm
        · rw [relieved_waiting bound] at rests
          exact rests (by simp) (by simp)
        · rw [relieved_sourceLost bound writes] at rests
          exact rests (by simp) (by simp)
  · rw [if_neg fun h => role (takes.1 h)]
    have before := adoptBlocks_adopted (job := job) (b := b) outside
    have record := adoptBlocks_job (job := job) (b := b) (s := s)
    have sockets (j : Fin 8) := enterCancelled_socket (adoptBlocks job b s) j
    have port := adoptBlocks_port (job := job) (b := b) (s := s)
    have blocks := adoptBlocks_socket (job := job) (b := b) outside
    have falls := endJob_flags (Job.ended .cancelled) .ready (adoptBlocks job b s)
    have working : (adoptBlocks job b s).job.st ≠ .idle := by
      rw [record]
      exact not_idle (startState_working b)
    have adopted := before.ended .cancelled .ready rfl (by decide) (by decide) working
    change Adopted job b s (enterCancelled (adoptBlocks job b s)) at adopted
    change FlagsFall _ (enterCancelled (adoptBlocks job b s)) at falls
    obtain ⟨down, torn, ended, -⟩ := enterCancelled_torn (adoptBlocks job b s)
    have cancels : (enterCancelled (adoptBlocks job b s)).port.cancels = s.port.cancels := by
      rw [enterCancelled_cancels, port]
      rfl
    have flags' {j : Fin 8} {c : Command} {seg : Nat} {dst : SlotId} (bound : s.sockets[j].exit.isSome = true)
        (cmd : s.sockets[j].cmd = some c) (purpose : c.purpose = .master seg dst) := falls.off dst (flags bound cmd purpose)
    simp only [blocks] at sockets
    rw [record] at ended
    generalize enterCancelled (adoptBlocks job b s) = u at *
    obtain ⟨down', torn'⟩ := startCancel_tornDown (r := reasonNotReady) adopted.number down torn
    rw [settle_tornDown down' torn']
    refine ⟨_, rfl, ?_⟩
    have whole := (adopted.startCancel reasonNotReady).takeHandoff .jobController sender job (.job b)
    obtain ⟨base, next, readMark, highestNew, table⟩ := whole.window
    obtain ⟨jobRepeat, class4, class5, class6, class7⟩ := whole.classes
    have eq := startCancel_eq (r := reasonNotReady) adopted.number
    have slot (id : SlotId) : (takeHandoff .jobController sender job (.job b) (startCancel reasonNotReady u)).slot id =
        u.slot id := by
      rw [eq]
      cases id <;> rfl
    refine ⟨⟨whole.number, whole.body, whole.digest, whole.lastAdopted, whole.refusal, whole.former, whole.confirmed,
      down'.2.2.1, whole.enrollment⟩, ⟨whole.patches ▸ patchTable_perm b, whole.patches ▸ patchTable_strict valid⟩,
      ⟨base, next, readMark, highestNew, table⟩, whole.slots, fun j c seg dst bound cmd purpose => ?_,
      ⟨whole.repair, whole.rv, jobRepeat, class4, class5, class6, class7⟩, whole.written,
      fun h => absurd h role, fun _ => ⟨?_, tornDown_takeHandoff down' .., ?_, ?_, fun j => ?_⟩⟩
    · rw [slot]
      exact flags' bound cmd purpose
    · rw [takeHandoff_job, eq]
      exact (congrArg Job.st ended).trans rfl
    · rw [takeHandoff_cancels, eq, ← cancels]
      rfl
    · rw [takeHandoff_job, eq]
      rfl
    · have same : (takeHandoff .jobController sender job (.job b) (startCancel reasonNotReady u)).sockets = u.sockets := by
        rw [eq]
        rfl
      rw [same]
      obtain ⟨bound, cmd, rests, frees, fails⟩ := adopted_cancelled (sockets j)
      rw [shape] at rests frees fails
      refine ⟨bound, fun unwriting unbound calm other => cmd unwriting unbound calm other, rests, fun h => frees ?_, fails⟩
      exact h.imp_right (Or.imp_right fun ⟨⟨unbound, _⟩, st⟩ => ⟨unbound, st⟩)

end Sys2Proof.Machine
end
